-- ==== Sys2Proof/Word.lean ====
section
/-! DEFINITION. The word types of the block and the names of its flags (00_scope.md R9, R10; 10_state.md R36). -/

namespace Sys2Proof

/-- A byte, 8 bits (R9). -/
abbrev Byte := BitVec 8

/-- A word, 16 bits (R9). -/
abbrev Word := BitVec 16

/-- The operand width `w`: byte or word (R9; the width flag of R122). -/
inductive Width where
  | byte
  | word
deriving DecidableEq, Repr

/-- The named flags of FLAGS (10_state.md R36). -/
inductive Flag where
  | CF | PF | AF | ZF | SF | TF | IF | DF | OF
deriving DecidableEq, Repr

end Sys2Proof
end

