-- ==== Sys2Proof/Syntax.lean ====
section
/-! DEFINITION. The instructions as data: register names, the r/m operand of the Mod-Reg-R/M byte, and the
one inductive `Instr`, with one constructor for each mnemonic and operand form of spec/opcode_table.json.
Rows that differ only in the width bit, the direction bit, the immediate form or the register number of
the opcode byte are one constructor with that difference as a field (notes/assumptions/11.md). -/

namespace Sys2Proof

/-- The general registers by slot number 0 to 7 (10_state.md R30). A 3-bit `reg` or `rm` number is one of
these names; in byte mode the same number names a half of a slot (R31, `Reg8.ofNumber`). -/
inductive Reg16 where
  | ax | cx | dx | bx | sp | bp | si | di
deriving DecidableEq, Repr

/-- The byte registers by number 0 to 7 (10_state.md R31). -/
inductive Reg8 where
  | al | cl | dl | bl | ah | ch | dh | bh
deriving DecidableEq, Repr

/-- The segment registers by index 0 to 3 (10_state.md R34). -/
inductive SegReg where
  | es | cs | ss | ds
deriving DecidableEq, Repr

/-- The eight base and index templates (41_addressing.md R184), by `rm`. -/
inductive EaBase where
  | bxSi | bxDi | bpSi | bpDi | si | di | bp | bx
deriving DecidableEq, Repr

/-- The displacement of a memory form (30_encoding.md R112): none (mod 00), a byte (mod 01) or a word
(mod 10). -/
inductive Disp where
  | none
  | d8 (v : Byte)
  | d16 (v : Word)
deriving DecidableEq, Repr

/-- The r/m operand a Mod-Reg-R/M byte and its displacement name (41_addressing.md R183 to R185). -/
inductive RM where
  /-- mod 11: a register, by number (R183). -/
  | reg (n : Reg16)
  /-- a base and index template with its displacement (R184, R185). -/
  | mem (base : EaBase) (disp : Disp)
  /-- mod 00, rm 110: a direct 16-bit displacement (R184). -/
  | direct (disp : Word)
deriving DecidableEq, Repr

/-- A Mod-Reg-R/M byte with its displacement (30_encoding.md R111). In a demux slot `reg` selects the child, and the
operand cache holds it all the same (10_state.md R43). -/
structure ModRM where
  reg : Reg16
  rm  : RM
deriving DecidableEq, Repr

/-- The direction bit `d` (30_encoding.md R113). -/
inductive Dir where
  /-- d = 0: the r/m operand is the destination. -/
  | toRm
  /-- d = 1: the reg operand is the destination. -/
  | toReg
deriving DecidableEq, Repr

/-- The immediate `Iv`: `Ib` when w = 0 and `Iw` when w = 1 (30_encoding.md R114). -/
inductive Imm where
  | ib (v : Byte)
  | iw (v : Word)
deriving DecidableEq, Repr

/-- The four Grp1 immediate forms (30_encoding.md R132): 80 and 82 `Eb,Ib`, 81 `Ev,Iw`, 83 `Ev,Ib`
sign-extended. -/
inductive GrpImm where
  | ib80 (v : Byte)
  | iw81 (v : Word)
  | ib82 (v : Byte)
  | sx83 (v : Byte)
deriving DecidableEq, Repr

/-- The count of a Grp2 shift (30_encoding.md R134): 1 (D0, D1) or CL (D2, D3). -/
inductive ShiftCount where
  | one
  | cl
deriving DecidableEq, Repr

/-- The eight ALU operations by the code `ooo` (43_alu.md R240). -/
inductive AluOp where
  | add | or | adc | sbb | and | sub | xor | cmp
deriving DecidableEq, Repr

/-- The seven Grp2 operations (30_encoding.md R134). -/
inductive ShiftOp where
  | rol | ror | rcl | rcr | shl | shr | sar
deriving DecidableEq, Repr

/-- The sixteen conditions of Jcc by the field `cccc` (30_encoding.md R113, 45_transfer_control.md R346). -/
inductive Cond where
  | o | no | b | nb | z | nz | be | a | s | ns | p | np | l | nl | le | nle
deriving DecidableEq, Repr

/-- The instructions. Each docstring names the opcodes and the rule of spec/. -/
inductive Instr where
  /-- 00 to 03 (R241, R244). -/
  | addRmReg (d : Dir) (w : Width) (m : ModRM)
  /-- 04, 05 (R242, R244). -/
  | addAccImm (i : Imm)
  /-- 80/0 to 83/0 (R243, R244). -/
  | addRmImm (m : ModRM) (i : GrpImm)
  /-- 08 to 0B (R241, R245). -/
  | orRmReg (d : Dir) (w : Width) (m : ModRM)
  /-- 0C, 0D (R242, R245). -/
  | orAccImm (i : Imm)
  /-- 80/1 to 83/1 (R243, R245). -/
  | orRmImm (m : ModRM) (i : GrpImm)
  /-- 10 to 13 (R241, R246). -/
  | adcRmReg (d : Dir) (w : Width) (m : ModRM)
  /-- 14, 15 (R242, R246). -/
  | adcAccImm (i : Imm)
  /-- 80/2 to 83/2 (R243, R246). -/
  | adcRmImm (m : ModRM) (i : GrpImm)
  /-- 18 to 1B (R241, R247). -/
  | sbbRmReg (d : Dir) (w : Width) (m : ModRM)
  /-- 1C, 1D (R242, R247). -/
  | sbbAccImm (i : Imm)
  /-- 80/3 to 83/3 (R243, R247). -/
  | sbbRmImm (m : ModRM) (i : GrpImm)
  /-- 20 to 23 (R241, R248). -/
  | andRmReg (d : Dir) (w : Width) (m : ModRM)
  /-- 24, 25 (R242, R248). -/
  | andAccImm (i : Imm)
  /-- 80/4 to 83/4 (R243, R248). -/
  | andRmImm (m : ModRM) (i : GrpImm)
  /-- 28 to 2B (R241, R249). -/
  | subRmReg (d : Dir) (w : Width) (m : ModRM)
  /-- 2C, 2D (R242, R249). -/
  | subAccImm (i : Imm)
  /-- 80/5 to 83/5 (R243, R249). -/
  | subRmImm (m : ModRM) (i : GrpImm)
  /-- 30 to 33 (R241, R250). -/
  | xorRmReg (d : Dir) (w : Width) (m : ModRM)
  /-- 34, 35 (R242, R250). -/
  | xorAccImm (i : Imm)
  /-- 80/6 to 83/6 (R243, R250). -/
  | xorRmImm (m : ModRM) (i : GrpImm)
  /-- 38 to 3B (R241, R251). -/
  | cmpRmReg (d : Dir) (w : Width) (m : ModRM)
  /-- 3C, 3D (R242, R251). -/
  | cmpAccImm (i : Imm)
  /-- 80/7 to 83/7 (R243, R251). -/
  | cmpRmImm (m : ModRM) (i : GrpImm)
  /-- 84, 85 (R253). -/
  | testRmReg (w : Width) (m : ModRM)
  /-- A8, A9 (R254). -/
  | testAccImm (i : Imm)
  /-- F6/0, F7/0 (R255). -/
  | testRmImm (m : ModRM) (i : Imm)
  /-- 40 to 47 (R256). -/
  | incReg (r : Reg16)
  /-- FE/0, FF/0 (R258). -/
  | incRm (w : Width) (m : ModRM)
  /-- 48 to 4F (R257). -/
  | decReg (r : Reg16)
  /-- FE/1, FF/1 (R259). -/
  | decRm (w : Width) (m : ModRM)
  /-- F6/2, F7/2 (R260). -/
  | notRm (w : Width) (m : ModRM)
  /-- F6/3, F7/3 (R261). -/
  | negRm (w : Width) (m : ModRM)
  /-- 50 to 57 (R292). -/
  | pushReg (r : Reg16)
  /-- 06, 0E, 16, 1E (R294). -/
  | pushSeg (r : SegReg)
  /-- FF/6 (R296). -/
  | pushRm (m : ModRM)
  /-- 58 to 5F (R293). -/
  | popReg (r : Reg16)
  /-- 07, 17, 1F (R295); there is no POP CS. -/
  | popSeg (r : SegReg)
  /-- 8F/0 (R297). -/
  | popRm (m : ModRM)
  /-- 9C (R298). -/
  | pushf
  /-- 9D (R299). -/
  | popf
  /-- CC (R302). -/
  | int3
  /-- CD (R303). -/
  | int (n : Byte)
  /-- CE (R304). -/
  | into
  /-- CF (R305). -/
  | iret
  /-- F4 (R306). -/
  | hlt
  /-- 88 to 8B (R330). -/
  | movRmReg (d : Dir) (w : Width) (m : ModRM)
  /-- C6/0, C7/0 (R331). -/
  | movRmImm (m : ModRM) (i : Imm)
  /-- 8C (R332); `m.reg` is a segment index. -/
  | movRmSeg (m : ModRM)
  /-- 8E (R333); `m.reg` is a segment index. -/
  | movSegRm (m : ModRM)
  /-- A0 to A3 (R334); `toReg` is A0, A1 and `toRm` is A2, A3. -/
  | movMoffs (d : Dir) (w : Width) (off : Word)
  /-- B0 to BF (R335); `r` is the register number of the opcode byte. -/
  | movRegImm (r : Reg16) (i : Imm)
  /-- 8D (R336). -/
  | lea (m : ModRM)
  /-- C5 (R337). -/
  | lds (m : ModRM)
  /-- C4 (R338). -/
  | les (m : ModRM)
  /-- 86, 87 (R339). -/
  | xchgRmReg (w : Width) (m : ModRM)
  /-- 91 to 97 (R340). -/
  | xchgAcc (r : Reg16)
  /-- 90, XCHG AX,AX (R340). -/
  | nop
  /-- 98 (R341). -/
  | cbw
  /-- 99 (R342). -/
  | cwd
  /-- 9F (R343). -/
  | lahf
  /-- 9E (R344). -/
  | sahf
  /-- D7 (R345). -/
  | xlat
  /-- 70 (R347). -/
  | jo (disp : Byte)
  /-- 71 (R348). -/
  | jno (disp : Byte)
  /-- 72 (R349). -/
  | jb (disp : Byte)
  /-- 73 (R350). -/
  | jnb (disp : Byte)
  /-- 74 (R351). -/
  | jz (disp : Byte)
  /-- 75 (R352). -/
  | jnz (disp : Byte)
  /-- 76 (R353). -/
  | jbe (disp : Byte)
  /-- 77 (R354). -/
  | ja (disp : Byte)
  /-- 78 (R355). -/
  | js (disp : Byte)
  /-- 79 (R356). -/
  | jns (disp : Byte)
  /-- 7A (R357). -/
  | jp (disp : Byte)
  /-- 7B (R358). -/
  | jnp (disp : Byte)
  /-- 7C (R359). -/
  | jl (disp : Byte)
  /-- 7D (R360). -/
  | jnl (disp : Byte)
  /-- 7E (R361). -/
  | jle (disp : Byte)
  /-- 7F (R362, JG). -/
  | jnle (disp : Byte)
  /-- EB (R363). -/
  | jmpShort (disp : Byte)
  /-- E9 (R364). -/
  | jmpNear (disp : Word)
  /-- EA (R365). -/
  | jmpFar (off seg : Word)
  /-- FF/4 (R366). -/
  | jmpRm (m : ModRM)
  /-- FF/5 (R367). -/
  | jmpFarMem (m : ModRM)
  /-- E8 (R368). -/
  | callNear (disp : Word)
  /-- 9A (R369). -/
  | callFar (off seg : Word)
  /-- FF/2 (R370). -/
  | callRm (m : ModRM)
  /-- FF/3 (R371). -/
  | callFarMem (m : ModRM)
  /-- C3 (R372). -/
  | ret
  /-- C2 (R373). -/
  | retImm (n : Word)
  /-- CB (R374). -/
  | retf
  /-- CA (R375). -/
  | retfImm (n : Word)
  /-- E2 (R376). -/
  | loop (disp : Byte)
  /-- E1 (R377). -/
  | loopz (disp : Byte)
  /-- E0 (R378). -/
  | loopnz (disp : Byte)
  /-- E3 (R379). -/
  | jcxz (disp : Byte)
  /-- F8 (R380). -/
  | clc
  /-- F9 (R381). -/
  | stc
  /-- F5 (R382). -/
  | cmc
  /-- FA (R383). -/
  | cli
  /-- FB (R384). -/
  | sti
  /-- FC (R385). -/
  | cld
  /-- FD (R386). -/
  | std
  /-- A4 (R392). -/
  | movsb
  /-- A5 (R392). -/
  | movsw
  /-- A6 (R393). -/
  | cmpsb
  /-- A7 (R393). -/
  | cmpsw
  /-- AA (R394). -/
  | stosb
  /-- AB (R394). -/
  | stosw
  /-- AC (R395). -/
  | lodsb
  /-- AD (R395). -/
  | lodsw
  /-- AE (R396). -/
  | scasb
  /-- AF (R396). -/
  | scasw
  /-- D0/0 to D3/0 (R401). -/
  | rol (c : ShiftCount) (w : Width) (m : ModRM)
  /-- D0/1 to D3/1 (R402). -/
  | ror (c : ShiftCount) (w : Width) (m : ModRM)
  /-- D0/2 to D3/2 (R403). -/
  | rcl (c : ShiftCount) (w : Width) (m : ModRM)
  /-- D0/3 to D3/3 (R404). -/
  | rcr (c : ShiftCount) (w : Width) (m : ModRM)
  /-- D0/4 to D3/4 (R405). -/
  | shl (c : ShiftCount) (w : Width) (m : ModRM)
  /-- D0/5 to D3/5 (R406). -/
  | shr (c : ShiftCount) (w : Width) (m : ModRM)
  /-- D0/7 to D3/7 (R407). -/
  | sar (c : ShiftCount) (w : Width) (m : ModRM)
  /-- F6/4, F7/4 (R410). -/
  | mul (w : Width) (m : ModRM)
  /-- F6/5, F7/5 (R411). -/
  | imul (w : Width) (m : ModRM)
  /-- F6/6, F7/6 (R412). -/
  | div (w : Width) (m : ModRM)
  /-- F6/7, F7/7 (R413). -/
  | idiv (w : Width) (m : ModRM)
  /-- 27 (R420). -/
  | daa
  /-- 2F (R421). -/
  | das
  /-- 37 (R422). -/
  | aaa
  /-- 3F (R423). -/
  | aas
  /-- D4 (R424). -/
  | aam (base : Byte)
  /-- D5 (R425). -/
  | aad (base : Byte)
  /-- E4, E5 (R440). -/
  | inImm (w : Width) (port : Byte)
  /-- EC, ED (R442). -/
  | inDx (w : Width)
  /-- E6, E7 (R441). -/
  | outImm (w : Width) (port : Byte)
  /-- EE, EF (R443). -/
  | outDx (w : Width)
  /-- D8 to DF (R445); `n` is the low 3 bits of the opcode byte. -/
  | esc (n : BitVec 3) (m : ModRM)
  /-- 9B (R447). -/
  | wait
  /-- 26 (R157). -/
  | segEs
  /-- 2E (R157). -/
  | segCs
  /-- 36 (R157). -/
  | segSs
  /-- 3E (R157). -/
  | segDs
  /-- F0 (R158). -/
  | lock
  /-- F2 (R159). -/
  | repnz
  /-- F3 (R159). -/
  | repz
  /-- an `Empty` top-level slot (R138, R151): 0F, 60 to 6F, C0, C1, C8, C9, D6, F1. -/
  | unmapped (op : Byte)
  /-- an `Empty` child of a demux slot (R139, R154), with its Mod-Reg-R/M byte and displacement. -/
  | emptyChild (op : Byte) (m : ModRM)
deriving DecidableEq, Repr

end Sys2Proof
end

