-- ==== Sys2Proof/Machine/Fields.lean ====
section
/-! DEFINITION. The bit fields of the encoding: register, segment, template, operation and condition numbers
both ways, and the fields of the Mod-Reg-R/M byte (30_encoding.md R111, R113, R117). -/

namespace Sys2Proof

/-- Slot number of a general register (10_state.md R30). -/
def Reg16.bits : Reg16 → BitVec 3
  | .ax => 0 | .cx => 1 | .dx => 2 | .bx => 3 | .sp => 4 | .bp => 5 | .si => 6 | .di => 7

/-- The general register of a slot number (10_state.md R30). -/
def Reg16.ofBits (b : BitVec 3) : Reg16 :=
  match b.toNat with
  | 0 => .ax | 1 => .cx | 2 => .dx | 3 => .bx | 4 => .sp | 5 => .bp | 6 => .si | _ => .di

/-- The byte register of a number: 0 to 3 the low halves, 4 to 7 the high halves of slots 0 to 3
(10_state.md R31). -/
def Reg8.ofNumber : Reg16 → Reg8
  | .ax => .al | .cx => .cl | .dx => .dl | .bx => .bl | .sp => .ah | .bp => .ch | .si => .dh | .di => .bh

/-- Index of a segment register (10_state.md R34). -/
def SegReg.bits : SegReg → BitVec 2
  | .es => 0 | .cs => 1 | .ss => 2 | .ds => 3

/-- The segment register of an index (10_state.md R34). -/
def SegReg.ofBits (b : BitVec 2) : SegReg :=
  match b.toNat with
  | 0 => .es | 1 => .cs | 2 => .ss | _ => .ds

/-- The segment register a 3-bit `reg` field of 8C and 8E names; 4 to 7 name none (30_encoding.md R140). -/
def SegReg.ofNumber : Reg16 → Option SegReg
  | .ax => some .es | .cx => some .cs | .dx => some .ss | .bx => some .ds
  | .sp => none | .bp => none | .si => none | .di => none

/-- The `rm` value of a base and index template (41_addressing.md R184). -/
def EaBase.bits : EaBase → BitVec 3
  | .bxSi => 0 | .bxDi => 1 | .bpSi => 2 | .bpDi => 3 | .si => 4 | .di => 5 | .bp => 6 | .bx => 7

/-- The base and index template of an `rm` value (41_addressing.md R184). -/
def EaBase.ofBits (b : BitVec 3) : EaBase :=
  match b.toNat with
  | 0 => .bxSi | 1 => .bxDi | 2 => .bpSi | 3 => .bpDi | 4 => .si | 5 => .di | 6 => .bp | _ => .bx

/-- The code `ooo` of an ALU operation (43_alu.md R240). -/
def AluOp.bits : AluOp → BitVec 3
  | .add => 0 | .or => 1 | .adc => 2 | .sbb => 3 | .and => 4 | .sub => 5 | .xor => 6 | .cmp => 7

/-- The ALU operation of a code `ooo` (43_alu.md R240). -/
def AluOp.ofBits (b : BitVec 3) : AluOp :=
  match b.toNat with
  | 0 => .add | 1 => .or | 2 => .adc | 3 => .sbb | 4 => .and | 5 => .sub | 6 => .xor | _ => .cmp

/-- The `reg` value of a Grp2 child (30_encoding.md R134). -/
def ShiftOp.bits : ShiftOp → BitVec 3
  | .rol => 0 | .ror => 1 | .rcl => 2 | .rcr => 3 | .shl => 4 | .shr => 5 | .sar => 7

/-- The field `cccc` of a condition (30_encoding.md R113, R346). -/
def Cond.bits : Cond → BitVec 4
  | .o => 0 | .no => 1 | .b => 2 | .nb => 3 | .z => 4 | .nz => 5 | .be => 6 | .a => 7
  | .s => 8 | .ns => 9 | .p => 10 | .np => 11 | .l => 12 | .nl => 13 | .le => 14 | .nle => 15

/-- The condition of a field `cccc` (30_encoding.md R113, R346). -/
def Cond.ofBits (b : BitVec 4) : Cond :=
  match b.toNat with
  | 0 => .o | 1 => .no | 2 => .b | 3 => .nb | 4 => .z | 5 => .nz | 6 => .be | 7 => .a
  | 8 => .s | 9 => .ns | 10 => .p | 11 => .np | 12 => .l | 13 => .nl | 14 => .le | _ => .nle

/-- The width bit `w` (30_encoding.md R113). -/
def Width.bit : Width → BitVec 1
  | .byte => 0 | .word => 1

/-- The width of a bit `w`. -/
def Width.ofBool (b : Bool) : Width := if b then .word else .byte

/-- The direction bit `d` (30_encoding.md R113). -/
def Dir.bit : Dir → BitVec 1
  | .toRm => 0 | .toReg => 1

/-- The direction of a bit `d`. -/
def Dir.ofBool (b : Bool) : Dir := if b then .toReg else .toRm

/-- The width an immediate `Iv` goes with (30_encoding.md R114). -/
def Imm.width : Imm → Width
  | .ib _ => .byte | .iw _ => .word

/-- The width of a Grp1 form (30_encoding.md R132). -/
def GrpImm.width : GrpImm → Width
  | .ib80 _ => .byte | .iw81 _ => .word | .ib82 _ => .byte | .sx83 _ => .word

/-- The field `mod` of an r/m operand (30_encoding.md R111). -/
def RM.modBits : RM → BitVec 2
  | .reg _ => 3
  | .mem _ .none => 0
  | .mem _ (.d8 _) => 1
  | .mem _ (.d16 _) => 2
  | .direct _ => 0

/-- The field `rm` of an r/m operand (30_encoding.md R111, 41_addressing.md R184). -/
def RM.rmBits : RM → BitVec 3
  | .reg n => n.bits
  | .mem b _ => b.bits
  | .direct _ => 6

/-- `sext_16` of a byte (00_scope.md R10). -/
def sext16 (v : Byte) : Word := v.signExtend 16

/-- `zext_16` of a byte (00_scope.md R10). -/
def zext16 (v : Byte) : Word := v.setWidth 16

/-- The low byte of a word, `v[7:0]`. -/
def loByte (v : Word) : Byte := v.setWidth 8

/-- The high byte of a word, `v[15:8]`. -/
def hiByte (v : Word) : Byte := (v >>> 8).setWidth 8

/-- `hi ++ lo` (00_scope.md R9): the little-endian word of two bytes (20_memory.md R77). -/
def mkWord (lo hi : Byte) : Word := hi ++ lo

end Sys2Proof
end

