-- ==== Sys2Proof/Machine/Registry.lean ====
section
/-! DEFINITION. The Bit-Pattern Compiler and the Opcode Registry (30_encoding.md R100 to R108): the template
language, the build of the 256-slot table from registrations, the registrations of R120, and the table
they build, written out as the opcode map of R119. -/

namespace Sys2Proof

/-- One counted character of a template (R100). -/
inductive TBit where
  | zero
  | one
  | any
deriving DecidableEq, Repr

/-- The configuration errors of the build phase (R108). Which of them a list with several errors gives is the model's
choice (notes/assumptions/17.md). -/
inductive ConfigError where
  /-- a character other than `0`, `1`, `*` and `_` (R100). -/
  | badCharacter
  /-- a count of characters that is not the one the template's position needs (R101). -/
  | badLength
  /-- a second direct binding of one opcode byte (R105). -/
  | duplicateDirect
  /-- a direct and a demux binding of one opcode byte (R105, R106). -/
  | shapeMismatch
  /-- two bindings of one reg value of one demux slot (R106). -/
  | regCollision
deriving DecidableEq, Repr

/-- The counted characters of a template, leftmost first; `_` is ignored (R100). -/
def templateBits : List Char → Except ConfigError (List TBit)
  | [] => .ok []
  | c :: cs =>
    if c = '_' then templateBits cs
    else
      match templateBits cs with
      | .error e => .error e
      | .ok bs =>
        if c = '0' then .ok (.zero :: bs)
        else if c = '1' then .ok (.one :: bs)
        else if c = '*' then .ok (.any :: bs)
        else .error .badCharacter

/-- A template of the width its position needs: 8 for an opcode byte, 3 for a reg field (R101, D41). DESIGN CHOICE: a bad
character is reported before a bad length (notes/assumptions/17.md). -/
def compileTemplate (width : Nat) (t : String) : Except ConfigError (List TBit) :=
  match templateBits t.toList with
  | .error e => .error e
  | .ok bs => if bs.length = width then .ok bs else .error .badLength

/-- `expand(t)` (R102): every number the template denotes, the leftmost character the most significant
bit (D41). -/
def expand : List TBit → List Nat
  | [] => [0]
  | .zero :: bs => expand bs
  | .one :: bs => (expand bs).map (· + 2 ^ bs.length)
  | .any :: bs => expand bs ++ (expand bs).map (· + 2 ^ bs.length)

/-- A slot of the dispatch table (R104), over direct handlers `H` and demux children `C`. -/
inductive Slot (H C : Type) where
  | empty
  | direct (h : H)
  /-- the children for reg 0 to 7, each a handler or empty. -/
  | demux (children : List (Option C))
deriving DecidableEq, Repr

/-- A registration (R104). -/
inductive Registration (H C : Type) where
  | direct (t : String) (h : H)
  | demux (t : String) (children : List (String × C))
deriving DecidableEq, Repr

/-- One elementary effect of a registration on the table: it binds a slot directly, makes it a demux node,
or binds one child of it (R105, R106). -/
inductive Claim (H C : Type) where
  | direct (v : Nat) (h : H)
  | node (v : Nat)
  | child (v j : Nat) (h : C)
deriving DecidableEq, Repr

/-- The claims of a list of children on each slot of `vs` (R106). -/
def childClaims {H C : Type} (vs : List Nat) : List (String × C) → Except ConfigError (List (Claim H C))
  | [] => .ok []
  | (r, h) :: rest =>
    match compileTemplate 3 r with
    | .error e => .error e
    | .ok bs =>
      match childClaims vs rest with
      | .error e => .error e
      | .ok cs => .ok (vs.flatMap (fun v => (expand bs).map (fun j => .child v j h)) ++ cs)

/-- The claims of one registration (R105, R106). -/
def Registration.claims {H C : Type} : Registration H C → Except ConfigError (List (Claim H C))
  | .direct t h =>
    match compileTemplate 8 t with
    | .error e => .error e
    | .ok bs => .ok ((expand bs).map (fun v => .direct v h))
  | .demux t children =>
    match compileTemplate 8 t with
    | .error e => .error e
    | .ok bs =>
      match childClaims (expand bs) children with
      | .error e => .error e
      | .ok cs => .ok ((expand bs).map .node ++ cs)

/-- The dispatch table while it is built: 256 slots by opcode byte. -/
abbrev SlotTable (H C : Type) := List (Slot H C)

/-- The table before any registration: all 256 slots empty (R104). -/
def SlotTable.initial (H C : Type) : SlotTable H C := List.replicate 256 .empty

/-- A demux node with no child bound. -/
def noChildren (C : Type) : List (Option C) := List.replicate 8 none

/-- One claim on the table (R105, R106): a slot and a child may be bound at most once. -/
def Claim.apply {H C : Type} (t : SlotTable H C) : Claim H C → Except ConfigError (SlotTable H C)
  | .direct v h =>
    match t.getD v .empty with
    | .empty => .ok (t.set v (.direct h))
    | .direct _ => .error .duplicateDirect
    | .demux _ => .error .shapeMismatch
  | .node v =>
    match t.getD v .empty with
    | .empty => .ok (t.set v (.demux (noChildren C)))
    | .direct _ => .error .shapeMismatch
    | .demux _ => .ok t
  | .child v j h =>
    match t.getD v .empty with
    | .empty => .ok (t.set v (.demux ((noChildren C).set j (some h))))
    | .direct _ => .error .shapeMismatch
    | .demux c =>
      match c.getD j none with
      | some _ => .error .regCollision
      | none => .ok (t.set v (.demux (c.set j (some h))))

/-- The claims one after another. -/
def applyClaims {H C : Type} : SlotTable H C → List (Claim H C) → Except ConfigError (SlotTable H C)
  | t, [] => .ok t
  | t, c :: cs =>
    match Claim.apply t c with
    | .error e => .error e
    | .ok t' => applyClaims t' cs

/-- The claims of a whole list of registrations, in its order. -/
def allClaims {H C : Type} : List (Registration H C) → Except ConfigError (List (Claim H C))
  | [] => .ok []
  | r :: rs =>
    match r.claims with
    | .error e => .error e
    | .ok cs =>
      match allClaims rs with
      | .error e => .error e
      | .ok ds => .ok (cs ++ ds)

/-- The build of the registry (R104 to R108): a malformed template or a conflict stops it. DESIGN CHOICE: every template
is compiled before any binding is made, so a malformed one anywhere in the list is reported before a conflict
(notes/assumptions/17.md). -/
def buildRegistry {H C : Type} (rs : List (Registration H C)) : Except ConfigError (SlotTable H C) :=
  match allClaims rs with
  | .error e => .error e
  | .ok cs => applyClaims (SlotTable.initial H C) cs

/-- The handler kinds of the opcode map (R120); one kind serves every opcode byte it is bound to and tells
them apart by the raw byte (R109). These are the handlers of direct slots. -/
inductive Handler where
  | aluRmReg | aluAccImm | pushSeg | popSeg | segOverride | daa | das | aaa | aas
  | incReg | decReg | pushReg | popReg | jcc
  | testRmReg | xchgRmReg | movRmReg | movRmSeg | lea | movSegRm
  | xchgAcc | cbw | cwd | callFar | wait | pushf | popf | sahf | lahf | movMoffs
  | movs | cmps | testAccImm | stos | lods | scas | movRegImm
  | retImm | ret | les | lds | retfImm | retf | int3 | int | into | iret
  | aam | aad | xlat | esc | loopnz | loopz | loop | jcxz | inImm | outImm
  | callNear | jmpNear | jmpFar | jmpShort | inDx | outDx | lock | rep | hlt | cmc
  | clc | stc | cli | sti | cld | std
deriving DecidableEq, Repr

/-- The handlers of demux children (R131 to R137); a child receives the pre-decoded fields (R155). -/
inductive Child where
  /-- a Grp1 child (R132). -/
  | grp1 (k : AluOp)
  /-- a Grp2 child (R134). -/
  | grp2 (k : ShiftOp)
  | popRm | movRmImm
  | testRmImm | notRm | negRm | mul | imul | div | idiv
  | incRm | decRm | callRm | callFarMem | jmpRm | jmpFarMem | pushRm
deriving DecidableEq, Repr

/-- A handler, of a direct slot or of a demux child: what is bound to opcode bytes, and what has clock costs
(R109; 70_reset_and_hazards.md R526, R527). -/
inductive BoundHandler where
  | direct (h : Handler)
  | child (c : Child)
deriving DecidableEq, Repr

/-- The registrations that build the map, rows 00 to 3F and 40 to 7F (R120). -/
def registrationsLow : List (Registration Handler Child) :=
  [ .direct "00***0**" .aluRmReg,
    .direct "00***10*" .aluAccImm,
    .direct "000**110" .pushSeg,
    .direct "0000_0111" .popSeg,
    .direct "0001_0111" .popSeg,
    .direct "0001_1111" .popSeg,
    .direct "001**110" .segOverride,
    .direct "0010_0111" .daa,
    .direct "0010_1111" .das,
    .direct "0011_0111" .aaa,
    .direct "0011_1111" .aas,
    .direct "0100_0***" .incReg,
    .direct "0100_1***" .decReg,
    .direct "0101_0***" .pushReg,
    .direct "0101_1***" .popReg,
    .direct "0111_****" .jcc ]

/-- The registrations that build the map, rows 80 to BF (R120). -/
def registrationsMid : List (Registration Handler Child) :=
  [ .demux "1000_00**" [("000", .grp1 .add), ("001", .grp1 .or), ("010", .grp1 .adc), ("011", .grp1 .sbb),
      ("100", .grp1 .and), ("101", .grp1 .sub), ("110", .grp1 .xor), ("111", .grp1 .cmp)],
    .direct "1000_010*" .testRmReg,
    .direct "1000_011*" .xchgRmReg,
    .direct "1000_10**" .movRmReg,
    .direct "1000_1100" .movRmSeg,
    .direct "1000_1101" .lea,
    .direct "1000_1110" .movSegRm,
    .demux "1000_1111" [("000", .popRm)],
    .direct "1001_0***" .xchgAcc,
    .direct "1001_1000" .cbw,
    .direct "1001_1001" .cwd,
    .direct "1001_1010" .callFar,
    .direct "1001_1011" .wait,
    .direct "1001_1100" .pushf,
    .direct "1001_1101" .popf,
    .direct "1001_1110" .sahf,
    .direct "1001_1111" .lahf,
    .direct "1010_00**" .movMoffs,
    .direct "1010_010*" .movs,
    .direct "1010_011*" .cmps,
    .direct "1010_100*" .testAccImm,
    .direct "1010_101*" .stos,
    .direct "1010_110*" .lods,
    .direct "1010_111*" .scas,
    .direct "1011_****" .movRegImm ]

/-- The registrations that build the map, rows C0 to FF (R120). -/
def registrationsHigh : List (Registration Handler Child) :=
  [ .direct "1100_0010" .retImm,
    .direct "1100_0011" .ret,
    .direct "1100_0100" .les,
    .direct "1100_0101" .lds,
    .demux "1100_011*" [("000", .movRmImm)],
    .direct "1100_1010" .retfImm,
    .direct "1100_1011" .retf,
    .direct "1100_1100" .int3,
    .direct "1100_1101" .int,
    .direct "1100_1110" .into,
    .direct "1100_1111" .iret,
    .demux "1101_00**" [("000", .grp2 .rol), ("001", .grp2 .ror), ("010", .grp2 .rcl), ("011", .grp2 .rcr),
      ("100", .grp2 .shl), ("101", .grp2 .shr), ("111", .grp2 .sar)],
    .direct "1101_0100" .aam,
    .direct "1101_0101" .aad,
    .direct "1101_0111" .xlat,
    .direct "1101_1***" .esc,
    .direct "1110_0000" .loopnz,
    .direct "1110_0001" .loopz,
    .direct "1110_0010" .loop,
    .direct "1110_0011" .jcxz,
    .direct "1110_010*" .inImm,
    .direct "1110_011*" .outImm,
    .direct "1110_1000" .callNear,
    .direct "1110_1001" .jmpNear,
    .direct "1110_1010" .jmpFar,
    .direct "1110_1011" .jmpShort,
    .direct "1110_110*" .inDx,
    .direct "1110_111*" .outDx,
    .direct "1111_0000" .lock,
    .direct "1111_001*" .rep,
    .direct "1111_0100" .hlt,
    .direct "1111_0101" .cmc,
    .demux "1111_011*" [("000", .testRmImm), ("010", .notRm), ("011", .negRm), ("100", .mul), ("101", .imul),
      ("110", .div), ("111", .idiv)],
    .direct "1111_1000" .clc,
    .direct "1111_1001" .stc,
    .direct "1111_1010" .cli,
    .direct "1111_1011" .sti,
    .direct "1111_1100" .cld,
    .direct "1111_1101" .std,
    .demux "1111_1110" [("000", .incRm), ("001", .decRm)],
    .demux "1111_1111" [("000", .incRm), ("001", .decRm), ("010", .callRm), ("011", .callFarMem), ("100", .jmpRm),
      ("101", .jmpFarMem), ("110", .pushRm)] ]

/-- The registrations of R120. -/
def registrations : List (Registration Handler Child) := registrationsLow ++ registrationsMid ++ registrationsHigh

/-- The slot of a direct handler. -/
abbrev dir (h : Handler) : Slot Handler Child := .direct h

/-- The slot of no handler (R138). -/
abbrev non : Slot Handler Child := .empty

/-- The children of the demux slots 80 to 83 (R132). -/
def grp1Children : List (Option Child) :=
  [some (.grp1 .add), some (.grp1 .or), some (.grp1 .adc), some (.grp1 .sbb),
   some (.grp1 .and), some (.grp1 .sub), some (.grp1 .xor), some (.grp1 .cmp)]

/-- The children of the demux slots D0 to D3 (R134). -/
def grp2Children : List (Option Child) :=
  [some (.grp2 .rol), some (.grp2 .ror), some (.grp2 .rcl), some (.grp2 .rcr),
   some (.grp2 .shl), some (.grp2 .shr), none, some (.grp2 .sar)]

/-- The children of the demux slots F6 and F7 (R135). -/
def grp3Children : List (Option Child) :=
  [some .testRmImm, none, some .notRm, some .negRm, some .mul, some .imul, some .div, some .idiv]

/-- The children of the demux slot FE (R136). -/
def grp4Children : List (Option Child) :=
  [some .incRm, some .decRm, none, none, none, none, none, none]

/-- The children of the demux slot FF (R137). -/
def grp5Children : List (Option Child) :=
  [some .incRm, some .decRm, some .callRm, some .callFarMem, some .jmpRm, some .jmpFarMem, some .pushRm, none]

/-- A demux slot with one child, reg 000 (R133: 8F, C6, C7). -/
def onlyChild (h : Child) : List (Option Child) :=
  [some h, none, none, none, none, none, none, none]

/-- The columns x0 to x7 and x8 to xF that the rows 0x to 3x share: r/m with reg, accumulator with
immediate (R119), then the two slots of the row's own. -/
def aluRow (a b c d : Slot Handler Child) : List (Slot Handler Child) :=
  [dir .aluRmReg, dir .aluRmReg, dir .aluRmReg, dir .aluRmReg, dir .aluAccImm, dir .aluAccImm, a, b,
   dir .aluRmReg, dir .aluRmReg, dir .aluRmReg, dir .aluRmReg, dir .aluAccImm, dir .aluAccImm, c, d]

/-- The opcode map by high nibble (R119): the sixteen slots of a row, by low nibble. -/
def opcodeRow : Nat → List (Slot Handler Child)
  | 0x0 => aluRow (dir .pushSeg) (dir .popSeg) (dir .pushSeg) non
  | 0x1 => aluRow (dir .pushSeg) (dir .popSeg) (dir .pushSeg) (dir .popSeg)
  | 0x2 => aluRow (dir .segOverride) (dir .daa) (dir .segOverride) (dir .das)
  | 0x3 => aluRow (dir .segOverride) (dir .aaa) (dir .segOverride) (dir .aas)
  | 0x4 => List.replicate 8 (dir .incReg) ++ List.replicate 8 (dir .decReg)
  | 0x5 => List.replicate 8 (dir .pushReg) ++ List.replicate 8 (dir .popReg)
  | 0x6 => List.replicate 16 non
  | 0x7 => List.replicate 16 (dir .jcc)
  | 0x8 => [.demux grp1Children, .demux grp1Children, .demux grp1Children, .demux grp1Children,
            dir .testRmReg, dir .testRmReg, dir .xchgRmReg, dir .xchgRmReg,
            dir .movRmReg, dir .movRmReg, dir .movRmReg, dir .movRmReg,
            dir .movRmSeg, dir .lea, dir .movSegRm, .demux (onlyChild .popRm)]
  | 0x9 => List.replicate 8 (dir .xchgAcc) ++
           [dir .cbw, dir .cwd, dir .callFar, dir .wait, dir .pushf, dir .popf, dir .sahf, dir .lahf]
  | 0xA => [dir .movMoffs, dir .movMoffs, dir .movMoffs, dir .movMoffs, dir .movs, dir .movs, dir .cmps, dir .cmps,
            dir .testAccImm, dir .testAccImm, dir .stos, dir .stos, dir .lods, dir .lods, dir .scas, dir .scas]
  | 0xB => List.replicate 16 (dir .movRegImm)
  | 0xC => [non, non, dir .retImm, dir .ret, dir .les, dir .lds,
            .demux (onlyChild .movRmImm), .demux (onlyChild .movRmImm),
            non, non, dir .retfImm, dir .retf, dir .int3, dir .int, dir .into, dir .iret]
  | 0xD => [.demux grp2Children, .demux grp2Children, .demux grp2Children, .demux grp2Children,
            dir .aam, dir .aad, non, dir .xlat] ++ List.replicate 8 (dir .esc)
  | 0xE => [dir .loopnz, dir .loopz, dir .loop, dir .jcxz, dir .inImm, dir .inImm, dir .outImm, dir .outImm,
            dir .callNear, dir .jmpNear, dir .jmpFar, dir .jmpShort, dir .inDx, dir .inDx, dir .outDx, dir .outDx]
  | 0xF => [dir .lock, non, dir .rep, dir .rep, dir .hlt, dir .cmc, .demux grp3Children, .demux grp3Children,
            dir .clc, dir .stc, dir .cli, dir .sti, dir .cld, dir .std,
            .demux grp4Children, .demux grp5Children]
  | _ => []

/-- A built registry: the parameter `registry` (00_scope.md R8, 10_state.md R47). -/
abbrev Registry := SlotTable Handler Child

/-- The slot a registry gives an opcode byte (40_decode_dispatch.md R150). -/
def Registry.slot (t : Registry) (op : Byte) : Slot Handler Child := t.getD op.toNat .empty

/-- What every built registry has: 256 slots, and 8 children in each demux node (10_state.md R47). -/
def Registry.wf (t : Registry) : Bool :=
  t.length == 256 &&
    t.all (fun
      | .empty => true
      | .direct _ => true
      | .demux cs => cs.length == 8)

/-- The default of the parameter `registry`: the opcode map (R119, D9). -/
def defaultRegistry : Registry := (List.range 16).flatMap opcodeRow

/-- The slot of an opcode byte in the opcode map (R119). -/
def registry (op : Byte) : Slot Handler Child := defaultRegistry.slot op

end Sys2Proof
end

