-- ==== Sys2Proof/Config.lean ====
section
/-! DEFINITION. What an implementation fixes: the parameters of 00_scope.md R8 as plain data, with their
defaults, and the free values the spec leaves open, as constants with no body. -/

namespace Sys2Proof

/-- The flag algorithm of ADC and SBB when CF = 1 (43_alu.md R252, D17). -/
inductive AdcSbbMode where
  | twoPassOverwrite
  | twoPassOrCarry
  | singlePass
deriving DecidableEq, Repr

/-- Where the high byte of a word access lies (20_memory.md R73, D4). -/
inductive WordSecondByte where
  | linearPlusOne
  | segmentWrap
deriving DecidableEq, Repr

/-- What an access above linear 0xFFFFF does (20_memory.md R76, D5). -/
inductive HighAddress where
  | fault
  | wrap20
deriving DecidableEq, Repr

/-- The value PUSH SP stores (44_stack_interrupt.md R292, D28). -/
inductive PushSpValue where
  | old
  | new
deriving DecidableEq, Repr

/-- The quotient range IDIV accepts (46_string_shift_muldiv_misc.md R413, D32). -/
inductive IdivRange where
  | i8086
  | full
deriving DecidableEq, Repr

/-- The eight general registers, slots 0 to 7 in this order (10_state.md R30). -/
structure Gpr where
  ax : Word
  cx : Word
  dx : Word
  bx : Word
  sp : Word
  bp : Word
  si : Word
  di : Word
deriving DecidableEq, Repr

/-- The four segment registers, slots 0 to 3 in this order (10_state.md R34). -/
structure Segs where
  es : Word
  cs : Word
  ss : Word
  ds : Word
deriving DecidableEq, Repr

/-- The parameter `resetState`: the values `reset()` gives the registers, FLAGS and IP (10_state.md R50). -/
structure ResetState where
  gpr   : Gpr
  segs  : Segs
  ip    : Word
  flags : Word
deriving DecidableEq, Repr

/-- The default of `resetState`: everything zero, so CS:IP = 0000:0000 (R50, D6, D7). -/
def ResetState.zero : ResetState :=
  { gpr := { ax := 0, cx := 0, dx := 0, bx := 0, sp := 0, bp := 0, si := 0, di := 0 }
    segs := { es := 0, cs := 0, ss := 0, ds := 0 }
    ip := 0
    flags := 0 }

/-- The parameters of 00_scope.md R8 that a model takes as plain data. `initMem` is an argument of `launch`
(Machine/Launch.lean), `clockTable`, `undefFlagDraw` and the devices of `ports` are the opaque constants below. DESIGN CHOICE, safe: the parameters stand in State, so that a statement over all
states is a statement over all parameter values (notes/assumptions/1.md). -/
structure Params where
  adcSbbMode      : AdcSbbMode
  wordSecondByte  : WordSecondByte
  highAddress     : HighAddress
  /-- `singleStep = on` (R468, D15). -/
  singleStep      : Bool
  pushSpValue     : PushSpValue
  idivRange       : IdivRange
  /-- `cycleAccounting = on` (R520, D35). -/
  cycleAccounting : Bool
  admitTierG      : Bool
  /-- The ports that have a device behind them (20_memory.md R84); every other port is unmapped. -/
  mappedPorts     : List Word
  resetState      : ResetState
  /-- The built dispatch table (10_state.md R47); the step decodes with it. -/
  registry        : Registry
deriving DecidableEq, Repr

/-- The defaults of 00_scope.md R8. -/
def Params.default : Params :=
  { adcSbbMode := .twoPassOverwrite
    wordSecondByte := .linearPlusOne
    highAddress := .fault
    singleStep := false
    pushSpValue := .old
    idivRange := .i8086
    cycleAccounting := false
    admitTierG := true
    mappedPorts := []
    resetState := .zero
    registry := defaultRegistry }

/-- The costs a handler has in the parameter `clockTable` (70_reset_and_hazards.md R527). -/
inductive ClockCost where
  | base
  | costTrue
  | costFalse
  | perBit
  | perIteration
deriving DecidableEq, Repr

/-- The parameter `undefFlagDraw` (R224, D31): the value the `n`-th draw gives a flag that a rule calls
undefined. It has no body, so a claim holds for every value (notes/assumptions/4.md). -/
opaque Config.flagDraw : Nat → Flag → Bool

/-- A call of the port interface that reached a device (20_memory.md R84). -/
inductive PortCall where
  | pin (isWord : Bool) (port : Word)
  | pout (isWord : Bool) (port : Word) (value : Word)
deriving DecidableEq, Repr

/-- The read functions of the devices behind the mapped ports (the parameter `ports`, 20_memory.md R84, R85): the reply
of the `n`-th draw to `pin(isWord, port)`, after the calls that reached a device before it, newest first, which may have
changed what the devices hold. It has no body (notes/assumptions/5.md). -/
opaque Config.pinDraw : (n : Nat) → (before : List PortCall) → (isWord : Bool) → (port : Word) → Word

/-- The parameter `clockTable` (R527), OPEN with no default: the costs of each handler, whichever opcode
bytes it is bound to (30_encoding.md R109). It has no body (notes/assumptions/6.md). -/
opaque Config.clockTable : BoundHandler → ClockCost → Nat

end Sys2Proof
end

