-- ==== Sys2Proof/Machine/Flags.lean ====
section
/-! DEFINITION. The ALU flag generator (42_flags.md): every helper takes FLAGS and gives FLAGS, with the
arithmetic on unbounded integers (00_scope.md R10). -/

namespace Sys2Proof.Machine

open Sys2Proof

/-- Position of a flag in FLAGS (10_state.md R36, D2). -/
def flagBit : Flag → Nat
  | .CF => 0 | .PF => 2 | .AF => 4 | .ZF => 6 | .SF => 7 | .TF => 8 | .IF => 9 | .DF => 10 | .OF => 11

/-- One flag of a FLAGS value. -/
def getFlag (f : Word) (g : Flag) : Bool := f.getLsbD (flagBit g)

/-- A FLAGS value with one flag written. -/
def setFlag (f : Word) (g : Flag) (b : Bool) : Word :=
  if b then f ||| (1#16 <<< flagBit g) else f &&& ~~~(1#16 <<< flagBit g)

/-- The number of bits of a width: 8 or 16 (00_scope.md R9). -/
def bits : Width → Nat
  | .byte => 8
  | .word => 16

/-- `msb_w` of a value below `2^w` (00_scope.md R9). -/
def msb (w : Width) (v : Nat) : Bool := v.testBit (bits w - 1)

/-- The masked result `r mod 2^w` (42_flags.md R211). -/
def masked (w : Width) (r : Int) : Nat := (r % 2 ^ bits w).toNat

/-- A result narrowed to the width and held in a word (00_scope.md R10, `trunc_w`). -/
def narrow (w : Width) (r : Int) : Word := BitVec.ofNat 16 (masked w r)

/-- The number of 1 bits of the low `n` bits. -/
def ones (v : Nat) : Nat → Nat
  | 0 => 0
  | n + 1 => (if v.testBit n then 1 else 0) + ones v n

/-- `parity8` (42_flags.md R212). -/
def parity8 (v : Nat) : Bool := ones v 8 % 2 == 0

/-- `PSZ` (42_flags.md R211). PF looks at the low 8 bits of the unmasked result whatever the width. -/
def psz (f : Word) (w : Width) (r : Int) : Word :=
  let f := setFlag f .ZF (masked w r == 0)
  let f := setFlag f .SF (msb w (masked w r))
  setFlag f .PF (parity8 (r % 256).toNat)

/-- The bit at position `w` of the unmasked result in two's complement (42_flags.md R213). -/
def carryBit (w : Width) (r : Int) : Bool := decide (2 ^ bits w ≤ r % 2 ^ (bits w + 1))

/-- `PSZC` (42_flags.md R213); R218 extends it to subtraction. -/
def pszc (f : Word) (w : Width) (r : Int) : Word := setFlag (psz f w r) .CF (carryBit w r)

/-- `OFadd` (42_flags.md R214). -/
def ofAdd (w : Width) (dst src : Nat) (r : Int) : Bool :=
  (msb w dst == msb w src) && (msb w (masked w r) != msb w dst)

/-- `OFsub` (42_flags.md R215). -/
def ofSub (w : Width) (dst src : Nat) (r : Int) : Bool :=
  (msb w dst != msb w src) && (msb w (masked w r) != msb w dst)

/-- `AFadd` (42_flags.md R216). -/
def afAdd (dst src : Nat) : Bool := decide (15 < dst % 16 + src % 16)

/-- `AFsub`, the whole-low-byte borrow the source says to keep (42_flags.md R217, C6). -/
def afSub (dst src : Nat) : Bool := decide (dst % 256 < src % 256)

/-- `flagsAdd` (42_flags.md R219). -/
def flagsAdd (f : Word) (w : Width) (dst src : Nat) : Word :=
  let r : Int := (dst : Int) + (src : Int)
  setFlag (setFlag (pszc f w r) .OF (ofAdd w dst src r)) .AF (afAdd dst src)

/-- `flagsSub` (42_flags.md R220, R218). -/
def flagsSub (f : Word) (w : Width) (dst src : Nat) : Word :=
  let r : Int := (dst : Int) - (src : Int)
  setFlag (setFlag (pszc f w r) .OF (ofSub w dst src r)) .AF (afSub dst src)

/-- `flagsAddNC`, which leaves CF (42_flags.md R221). -/
def flagsAddNC (f : Word) (w : Width) (dst src : Nat) : Word := setFlag (flagsAdd f w dst src) .CF (getFlag f .CF)

/-- `flagsSubNC`, which leaves CF (42_flags.md R221). -/
def flagsSubNC (f : Word) (w : Width) (dst src : Nat) : Word := setFlag (flagsSub f w dst src) .CF (getFlag f .CF)

/-- `flagsLogic`: CF and OF cleared, PSZ, AF untouched (42_flags.md R222, C3, D18). -/
def flagsLogic (f : Word) (w : Width) (r : Nat) : Word := setFlag (setFlag (psz f w r) .CF false) .OF false

/-- ADC's result and flags under each `adcSbbMode` (43_alu.md R252). -/
def adc (mode : AdcSbbMode) (f : Word) (w : Width) (dst src : Nat) : Nat × Word :=
  let m1 := masked w ((dst : Int) + (src : Int))
  let f1 := flagsAdd f w dst src
  if getFlag f .CF then
    let res := masked w ((m1 : Int) + 1)
    let f2 := flagsAdd f1 w m1 1
    match mode with
    | .twoPassOverwrite => (res, f2)
    | .twoPassOrCarry => (res, setFlag f2 .CF (getFlag f1 .CF || getFlag f2 .CF))
    | .singlePass =>
      let r : Int := (dst : Int) + (src : Int) + 1
      (res, setFlag (setFlag (pszc f w r) .OF (ofAdd w dst src r)) .AF (decide (15 < dst % 16 + src % 16 + 1)))
  else (m1, f1)

/-- SBB's result and flags under each `adcSbbMode` (43_alu.md R252). -/
def sbb (mode : AdcSbbMode) (f : Word) (w : Width) (dst src : Nat) : Nat × Word :=
  let m1 := masked w ((dst : Int) - (src : Int))
  let f1 := flagsSub f w dst src
  if getFlag f .CF then
    let res := masked w ((m1 : Int) - 1)
    let f2 := flagsSub f1 w m1 1
    match mode with
    | .twoPassOverwrite => (res, f2)
    | .twoPassOrCarry => (res, setFlag f2 .CF (getFlag f1 .CF || getFlag f2 .CF))
    | .singlePass =>
      let r : Int := (dst : Int) - (src : Int) - 1
      (res, setFlag (setFlag (pszc f w r) .OF (ofSub w dst src r)) .AF (decide (dst % 256 < src % 256 + 1)))
  else (m1, f1)

/-- The result and the flags of an ALU operation (43_alu.md R240). CMP's result is not written. -/
def alu (k : AluOp) (mode : AdcSbbMode) (f : Word) (w : Width) (dst src : Nat) : Nat × Word :=
  match k with
  | .add => (masked w ((dst : Int) + (src : Int)), flagsAdd f w dst src)
  | .or => (dst ||| src, flagsLogic f w (dst ||| src))
  | .adc => adc mode f w dst src
  | .sbb => sbb mode f w dst src
  | .and => (dst &&& src, flagsLogic f w (dst &&& src))
  | .sub => (masked w ((dst : Int) - (src : Int)), flagsSub f w dst src)
  | .xor => (dst ^^^ src, flagsLogic f w (dst ^^^ src))
  | .cmp => (masked w ((dst : Int) - (src : Int)), flagsSub f w dst src)

/-- The condition of a Jcc (45_transfer_control.md R347 to R362). -/
def cond (c : Cond) (f : Word) : Bool :=
  match c with
  | .o => getFlag f .OF
  | .no => !getFlag f .OF
  | .b => getFlag f .CF
  | .nb => !getFlag f .CF
  | .z => getFlag f .ZF
  | .nz => !getFlag f .ZF
  | .be => getFlag f .CF || getFlag f .ZF
  | .a => !getFlag f .CF && !getFlag f .ZF
  | .s => getFlag f .SF
  | .ns => !getFlag f .SF
  | .p => getFlag f .PF
  | .np => !getFlag f .PF
  | .l => getFlag f .SF != getFlag f .OF
  | .nl => getFlag f .SF == getFlag f .OF
  | .le => getFlag f .ZF || (getFlag f .SF != getFlag f .OF)
  | .nle => !getFlag f .ZF && (getFlag f .SF == getFlag f .OF)

/-- One step of a shift or rotate on the value and CF (46_string_shift_muldiv_misc.md R401 to R407). -/
def shiftStep (k : ShiftOp) (w : Width) (x : Nat) (cf : Bool) : Nat × Bool :=
  let top := bits w - 1
  let hi := x.testBit top
  let lo := x.testBit 0
  match k with
  | .rol => ((2 * x + hi.toNat) % 2 ^ bits w, hi)
  | .ror => (x / 2 + lo.toNat * 2 ^ top, lo)
  | .rcl => ((2 * x + cf.toNat) % 2 ^ bits w, hi)
  | .rcr => (x / 2 + cf.toNat * 2 ^ top, lo)
  | .shl => ((2 * x) % 2 ^ bits w, hi)
  | .shr => (x / 2, lo)
  | .sar => (x / 2 + hi.toNat * 2 ^ top, lo)

/-- `c` steps of a shift or rotate (46_string_shift_muldiv_misc.md R400). -/
def shiftSteps (k : ShiftOp) (w : Width) : Nat → Nat × Bool → Nat × Bool
  | 0, p => p
  | n + 1, p => shiftSteps k w n (shiftStep k w p.1 p.2)

/-- OF after a shift or rotate by 1: `old` is the operand, `x` the result and `cf` the new CF
(46_string_shift_muldiv_misc.md R401 to R407). -/
def shiftOF (k : ShiftOp) (w : Width) (old x : Nat) (cf : Bool) : Bool :=
  let top := bits w - 1
  match k with
  | .rol => x.testBit top ^^ cf
  | .ror => x.testBit top ^^ x.testBit (top - 1)
  | .rcl => x.testBit top ^^ cf
  | .rcr => x.testBit top ^^ x.testBit (top - 1)
  | .shl => x.testBit top ^^ cf
  | .shr => old.testBit top
  | .sar => false

/-- Whether an operation is one of the shifts, which apply PSZ and leave AF undefined
(46_string_shift_muldiv_misc.md R400). -/
def isShift : ShiftOp → Bool
  | .rol => false | .ror => false | .rcl => false | .rcr => false
  | .shl => true | .shr => true | .sar => true

/-- The flags a rule calls undefined, each with its value of the `n`-th draw (42_flags.md R224, D31). -/
def drawFlags (n : Nat) : List Flag → Word → Word
  | [], f => f
  | g :: gs, f => drawFlags n gs (setFlag f g (Config.flagDraw n g))

/-- FLAGS after a shift or rotate by a count `c` that is not 0, with draw `n`
(46_string_shift_muldiv_misc.md R400): CF, then OF (drawn when c > 1), then PSZ and a drawn AF for the
shifts. -/
def shiftFlags (k : ShiftOp) (n : Nat) (f : Word) (w : Width) (c old x : Nat) (cf : Bool) : Word :=
  let f := setFlag f .CF cf
  let f := if c = 1 then setFlag f .OF (shiftOF k w old x cf) else drawFlags n [.OF] f
  if isShift k then drawFlags n [.AF] (psz f w x) else f

/-- FLAGS after MUL or IMUL: CF = OF = `big`; SF, ZF, AF and PF drawn (46_string_shift_muldiv_misc.md R410,
R411). -/
def mulFlags (n : Nat) (f : Word) (big : Bool) : Word :=
  drawFlags n [.SF, .ZF, .AF, .PF] (setFlag (setFlag f .CF big) .OF big)

/-- FLAGS after DIV or IDIV: all six status flags drawn (46_string_shift_muldiv_misc.md R412, R413). -/
def divFlags (n : Nat) (f : Word) : Word := drawFlags n [.CF, .PF, .AF, .ZF, .SF, .OF] f

/-- AL and FLAGS after DAA, but for OF (46_string_shift_muldiv_misc.md R420). -/
def daaAdjust (al : Nat) (f : Word) : Nat × Word :=
  let low := decide (9 < al % 16) || getFlag f .AF
  let high := decide (0x99 < al) || getFlag f .CF
  let a1 := if low then (al + 6) % 256 else al
  let a2 := if high then (a1 + 0x60) % 256 else a1
  (a2, psz (setFlag (setFlag f .AF low) .CF high) .byte a2)

/-- AL and FLAGS after DAS, but for OF (46_string_shift_muldiv_misc.md R421). CF keeps what the first part
gave it when the second test fails. -/
def dasAdjust (al : Nat) (f : Word) : Nat × Word :=
  let low := decide (9 < al % 16) || getFlag f .AF
  let high := decide (0x99 < al) || getFlag f .CF
  let a1 := if low then (al + 250) % 256 else al
  let cf1 := if low then getFlag f .CF || decide (al < 6) else getFlag f .CF
  let a2 := if high then (a1 + 0xA0) % 256 else a1
  (a2, psz (setFlag (setFlag f .AF low) .CF (high || cf1)) .byte a2)

/-- Whether AAA or AAS adjusts (46_string_shift_muldiv_misc.md R422, R423). -/
def asciiAdjusts (al : Nat) (f : Word) : Bool := decide (9 < al % 16) || getFlag f .AF

end Sys2Proof.Machine
end

