-- ==== Sys2Proof/Machine/State.lean ====
section
/-! DEFINITION. The state of the machine as plain data (10_state.md), its faults and refusals, and the state
after reset. -/

namespace Sys2Proof.Machine

open Sys2Proof

/-- Why a step stops without a result (00_scope.md R14, 40_decode_dispatch.md R167). -/
inductive Fault where
  /-- `fault(BeyondBackingStore)`: a fetch, an operand access, a stack access or a string element at a
  linear address above 0xFFFFF under `highAddress = fault`. Safe: the spec gives the access no result
  (20_memory.md R76, D5). -/
  | beyondBackingStore
  /-- `fault(UndefinedForm)`: mod 11 in LEA, LDS, LES, CALL Mp and JMP Mp, and reg 4 to 7 in MOV with a
  segment register. Safe: the spec gives the form no meaning (30_encoding.md R140, D11, D42). -/
  | undefinedForm
  /-- The stuck state of a prefix chain that never reaches an opcode: 65,536 bytes that are all prefixes.
  Safe: the step of the block never completes (40_decode_dispatch.md R160, D27, notes/assumptions/8.md). -/
  | endlessPrefixChain
deriving DecidableEq, Repr

/-- Why the model declines an instruction. -/
inductive Refusal where
  /-- an instruction with no meaning yet; safe. -/
  | notModelled (mnemonic : String)
  /-- `refused` of 00_scope.md R14: a tier-G instruction under `admitTierG = false` (D46). Raised by the
  step before the instruction runs; safe: the parameter asks for it. -/
  | tierGNotAdmitted
deriving DecidableEq, Repr

/-- The bytes of memory that differ from what an unlisted address reads as, by rising address
(20_memory.md R70; `Memory.wf` is the canonical form). -/
abbrev Memory := List Host.Cell

/-- Why the core halted (10_state.md R42). -/
inductive HaltCause where
  | hlt
  | unmapped
  | emptyChild
deriving DecidableEq, Repr

/-- The run state with the cause of HALTED, which exists only while HALTED (10_state.md R42). -/
inductive RunState where
  | running
  | halted (cause : HaltCause)
deriving DecidableEq, Repr

/-- The two REP prefix bytes, `repValue` (10_state.md R45): F2 and F3. -/
inductive RepKind where
  /-- F2, REPNE/REPNZ. -/
  | f2
  /-- F3, REP/REPE/REPZ. -/
  | f3
deriving DecidableEq, Repr

/-- The prefix state (10_state.md R45). `rep = some v` is `repActive = true` with `repValue = v`. -/
structure Prefixes where
  lockActive  : Bool
  segOverride : Option SegReg
  rep         : Option RepKind
deriving DecidableEq, Repr

/-- Where the r/m operand lies (10_state.md R43): a register (isReg = 1, rmIndex) or memory (isReg = 0, with
disp, hasDisp, EA, segIdx, linear and template). -/
inductive Place where
  | reg (rmIndex : Reg16)
  | mem (disp : Word) (hasDisp : Bool) (ea : Word) (segIdx : SegReg) (linear : Nat) (template : Nat)
deriving DecidableEq, Repr

/-- The decoded-operand cache (10_state.md R43). `op` holds a byte operand in its low half. -/
structure OperandCache where
  mod   : BitVec 2
  reg   : BitVec 3
  rm    : BitVec 3
  w     : Width
  place : Place
  op    : Word
deriving DecidableEq, Repr

/-- The state of the machine. -/
structure State where
  /-- AX, CX, DX, BX, SP, BP, SI, DI (R30). -/
  gpr       : Gpr
  /-- ES, CS, SS, DS (R34). -/
  segs      : Segs
  /-- IP (R35). -/
  ip        : Word
  /-- FLAGS, all 16 bits as stored (R36, R38). -/
  flags     : Word
  /-- memory (20_memory.md R70). -/
  mem       : Memory
  /-- RUNNING, or HALTED with its cause (R42). -/
  run       : RunState
  /-- the decoded-operand cache, none when empty (R43, R44). -/
  cache     : Option OperandCache
  /-- the prefix state (R45, R46). -/
  pfx       : Prefixes
  /-- the clock accumulator (R48). -/
  clocks    : Nat
  /-- the parameters of 00_scope.md R8; nothing writes them. -/
  params    : Params
  /-- the model's own: how many draws have been made (notes/assumptions/4.md). -/
  draws     : Nat
  /-- the model's own: the port calls that reached a device, newest first (notes/assumptions/5.md). -/
  portCalls : List PortCall
deriving DecidableEq, Repr

/-- The clear prefix state (R46). -/
def Prefixes.clear : Prefixes := { lockActive := false, segOverride := none, rep := none }

/-- The machine right after reset, with the default parameters (10_state.md R50): every register, FLAGS
and IP zero, RUNNING, cache empty, prefix state clear, clocks 0, nothing listed in memory. -/
def State.reset : State :=
  { gpr := ResetState.zero.gpr
    segs := ResetState.zero.segs
    ip := ResetState.zero.ip
    flags := ResetState.zero.flags
    mem := []
    run := .running
    cache := none
    pfx := .clear
    clocks := 0
    params := .default
    draws := 0
    portCalls := [] }

end Sys2Proof.Machine
end

