-- ==== Sys2Proof/Machine/Ops.lean ====
section
/-! DEFINITION. The named operations over registers, memory, the stack and the ports, taking an exception and
returning from one, and the host's two calls. -/

namespace Sys2Proof.Machine

open Sys2Proof

/-- The three outcomes of a step of this machine. -/
abbrev Out := Host.Outcome State Fault Refusal

/-- A computation that may end the step in a model fault. -/
abbrev Res (α : Type) := Except Fault α

/-- The outcome of a computation on the state. -/
def outcome : Res State → Out
  | .ok s => .next s
  | .error f => .fault f

/-! ## Registers -/

/-- `R16[i]` (10_state.md R30). -/
def getR16 (s : State) : Reg16 → Word
  | .ax => s.gpr.ax | .cx => s.gpr.cx | .dx => s.gpr.dx | .bx => s.gpr.bx
  | .sp => s.gpr.sp | .bp => s.gpr.bp | .si => s.gpr.si | .di => s.gpr.di

/-- `R16[i] <- v` (10_state.md R30). -/
def setR16 (s : State) (r : Reg16) (v : Word) : State :=
  { s with gpr :=
    match r with
    | .ax => { s.gpr with ax := v }
    | .cx => { s.gpr with cx := v }
    | .dx => { s.gpr with dx := v }
    | .bx => { s.gpr with bx := v }
    | .sp => { s.gpr with sp := v }
    | .bp => { s.gpr with bp := v }
    | .si => { s.gpr with si := v }
    | .di => { s.gpr with di := v } }

/-- The slot a byte register is half of (10_state.md R31). -/
def byteSlot : Reg8 → Reg16
  | .al => .ax | .cl => .cx | .dl => .dx | .bl => .bx
  | .ah => .ax | .ch => .cx | .dh => .dx | .bh => .bx

/-- Whether a byte register is the high half of its slot (10_state.md R31). -/
def isHighHalf : Reg8 → Bool
  | .al => false | .cl => false | .dl => false | .bl => false
  | .ah => true | .ch => true | .dh => true | .bh => true

/-- `R8[i]` (10_state.md R31). -/
def getR8 (s : State) (r : Reg8) : Byte :=
  if isHighHalf r then hiByte (getR16 s (byteSlot r)) else loByte (getR16 s (byteSlot r))

/-- `R8[i] <- v`: the other half of the slot is kept (10_state.md R31). -/
def setR8 (s : State) (r : Reg8) (v : Byte) : State :=
  setR16 s (byteSlot r)
    (if isHighHalf r then mkWord (loByte (getR16 s (byteSlot r))) v
     else mkWord v (hiByte (getR16 s (byteSlot r))))

/-- The register a 3-bit number names at a width; a byte is held in the low half of a word
(41_addressing.md R182). -/
def getReg (s : State) (w : Width) (r : Reg16) : Word :=
  match w with
  | .byte => zext16 (getR8 s (Reg8.ofNumber r))
  | .word => getR16 s r

/-- Writing the register a 3-bit number names at a width (41_addressing.md R192, R193). -/
def setReg (s : State) (w : Width) (r : Reg16) (v : Word) : State :=
  match w with
  | .byte => setR8 s (Reg8.ofNumber r) (loByte v)
  | .word => setR16 s r v

/-- `S[i]` (10_state.md R34). -/
def getSeg (s : State) : SegReg → Word
  | .es => s.segs.es | .cs => s.segs.cs | .ss => s.segs.ss | .ds => s.segs.ds

/-- `S[i] <- v` (10_state.md R34). -/
def setSeg (s : State) (r : SegReg) (v : Word) : State :=
  { s with segs :=
    match r with
    | .es => { s.segs with es := v }
    | .cs => { s.segs with cs := v }
    | .ss => { s.segs with ss := v }
    | .ds => { s.segs with ds := v } }

/-- `IP <- v`. -/
def setIp (s : State) (v : Word) : State := { s with ip := v }

/-- `FLAGS <- f`. -/
def setFlags (s : State) (f : Word) : State := { s with flags := f }

/-- One flag of the state. -/
def State.flag (s : State) (g : Flag) : Bool := getFlag s.flags g

/-- One flag written. -/
def writeFlag (s : State) (g : Flag) (b : Bool) : State := setFlags s (setFlag s.flags g b)

/-- FLAGS written by a rule that used draw `s.draws`; the draw is spent (42_flags.md R224). -/
def setDrawnFlags (s : State) (f : Word) : State := { s with flags := f, draws := s.draws + 1 }

/-! ## Memory -/

/-- The size of the backing store, 2^20 bytes (20_memory.md R70). -/
def memorySize : Nat := 0x100000

/-- What an address that memory does not list reads as. DESIGN CHOICE, unsafe: the spec's `initMem` has no
default (D8); notes/assumptions/2.md. -/
def unlistedByte : Byte := 0

/-- One byte of memory. -/
def Memory.read : Memory → Nat → Byte
  | [], _ => unlistedByte
  | c :: m, a => if c.1 = a then c.2 else Memory.read m a

/-- A cell before the rest of memory; a byte equal to what an unlisted address reads as is not listed. -/
def Memory.cons (a : Nat) (v : Byte) (m : Memory) : Memory := if v = unlistedByte then m else (a, v) :: m

/-- One byte of memory written, in the canonical form. -/
def Memory.write : Memory → Nat → Byte → Memory
  | [], a, v => Memory.cons a v []
  | c :: m, a, v =>
    if a < c.1 then Memory.cons a v (c :: m)
    else if a = c.1 then Memory.cons a v m
    else c :: Memory.write m a v

/-- Addresses rise from `lo`, stay in the backing store, and no listed byte is what an unlisted one reads
as. -/
def Memory.wfFrom : Nat → Memory → Bool
  | _, [] => true
  | lo, c :: m => decide (lo ≤ c.1) && decide (c.1 < memorySize) && (c.2 != unlistedByte) && Memory.wfFrom (c.1 + 1) m

/-- The canonical form of memory. -/
def Memory.wf (m : Memory) : Bool := Memory.wfFrom 0 m

/-- Memory replaced. -/
def setMem (s : State) (m : Memory) : State := { s with mem := m }

/-- `lin(seg, off) = seg * 16 + off`, not reduced modulo 2^20 (20_memory.md R71). -/
def lin (seg off : Word) : Nat := seg.toNat * 16 + off.toNat

/-- The cell an address names: itself below 2^20, otherwise as `highAddress` says (20_memory.md R76). -/
def physical (p : Params) (a : Nat) : Option Nat :=
  if a < memorySize then some a
  else
    match p.highAddress with
    | .fault => none
    | .wrap20 => some (a % memorySize)

/-- `MemRead(a, 1)` (20_memory.md R72). -/
def readByte (s : State) (a : Nat) : Res Byte :=
  match physical s.params a with
  | some k => .ok (Memory.read s.mem k)
  | none => .error .beyondBackingStore

/-- `MemWrite(a, 1, v)` (20_memory.md R74). -/
def writeByte (s : State) (a : Nat) (v : Byte) : Res State :=
  match physical s.params a with
  | some k => .ok (setMem s (Memory.write s.mem k v))
  | none => .error .beyondBackingStore

/-- `a2`, the address of the high byte of a word whose low byte is at `a`, formed with offset `off`
(20_memory.md R73). Under `segmentWrap` it is `lin(seg, off + 1)`, which is `a` with its offset stepped
modulo 2^16. -/
def secondByte (p : Params) (a : Nat) (off : Word) : Nat :=
  match p.wordSecondByte with
  | .linearPlusOne => a + 1
  | .segmentWrap => a - off.toNat + (off + 1).toNat

/-- `MemRead(a, 2)`, low byte at the lower address (20_memory.md R73, R77). -/
def readWord (s : State) (a : Nat) (off : Word) : Res Word := do
  let lo ← readByte s a
  let hi ← readByte s (secondByte s.params a off)
  .ok (mkWord lo hi)

/-- `MemWrite(a, 2, v)`: if either byte is out of range nothing is kept (20_memory.md R75). -/
def writeWord (s : State) (a : Nat) (off : Word) (v : Word) : Res State := do
  let s ← writeByte s a (loByte v)
  writeByte s (secondByte s.params a off) (hiByte v)

/-- A read of 1 or 2 bytes by width (20_memory.md R80); a byte is held in the low half of a word. -/
def readMem (s : State) (w : Width) (a : Nat) (off : Word) : Res Word :=
  match w with
  | .byte => (readByte s a).map zext16
  | .word => readWord s a off

/-- A write of 1 or 2 bytes by width (20_memory.md R80). -/
def writeMem (s : State) (w : Width) (a : Nat) (off : Word) (v : Word) : Res State :=
  match w with
  | .byte => writeByte s a (loByte v)
  | .word => writeWord s a off v

/-! ## The stack (44_stack_interrupt.md section 1) -/

/-- `Push16(v)`: SP is decremented, then the word is written at SS:SP (44_stack_interrupt.md R290). -/
def push16 (v : Word) (s : State) : Res State :=
  let s := setR16 s .sp (s.gpr.sp - 2)
  writeWord s (lin s.segs.ss s.gpr.sp) s.gpr.sp v

/-- `Pop16()`: the word at SS:SP, and the state with SP incremented (44_stack_interrupt.md R291). -/
def pop16 (s : State) : Res (Word × State) := do
  let v ← readWord s (lin s.segs.ss s.gpr.sp) s.gpr.sp
  .ok (v, setR16 s .sp (s.gpr.sp + 2))

/-! ## Exceptions and interrupts -/

/-- The linear address of the vector-table entry of `n` (20_memory.md R83). -/
def vectorAddr (n : Byte) : Nat := 4 * n.toNat

/-- `interrupt(n)` (44_stack_interrupt.md R300, R301; 60_exceptions.md R469): FLAGS, CS and IP are pushed,
TF and IF cleared after FLAGS is pushed, and control goes to the vector-table entry at linear 4n. A
HALTED core becomes RUNNING. The vector reads have no segment, so their offset is the address itself
(notes/assumptions/15.md). -/
def interrupt (n : Byte) (s : State) : Res State := do
  let s ← push16 s.flags s
  let s := setFlags s (setFlag (setFlag s.flags .TF false) .IF false)
  let s ← push16 s.segs.cs s
  let s ← push16 s.ip s
  let newIp ← readWord s (vectorAddr n) (BitVec.ofNat 16 (vectorAddr n))
  let newCs ← readWord s (vectorAddr n + 2) (BitVec.ofNat 16 (vectorAddr n + 2))
  .ok { setSeg (setIp s newIp) .cs newCs with run := .running }

/-- `raise DivideError` is `interrupt(0)` (00_scope.md R13, 44_stack_interrupt.md R308). -/
def raiseDivideError (s : State) : Res State := interrupt 0 s

/-- The return from an exception: IP, CS and FLAGS are popped, all 16 bits of FLAGS
(44_stack_interrupt.md R305). -/
def interruptReturn (s : State) : Res State := do
  let p ← pop16 s
  let q ← pop16 (setIp p.2 p.1)
  let r ← pop16 (setSeg q.2 .cs q.1)
  .ok (setFlags r.2 r.1)

/-- `halt` with its cause (00_scope.md R13, 10_state.md R42). -/
def halt (c : HaltCause) (s : State) : State := { s with run := .halted c }

/-! ## Ports (20_memory.md section 2) -/

/-- The value of a byte or word call: 8 or 16 bits (20_memory.md R85). -/
def portValue (w : Width) (v : Word) : Word :=
  match w with
  | .byte => zext16 (loByte v)
  | .word => v

/-- Whether the word form of a port call is made (20_memory.md R84). -/
def isWordCall : Width → Bool
  | .byte => false
  | .word => true

/-- `pin(isWord, port)`: an unmapped port reads 0; a mapped port's reply is a draw from its device, and may depend on
every call made before (20_memory.md R84, R85, D38). The result is the value and the state after the call. -/
def portIn (w : Width) (port : Word) (s : State) : Word × State :=
  if s.params.mappedPorts.contains port then
    (portValue w (Config.pinDraw s.draws s.portCalls (isWordCall w) port),
      { s with draws := s.draws + 1, portCalls := .pin (isWordCall w) port :: s.portCalls })
  else (0, s)

/-- `pout(isWord, port, value)`: one call of the device of a mapped port; an unmapped port ignores it
(20_memory.md R84, R85). -/
def portOut (w : Width) (port : Word) (v : Word) (s : State) : State :=
  if s.params.mappedPorts.contains port then
    { s with portCalls := .pout (isWordCall w) port (portValue w v) :: s.portCalls }
  else s

/-! ## The transient state and the host's calls -/

/-- The operand cache and the prefix state cleared (10_state.md R44, R46). -/
def clearTransient (s : State) : State := { s with cache := none, pfx := .clear }

/-- `reset()` as the host calls it: the values of `resetState`, RUNNING, cache and prefixes clear, clocks 0;
memory and the port devices are unchanged (70_reset_and_hazards.md R500). -/
def hostReset (s : State) : State :=
  { s with
    gpr := s.params.resetState.gpr
    segs := s.params.resetState.segs
    ip := s.params.resetState.ip
    flags := s.params.resetState.flags
    run := .running
    cache := none
    pfx := .clear
    clocks := 0 }

/-- `interrupt(n)` as the host calls it, between completed steps or while HALTED (60_exceptions.md R465,
R466, R470). IF is not read. -/
def hostInterrupt (n : Byte) (s : State) : Out := outcome (interrupt n s)

end Sys2Proof.Machine
end

