-- ==== Sys2Proof/Machine/Operands.lean ====
section
/-! DEFINITION. The Mod-Reg-R/M addressing resolver and every operand form (41_addressing.md): effective
address, segment, eager read, cache, and the access helpers the instruction rules use. -/

namespace Sys2Proof.Machine

open Sys2Proof

/-- The sum of a template's registers (41_addressing.md R184). -/
def baseSum (s : State) : EaBase → Word
  | .bxSi => s.gpr.bx + s.gpr.si
  | .bxDi => s.gpr.bx + s.gpr.di
  | .bpSi => s.gpr.bp + s.gpr.si
  | .bpDi => s.gpr.bp + s.gpr.di
  | .si => s.gpr.si
  | .di => s.gpr.di
  | .bp => s.gpr.bp
  | .bx => s.gpr.bx

/-- The displacement, sign-extended from a byte (41_addressing.md R185). -/
def dispValue : Disp → Word
  | .none => 0
  | .d8 v => sext16 v
  | .d16 v => v

/-- Whether a displacement was read (41_addressing.md R185). -/
def hasDisp : Disp → Bool
  | .none => false
  | .d8 _ => true
  | .d16 _ => true

/-- The default segment of a template: SS for the BP-based ones, else DS (41_addressing.md R187). -/
def baseSegment : EaBase → SegReg
  | .bxSi => .ds | .bxDi => .ds | .bpSi => .ss | .bpDi => .ss
  | .si => .ds | .di => .ds | .bp => .ss | .bx => .ds

/-- An override replaces the default segment (41_addressing.md R188; 92_eei_decisions.md D25). -/
def segmentOr (s : State) (default : SegReg) : SegReg := s.pfx.segOverride.getD default

/-- The effective address of a memory form, modulo 2^16 (41_addressing.md R186); 0 for a register. -/
def effectiveAddress (s : State) : RM → Word
  | .reg _ => 0
  | .mem b d => baseSum s b + dispValue d
  | .direct d => d

/-- The segment index of a memory form, with the override (41_addressing.md R187, R188). -/
def effectiveSegment (s : State) : RM → SegReg
  | .reg _ => segmentOr s .ds
  | .mem b _ => segmentOr s (baseSegment b)
  | .direct _ => segmentOr s .ds

/-- `linear = lin(S[segIdx], EA)` of a memory form (41_addressing.md R189). -/
def effectiveLinear (s : State) (rm : RM) : Nat := lin (getSeg s (effectiveSegment s rm)) (effectiveAddress s rm)

/-- The place of an r/m operand, with the template index of the cycle accountant (41_addressing.md R183,
R190, R191). -/
def placeOf (s : State) (rm : RM) : Place :=
  match rm with
  | .reg n => .reg n
  | .mem b d => .mem (dispValue d) (hasDisp d) (effectiveAddress s rm) (effectiveSegment s rm)
      (effectiveLinear s rm) b.bits.toNat
  | .direct d => .mem d true (effectiveAddress s rm) (effectiveSegment s rm) (effectiveLinear s rm) 8

/-- The operand at a place: the register's value, or the eager read of memory (41_addressing.md R183,
R189). -/
def readPlace (s : State) (w : Width) : Place → Res Word
  | .reg n => .ok (getReg s w n)
  | .mem _ _ ea _ linear _ => readMem s w linear ea

/-- `resolve(w)`: the cache contents for a `reg` field and an r/m operand (41_addressing.md R180 to
R190). Memory forms are read whatever the instruction does with them. -/
def resolve (w : Width) (reg : BitVec 3) (rm : RM) (s : State) : Res OperandCache := do
  let op ← readPlace s w (placeOf s rm)
  .ok { mod := rm.modBits, reg := reg, rm := rm.rmBits, w := w, place := placeOf s rm, op := op }

/-- The state with the resolver's output in the cache (10_state.md R43). -/
def withCache (s : State) (c : OperandCache) : State := { s with cache := some c }

/-- `WriteRM(v)`: to the register, or to the cached linear address (41_addressing.md R192). -/
def writeRM (c : OperandCache) (v : Word) (s : State) : Res State :=
  match c.place with
  | .reg n => .ok (setReg s c.w n v)
  | .mem _ _ ea _ linear _ => writeMem s c.w linear ea v

/-- An instruction with a Mod-Reg-R/M byte: the resolver runs once, its output goes to the cache, and the rest
of the instruction works on it (40_decode_dispatch.md R152, R153, R155). -/
def onRM (w : Width) (reg : BitVec 3) (rm : RM) (rest : OperandCache → State → Res State) (s : State) : Out :=
  outcome (do
    let c ← resolve w reg rm s
    rest c (withCache s c))

/-- The second word of a far pointer, at EA + 2 in the operand's segment; a register operand is an
undefined form (30_encoding.md R140; 45_transfer_control.md R337, R367). -/
def readFarSegment (c : OperandCache) (s : State) : Res Word :=
  match c.place with
  | .reg _ => .error .undefinedForm
  | .mem _ _ ea seg _ _ => readWord s (lin (getSeg s seg) (ea + 2)) (ea + 2)

/-- The value of an immediate, a byte in the low half of a word (30_encoding.md R114). -/
def immValue : Imm → Word
  | .ib v => zext16 v
  | .iw v => v

/-- The value of a Grp1 immediate (30_encoding.md R132; 43_alu.md R243). -/
def grpImmValue : GrpImm → Word
  | .ib80 v => zext16 v
  | .iw81 v => v
  | .ib82 v => zext16 v
  | .sx83 v => sext16 v

/-- The value a width keeps of a word: all of it, or its low byte. -/
def keep (w : Width) (v : Word) : Word :=
  match w with
  | .byte => zext16 (loByte v)
  | .word => v

/-- The value of an r/m operand, read at its place (41_addressing.md R183, R189). -/
def rmValue (s : State) (w : Width) (rm : RM) : Res Word := readPlace s w (placeOf s rm)

/-- Whether an r/m operand is a register. -/
def isRegister : RM → Bool
  | .reg _ => true
  | .mem _ _ => false
  | .direct _ => false

/-- The slot a register number names at a width (10_state.md R30, R31). -/
def slotOf (w : Width) (r : Reg16) : Reg16 :=
  match w with
  | .byte => byteSlot (Reg8.ofNumber r)
  | .word => r

/-! ## Where an operand can be accessed -/

/-- Whether an access to one byte is inside the backing store, or wraps into it (20_memory.md R76). -/
def byteAccessible (p : Params) (a : Nat) : Bool := (physical p a).isSome

/-- Whether an access of a width at an address is (20_memory.md R75). -/
def accessible (p : Params) (w : Width) (a : Nat) (off : Word) : Bool :=
  match w with
  | .byte => byteAccessible p a
  | .word => byteAccessible p a && byteAccessible p (secondByte p a off)

/-- Whether the r/m operand can be read: a register always, memory where both its bytes are in range
(41_addressing.md R189). -/
def rmAccessible (s : State) (w : Width) : RM → Bool
  | .reg _ => true
  | .mem b d => accessible s.params w (effectiveLinear s (.mem b d)) (effectiveAddress s (.mem b d))
  | .direct d => accessible s.params w (effectiveLinear s (.direct d)) (effectiveAddress s (.direct d))

/-- The cells of memory an access of a width touches: the byte's, or the low and the high byte's (20_memory.md
R73, R76). -/
def accessCells (p : Params) (w : Width) (a : Nat) (off : Word) : List Nat :=
  match w with
  | .byte => (physical p a).toList
  | .word => (physical p a).toList ++ (physical p (secondByte p a off)).toList

/-- The cells of an r/m operand: none for a register (41_addressing.md R189, R192). -/
def rmCells (s : State) (w : Width) : RM → List Nat
  | .reg _ => []
  | .mem b d => accessCells s.params w (effectiveLinear s (.mem b d)) (effectiveAddress s (.mem b d))
  | .direct d => accessCells s.params w (effectiveLinear s (.direct d)) (effectiveAddress s (.direct d))

/-- The cells of the word at an offset of the stack segment (44_stack_interrupt.md R290). -/
def stackCells (s : State) (off : Word) : List Nat := accessCells s.params .word (lin s.segs.ss off) off

/-- Whether the word at an offset of the stack segment can be accessed (44_stack_interrupt.md R290). -/
def stackAccessible (s : State) (off : Word) : Bool := accessible s.params .word (lin s.segs.ss off) off

end Sys2Proof.Machine
end

