-- ==== Sys2Proof/Machine/Alu.lean ====
section
/-! DEFINITION. Arithmetic and logical instructions (43_alu.md): ADD to CMP, TEST, INC, DEC, NOT, NEG. -/

namespace Sys2Proof.Machine

open Sys2Proof

/-- The write of an ALU result: none for CMP (43_alu.md R251). -/
def aluWrite (k : AluOp) (write : Word → State → Res State) (v : Word) (s : State) : Res State :=
  if k = .cmp then .ok s else write v s

/-- An ALU operation on two operands: the result is written, except for CMP, then FLAGS (43_alu.md R240). -/
def aluApply (k : AluOp) (w : Width) (dst src : Word) (write : Word → State → Res State) (s : State) : Res State := do
  let t ← aluWrite k write (BitVec.ofNat 16 (alu k s.params.adcSbbMode s.flags w dst.toNat src.toNat).1) s
  .ok (setFlags t (alu k s.params.adcSbbMode s.flags w dst.toNat src.toNat).2)

/-- Writing the `reg` operand (41_addressing.md R193). -/
def writeG (w : Width) (r : Reg16) (v : Word) (s : State) : Res State := .ok (setReg s w r v)

/-- The form "r/m, reg" and "reg, r/m" (43_alu.md R241). -/
def aluRmReg (k : AluOp) (d : Dir) (w : Width) (m : ModRM) (s : State) : Out :=
  onRM w m.reg.bits m.rm (fun c s =>
    match d with
    | .toRm => aluApply k w c.op (getReg s w m.reg) (writeRM c) s
    | .toReg => aluApply k w (getReg s w m.reg) c.op (writeG w m.reg) s) s

/-- The form "accumulator, immediate": AL with Ib, AX with Iw (43_alu.md R242). -/
def aluAccImm (k : AluOp) (i : Imm) (s : State) : Out :=
  outcome (aluApply k i.width (getReg s i.width .ax) (immValue i) (writeG i.width .ax) s)

/-- The Grp1 form "r/m, immediate" (43_alu.md R243). -/
def aluRmImm (k : AluOp) (m : ModRM) (i : GrpImm) (s : State) : Out :=
  onRM i.width m.reg.bits m.rm (fun c s => aluApply k i.width c.op (grpImmValue i) (writeRM c) s) s

/-- ADD r/m with reg (43_alu.md R241, R244). -/
def execAddRmReg (d : Dir) (w : Width) (m : ModRM) (s : State) : Out := aluRmReg .add d w m s

/-- ADD accumulator with immediate (43_alu.md R242, R244). -/
def execAddAccImm (i : Imm) (s : State) : Out := aluAccImm .add i s

/-- ADD r/m with immediate (43_alu.md R243, R244). -/
def execAddRmImm (m : ModRM) (i : GrpImm) (s : State) : Out := aluRmImm .add m i s

/-- OR r/m with reg (43_alu.md R241, R245). -/
def execOrRmReg (d : Dir) (w : Width) (m : ModRM) (s : State) : Out := aluRmReg .or d w m s

/-- OR accumulator with immediate (43_alu.md R242, R245). -/
def execOrAccImm (i : Imm) (s : State) : Out := aluAccImm .or i s

/-- OR r/m with immediate (43_alu.md R243, R245). -/
def execOrRmImm (m : ModRM) (i : GrpImm) (s : State) : Out := aluRmImm .or m i s

/-- ADC r/m with reg (43_alu.md R241, R246). -/
def execAdcRmReg (d : Dir) (w : Width) (m : ModRM) (s : State) : Out := aluRmReg .adc d w m s

/-- ADC accumulator with immediate (43_alu.md R242, R246). -/
def execAdcAccImm (i : Imm) (s : State) : Out := aluAccImm .adc i s

/-- ADC r/m with immediate (43_alu.md R243, R246). -/
def execAdcRmImm (m : ModRM) (i : GrpImm) (s : State) : Out := aluRmImm .adc m i s

/-- SBB r/m with reg (43_alu.md R241, R247). -/
def execSbbRmReg (d : Dir) (w : Width) (m : ModRM) (s : State) : Out := aluRmReg .sbb d w m s

/-- SBB accumulator with immediate (43_alu.md R242, R247). -/
def execSbbAccImm (i : Imm) (s : State) : Out := aluAccImm .sbb i s

/-- SBB r/m with immediate (43_alu.md R243, R247). -/
def execSbbRmImm (m : ModRM) (i : GrpImm) (s : State) : Out := aluRmImm .sbb m i s

/-- AND r/m with reg (43_alu.md R241, R248). -/
def execAndRmReg (d : Dir) (w : Width) (m : ModRM) (s : State) : Out := aluRmReg .and d w m s

/-- AND accumulator with immediate (43_alu.md R242, R248). -/
def execAndAccImm (i : Imm) (s : State) : Out := aluAccImm .and i s

/-- AND r/m with immediate (43_alu.md R243, R248). -/
def execAndRmImm (m : ModRM) (i : GrpImm) (s : State) : Out := aluRmImm .and m i s

/-- SUB r/m with reg (43_alu.md R241, R249). -/
def execSubRmReg (d : Dir) (w : Width) (m : ModRM) (s : State) : Out := aluRmReg .sub d w m s

/-- SUB accumulator with immediate (43_alu.md R242, R249). -/
def execSubAccImm (i : Imm) (s : State) : Out := aluAccImm .sub i s

/-- SUB r/m with immediate (43_alu.md R243, R249). -/
def execSubRmImm (m : ModRM) (i : GrpImm) (s : State) : Out := aluRmImm .sub m i s

/-- XOR r/m with reg (43_alu.md R241, R250). -/
def execXorRmReg (d : Dir) (w : Width) (m : ModRM) (s : State) : Out := aluRmReg .xor d w m s

/-- XOR accumulator with immediate (43_alu.md R242, R250). -/
def execXorAccImm (i : Imm) (s : State) : Out := aluAccImm .xor i s

/-- XOR r/m with immediate (43_alu.md R243, R250). -/
def execXorRmImm (m : ModRM) (i : GrpImm) (s : State) : Out := aluRmImm .xor m i s

/-- CMP r/m with reg (43_alu.md R241, R251). -/
def execCmpRmReg (d : Dir) (w : Width) (m : ModRM) (s : State) : Out := aluRmReg .cmp d w m s

/-- CMP accumulator with immediate (43_alu.md R242, R251). -/
def execCmpAccImm (i : Imm) (s : State) : Out := aluAccImm .cmp i s

/-- CMP r/m with immediate (43_alu.md R243, R251). -/
def execCmpRmImm (m : ModRM) (i : GrpImm) (s : State) : Out := aluRmImm .cmp m i s

/-- TEST on two operands: the flags of their AND, nothing else written (43_alu.md R253 to R255). -/
def testFlags (w : Width) (a b : Word) (s : State) : State := setFlags s (flagsLogic s.flags w (a &&& b).toNat)

/-- TEST r/m with reg (43_alu.md R253). -/
def execTestRmReg (w : Width) (m : ModRM) (s : State) : Out :=
  onRM w m.reg.bits m.rm (fun c s => .ok (testFlags w c.op (getReg s w m.reg) s)) s

/-- TEST accumulator with immediate (43_alu.md R254). -/
def execTestAccImm (i : Imm) (s : State) : Out := .next (testFlags i.width (getReg s i.width .ax) (immValue i) s)

/-- TEST r/m with immediate (43_alu.md R255). -/
def execTestRmImm (m : ModRM) (i : Imm) (s : State) : Out :=
  onRM i.width m.reg.bits m.rm (fun c s => .ok (testFlags i.width c.op (immValue i) s)) s

/-- INC r16 (43_alu.md R256). -/
def execIncReg (r : Reg16) (s : State) : Out :=
  .next (setFlags (setR16 s r (getR16 s r + 1)) (flagsAddNC s.flags .word (getR16 s r).toNat 1))

/-- DEC r16 (43_alu.md R257). -/
def execDecReg (r : Reg16) (s : State) : Out :=
  .next (setFlags (setR16 s r (getR16 s r - 1)) (flagsSubNC s.flags .word (getR16 s r).toNat 1))

/-- INC r/m (43_alu.md R258). -/
def execIncRm (w : Width) (m : ModRM) (s : State) : Out :=
  onRM w m.reg.bits m.rm (fun c s => do
    let t ← writeRM c (narrow w (c.op.toNat + 1)) s
    .ok (setFlags t (flagsAddNC s.flags w c.op.toNat 1))) s

/-- DEC r/m (43_alu.md R259). -/
def execDecRm (w : Width) (m : ModRM) (s : State) : Out :=
  onRM w m.reg.bits m.rm (fun c s => do
    let t ← writeRM c (narrow w (c.op.toNat - 1)) s
    .ok (setFlags t (flagsSubNC s.flags w c.op.toNat 1))) s

/-- NOT r/m: the one's complement, no flag written (43_alu.md R260). -/
def execNotRm (w : Width) (m : ModRM) (s : State) : Out :=
  onRM w m.reg.bits m.rm (fun c s => writeRM c (narrow w (~~~c.op).toNat) s) s

/-- NEG r/m, with the flags of `0 - op` (43_alu.md R261, D19). -/
def execNegRm (w : Width) (m : ModRM) (s : State) : Out :=
  onRM w m.reg.bits m.rm (fun c s => do
    let t ← writeRM c (narrow w (0 - (c.op.toNat : Int))) s
    .ok (setFlags t (flagsSub s.flags w 0 c.op.toNat))) s

end Sys2Proof.Machine
end

