-- ==== Sys2Proof/Machine/Control.lean ====
section
/-! DEFINITION. Control transfer (45_transfer_control.md sections 4 to 6). IP in the state is already past the
whole instruction (`IP_after`, 40_decode_dispatch.md R168). -/

namespace Sys2Proof.Machine

open Sys2Proof

/-- A relative jump from IP_after, modulo 2^16 (30_encoding.md R114). -/
def jumpRel (disp : Word) (s : State) : State := setIp s (s.ip + disp)

/-- A jump that changes CS and IP. -/
def jumpFar (off seg : Word) (s : State) : State := setSeg (setIp s off) .cs seg

/-- Jcc, the common rule (45_transfer_control.md R346). -/
def jcc (c : Cond) (disp : Byte) (s : State) : Out :=
  .next (if cond c s.flags then jumpRel (sext16 disp) s else s)

/-- JO (45_transfer_control.md R347). -/
def execJo (disp : Byte) (s : State) : Out := jcc .o disp s

/-- JNO (45_transfer_control.md R348). -/
def execJno (disp : Byte) (s : State) : Out := jcc .no disp s

/-- JB (45_transfer_control.md R349). -/
def execJb (disp : Byte) (s : State) : Out := jcc .b disp s

/-- JNB (45_transfer_control.md R350). -/
def execJnb (disp : Byte) (s : State) : Out := jcc .nb disp s

/-- JZ (45_transfer_control.md R351). -/
def execJz (disp : Byte) (s : State) : Out := jcc .z disp s

/-- JNZ (45_transfer_control.md R352). -/
def execJnz (disp : Byte) (s : State) : Out := jcc .nz disp s

/-- JBE (45_transfer_control.md R353). -/
def execJbe (disp : Byte) (s : State) : Out := jcc .be disp s

/-- JA (45_transfer_control.md R354). -/
def execJa (disp : Byte) (s : State) : Out := jcc .a disp s

/-- JS (45_transfer_control.md R355). -/
def execJs (disp : Byte) (s : State) : Out := jcc .s disp s

/-- JNS (45_transfer_control.md R356). -/
def execJns (disp : Byte) (s : State) : Out := jcc .ns disp s

/-- JP (45_transfer_control.md R357). -/
def execJp (disp : Byte) (s : State) : Out := jcc .p disp s

/-- JNP (45_transfer_control.md R358). -/
def execJnp (disp : Byte) (s : State) : Out := jcc .np disp s

/-- JL (45_transfer_control.md R359). -/
def execJl (disp : Byte) (s : State) : Out := jcc .l disp s

/-- JNL (45_transfer_control.md R360). -/
def execJnl (disp : Byte) (s : State) : Out := jcc .nl disp s

/-- JLE (45_transfer_control.md R361). -/
def execJle (disp : Byte) (s : State) : Out := jcc .le disp s

/-- JNLE (JG) (45_transfer_control.md R362). -/
def execJnle (disp : Byte) (s : State) : Out := jcc .nle disp s

/-- JMP short (45_transfer_control.md R363). -/
def execJmpShort (disp : Byte) (s : State) : Out := .next (jumpRel (sext16 disp) s)

/-- JMP near (45_transfer_control.md R364). -/
def execJmpNear (disp : Word) (s : State) : Out := .next (jumpRel disp s)

/-- JMP far direct (45_transfer_control.md R365). -/
def execJmpFar (off seg : Word) (s : State) : Out := .next (jumpFar off seg s)

/-- JMP near indirect (45_transfer_control.md R366). -/
def execJmpRm (m : ModRM) (s : State) : Out := onRM .word m.reg.bits m.rm (fun c s => .ok (setIp s c.op)) s

/-- JMP far indirect (45_transfer_control.md R367). -/
def execJmpFarMem (m : ModRM) (s : State) : Out :=
  onRM .word m.reg.bits m.rm (fun c s => do
    let seg ← readFarSegment c s
    .ok (jumpFar c.op seg s)) s

/-- CALL near: IP_after is pushed (45_transfer_control.md R368). -/
def execCallNear (disp : Word) (s : State) : Out :=
  outcome (do
    let t ← push16 s.ip s
    .ok (jumpRel disp t))

/-- CS then IP pushed, then the far jump (45_transfer_control.md R369, R371). -/
def callFarTo (off seg : Word) (s : State) : Res State := do
  let t ← push16 s.segs.cs s
  let t ← push16 t.ip t
  .ok (jumpFar off seg t)

/-- CALL far direct (45_transfer_control.md R369). -/
def execCallFar (off seg : Word) (s : State) : Out := outcome (callFarTo off seg s)

/-- CALL near indirect: the cached value is the target (45_transfer_control.md R370). -/
def execCallRm (m : ModRM) (s : State) : Out :=
  onRM .word m.reg.bits m.rm (fun c s => do
    let t ← push16 s.ip s
    .ok (setIp t c.op)) s

/-- CALL far indirect: both pointer words are read before the pushes (45_transfer_control.md R371). -/
def execCallFarMem (m : ModRM) (s : State) : Out :=
  onRM .word m.reg.bits m.rm (fun c s => do
    let seg ← readFarSegment c s
    callFarTo c.op seg s) s

/-- A near return that releases `n` more bytes (45_transfer_control.md R372, R373). -/
def returnNear (n : Word) (s : State) : Res State := do
  let p ← pop16 s
  let s := setIp p.2 p.1
  .ok (setR16 s .sp (s.gpr.sp + n))

/-- A far return that releases `n` more bytes (45_transfer_control.md R374, R375). -/
def returnFar (n : Word) (s : State) : Res State := do
  let p ← pop16 s
  let q ← pop16 (setIp p.2 p.1)
  let s := setSeg q.2 .cs q.1
  .ok (setR16 s .sp (s.gpr.sp + n))

/-- RET near (45_transfer_control.md R372). -/
def execRet (s : State) : Out := outcome (returnNear 0 s)

/-- RET near with release (45_transfer_control.md R373). -/
def execRetImm (n : Word) (s : State) : Out := outcome (returnNear n s)

/-- RET far (45_transfer_control.md R374). -/
def execRetf (s : State) : Out := outcome (returnFar 0 s)

/-- RET far with release (45_transfer_control.md R375). -/
def execRetfImm (n : Word) (s : State) : Out := outcome (returnFar n s)

/-- CX decremented, then the jump when CX is not 0 and the flag condition holds (45_transfer_control.md
R376 to R378). -/
def loopWhen (ok : Bool) (disp : Byte) (s : State) : Out :=
  let t := setR16 s .cx (s.gpr.cx - 1)
  .next (if t.gpr.cx != 0 && ok then jumpRel (sext16 disp) t else t)

/-- LOOP (45_transfer_control.md R376). -/
def execLoop (disp : Byte) (s : State) : Out := loopWhen true disp s

/-- LOOPE / LOOPZ (45_transfer_control.md R377). -/
def execLoopz (disp : Byte) (s : State) : Out := loopWhen (s.flag .ZF) disp s

/-- LOOPNE / LOOPNZ (45_transfer_control.md R378). -/
def execLoopnz (disp : Byte) (s : State) : Out := loopWhen (!s.flag .ZF) disp s

/-- JCXZ (45_transfer_control.md R379). -/
def execJcxz (disp : Byte) (s : State) : Out :=
  .next (if s.gpr.cx = 0 then jumpRel (sext16 disp) s else s)

end Sys2Proof.Machine
end

