-- ==== Sys2Proof/Machine/MulDiv.lean ====
section
/-! DEFINITION. Multiply, divide and decimal adjust (46_string_shift_muldiv_misc.md sections 3 and 4). -/

namespace Sys2Proof.Machine

open Sys2Proof

/-- `signed_w` of an operand held in a word (00_scope.md R10). -/
def signedValue (w : Width) (v : Word) : Int :=
  match w with
  | .byte => (loByte v).toInt
  | .word => v.toInt

/-- The double-width result: AX for a byte, DX:AX for a word (46_string_shift_muldiv_misc.md R410, R411). -/
def writeDouble (w : Width) (p : Int) (s : State) : State :=
  match w with
  | .byte => setR16 s .ax (BitVec.ofInt 16 p)
  | .word => setR16 (setR16 s .ax (BitVec.ofInt 16 p)) .dx (BitVec.ofInt 16 (p / 65536))

/-- Whether an unsigned product has a high half that is not 0 (46_string_shift_muldiv_misc.md R410). -/
def productHigh (w : Width) (p : Nat) : Bool := decide (2 ^ bits w ≤ p)

/-- Whether a signed product does not fit the low half (46_string_shift_muldiv_misc.md R411). -/
def productWide (w : Width) (p : Int) : Bool :=
  decide (p < -(2 ^ (bits w - 1)) ∨ 2 ^ (bits w - 1) ≤ p)

/-- An unsigned product, with CF = OF = whether its high half is not 0 (46_string_shift_muldiv_misc.md R410). -/
def mulApply (w : Width) (p : Nat) (s : State) : State :=
  setDrawnFlags (writeDouble w p s) (mulFlags s.draws s.flags (productHigh w p))

/-- MUL (46_string_shift_muldiv_misc.md R410). -/
def execMul (w : Width) (m : ModRM) (s : State) : Out :=
  onRM w m.reg.bits m.rm (fun c s => .ok (mulApply w ((getReg s w .ax).toNat * c.op.toNat) s)) s

/-- A signed product, with CF = OF = whether it does not fit the low half (46_string_shift_muldiv_misc.md R411). -/
def imulApply (w : Width) (p : Int) (s : State) : State :=
  setDrawnFlags (writeDouble w p s) (mulFlags s.draws s.flags (productWide w p))

/-- IMUL (46_string_shift_muldiv_misc.md R411). -/
def execImul (w : Width) (m : ModRM) (s : State) : Out :=
  onRM w m.reg.bits m.rm (fun c s => .ok (imulApply w (signedValue w (getReg s w .ax) * signedValue w c.op) s)) s

/-- The dividend as an unsigned number: AX for a byte, DX:AX for a word (46_string_shift_muldiv_misc.md
R412). -/
def dividend (w : Width) (s : State) : Nat :=
  match w with
  | .byte => s.gpr.ax.toNat
  | .word => s.gpr.dx.toNat * 65536 + s.gpr.ax.toNat

/-- The dividend as a signed number (46_string_shift_muldiv_misc.md R413). -/
def signedDividend (w : Width) (s : State) : Int :=
  match w with
  | .byte => s.gpr.ax.toInt
  | .word => (s.gpr.dx ++ s.gpr.ax).toInt

/-- Quotient and remainder: AL and AH for a byte, AX and DX for a word (46_string_shift_muldiv_misc.md R412,
R413). -/
def writeQuotient (w : Width) (q r : Int) (s : State) : State :=
  match w with
  | .byte => setR16 s .ax (mkWord (BitVec.ofInt 8 q) (BitVec.ofInt 8 r))
  | .word => setR16 (setR16 s .ax (BitVec.ofInt 16 q)) .dx (BitVec.ofInt 16 r)

/-- Whether DIV completes: the divisor is not 0 and the quotient fits (46_string_shift_muldiv_misc.md R412). -/
def divFits (w : Width) (d v : Nat) : Bool := decide (v ≠ 0 ∧ d / v < 2 ^ bits w)

/-- Quotient and remainder written, all six status flags drawn (46_string_shift_muldiv_misc.md R412, R413). -/
def quotientApply (w : Width) (q r : Int) (s : State) : State :=
  setDrawnFlags (writeQuotient w q r s) (divFlags s.draws s.flags)

/-- DIV by `v`, or a divide error that writes nothing first (46_string_shift_muldiv_misc.md R412,
44_stack_interrupt.md R308). -/
def divApply (w : Width) (v : Nat) (s : State) : Res State :=
  if divFits w (dividend w s) v then
    .ok (quotientApply w ((dividend w s / v : Nat) : Int) ((dividend w s % v : Nat) : Int) s)
  else raiseDivideError s

/-- DIV (46_string_shift_muldiv_misc.md R412). -/
def execDiv (w : Width) (m : ModRM) (s : State) : Out := onRM w m.reg.bits m.rm (fun c s => divApply w c.op.toNat s) s

/-- The least quotient IDIV accepts, by the parameter `idivRange` (46_string_shift_muldiv_misc.md R413, D32). -/
def idivLeast (w : Width) : IdivRange → Int
  | .i8086 => 1 - 2 ^ (bits w - 1)
  | .full => -(2 ^ (bits w - 1))

/-- Whether IDIV completes; the quotient is truncated toward zero (46_string_shift_muldiv_misc.md R413). -/
def idivFits (r : IdivRange) (w : Width) (d v : Int) : Bool :=
  decide (v ≠ 0 ∧ idivLeast w r ≤ d.tdiv v ∧ d.tdiv v < 2 ^ (bits w - 1))

/-- IDIV by `v`, or a divide error that writes nothing first; the remainder has the sign of the dividend
(46_string_shift_muldiv_misc.md R413, 44_stack_interrupt.md R308). -/
def idivApply (w : Width) (v : Int) (s : State) : Res State :=
  if idivFits s.params.idivRange w (signedDividend w s) v then
    .ok (quotientApply w ((signedDividend w s).tdiv v) ((signedDividend w s).tmod v) s)
  else raiseDivideError s

/-- IDIV (46_string_shift_muldiv_misc.md R413). -/
def execIdiv (w : Width) (m : ModRM) (s : State) : Out := onRM w m.reg.bits m.rm (fun c s => idivApply w (signedValue w c.op) s) s

/-- The two halves of AX written. -/
def setAx (s : State) (al ah : Nat) : State := setR16 s .ax (mkWord (BitVec.ofNat 8 al) (BitVec.ofNat 8 ah))

/-- AL and FLAGS of a decimal adjustment written, OF drawn (46_string_shift_muldiv_misc.md R420, R421). -/
def decimalAdjust (p : Nat × Word) (s : State) : State :=
  setDrawnFlags (setR8 s .al (BitVec.ofNat 8 p.1)) (drawFlags s.draws [.OF] p.2)

/-- DAA; OF drawn (46_string_shift_muldiv_misc.md R420). -/
def execDaa (s : State) : Out := .next (decimalAdjust (daaAdjust (getR8 s .al).toNat s.flags) s)

/-- DAS; OF drawn (46_string_shift_muldiv_misc.md R421). -/
def execDas (s : State) : Out := .next (decimalAdjust (dasAdjust (getR8 s .al).toNat s.flags) s)

/-- AX after AAA or AAS: AL and AH stepped by `dal` and `dah` when the adjustment is made, then AL's low digit
kept (46_string_shift_muldiv_misc.md R422, R423). -/
def asciiAx (dal dah : Nat) (adj : Bool) (s : State) : State :=
  if adj then setAx s (((getR8 s .al).toNat + dal) % 16) (((getR8 s .ah).toNat + dah) % 256)
  else setAx s ((getR8 s .al).toNat % 16) (getR8 s .ah).toNat

/-- AAA or AAS: AF = CF = whether the adjustment was made; OF, SF, ZF and PF drawn (46_string_shift_muldiv_misc.md
R422, R423). -/
def asciiAdjust (dal dah : Nat) (adj : Bool) (s : State) : State :=
  setDrawnFlags (asciiAx dal dah adj s)
    (drawFlags s.draws [.OF, .SF, .ZF, .PF] (setFlag (setFlag s.flags .AF adj) .CF adj))

/-- AAA (46_string_shift_muldiv_misc.md R422). -/
def execAaa (s : State) : Out := 
  .next (asciiAdjust 6 1 (asciiAdjusts (getR8 s .al).toNat s.flags) s)

/-- AAS: subtraction of 6 and 1, modulo 256 (46_string_shift_muldiv_misc.md R423). -/
def execAas (s : State) : Out := 
  .next (asciiAdjust 250 255 (asciiAdjusts (getR8 s .al).toNat s.flags) s)

/-- AL and AH written, PSZ by the new AL, then OF, AF and CF drawn (46_string_shift_muldiv_misc.md R424, R425). -/
def splitAx (al ah : Nat) (s : State) : State :=
  setDrawnFlags (setAx s al ah) (drawFlags s.draws [.OF, .AF, .CF] (psz s.flags .byte (al : Nat)))

/-- AAM; a base of 0 is a divide error; OF, AF and CF drawn (46_string_shift_muldiv_misc.md R424, D48). -/
def execAam (base : Byte) (s : State) : Out :=
  if base = 0 then outcome (raiseDivideError s)
  else .next (splitAx ((getR8 s .al).toNat % base.toNat) ((getR8 s .al).toNat / base.toNat) s)

/-- AAD; OF, AF and CF drawn (46_string_shift_muldiv_misc.md R425). -/
def execAad (base : Byte) (s : State) : Out :=
  .next (splitAx (((getR8 s .ah).toNat * base.toNat + (getR8 s .al).toNat) % 256) 0 s)

end Sys2Proof.Machine
end

