-- ==== Sys2Proof/Machine/PortIo.lean ====
section
/-! DEFINITION. IN, OUT, ESC and WAIT (46_string_shift_muldiv_misc.md sections 5 and 6). -/

namespace Sys2Proof.Machine

open Sys2Proof

/-- IN from a port into AL or AX (46_string_shift_muldiv_misc.md R440, R442). -/
def inPort (w : Width) (port : Word) (s : State) : Out :=
  let p := portIn w port s
  .next (setReg p.2 w .ax p.1)

/-- IN accumulator, immediate port (46_string_shift_muldiv_misc.md R440). -/
def execInImm (w : Width) (port : Byte) (s : State) : Out := inPort w (zext16 port) s

/-- IN accumulator, DX (46_string_shift_muldiv_misc.md R442). -/
def execInDx (w : Width) (s : State) : Out := inPort w s.gpr.dx s

/-- OUT immediate port, accumulator (46_string_shift_muldiv_misc.md R441). -/
def execOutImm (w : Width) (port : Byte) (s : State) : Out := .next (portOut w (zext16 port) (getReg s w .ax) s)

/-- OUT DX, accumulator (46_string_shift_muldiv_misc.md R443). -/
def execOutDx (w : Width) (s : State) : Out := .next (portOut w s.gpr.dx (getReg s w .ax) s)

/-- ESC: the resolver runs with w = 1, and nothing else (46_string_shift_muldiv_misc.md R445, D34). -/
def execEsc (_ : BitVec 3) (m : ModRM) (s : State) : Out := onRM .word m.reg.bits m.rm (fun _ s => .ok s) s

/-- WAIT: nothing but the advance of IP (46_string_shift_muldiv_misc.md R447, D34). -/
def execWait (s : State) : Out := .next s

end Sys2Proof.Machine
end

