-- ==== Sys2Proof/Machine/Prefix.lean ====
section
/-! DEFINITION. The prefixes and the empty slots (40_decode_dispatch.md). A prefix sets its field of the prefix
state; the step nests the dispatch of the next byte and clears the field on return (R156, Machine/Cycle.lean). -/

namespace Sys2Proof.Machine

open Sys2Proof

/-- A segment override sets `segOverride` (40_decode_dispatch.md R157); the innermost one stands (R160). -/
def overrideSegment (r : SegReg) (s : State) : Out := .next { s with pfx := { s.pfx with segOverride := some r } }

/-- ES: (40_decode_dispatch.md R157). -/
def execSegEs (s : State) : Out := overrideSegment .es s

/-- CS: (40_decode_dispatch.md R157). -/
def execSegCs (s : State) : Out := overrideSegment .cs s

/-- SS: (40_decode_dispatch.md R157). -/
def execSegSs (s : State) : Out := overrideSegment .ss s

/-- DS: (40_decode_dispatch.md R157). -/
def execSegDs (s : State) : Out := overrideSegment .ds s

/-- LOCK sets `lockActive`, which no rule reads (40_decode_dispatch.md R158, D22). -/
def execLock (s : State) : Out := .next { s with pfx := { s.pfx with lockActive := true } }

/-- A REP prefix sets `repActive` and `repValue` (40_decode_dispatch.md R159). -/
def repPrefix (k : RepKind) (s : State) : Out := .next { s with pfx := { s.pfx with rep := some k } }

/-- REPNE / REPNZ, F2 (40_decode_dispatch.md R159). -/
def execRepnz (s : State) : Out := repPrefix .f2 s

/-- REP / REPE / REPZ, F3 (40_decode_dispatch.md R159). -/
def execRepz (s : State) : Out := repPrefix .f3 s

/-- An `Empty` slot halts the core, IP past the byte (40_decode_dispatch.md R151, D49). -/
def execUnmapped (_ : Byte) (s : State) : Out := .next (halt .unmapped s)

/-- The width the demux of an opcode byte resolves with: 1 for 8F, else bit 0 (30_encoding.md R122). -/
def demuxWidth (op : Byte) : Width := if op = 0x8F then .word else Width.ofBool (op.getLsbD 0)

/-- An `Empty` child: the resolver runs first, then the core halts (40_decode_dispatch.md R153, R154, D10). -/
def execEmptyChild (op : Byte) (m : ModRM) (s : State) : Out :=
  onRM (demuxWidth op) m.reg.bits m.rm (fun _ s => .ok (halt .emptyChild s)) s

end Sys2Proof.Machine
end

