-- ==== Sys2Proof/Machine/Shift.lean ====
section
/-! DEFINITION. The Grp2 shifts and rotates (46_string_shift_muldiv_misc.md section 2). -/

namespace Sys2Proof.Machine

open Sys2Proof

/-- The count of a Grp2 instruction: 1, or the whole of CL, not masked (46_string_shift_muldiv_misc.md R400,
D33). -/
def shiftCount (c : ShiftCount) (s : State) : Nat :=
  match c with
  | .one => 1
  | .cl => (getR8 s .cl).toNat

/-- Whether a Grp2 instruction with a count that is not 0 draws a flag: AF for the shifts, OF for a count
above 1 (46_string_shift_muldiv_misc.md R400). -/
def shiftDraws (k : ShiftOp) (c : Nat) : Bool := isShift k || c != 1

/-- FLAGS written by a shift or rotate, with the draw spent where one was made. -/
def writeShiftFlags (k : ShiftOp) (n : Nat) (f : Word) (s : State) : State :=
  if shiftDraws k n then setDrawnFlags s f else setFlags s f

/-- A shift or rotate by `n` of a resolved operand: nothing at all for `n` = 0, else the result, CF, OF, and for
the shifts PSZ and a drawn AF (46_string_shift_muldiv_misc.md R400). -/
def shiftApply (k : ShiftOp) (w : Width) (n : Nat) (c : OperandCache) (s : State) : Res State :=
  if n = 0 then .ok s
  else do
    let t ← writeRM c (BitVec.ofNat 16 (shiftSteps k w n (c.op.toNat, s.flag .CF)).1) s
    .ok (writeShiftFlags k n
      (shiftFlags k s.draws s.flags w n c.op.toNat (shiftSteps k w n (c.op.toNat, s.flag .CF)).1
        (shiftSteps k w n (c.op.toNat, s.flag .CF)).2) t)

/-- A Grp2 instruction (46_string_shift_muldiv_misc.md R400). -/
def shiftRm (k : ShiftOp) (count : ShiftCount) (w : Width) (m : ModRM) (s : State) : Out :=
  onRM w m.reg.bits m.rm (fun c s => shiftApply k w (shiftCount count s) c s) s

/-- ROL (46_string_shift_muldiv_misc.md R401). -/
def execRol (c : ShiftCount) (w : Width) (m : ModRM) (s : State) : Out := shiftRm .rol c w m s

/-- ROR (46_string_shift_muldiv_misc.md R402). -/
def execRor (c : ShiftCount) (w : Width) (m : ModRM) (s : State) : Out := shiftRm .ror c w m s

/-- RCL (46_string_shift_muldiv_misc.md R403). -/
def execRcl (c : ShiftCount) (w : Width) (m : ModRM) (s : State) : Out := shiftRm .rcl c w m s

/-- RCR (46_string_shift_muldiv_misc.md R404). -/
def execRcr (c : ShiftCount) (w : Width) (m : ModRM) (s : State) : Out := shiftRm .rcr c w m s

/-- SHL (46_string_shift_muldiv_misc.md R405). -/
def execShl (c : ShiftCount) (w : Width) (m : ModRM) (s : State) : Out := shiftRm .shl c w m s

/-- SHR (46_string_shift_muldiv_misc.md R406). -/
def execShr (c : ShiftCount) (w : Width) (m : ModRM) (s : State) : Out := shiftRm .shr c w m s

/-- SAR (46_string_shift_muldiv_misc.md R407). -/
def execSar (c : ShiftCount) (w : Width) (m : ModRM) (s : State) : Out := shiftRm .sar c w m s

end Sys2Proof.Machine
end

