-- ==== Sys2Proof/Machine/Stack.lean ====
section
/-! DEFINITION. PUSH, POP, PUSHF, POPF, INT, INTO, IRET and HLT (44_stack_interrupt.md). -/

namespace Sys2Proof.Machine

open Sys2Proof

/-- The value PUSH r16 stores: for SP, the parameter `pushSpValue` chooses SP before or after the decrement
(44_stack_interrupt.md R292, D28). -/
def pushRegValue (r : Reg16) (s : State) : Word :=
  match s.params.pushSpValue with
  | .old => getR16 s r
  | .new => if r = .sp then s.gpr.sp - 2 else getR16 s r

/-- PUSH r16 (44_stack_interrupt.md R292). -/
def execPushReg (r : Reg16) (s : State) : Out := outcome (push16 (pushRegValue r s) s)

/-- PUSH sreg (44_stack_interrupt.md R294). -/
def execPushSeg (r : SegReg) (s : State) : Out := outcome (push16 (getSeg s r) s)

/-- PUSH r/m16: the value the resolver read before SP changed (44_stack_interrupt.md R296). -/
def execPushRm (m : ModRM) (s : State) : Out := onRM .word m.reg.bits m.rm (fun c s => push16 c.op s) s

/-- POP r16: the register is written after SP, so POP SP leaves the popped value
(44_stack_interrupt.md R293, D29). -/
def execPopReg (r : Reg16) (s : State) : Out :=
  outcome (do
    let p ← pop16 s
    .ok (setR16 p.2 r p.1))

/-- POP sreg (44_stack_interrupt.md R295). -/
def execPopSeg (r : SegReg) (s : State) : Out :=
  outcome (do
    let p ← pop16 s
    .ok (setSeg p.2 r p.1))

/-- POP r/m16: the address is the one the resolver computed before the pop (44_stack_interrupt.md R297). -/
def execPopRm (m : ModRM) (s : State) : Out :=
  onRM .word m.reg.bits m.rm (fun c s => do
    let p ← pop16 s
    writeRM c p.1 p.2) s

/-- PUSHF: all 16 bits as stored (44_stack_interrupt.md R298). -/
def execPushf (s : State) : Out := outcome (push16 s.flags s)

/-- POPF: all 16 bits, none forced (44_stack_interrupt.md R299, D3). -/
def execPopf (s : State) : Out :=
  outcome (do
    let p ← pop16 s
    .ok (setFlags p.2 p.1))

/-- INT 3 (44_stack_interrupt.md R302). -/
def execInt3 (s : State) : Out := outcome (interrupt 3 s)

/-- INT Ib (44_stack_interrupt.md R303). -/
def execInt (n : Byte) (s : State) : Out := outcome (interrupt n s)

/-- INTO: `interrupt(4)` when OF is set (44_stack_interrupt.md R304). -/
def execInto (s : State) : Out := outcome (if s.flag .OF then interrupt 4 s else .ok s)

/-- IRET (44_stack_interrupt.md R305). -/
def execIret (s : State) : Out := outcome (interruptReturn s)

/-- HLT (44_stack_interrupt.md R306). -/
def execHlt (s : State) : Out := .next (halt .hlt s)

end Sys2Proof.Machine
end

