-- ==== Sys2Proof/Machine/Strings.lean ====
section
/-! DEFINITION. The string instructions and REP (46_string_shift_muldiv_misc.md section 1). -/

namespace Sys2Proof.Machine

open Sys2Proof

/-- The step of SI and DI: the element size, up or down by DF (46_string_shift_muldiv_misc.md R390). -/
def stringDelta (w : Width) (s : State) : Word :=
  let n : Word := match w with | .byte => 1 | .word => 2
  if s.flag .DF then -n else n

/-- `advance(SI)` (46_string_shift_muldiv_misc.md R390). -/
def advanceSi (w : Width) (s : State) : State := setR16 s .si (s.gpr.si + stringDelta w s)

/-- `advance(DI)` (46_string_shift_muldiv_misc.md R390). -/
def advanceDi (w : Width) (s : State) : State := setR16 s .di (s.gpr.di + stringDelta w s)

/-- `srcAddr`: SI in DS or the override segment (46_string_shift_muldiv_misc.md R390, D25). -/
def stringSource (s : State) : Nat := lin (getSeg s (segmentOr s .ds)) s.gpr.si

/-- `dstAddr`: DI in ES, whatever the override (46_string_shift_muldiv_misc.md R390). -/
def stringDest (s : State) : Nat := lin s.segs.es s.gpr.di

/-- The body of MOVS (46_string_shift_muldiv_misc.md R392). -/
def movsBody (w : Width) (s : State) : Res State := do
  let v ← readMem s w (stringSource s) s.gpr.si
  let t ← writeMem s w (stringDest s) s.gpr.di v
  .ok (advanceDi w (advanceSi w t))

/-- The body of CMPS (46_string_shift_muldiv_misc.md R393). -/
def cmpsBody (w : Width) (s : State) : Res State := do
  let a ← readMem s w (stringSource s) s.gpr.si
  let b ← readMem s w (stringDest s) s.gpr.di
  .ok (advanceDi w (advanceSi w (setFlags s (flagsSub s.flags w a.toNat b.toNat))))

/-- The body of STOS (46_string_shift_muldiv_misc.md R394). -/
def stosBody (w : Width) (s : State) : Res State := do
  let t ← writeMem s w (stringDest s) s.gpr.di (getReg s w .ax)
  .ok (advanceDi w t)

/-- The body of LODS (46_string_shift_muldiv_misc.md R395). -/
def lodsBody (w : Width) (s : State) : Res State := do
  let v ← readMem s w (stringSource s) s.gpr.si
  .ok (advanceSi w (setReg s w .ax v))

/-- The body of SCAS (46_string_shift_muldiv_misc.md R396). -/
def scasBody (w : Width) (s : State) : Res State := do
  let b ← readMem s w (stringDest s) s.gpr.di
  .ok (advanceDi w (setFlags s (flagsSub s.flags w (getReg s w .ax).toNat b.toNat)))

/-- `n` repetitions of a body, each followed by the decrement of CX, ended early by `stop`
(46_string_shift_muldiv_misc.md R391). -/
def repeatBody (stop : State → Bool) (body : State → Res State) : Nat → State → Res State
  | 0, s => .ok s
  | n + 1, s => do
    let t ← body s
    let t := setR16 t .cx (t.gpr.cx - 1)
    if stop t then .ok t else repeatBody stop body n t

/-- MOVS, STOS and LODS repeat until CX = 0 under either REP byte (46_string_shift_muldiv_misc.md R391). -/
def neverStops (_ : RepKind) (_ : State) : Bool := false

/-- CMPS and SCAS stop under F3 when ZF = 0 and under F2 when ZF = 1 (46_string_shift_muldiv_misc.md R391). -/
def stopsOnZF (k : RepKind) (s : State) : Bool :=
  match k with
  | .f3 => !s.flag .ZF
  | .f2 => s.flag .ZF

/-- A string instruction: its body once, or under REP as often as CX says (46_string_shift_muldiv_misc.md
R391). No body writes CX, so CX reaches 0 exactly when CX repetitions have been made. -/
def stringOp (stop : RepKind → State → Bool) (body : State → Res State) (s : State) : Out :=
  outcome (
    match s.pfx.rep with
    | none => body s
    | some k => repeatBody (stop k) body s.gpr.cx.toNat s)

/-- MOVSB (46_string_shift_muldiv_misc.md R392). -/
def execMovsb (s : State) : Out := stringOp neverStops (movsBody .byte) s

/-- MOVSW (46_string_shift_muldiv_misc.md R392). -/
def execMovsw (s : State) : Out := stringOp neverStops (movsBody .word) s

/-- CMPSB (46_string_shift_muldiv_misc.md R393). -/
def execCmpsb (s : State) : Out := stringOp stopsOnZF (cmpsBody .byte) s

/-- CMPSW (46_string_shift_muldiv_misc.md R393). -/
def execCmpsw (s : State) : Out := stringOp stopsOnZF (cmpsBody .word) s

/-- STOSB (46_string_shift_muldiv_misc.md R394). -/
def execStosb (s : State) : Out := stringOp neverStops (stosBody .byte) s

/-- STOSW (46_string_shift_muldiv_misc.md R394). -/
def execStosw (s : State) : Out := stringOp neverStops (stosBody .word) s

/-- LODSB (46_string_shift_muldiv_misc.md R395). -/
def execLodsb (s : State) : Out := stringOp neverStops (lodsBody .byte) s

/-- LODSW (46_string_shift_muldiv_misc.md R395). -/
def execLodsw (s : State) : Out := stringOp neverStops (lodsBody .word) s

/-- SCASB (46_string_shift_muldiv_misc.md R396). -/
def execScasb (s : State) : Out := stringOp stopsOnZF (scasBody .byte) s

/-- SCASW (46_string_shift_muldiv_misc.md R396). -/
def execScasw (s : State) : Out := stringOp stopsOnZF (scasBody .word) s

end Sys2Proof.Machine
end

