-- ==== Sys2Proof/Machine/Transfer.lean ====
section
/-! DEFINITION. Data transfer and flag operations (45_transfer_control.md sections 1 to 3 and 7). -/

namespace Sys2Proof.Machine

open Sys2Proof

/-- MOV r/m with reg, both directions (45_transfer_control.md R330). -/
def execMovRmReg (d : Dir) (w : Width) (m : ModRM) (s : State) : Out :=
  onRM w m.reg.bits m.rm (fun c s =>
    match d with
    | .toRm => writeRM c (getReg s w m.reg) s
    | .toReg => .ok (setReg s w m.reg c.op)) s

/-- MOV r/m with immediate (45_transfer_control.md R331). -/
def execMovRmImm (m : ModRM) (i : Imm) (s : State) : Out :=
  onRM i.width m.reg.bits m.rm (fun c s => writeRM c (immValue i) s) s

/-- MOV r/m16, sreg; reg 4 to 7 is an undefined form (45_transfer_control.md R332, D42). -/
def execMovRmSeg (m : ModRM) (s : State) : Out :=
  onRM .word m.reg.bits m.rm (fun c s =>
    match SegReg.ofNumber m.reg with
    | none => .error .undefinedForm
    | some r => writeRM c (getSeg s r) s) s

/-- MOV sreg, r/m16; MOV CS is allowed; reg 4 to 7 is an undefined form (45_transfer_control.md R333, D42). -/
def execMovSegRm (m : ModRM) (s : State) : Out :=
  onRM .word m.reg.bits m.rm (fun c s =>
    match SegReg.ofNumber m.reg with
    | none => .error .undefinedForm
    | some r => .ok (setSeg s r c.op)) s

/-- The linear address of a moffs operand, in DS or the override segment (45_transfer_control.md R334, D25). -/
def moffsLinear (s : State) (off : Word) : Nat := lin (getSeg s (segmentOr s .ds)) off

/-- MOV accumulator with moffs (45_transfer_control.md R334). -/
def execMovMoffs (d : Dir) (w : Width) (off : Word) (s : State) : Out :=
  outcome (
    match d with
    | .toReg => do
      let v ← readMem s w (moffsLinear s off) off
      .ok (setReg s w .ax v)
    | .toRm => writeMem s w (moffsLinear s off) off (getReg s w .ax))

/-- MOV register with immediate (45_transfer_control.md R335). -/
def execMovRegImm (r : Reg16) (i : Imm) (s : State) : Out := .next (setReg s i.width r (immValue i))

/-- LEA: the offset, not the linear address; a register operand is an undefined form
(45_transfer_control.md R336, 30_encoding.md R140). -/
def execLea (m : ModRM) (s : State) : Out :=
  onRM .word m.reg.bits m.rm (fun c s =>
    match c.place with
    | .reg _ => .error .undefinedForm
    | .mem _ _ ea _ _ _ => .ok (setR16 s m.reg ea)) s

/-- A far pointer loaded into reg and a segment register (45_transfer_control.md R337, R338). -/
def loadFar (seg : SegReg) (m : ModRM) (s : State) : Out :=
  onRM .word m.reg.bits m.rm (fun c s => do
    let v ← readFarSegment c s
    .ok (setSeg (setR16 s m.reg c.op) seg v)) s

/-- LDS (45_transfer_control.md R337). -/
def execLds (m : ModRM) (s : State) : Out := loadFar .ds m s

/-- LES (45_transfer_control.md R338). -/
def execLes (m : ModRM) (s : State) : Out := loadFar .es m s

/-- XCHG r/m with reg (45_transfer_control.md R339). -/
def execXchgRmReg (w : Width) (m : ModRM) (s : State) : Out :=
  onRM w m.reg.bits m.rm (fun c s => writeRM c (getReg s w m.reg) (setReg s w m.reg c.op)) s

/-- XCHG AX, r16 (45_transfer_control.md R340). -/
def execXchgAcc (r : Reg16) (s : State) : Out := .next (setR16 (setR16 s .ax (getR16 s r)) r s.gpr.ax)

/-- NOP, which is XCHG AX,AX (45_transfer_control.md R340). -/
def execNop (s : State) : Out := .next s

/-- CBW (45_transfer_control.md R341). -/
def execCbw (s : State) : Out := .next (setR16 s .ax (sext16 (getR8 s .al)))

/-- CWD (45_transfer_control.md R342). -/
def execCwd (s : State) : Out := .next (setR16 s .dx (if s.gpr.ax.getLsbD 15 then 0xFFFF else 0))

/-- LAHF: FLAGS[7:0] as stored (45_transfer_control.md R343, D40). -/
def execLahf (s : State) : Out := .next (setR8 s .ah (loByte s.flags))

/-- FLAGS after SAHF: SF, ZF, AF, PF and CF from AH, the other bits unchanged
(45_transfer_control.md R344, D40). -/
def sahfFlags (f : Word) (ah : Byte) : Word := (f &&& 0xFF2A) ||| (zext16 ah &&& 0x00D5)

/-- SAHF (45_transfer_control.md R344). -/
def execSahf (s : State) : Out := .next (setFlags s (sahfFlags s.flags (getR8 s .ah)))

/-- The offset of the XLAT table entry: (BX + AL) mod 2^16 (45_transfer_control.md R345). -/
def xlatOffset (s : State) : Word := s.gpr.bx + zext16 (getR8 s .al)

/-- XLAT (45_transfer_control.md R345, D25). -/
def execXlat (s : State) : Out :=
  outcome (do
    let v ← readByte s (lin (getSeg s (segmentOr s .ds)) (xlatOffset s))
    .ok (setR8 s .al v))

/-- CLC (45_transfer_control.md R380). -/
def execClc (s : State) : Out := .next (writeFlag s .CF false)

/-- STC (45_transfer_control.md R381). -/
def execStc (s : State) : Out := .next (writeFlag s .CF true)

/-- CMC (45_transfer_control.md R382). -/
def execCmc (s : State) : Out := .next (writeFlag s .CF (!s.flag .CF))

/-- CLI (45_transfer_control.md R383). -/
def execCli (s : State) : Out := .next (writeFlag s .IF false)

/-- STI (45_transfer_control.md R384). -/
def execSti (s : State) : Out := .next (writeFlag s .IF true)

/-- CLD (45_transfer_control.md R385). -/
def execCld (s : State) : Out := .next (writeFlag s .DF false)

/-- STD (45_transfer_control.md R386). -/
def execStd (s : State) : Out := .next (writeFlag s .DF true)

end Sys2Proof.Machine
end

