-- ==== Sys2Proof/Machine/Dispatch.lean ====
section
/-! DEFINITION. The dispatch from an instruction to its meaning (40_decode_dispatch.md R152, R155). -/

namespace Sys2Proof.Machine

open Sys2Proof

/-- The meaning of an instruction, on a state whose IP is already past the instruction. -/
def exec (i : Instr) (s : State) : Host.Outcome State Fault Refusal :=
  match i with
  | .addRmReg d w m => Sys2Proof.Machine.execAddRmReg d w m s
  | .addAccImm imm => Sys2Proof.Machine.execAddAccImm imm s
  | .addRmImm m imm => Sys2Proof.Machine.execAddRmImm m imm s
  | .orRmReg d w m => Sys2Proof.Machine.execOrRmReg d w m s
  | .orAccImm imm => Sys2Proof.Machine.execOrAccImm imm s
  | .orRmImm m imm => Sys2Proof.Machine.execOrRmImm m imm s
  | .adcRmReg d w m => Sys2Proof.Machine.execAdcRmReg d w m s
  | .adcAccImm imm => Sys2Proof.Machine.execAdcAccImm imm s
  | .adcRmImm m imm => Sys2Proof.Machine.execAdcRmImm m imm s
  | .sbbRmReg d w m => Sys2Proof.Machine.execSbbRmReg d w m s
  | .sbbAccImm imm => Sys2Proof.Machine.execSbbAccImm imm s
  | .sbbRmImm m imm => Sys2Proof.Machine.execSbbRmImm m imm s
  | .andRmReg d w m => Sys2Proof.Machine.execAndRmReg d w m s
  | .andAccImm imm => Sys2Proof.Machine.execAndAccImm imm s
  | .andRmImm m imm => Sys2Proof.Machine.execAndRmImm m imm s
  | .subRmReg d w m => Sys2Proof.Machine.execSubRmReg d w m s
  | .subAccImm imm => Sys2Proof.Machine.execSubAccImm imm s
  | .subRmImm m imm => Sys2Proof.Machine.execSubRmImm m imm s
  | .xorRmReg d w m => Sys2Proof.Machine.execXorRmReg d w m s
  | .xorAccImm imm => Sys2Proof.Machine.execXorAccImm imm s
  | .xorRmImm m imm => Sys2Proof.Machine.execXorRmImm m imm s
  | .cmpRmReg d w m => Sys2Proof.Machine.execCmpRmReg d w m s
  | .cmpAccImm imm => Sys2Proof.Machine.execCmpAccImm imm s
  | .cmpRmImm m imm => Sys2Proof.Machine.execCmpRmImm m imm s
  | .testRmReg w m => Sys2Proof.Machine.execTestRmReg w m s
  | .testAccImm imm => Sys2Proof.Machine.execTestAccImm imm s
  | .testRmImm m imm => Sys2Proof.Machine.execTestRmImm m imm s
  | .incReg r => Sys2Proof.Machine.execIncReg r s
  | .incRm w m => Sys2Proof.Machine.execIncRm w m s
  | .decReg r => Sys2Proof.Machine.execDecReg r s
  | .decRm w m => Sys2Proof.Machine.execDecRm w m s
  | .notRm w m => Sys2Proof.Machine.execNotRm w m s
  | .negRm w m => Sys2Proof.Machine.execNegRm w m s
  | .pushReg r => Sys2Proof.Machine.execPushReg r s
  | .pushSeg r => Sys2Proof.Machine.execPushSeg r s
  | .pushRm m => Sys2Proof.Machine.execPushRm m s
  | .popReg r => Sys2Proof.Machine.execPopReg r s
  | .popSeg r => Sys2Proof.Machine.execPopSeg r s
  | .popRm m => Sys2Proof.Machine.execPopRm m s
  | .pushf => Sys2Proof.Machine.execPushf s
  | .popf => Sys2Proof.Machine.execPopf s
  | .int3 => Sys2Proof.Machine.execInt3 s
  | .int n => Sys2Proof.Machine.execInt n s
  | .into => Sys2Proof.Machine.execInto s
  | .iret => Sys2Proof.Machine.execIret s
  | .hlt => Sys2Proof.Machine.execHlt s
  | .movRmReg d w m => Sys2Proof.Machine.execMovRmReg d w m s
  | .movRmImm m imm => Sys2Proof.Machine.execMovRmImm m imm s
  | .movRmSeg m => Sys2Proof.Machine.execMovRmSeg m s
  | .movSegRm m => Sys2Proof.Machine.execMovSegRm m s
  | .movMoffs d w off => Sys2Proof.Machine.execMovMoffs d w off s
  | .movRegImm r imm => Sys2Proof.Machine.execMovRegImm r imm s
  | .lea m => Sys2Proof.Machine.execLea m s
  | .lds m => Sys2Proof.Machine.execLds m s
  | .les m => Sys2Proof.Machine.execLes m s
  | .xchgRmReg w m => Sys2Proof.Machine.execXchgRmReg w m s
  | .xchgAcc r => Sys2Proof.Machine.execXchgAcc r s
  | .nop => Sys2Proof.Machine.execNop s
  | .cbw => Sys2Proof.Machine.execCbw s
  | .cwd => Sys2Proof.Machine.execCwd s
  | .lahf => Sys2Proof.Machine.execLahf s
  | .sahf => Sys2Proof.Machine.execSahf s
  | .xlat => Sys2Proof.Machine.execXlat s
  | .jo disp => Sys2Proof.Machine.execJo disp s
  | .jno disp => Sys2Proof.Machine.execJno disp s
  | .jb disp => Sys2Proof.Machine.execJb disp s
  | .jnb disp => Sys2Proof.Machine.execJnb disp s
  | .jz disp => Sys2Proof.Machine.execJz disp s
  | .jnz disp => Sys2Proof.Machine.execJnz disp s
  | .jbe disp => Sys2Proof.Machine.execJbe disp s
  | .ja disp => Sys2Proof.Machine.execJa disp s
  | .js disp => Sys2Proof.Machine.execJs disp s
  | .jns disp => Sys2Proof.Machine.execJns disp s
  | .jp disp => Sys2Proof.Machine.execJp disp s
  | .jnp disp => Sys2Proof.Machine.execJnp disp s
  | .jl disp => Sys2Proof.Machine.execJl disp s
  | .jnl disp => Sys2Proof.Machine.execJnl disp s
  | .jle disp => Sys2Proof.Machine.execJle disp s
  | .jnle disp => Sys2Proof.Machine.execJnle disp s
  | .jmpShort disp => Sys2Proof.Machine.execJmpShort disp s
  | .jmpNear disp => Sys2Proof.Machine.execJmpNear disp s
  | .jmpFar off seg => Sys2Proof.Machine.execJmpFar off seg s
  | .jmpRm m => Sys2Proof.Machine.execJmpRm m s
  | .jmpFarMem m => Sys2Proof.Machine.execJmpFarMem m s
  | .callNear disp => Sys2Proof.Machine.execCallNear disp s
  | .callFar off seg => Sys2Proof.Machine.execCallFar off seg s
  | .callRm m => Sys2Proof.Machine.execCallRm m s
  | .callFarMem m => Sys2Proof.Machine.execCallFarMem m s
  | .ret => Sys2Proof.Machine.execRet s
  | .retImm n => Sys2Proof.Machine.execRetImm n s
  | .retf => Sys2Proof.Machine.execRetf s
  | .retfImm n => Sys2Proof.Machine.execRetfImm n s
  | .loop disp => Sys2Proof.Machine.execLoop disp s
  | .loopz disp => Sys2Proof.Machine.execLoopz disp s
  | .loopnz disp => Sys2Proof.Machine.execLoopnz disp s
  | .jcxz disp => Sys2Proof.Machine.execJcxz disp s
  | .clc => Sys2Proof.Machine.execClc s
  | .stc => Sys2Proof.Machine.execStc s
  | .cmc => Sys2Proof.Machine.execCmc s
  | .cli => Sys2Proof.Machine.execCli s
  | .sti => Sys2Proof.Machine.execSti s
  | .cld => Sys2Proof.Machine.execCld s
  | .std => Sys2Proof.Machine.execStd s
  | .movsb => Sys2Proof.Machine.execMovsb s
  | .movsw => Sys2Proof.Machine.execMovsw s
  | .cmpsb => Sys2Proof.Machine.execCmpsb s
  | .cmpsw => Sys2Proof.Machine.execCmpsw s
  | .stosb => Sys2Proof.Machine.execStosb s
  | .stosw => Sys2Proof.Machine.execStosw s
  | .lodsb => Sys2Proof.Machine.execLodsb s
  | .lodsw => Sys2Proof.Machine.execLodsw s
  | .scasb => Sys2Proof.Machine.execScasb s
  | .scasw => Sys2Proof.Machine.execScasw s
  | .rol c w m => Sys2Proof.Machine.execRol c w m s
  | .ror c w m => Sys2Proof.Machine.execRor c w m s
  | .rcl c w m => Sys2Proof.Machine.execRcl c w m s
  | .rcr c w m => Sys2Proof.Machine.execRcr c w m s
  | .shl c w m => Sys2Proof.Machine.execShl c w m s
  | .shr c w m => Sys2Proof.Machine.execShr c w m s
  | .sar c w m => Sys2Proof.Machine.execSar c w m s
  | .mul w m => Sys2Proof.Machine.execMul w m s
  | .imul w m => Sys2Proof.Machine.execImul w m s
  | .div w m => Sys2Proof.Machine.execDiv w m s
  | .idiv w m => Sys2Proof.Machine.execIdiv w m s
  | .daa => Sys2Proof.Machine.execDaa s
  | .das => Sys2Proof.Machine.execDas s
  | .aaa => Sys2Proof.Machine.execAaa s
  | .aas => Sys2Proof.Machine.execAas s
  | .aam base => Sys2Proof.Machine.execAam base s
  | .aad base => Sys2Proof.Machine.execAad base s
  | .inImm w port => Sys2Proof.Machine.execInImm w port s
  | .inDx w => Sys2Proof.Machine.execInDx w s
  | .outImm w port => Sys2Proof.Machine.execOutImm w port s
  | .outDx w => Sys2Proof.Machine.execOutDx w s
  | .esc n m => Sys2Proof.Machine.execEsc n m s
  | .wait => Sys2Proof.Machine.execWait s
  | .segEs => Sys2Proof.Machine.execSegEs s
  | .segCs => Sys2Proof.Machine.execSegCs s
  | .segSs => Sys2Proof.Machine.execSegSs s
  | .segDs => Sys2Proof.Machine.execSegDs s
  | .lock => Sys2Proof.Machine.execLock s
  | .repnz => Sys2Proof.Machine.execRepnz s
  | .repz => Sys2Proof.Machine.execRepz s
  | .unmapped op => Sys2Proof.Machine.execUnmapped op s
  | .emptyChild op m => Sys2Proof.Machine.execEmptyChild op m s

end Sys2Proof.Machine
end

