-- ==== Sys2Proof/WellFormed.lean ====
section
/-! DEFINITION. Which terms of `Instr` are instructions: exactly those some byte sequence decodes to. -/

namespace Sys2Proof

/-- BP with no displacement has no encoding: mod 00, rm 110 is the direct form (41_addressing.md R184). -/
def RM.wf : RM → Bool
  | .mem .bp .none => false
  | .mem _ _ => true
  | .reg _ => true
  | .direct _ => true

/-- The Mod-Reg-R/M byte of an instruction that has one (30_encoding.md R111, R121). -/
def Instr.modrm? : Instr → Option ModRM
  | .addRmReg _ _ m | .orRmReg _ _ m | .adcRmReg _ _ m | .sbbRmReg _ _ m
  | .andRmReg _ _ m | .subRmReg _ _ m | .xorRmReg _ _ m | .cmpRmReg _ _ m => some m
  | .addRmImm m _ | .orRmImm m _ | .adcRmImm m _ | .sbbRmImm m _
  | .andRmImm m _ | .subRmImm m _ | .xorRmImm m _ | .cmpRmImm m _ => some m
  | .addAccImm _ | .orAccImm _ | .adcAccImm _ | .sbbAccImm _
  | .andAccImm _ | .subAccImm _ | .xorAccImm _ | .cmpAccImm _ => none
  | .testRmReg _ m | .xchgRmReg _ m | .movRmReg _ _ m | .movRmSeg m | .movSegRm m
  | .lea m | .lds m | .les m | .esc _ m | .emptyChild _ m => some m
  | .testRmImm m _ | .movRmImm m _ => some m
  | .incRm _ m | .decRm _ m | .notRm _ m | .negRm _ m
  | .mul _ m | .imul _ m | .div _ m | .idiv _ m => some m
  | .rol _ _ m | .ror _ _ m | .rcl _ _ m | .rcr _ _ m | .shl _ _ m | .shr _ _ m | .sar _ _ m => some m
  | .pushRm m | .popRm m | .jmpRm m | .jmpFarMem m | .callRm m | .callFarMem m => some m
  | .testAccImm _ | .incReg _ | .decReg _ | .pushReg _ | .pushSeg _ | .popReg _ | .popSeg _ | .pushf | .popf
  | .int3 | .int _ | .into | .iret | .hlt | .movMoffs _ _ _ | .movRegImm _ _ | .xchgAcc _ | .nop
  | .cbw | .cwd | .lahf | .sahf | .xlat
  | .jo _ | .jno _ | .jb _ | .jnb _ | .jz _ | .jnz _ | .jbe _ | .ja _
  | .js _ | .jns _ | .jp _ | .jnp _ | .jl _ | .jnl _ | .jle _ | .jnle _
  | .jmpShort _ | .jmpNear _ | .jmpFar _ _ | .callNear _ | .callFar _ _ | .ret | .retImm _ | .retf | .retfImm _
  | .loop _ | .loopz _ | .loopnz _ | .jcxz _ | .clc | .stc | .cmc | .cli | .sti | .cld | .std
  | .movsb | .movsw | .cmpsb | .cmpsw | .stosb | .stosw | .lodsb | .lodsw | .scasb | .scasw
  | .daa | .das | .aaa | .aas | .aam _ | .aad _ | .inImm _ _ | .inDx _ | .outImm _ _ | .outDx _ | .wait
  | .segEs | .segCs | .segSs | .segDs | .lock | .repnz | .repz | .unmapped _ => none

/-- The r/m operand of an instruction that has a Mod-Reg-R/M byte (30_encoding.md R112). -/
abbrev Instr.rm? (i : Instr) : Option RM := i.modrm?.map ModRM.rm

/-- Whether a `reg` value of an opcode byte is an `Empty` child of a demux slot (30_encoding.md R139). -/
def isEmptyChild (op : Byte) (reg : Reg16) : Bool :=
  match registry op with
  | .demux c => (c.getD reg.bits.toNat none).isNone
  | .empty => false
  | .direct _ => false

/-- The checks beside the r/m operand's: `Empty` slots and children are those of the registry (R138,
R139), 90 is NOP and not XCHG AX,AX (the opcode table's row), there is no POP CS (R138), and a demux child has the
`reg` value the opcode map binds it at (R131 to R137). -/
def Instr.ownCheck : Instr → Bool
  | .unmapped op => registry op == .empty
  | .emptyChild op m => isEmptyChild op m.reg
  | .xchgAcc r => r != .ax
  | .popSeg r => r != .cs
  | .addRmImm m _ | .testRmImm m _ | .movRmImm m _ | .incRm _ m | .popRm m | .rol _ _ m => m.reg.bits == 0
  | .orRmImm m _ | .decRm _ m | .ror _ _ m => m.reg.bits == 1
  | .adcRmImm m _ | .notRm _ m | .rcl _ _ m | .callRm m => m.reg.bits == 2
  | .sbbRmImm m _ | .negRm _ m | .rcr _ _ m | .callFarMem m => m.reg.bits == 3
  | .andRmImm m _ | .mul _ m | .shl _ _ m | .jmpRm m => m.reg.bits == 4
  | .subRmImm m _ | .imul _ m | .shr _ _ m | .jmpFarMem m => m.reg.bits == 5
  | .xorRmImm m _ | .div _ m | .pushRm m => m.reg.bits == 6
  | .cmpRmImm m _ | .idiv _ m | .sar _ _ m => m.reg.bits == 7
  | _ => true

/-- An instruction that some bytes decode to. -/
def Instr.wf (i : Instr) : Bool := i.rm?.all RM.wf && i.ownCheck

end Sys2Proof
end

