-- ==== Sys2Proof/Decode.lean ====
section
/-! DEFINITION. The decoder, from bytes to an instruction, and the encoder, both from the opcode map and the
instruction format of 30_encoding.md. The decoder is total: every byte has a slot, and it refuses only
a byte list that ends inside an instruction. -/

namespace Sys2Proof

/-- Why the decoder refuses a byte list. -/
inductive DecodeError where
  /-- the list ends before the instruction does. -/
  | truncated
deriving DecidableEq, Repr

/-- A decoded part and the bytes after it. -/
abbrev Parse (α : Type) := Except DecodeError (α × List Byte)

/-- A parse whose result is passed through `f`. -/
def Parse.map {α β : Type} (f : α → β) : Parse α → Parse β
  | .ok (a, r) => .ok (f a, r)
  | .error e => .error e

/-- One byte of the instruction stream (`Fetch8`, 00_scope.md R12). -/
def takeByte : List Byte → Parse Byte
  | [] => .error .truncated
  | b :: r => .ok (b, r)

/-- A little-endian word of the instruction stream (`Fetch16`, 00_scope.md R12). -/
def takeWord : List Byte → Parse Word
  | lo :: hi :: r => .ok (mkWord lo hi, r)
  | [_] => .error .truncated
  | [] => .error .truncated

/-- An immediate `Iv` (30_encoding.md R114). -/
def takeImm (w : Width) (bs : List Byte) : Parse Imm :=
  match w with
  | .byte => (takeByte bs).map .ib
  | .word => (takeWord bs).map .iw

/-- A far pointer `Ap`: the offset word, then the segment word (30_encoding.md R114). -/
def takeFar (bs : List Byte) : Parse (Word × Word) :=
  match takeWord bs with
  | .ok (off, r) => (takeWord r).map (fun seg => (off, seg))
  | .error e => .error e

/-- The r/m operand of the fields `mod` and `rm`, with its displacement (30_encoding.md R112, R115,
41_addressing.md R183 to R185). -/
def takeRM (mod : BitVec 2) (rm : BitVec 3) (bs : List Byte) : Parse RM :=
  match mod.toNat with
  | 0 => if rm = 6 then (takeWord bs).map .direct else .ok (.mem (.ofBits rm) .none, bs)
  | 1 => (takeByte bs).map (fun d => .mem (.ofBits rm) (.d8 d))
  | 2 => (takeWord bs).map (fun d => .mem (.ofBits rm) (.d16 d))
  | _ => .ok (.reg (.ofBits rm), bs)

/-- A Mod-Reg-R/M byte and its displacement (30_encoding.md R111; the split of 41_addressing.md R181). -/
def takeModRM : List Byte → Parse ModRM
  | [] => .error .truncated
  | b :: bs =>
    (takeRM (b.extractLsb' 6 2) (b.extractLsb' 0 3) bs).map
      (fun rm => { reg := .ofBits (b.extractLsb' 3 3), rm := rm })

/-- Bit 0 of the opcode byte, `w` (30_encoding.md R113). -/
def opWidth (op : Byte) : Width := .ofBool (op.getLsbD 0)

/-- Bit 1 of the opcode byte, `d` (30_encoding.md R113). -/
def opDir (op : Byte) : Dir := .ofBool (op.getLsbD 1)

/-- Bits 2:0 of the opcode byte, `rrr` (30_encoding.md R117). -/
def opReg (op : Byte) : Reg16 := .ofBits (op.extractLsb' 0 3)

/-- Bits 5:3 of the opcode byte, `ooo` (43_alu.md R240). -/
def opAlu (op : Byte) : AluOp := .ofBits (op.extractLsb' 3 3)

/-- Bits 4:3 of the opcode byte, `ss` (30_encoding.md R113). -/
def opSeg (op : Byte) : SegReg := .ofBits (op.extractLsb' 3 2)

/-- The r/m, reg form of an ALU operation (43_alu.md R241). -/
def aluRmRegInstr : AluOp → Dir → Width → ModRM → Instr
  | .add => .addRmReg | .or => .orRmReg | .adc => .adcRmReg | .sbb => .sbbRmReg
  | .and => .andRmReg | .sub => .subRmReg | .xor => .xorRmReg | .cmp => .cmpRmReg

/-- The accumulator, immediate form of an ALU operation (43_alu.md R242). -/
def aluAccImmInstr : AluOp → Imm → Instr
  | .add => .addAccImm | .or => .orAccImm | .adc => .adcAccImm | .sbb => .sbbAccImm
  | .and => .andAccImm | .sub => .subAccImm | .xor => .xorAccImm | .cmp => .cmpAccImm

/-- The Grp1 form of an ALU operation (43_alu.md R243). -/
def aluRmImmInstr : AluOp → ModRM → GrpImm → Instr
  | .add => .addRmImm | .or => .orRmImm | .adc => .adcRmImm | .sbb => .sbbRmImm
  | .and => .andRmImm | .sub => .subRmImm | .xor => .xorRmImm | .cmp => .cmpRmImm

/-- The Grp2 instruction of an operation (46_string_shift_muldiv_misc.md R400). -/
def shiftInstr : ShiftOp → ShiftCount → Width → ModRM → Instr
  | .rol => .rol | .ror => .ror | .rcl => .rcl | .rcr => .rcr | .shl => .shl | .shr => .shr | .sar => .sar

/-- The conditional jump of a condition (45_transfer_control.md R346). -/
def jccInstr : Cond → Byte → Instr
  | .o => .jo | .no => .jno | .b => .jb | .nb => .jnb | .z => .jz | .nz => .jnz | .be => .jbe | .a => .ja
  | .s => .js | .ns => .jns | .p => .jp | .np => .jnp | .l => .jl | .nl => .jnl | .le => .jle | .nle => .jnle

/-- The segment override of a segment (40_decode_dispatch.md R157). -/
def segInstr : SegReg → Instr
  | .es => .segEs | .cs => .segCs | .ss => .segSs | .ds => .segDs

/-- 90 is NOP and 91 to 97 are XCHG AX,r16 (45_transfer_control.md R340, the opcode table's rows). -/
def xchgAccInstr : Reg16 → Instr
  | .ax => .nop
  | .cx => .xchgAcc .cx | .dx => .xchgAcc .dx | .bx => .xchgAcc .bx
  | .sp => .xchgAcc .sp | .bp => .xchgAcc .bp | .si => .xchgAcc .si | .di => .xchgAcc .di

/-- The byte or word form of a string instruction by bit 0 of its opcode (R390). -/
def byWidth (op : Byte) (b w : Instr) : Instr :=
  match opWidth op with
  | .byte => b
  | .word => w

/-- The Grp1 immediate of an opcode byte 80 to 83 (30_encoding.md R132). -/
def takeGrpImm (op : Byte) (bs : List Byte) : Parse GrpImm :=
  match op.toNat % 4 with
  | 0 => (takeByte bs).map .ib80
  | 1 => (takeWord bs).map .iw81
  | 2 => (takeByte bs).map .ib82
  | _ => (takeByte bs).map .sx83

/-- The instruction of a direct slot: the handler reads the fields of the opcode byte and takes what
follows it (30_encoding.md R109, R113, R114; 40_decode_dispatch.md R152). -/
def decodeDirect (h : Handler) (op : Byte) (bs : List Byte) : Parse Instr :=
  match h with
  | .aluRmReg => (takeModRM bs).map (aluRmRegInstr (opAlu op) (opDir op) (opWidth op))
  | .aluAccImm => (takeImm (opWidth op) bs).map (aluAccImmInstr (opAlu op))
  | .pushSeg => .ok (.pushSeg (opSeg op), bs)
  | .popSeg => .ok (.popSeg (opSeg op), bs)
  | .segOverride => .ok (segInstr (opSeg op), bs)
  | .daa => .ok (.daa, bs)
  | .das => .ok (.das, bs)
  | .aaa => .ok (.aaa, bs)
  | .aas => .ok (.aas, bs)
  | .incReg => .ok (.incReg (opReg op), bs)
  | .decReg => .ok (.decReg (opReg op), bs)
  | .pushReg => .ok (.pushReg (opReg op), bs)
  | .popReg => .ok (.popReg (opReg op), bs)
  | .jcc => (takeByte bs).map (jccInstr (.ofBits (op.extractLsb' 0 4)))
  | .testRmReg => (takeModRM bs).map (.testRmReg (opWidth op))
  | .xchgRmReg => (takeModRM bs).map (.xchgRmReg (opWidth op))
  | .movRmReg => (takeModRM bs).map (.movRmReg (opDir op) (opWidth op))
  | .movRmSeg => (takeModRM bs).map .movRmSeg
  | .lea => (takeModRM bs).map .lea
  | .movSegRm => (takeModRM bs).map .movSegRm
  | .xchgAcc => .ok (xchgAccInstr (opReg op), bs)
  | .cbw => .ok (.cbw, bs)
  | .cwd => .ok (.cwd, bs)
  | .callFar => (takeFar bs).map (fun p => .callFar p.1 p.2)
  | .wait => .ok (.wait, bs)
  | .pushf => .ok (.pushf, bs)
  | .popf => .ok (.popf, bs)
  | .sahf => .ok (.sahf, bs)
  | .lahf => .ok (.lahf, bs)
  | .movMoffs => (takeWord bs).map (.movMoffs (.ofBool !(op.getLsbD 1)) (opWidth op))
  | .movs => .ok (byWidth op .movsb .movsw, bs)
  | .cmps => .ok (byWidth op .cmpsb .cmpsw, bs)
  | .testAccImm => (takeImm (opWidth op) bs).map .testAccImm
  | .stos => .ok (byWidth op .stosb .stosw, bs)
  | .lods => .ok (byWidth op .lodsb .lodsw, bs)
  | .scas => .ok (byWidth op .scasb .scasw, bs)
  | .movRegImm => (takeImm (.ofBool (op.getLsbD 3)) bs).map (.movRegImm (opReg op))
  | .retImm => (takeWord bs).map .retImm
  | .ret => .ok (.ret, bs)
  | .les => (takeModRM bs).map .les
  | .lds => (takeModRM bs).map .lds
  | .retfImm => (takeWord bs).map .retfImm
  | .retf => .ok (.retf, bs)
  | .int3 => .ok (.int3, bs)
  | .int => (takeByte bs).map .int
  | .into => .ok (.into, bs)
  | .iret => .ok (.iret, bs)
  | .aam => (takeByte bs).map .aam
  | .aad => (takeByte bs).map .aad
  | .xlat => .ok (.xlat, bs)
  | .esc => (takeModRM bs).map (.esc (op.extractLsb' 0 3))
  | .loopnz => (takeByte bs).map .loopnz
  | .loopz => (takeByte bs).map .loopz
  | .loop => (takeByte bs).map .loop
  | .jcxz => (takeByte bs).map .jcxz
  | .inImm => (takeByte bs).map (.inImm (opWidth op))
  | .outImm => (takeByte bs).map (.outImm (opWidth op))
  | .callNear => (takeWord bs).map .callNear
  | .jmpNear => (takeWord bs).map .jmpNear
  | .jmpFar => (takeFar bs).map (fun p => .jmpFar p.1 p.2)
  | .jmpShort => (takeByte bs).map .jmpShort
  | .inDx => .ok (.inDx (opWidth op), bs)
  | .outDx => .ok (.outDx (opWidth op), bs)
  | .lock => .ok (.lock, bs)
  | .rep => .ok (byWidth op .repnz .repz, bs)
  | .hlt => .ok (.hlt, bs)
  | .cmc => .ok (.cmc, bs)
  | .clc => .ok (.clc, bs)
  | .stc => .ok (.stc, bs)
  | .cli => .ok (.cli, bs)
  | .sti => .ok (.sti, bs)
  | .cld => .ok (.cld, bs)
  | .std => .ok (.std, bs)

/-- The count of a Grp2 opcode byte: D0, D1 by 1 and D2, D3 by CL (30_encoding.md R134). -/
def opCount (op : Byte) : ShiftCount := if op.getLsbD 1 then .cl else .one

/-- The instruction of a demux child: it receives the pre-decoded Mod-Reg-R/M byte, `reg` field included, whichever
`reg` value the child is bound at, and takes an immediate after the displacement where it has one
(40_decode_dispatch.md R153, R155; 10_state.md R43). -/
def decodeChild (c : Child) (op : Byte) (m : ModRM) (bs : List Byte) : Parse Instr :=
  match c with
  | .grp1 k => (takeGrpImm op bs).map (aluRmImmInstr k m)
  | .grp2 k => .ok (shiftInstr k (opCount op) (opWidth op) m, bs)
  | .popRm => .ok (.popRm m, bs)
  | .movRmImm => (takeImm (opWidth op) bs).map (.movRmImm m)
  | .testRmImm => (takeImm (opWidth op) bs).map (.testRmImm m)
  | .notRm => .ok (.notRm (opWidth op) m, bs)
  | .negRm => .ok (.negRm (opWidth op) m, bs)
  | .mul => .ok (.mul (opWidth op) m, bs)
  | .imul => .ok (.imul (opWidth op) m, bs)
  | .div => .ok (.div (opWidth op) m, bs)
  | .idiv => .ok (.idiv (opWidth op) m, bs)
  | .incRm => .ok (.incRm (opWidth op) m, bs)
  | .decRm => .ok (.decRm (opWidth op) m, bs)
  | .callRm => .ok (.callRm m, bs)
  | .callFarMem => .ok (.callFarMem m, bs)
  | .jmpRm => .ok (.jmpRm m, bs)
  | .jmpFarMem => .ok (.jmpFarMem m, bs)
  | .pushRm => .ok (.pushRm m, bs)

/-- The instruction a slot gives the bytes after the opcode (40_decode_dispatch.md R150 to R154). -/
def decodeSlot (slot : Slot Handler Child) (op : Byte) (bs : List Byte) : Parse Instr :=
  match slot with
  | .empty => .ok (.unmapped op, bs)
  | .direct h => decodeDirect h op bs
  | .demux cs =>
    match takeModRM bs with
    | .error e => .error e
    | .ok (m, r) =>
      match cs.getD m.reg.bits.toNat none with
      | none => .ok (.emptyChild op m, r)
      | some c => decodeChild c op m r

/-- The decoder over a registry: the instruction at the head of a byte list and the bytes after it (30_encoding.md
R110; 40_decode_dispatch.md R150). A prefix is an instruction of its own here; the step nests what follows it (R156). -/
def decodeWith (t : Registry) : List Byte → Parse Instr
  | [] => .error .truncated
  | op :: bs => decodeSlot (t.slot op) op bs

/-- The decoder over the opcode map (30_encoding.md R119). -/
def decode (bs : List Byte) : Parse Instr := decodeWith defaultRegistry bs

/-- The two bytes of a word, little-endian (20_memory.md R77). -/
def wordBytes (v : Word) : List Byte := [loByte v, hiByte v]

/-- The bytes of an `Iv` immediate (30_encoding.md R114). -/
def Imm.bytes : Imm → List Byte
  | .ib v => [v]
  | .iw v => wordBytes v

/-- The displacement bytes of an r/m operand (30_encoding.md R112). -/
def RM.dispBytes : RM → List Byte
  | .reg _ => []
  | .mem _ .none => []
  | .mem _ (.d8 v) => [v]
  | .mem _ (.d16 v) => wordBytes v
  | .direct v => wordBytes v

/-- The Mod-Reg-R/M byte of its three fields (30_encoding.md R111). -/
def modrmByte (mod : BitVec 2) (reg rm : BitVec 3) : Byte := mod ++ reg ++ rm

/-- A Mod-Reg-R/M byte with its displacement (30_encoding.md R111, R112). -/
def encodeModRM (m : ModRM) : List Byte := modrmByte m.rm.modBits m.reg.bits m.rm.rmBits :: m.rm.dispBytes

/-- Opcode `00ooo0dw` (30_encoding.md R113). -/
def aluOpcode (k : AluOp) (d : Dir) (w : Width) : Byte := 0#2 ++ k.bits ++ 0#1 ++ d.bit ++ w.bit

/-- Opcode `00ooo10w` (30_encoding.md R113). -/
def aluAccOpcode (k : AluOp) (w : Width) : Byte := 0#2 ++ k.bits ++ 0b10#2 ++ w.bit

/-- A byte whose low bit is `w` (30_encoding.md R113). -/
def opcodeW (high : BitVec 7) (w : Width) : Byte := high ++ w.bit

/-- A byte whose low three bits are a register number (30_encoding.md R117). -/
def opcodeR (high : BitVec 5) (r : Reg16) : Byte := high ++ r.bits

/-- The bytes of an ALU operation in its r/m, reg form. -/
def encodeAluRmReg (k : AluOp) (d : Dir) (w : Width) (m : ModRM) : List Byte := aluOpcode k d w :: encodeModRM m

/-- The bytes of an ALU operation in its accumulator, immediate form. -/
def encodeAluAccImm (k : AluOp) (i : Imm) : List Byte := aluAccOpcode k i.width :: i.bytes

/-- The bytes of a Grp1 instruction; the `reg` field of its Mod-Reg-R/M byte is the operation, as `Instr.wf` says
(30_encoding.md R131, R132). -/
def encodeAluRmImm (m : ModRM) : GrpImm → List Byte
  | .ib80 v => 0x80#8 :: encodeModRM m ++ [v]
  | .iw81 v => 0x81#8 :: encodeModRM m ++ wordBytes v
  | .ib82 v => 0x82#8 :: encodeModRM m ++ [v]
  | .sx83 v => 0x83#8 :: encodeModRM m ++ [v]

/-- The bytes of a Grp2 instruction; the `reg` field is the operation, as `Instr.wf` says (30_encoding.md R131,
R134). -/
def encodeShift (c : ShiftCount) (w : Width) (m : ModRM) : List Byte :=
  opcodeW (match c with | .one => 0b1101000#7 | .cl => 0b1101001#7) w :: encodeModRM m

/-- The encoder: the bytes of an instruction (30_encoding.md R110, R119). A demux child is written with its own `reg`
field, which `Instr.wf` holds to the opcode map (R131 to R137). -/
def encode : Instr → List Byte
  | .addRmReg d w m => encodeAluRmReg .add d w m
  | .addAccImm i => encodeAluAccImm .add i
  | .addRmImm m i => encodeAluRmImm m i
  | .orRmReg d w m => encodeAluRmReg .or d w m
  | .orAccImm i => encodeAluAccImm .or i
  | .orRmImm m i => encodeAluRmImm m i
  | .adcRmReg d w m => encodeAluRmReg .adc d w m
  | .adcAccImm i => encodeAluAccImm .adc i
  | .adcRmImm m i => encodeAluRmImm m i
  | .sbbRmReg d w m => encodeAluRmReg .sbb d w m
  | .sbbAccImm i => encodeAluAccImm .sbb i
  | .sbbRmImm m i => encodeAluRmImm m i
  | .andRmReg d w m => encodeAluRmReg .and d w m
  | .andAccImm i => encodeAluAccImm .and i
  | .andRmImm m i => encodeAluRmImm m i
  | .subRmReg d w m => encodeAluRmReg .sub d w m
  | .subAccImm i => encodeAluAccImm .sub i
  | .subRmImm m i => encodeAluRmImm m i
  | .xorRmReg d w m => encodeAluRmReg .xor d w m
  | .xorAccImm i => encodeAluAccImm .xor i
  | .xorRmImm m i => encodeAluRmImm m i
  | .cmpRmReg d w m => encodeAluRmReg .cmp d w m
  | .cmpAccImm i => encodeAluAccImm .cmp i
  | .cmpRmImm m i => encodeAluRmImm m i
  | .testRmReg w m => opcodeW 0b1000010#7 w :: encodeModRM m
  | .testAccImm i => opcodeW 0b1010100#7 i.width :: i.bytes
  | .testRmImm m i => opcodeW 0b1111011#7 i.width :: encodeModRM m ++ i.bytes
  | .incReg r => [opcodeR 0b01000#5 r]
  | .incRm w m => opcodeW 0b1111111#7 w :: encodeModRM m
  | .decReg r => [opcodeR 0b01001#5 r]
  | .decRm w m => opcodeW 0b1111111#7 w :: encodeModRM m
  | .notRm w m => opcodeW 0b1111011#7 w :: encodeModRM m
  | .negRm w m => opcodeW 0b1111011#7 w :: encodeModRM m
  | .pushReg r => [opcodeR 0b01010#5 r]
  | .pushSeg r => [0#3 ++ r.bits ++ 0b110#3]
  | .pushRm m => 0xFF#8 :: encodeModRM m
  | .popReg r => [opcodeR 0b01011#5 r]
  | .popSeg r => [0#3 ++ r.bits ++ 0b111#3]
  | .popRm m => 0x8F#8 :: encodeModRM m
  | .pushf => [0x9C#8]
  | .popf => [0x9D#8]
  | .int3 => [0xCC#8]
  | .int n => [0xCD#8, n]
  | .into => [0xCE#8]
  | .iret => [0xCF#8]
  | .hlt => [0xF4#8]
  | .movRmReg d w m => (0b100010#6 ++ d.bit ++ w.bit) :: encodeModRM m
  | .movRmImm m i => opcodeW 0b1100011#7 i.width :: encodeModRM m ++ i.bytes
  | .movRmSeg m => 0x8C#8 :: encodeModRM m
  | .movSegRm m => 0x8E#8 :: encodeModRM m
  | .movMoffs d w off => opcodeW (match d with | .toReg => 0b1010000#7 | .toRm => 0b1010001#7) w :: wordBytes off
  | .movRegImm r i => (0b1011#4 ++ i.width.bit ++ r.bits) :: i.bytes
  | .lea m => 0x8D#8 :: encodeModRM m
  | .lds m => 0xC5#8 :: encodeModRM m
  | .les m => 0xC4#8 :: encodeModRM m
  | .xchgRmReg w m => opcodeW 0b1000011#7 w :: encodeModRM m
  | .xchgAcc r => [opcodeR 0b10010#5 r]
  | .nop => [0x90#8]
  | .cbw => [0x98#8]
  | .cwd => [0x99#8]
  | .lahf => [0x9F#8]
  | .sahf => [0x9E#8]
  | .xlat => [0xD7#8]
  | .jo v => [0x70#8, v]
  | .jno v => [0x71#8, v]
  | .jb v => [0x72#8, v]
  | .jnb v => [0x73#8, v]
  | .jz v => [0x74#8, v]
  | .jnz v => [0x75#8, v]
  | .jbe v => [0x76#8, v]
  | .ja v => [0x77#8, v]
  | .js v => [0x78#8, v]
  | .jns v => [0x79#8, v]
  | .jp v => [0x7A#8, v]
  | .jnp v => [0x7B#8, v]
  | .jl v => [0x7C#8, v]
  | .jnl v => [0x7D#8, v]
  | .jle v => [0x7E#8, v]
  | .jnle v => [0x7F#8, v]
  | .jmpShort v => [0xEB#8, v]
  | .jmpNear v => 0xE9#8 :: wordBytes v
  | .jmpFar off seg => 0xEA#8 :: wordBytes off ++ wordBytes seg
  | .jmpRm m => 0xFF#8 :: encodeModRM m
  | .jmpFarMem m => 0xFF#8 :: encodeModRM m
  | .callNear v => 0xE8#8 :: wordBytes v
  | .callFar off seg => 0x9A#8 :: wordBytes off ++ wordBytes seg
  | .callRm m => 0xFF#8 :: encodeModRM m
  | .callFarMem m => 0xFF#8 :: encodeModRM m
  | .ret => [0xC3#8]
  | .retImm n => 0xC2#8 :: wordBytes n
  | .retf => [0xCB#8]
  | .retfImm n => 0xCA#8 :: wordBytes n
  | .loop v => [0xE2#8, v]
  | .loopz v => [0xE1#8, v]
  | .loopnz v => [0xE0#8, v]
  | .jcxz v => [0xE3#8, v]
  | .clc => [0xF8#8]
  | .stc => [0xF9#8]
  | .cmc => [0xF5#8]
  | .cli => [0xFA#8]
  | .sti => [0xFB#8]
  | .cld => [0xFC#8]
  | .std => [0xFD#8]
  | .movsb => [0xA4#8]
  | .movsw => [0xA5#8]
  | .cmpsb => [0xA6#8]
  | .cmpsw => [0xA7#8]
  | .stosb => [0xAA#8]
  | .stosw => [0xAB#8]
  | .lodsb => [0xAC#8]
  | .lodsw => [0xAD#8]
  | .scasb => [0xAE#8]
  | .scasw => [0xAF#8]
  | .rol c w m => encodeShift c w m
  | .ror c w m => encodeShift c w m
  | .rcl c w m => encodeShift c w m
  | .rcr c w m => encodeShift c w m
  | .shl c w m => encodeShift c w m
  | .shr c w m => encodeShift c w m
  | .sar c w m => encodeShift c w m
  | .mul w m => opcodeW 0b1111011#7 w :: encodeModRM m
  | .imul w m => opcodeW 0b1111011#7 w :: encodeModRM m
  | .div w m => opcodeW 0b1111011#7 w :: encodeModRM m
  | .idiv w m => opcodeW 0b1111011#7 w :: encodeModRM m
  | .daa => [0x27#8]
  | .das => [0x2F#8]
  | .aaa => [0x37#8]
  | .aas => [0x3F#8]
  | .aam v => [0xD4#8, v]
  | .aad v => [0xD5#8, v]
  | .inImm w p => [opcodeW 0b1110010#7 w, p]
  | .inDx w => [opcodeW 0b1110110#7 w]
  | .outImm w p => [opcodeW 0b1110011#7 w, p]
  | .outDx w => [opcodeW 0b1110111#7 w]
  | .esc n m => (0b11011#5 ++ n) :: encodeModRM m
  | .wait => [0x9B#8]
  | .segEs => [0x26#8]
  | .segCs => [0x2E#8]
  | .segSs => [0x36#8]
  | .segDs => [0x3E#8]
  | .lock => [0xF0#8]
  | .repnz => [0xF2#8]
  | .repz => [0xF3#8]
  | .unmapped op => [op]
  | .emptyChild op m => op :: encodeModRM m

/-- The bytes an opcode-table word stands for, as they lie in memory, with zeros after them up to the
longest instruction, 6 bytes (30_encoding.md R116). The table numbers `(opcode << 8) | modrm`: the
opcode is bits 15:8 of its word and the Mod-Reg-R/M byte bits 7:0, so each 16-bit word lies high byte
first (notes/assumptions/7.md). -/
def tableWordBytes (nbits w : Nat) : List Byte :=
  let v := w % 2 ^ nbits
  let byteAt (k : Nat) : Byte := BitVec.ofNat 8 (v / 2 ^ (8 * k))
  if nbits ≤ 8 then [byteAt 0, 0, 0, 0, 0, 0]
  else [byteAt 1, byteAt 0, byteAt 3, byteAt 2, byteAt 5, byteAt 4]

/-- The instruction the decoder reads from an opcode-table word. -/
def decodeTableWord (nbits w : Nat) : Option Instr :=
  match decode (tableWordBytes nbits w) with
  | .ok (i, _) => some i
  | .error _ => none

end Sys2Proof
end

