-- ==== Sys2Proof/Machine/Fetch.lean ====
section
/-! DEFINITION. Fetching an instruction at CS:IP, and placing bytes there. -/

namespace Sys2Proof.Machine

open Sys2Proof

/-- The longest instruction without its prefixes, in bytes (30_encoding.md R116). -/
def longestInstr : Nat := 6

/-- The bytes at CS:off, CS:off+1, ..., at most `n`, up to the first that is beyond the backing store. The
offset wraps modulo 2^16 (00_scope.md R12, 10_state.md R35). -/
def fetchWindow (s : State) : Nat → Word → List Byte
  | 0, _ => []
  | n + 1, off =>
    match readByte s (lin s.segs.cs off) with
    | .ok b => b :: fetchWindow s n (off + 1)
    | .error _ => []

/-- The instruction the registry reads at CS:IP, and its bytes. The whole instruction is fetched before it runs; a byte of it
that is beyond the backing store is a fault (40_decode_dispatch.md R150, 20_memory.md R76;
notes/assumptions/9.md). -/
def fetchInstr (s : State) : Res (Instr × List Byte) :=
  let window := fetchWindow s longestInstr s.ip
  match decodeWith s.params.registry window with
  | .ok (i, rest) => .ok (i, window.take (window.length - rest.length))
  | .error .truncated => .error .beyondBackingStore

/-- A byte list stored at CS:off, CS:off+1, ...; a byte whose address does not exist is left out. -/
def placeBytes : List Byte → Word → State → State
  | [], _, s => s
  | b :: bs, off, s =>
    match physical s.params (lin s.segs.cs off) with
    | some k => placeBytes bs (off + 1) (setMem s (Memory.write s.mem k b))
    | none => placeBytes bs (off + 1) s

end Sys2Proof.Machine
end

