-- ==== Sys2Proof/Machine/Tier.lean ====
section
/-! DEFINITION. The tier of every instruction rule (00_scope.md R15), read from the rules' own words in files 43 to
46 and from the headers of those files (notes/assumptions/13.md). -/

namespace Sys2Proof.Machine

open Sys2Proof

/-- Whether an instruction's semantics are tier G (00_scope.md R15, D46). A rule that is tier N in its flags, its
protocol, its interface or its property and tier G only in its encoding counts as tier N; DIV and IDIV are tier G but
for the divisor 0 (`needsTierG`). The port instructions are tier N in their interface (93_implementation_defined.md,
R440 to R443). -/
def tierG : Instr → Bool
  | .addRmReg _ _ _ | .addAccImm _ | .addRmImm _ _ | .orRmReg _ _ _ | .orAccImm _ | .orRmImm _ _ => false
  | .adcRmReg _ _ _ | .adcAccImm _ | .adcRmImm _ _ | .sbbRmReg _ _ _ | .sbbAccImm _ | .sbbRmImm _ _ => false
  | .andRmReg _ _ _ | .andAccImm _ | .andRmImm _ _ | .subRmReg _ _ _ | .subAccImm _ | .subRmImm _ _ => false
  | .xorRmReg _ _ _ | .xorAccImm _ | .xorRmImm _ _ | .cmpRmReg _ _ _ | .cmpAccImm _ | .cmpRmImm _ _ => false
  | .testRmReg _ _ | .testAccImm _ | .testRmImm _ _ => false
  | .incReg _ | .incRm _ _ | .decReg _ | .decRm _ _ => false
  | .notRm _ _ | .negRm _ _ => true
  | .pushReg _ | .pushSeg _ | .popReg _ | .popSeg _ | .pushf | .popf => false
  | .pushRm _ | .popRm _ => true
  | .int3 | .int _ | .iret | .hlt => false
  | .into => true
  | .movRmReg _ _ _ | .movRmImm _ _ | .movRmSeg _ | .movSegRm _ | .movMoffs _ _ _ | .movRegImm _ _ => true
  | .lea _ | .lds _ | .les _ | .xchgRmReg _ _ | .xchgAcc _ | .nop => true
  | .cbw | .cwd | .lahf | .sahf | .xlat => true
  | .jo _ | .jno _ | .jb _ | .jnb _ | .jz _ | .jnz _ | .jbe _ | .ja _ => true
  | .js _ | .jns _ | .jp _ | .jnp _ | .jl _ | .jnl _ | .jle _ | .jnle _ => true
  | .jmpShort _ | .jmpNear _ | .jmpFar _ _ | .jmpRm _ | .jmpFarMem _ => true
  | .callNear _ | .callFar _ _ | .callRm _ | .callFarMem _ => true
  | .ret | .retImm _ | .retf | .retfImm _ => true
  | .loop _ | .loopz _ | .loopnz _ | .jcxz _ => true
  | .clc | .stc | .cmc | .cli | .sti | .cld | .std => true
  | .movsb | .movsw | .cmpsb | .cmpsw | .stosb | .stosw | .lodsb | .lodsw | .scasb | .scasw => true
  | .rol _ _ _ | .ror _ _ _ | .rcl _ _ _ | .rcr _ _ _ | .shl _ _ _ | .shr _ _ _ | .sar _ _ _ => true
  | .mul _ _ | .imul _ _ | .div _ _ | .idiv _ _ => true
  | .daa | .das | .aaa | .aas | .aam _ | .aad _ => true
  | .inImm _ _ | .inDx _ | .outImm _ _ | .outDx _ => false
  | .esc _ _ | .wait => true
  | .segEs | .segCs | .segSs | .segDs | .lock | .repnz | .repz => false
  | .unmapped _ | .emptyChild _ _ => false

/-- Whether a divisor is not 0; an operand beyond the backing store is the resolver's fault, which has no tier. -/
def divisorNotZero (s : State) (w : Width) (rm : RM) : Bool :=
  match rmValue s w rm with
  | .ok v => v != 0
  | .error _ => false

/-- Whether what an instruction does in a state is tier G, which a model with `admitTierG = false` refuses (00_scope.md
R14, R15, D46). DIV and IDIV by 0 are tier N: the divide error (46_string_shift_muldiv_misc.md R412, R413;
44_stack_interrupt.md R308). -/
def needsTierG (i : Instr) (s : State) : Bool :=
  match i with
  | .div w m => divisorNotZero s w m.rm
  | .idiv w m => divisorNotZero s w m.rm
  | i => tierG i

/-- The prefixes, which nest the dispatch of the next opcode (40_decode_dispatch.md R156, 30_encoding.md
R142). -/
def isPrefix : Instr → Bool
  | .segEs | .segCs | .segSs | .segDs | .lock | .repnz | .repz => true
  | _ => false

end Sys2Proof.Machine
end

