-- ==== Sys2Proof/Machine/Timing.lean ====
section
/-! DEFINITION. The cycle accountant (70_reset_and_hazards.md section 4). No functional rule reads what it
computes. -/

namespace Sys2Proof.Machine

open Sys2Proof

/-- The handler an instruction's bytes run: that of the opcode byte's slot or, in a demux slot, the child of the `reg`
field; none in an empty slot and for an empty child (40_decode_dispatch.md R151 to R154). -/
def handlerOf (t : Registry) : List Byte → Option BoundHandler
  | [] => none
  | op :: bs =>
    match t.slot op with
    | .empty => none
    | .direct h => some (.direct h)
    | .demux cs =>
      match bs with
      | [] => none
      | modrm :: _ => (cs.getD (modrm.extractLsb' 3 3).toNat none).map .child

/-- The costs of the handler that runs, 0 where none does (70_reset_and_hazards.md R526, R527; notes/assumptions/6.md). -/
def handlerCost : Option BoundHandler → ClockCost → Nat
  | none, _ => 0
  | some h, c => Config.clockTable h c

/-- The cost shapes of the accountant (70_reset_and_hazards.md R521 to R524). -/
inductive ClockShape where
  /-- R521. -/
  | fixed
  /-- R522. -/
  | conditional (taken : Bool)
  /-- R523. -/
  | clCounted (count : Nat)
  /-- R524. -/
  | repCounted (iterations : Nat)
deriving DecidableEq, Repr

/-- The shape of a Grp2 instruction (70_reset_and_hazards.md R523). -/
def shiftShape (c : ShiftCount) (s : State) : ClockShape :=
  match c with
  | .one => .fixed
  | .cl => .clCounted (shiftCount .cl s)

/-- The shape of a string instruction: under REP, the iterations are what CX lost (70_reset_and_hazards.md R524,
46_string_shift_muldiv_misc.md R391). -/
def stringShape (s t : State) : ClockShape :=
  match s.pfx.rep with
  | none => .fixed
  | some _ => .repCounted (s.gpr.cx.toNat - t.gpr.cx.toNat)

/-- The shape of a LOOP: taken when CX less 1 is not 0 and the flag condition holds. -/
def loopShape (ok : Bool) (s : State) : ClockShape := .conditional (s.gpr.cx - 1 != 0 && ok)

/-- The shape of an instruction run from `s` to `t` (70_reset_and_hazards.md R521 to R524, D35). -/
def clockShape (i : Instr) (s t : State) : ClockShape :=
  match i with
  | .jo _ => .conditional (cond .o s.flags)
  | .jno _ => .conditional (cond .no s.flags)
  | .jb _ => .conditional (cond .b s.flags)
  | .jnb _ => .conditional (cond .nb s.flags)
  | .jz _ => .conditional (cond .z s.flags)
  | .jnz _ => .conditional (cond .nz s.flags)
  | .jbe _ => .conditional (cond .be s.flags)
  | .ja _ => .conditional (cond .a s.flags)
  | .js _ => .conditional (cond .s s.flags)
  | .jns _ => .conditional (cond .ns s.flags)
  | .jp _ => .conditional (cond .p s.flags)
  | .jnp _ => .conditional (cond .np s.flags)
  | .jl _ => .conditional (cond .l s.flags)
  | .jnl _ => .conditional (cond .nl s.flags)
  | .jle _ => .conditional (cond .le s.flags)
  | .jnle _ => .conditional (cond .nle s.flags)
  | .loop _ => loopShape true s
  | .loopz _ => loopShape (s.flag .ZF) s
  | .loopnz _ => loopShape (!s.flag .ZF) s
  | .jcxz _ => .conditional (s.gpr.cx == 0)
  | .into => .conditional (s.flag .OF)
  | .rol c _ _ => shiftShape c s
  | .ror c _ _ => shiftShape c s
  | .rcl c _ _ => shiftShape c s
  | .rcr c _ _ => shiftShape c s
  | .shl c _ _ => shiftShape c s
  | .shr c _ _ => shiftShape c s
  | .sar c _ _ => shiftShape c s
  | .movsb => stringShape s t
  | .movsw => stringShape s t
  | .cmpsb => stringShape s t
  | .cmpsw => stringShape s t
  | .stosb => stringShape s t
  | .stosw => stringShape s t
  | .lodsb => stringShape s t
  | .lodsw => stringShape s t
  | .scasb => stringShape s t
  | .scasw => stringShape s t
  | _ => .fixed

/-- The cost of a shape for the costs of a handler (70_reset_and_hazards.md R521 to R524). -/
def shapeCost (cost : ClockCost → Nat) (shape : ClockShape) : Nat :=
  match shape with
  | .fixed => cost .base
  | .conditional taken => if taken then cost .costTrue else cost .costFalse
  | .clCounted c => cost .base + c * cost .perBit
  | .repCounted n => cost .base + n * cost .perIteration

/-- `eaCost(template, hasDisp)` of the default table (70_reset_and_hazards.md R525). -/
def eaCost (template : Nat) (hasDisp : Bool) : Nat :=
  match template with
  | 8 => 6
  | 0 => if hasDisp then 11 else 7
  | 3 => if hasDisp then 11 else 7
  | 1 => if hasDisp then 12 else 8
  | 2 => if hasDisp then 12 else 8
  | _ => if hasDisp then 9 else 5

/-- The address-mode cost of one call of the resolver: 0 for a register, else the table's value and 2 more
under a segment override (70_reset_and_hazards.md R525; notes/assumptions/16.md). -/
def addressCost (s : State) (rm : RM) : Nat :=
  match placeOf s rm with
  | .reg _ => 0
  | .mem _ hasDisp _ _ _ template => eaCost template hasDisp + if s.pfx.segOverride.isSome then 2 else 0

/-- The cost of one handler run on the bytes `bs`, with its resolution, if any (70_reset_and_hazards.md R526). -/
def instrCost (bs : List Byte) (i : Instr) (s t : State) : Nat :=
  shapeCost (handlerCost (handlerOf s.params.registry bs)) (clockShape i s t) + (i.rm?.map (addressCost s)).getD 0

/-- The state after an instruction with its cost added, when the accountant is on (70_reset_and_hazards.md
R520; 10_state.md R48). -/
def charge (bs : List Byte) (i : Instr) (s t : State) : State :=
  if s.params.cycleAccounting then { t with clocks := t.clocks + instrCost bs i s t } else t

end Sys2Proof.Machine
end

