-- ==== Sys2Proof/Machine/Cycle.lean ====
section
/-! DEFINITION. The step (40_decode_dispatch.md): dispatch with nested prefixes, the run state, and the optional
single-step trap. -/

namespace Sys2Proof.Machine

open Sys2Proof

/-- How many bytes of a code segment can be prefixes before the chain comes round to its start: a chain
this long never ends (40_decode_dispatch.md R160). -/
def longestChain : Nat := 65536

/-- What runs after an instruction: a prefix nests the dispatch of the next opcode, anything else ends the
step (40_decode_dispatch.md R156). -/
def nest (i : Instr) (next : State → Out) (t : State) : Out := if isPrefix i then next t else .next t

/-- One instruction whose bytes are fetched: tier check, IP moved past it, its meaning, its clocks
(40_decode_dispatch.md R150 to R156; 00_scope.md R14). -/
def runInstr (i : Instr) (bs : List Byte) (next : State → Out) (s : State) : Out :=
  let u := setIp s (s.ip + BitVec.ofNat 16 bs.length)
  if needsTierG i u && !s.params.admitTierG then .refused .tierGNotAdmitted
  else
    match exec i u with
    | .next t => nest i next (charge bs i u t)
    | .fault f => .fault f
    | .refused r => .refused r

/-- `dispatch()` (40_decode_dispatch.md R150, R156); the argument bounds the prefix chain (notes/assumptions/8.md). -/
def dispatch : Nat → State → Out
  | 0, _ => .fault .endlessPrefixChain
  | n + 1, s =>
    match fetchInstr s with
    | .error f => .fault f
    | .ok (i, bs) => runInstr i bs (dispatch n) s

/-- Whether the core is HALTED. -/
def isHalted (s : State) : Bool :=
  match s.run with
  | .running => false
  | .halted _ => true

/-- The single-step trap at the end of a step that began with TF = 1 and did not halt, when `singleStep` is
on (60_exceptions.md R468, D15). -/
def singleStepTrap (tf : Bool) (s : State) : Out :=
  if s.params.singleStep && tf && !isHalted s then outcome (interrupt 1 s) else .next s

/-- The end of a step: the operand cache and the prefix state do not outlive it (10_state.md R44, R46;
notes/assumptions/10.md), then the single-step trap. -/
def endStep (tf : Bool) : Out → Out
  | .next t => singleStepTrap tf (clearTransient t)
  | .fault f => .fault f
  | .refused r => .refused r

/-- `step()` (40_decode_dispatch.md R150); a HALTED core takes no step (R164). -/
def stepOnce (s : State) : Out :=
  match s.run with
  | .halted _ => .next s
  | .running => endStep (s.flag .TF) (dispatch longestChain (clearTransient s))

end Sys2Proof.Machine
end

