-- ==== Sys2Proof/Machine/Step.lean ====
section
/-! DEFINITION. The step of the machine, and the placing of one instruction where the next step fetches it. -/

namespace Sys2Proof.Machine

open Sys2Proof

/-- One step of the core (40_decode_dispatch.md R150, R164). -/
def step (s : State) : Host.Outcome State Fault Refusal := stepOnce s

/-- The state with an instruction, given as an opcode-table word, stored at CS:IP, and the core RUNNING, so
that the next step runs it (notes/assumptions/7.md). -/
def State.withFetchWord (s : State) (nbits w : Nat) : State :=
  { placeBytes (tableWordBytes nbits w) s.ip s with run := .running }

end Sys2Proof.Machine
end

