-- ==== Sys2Proof/Laws/Memory.lean ====
section
/-! SUPPORT. The laws of memory: read after write, a write leaves every other byte, and every write keeps the
canonical form. -/

namespace Sys2Proof.Machine.Memory

open Sys2Proof Sys2Proof.Machine

theorem read_cell_cons (c : Host.Cell) (m : Memory) (b : Nat) :
    read (c :: m) b = if c.1 = b then c.2 else read m b := rfl

theorem read_cons (a : Nat) (v : Byte) (m : Memory) (b : Nat) (h : a = b → v = unlistedByte → read m b = unlistedByte) :
    read (Memory.cons a v m) b = if a = b then v else read m b := by
  unfold Memory.cons
  split
  · next e =>
    split
    · next e' => rw [h e' e, e]
    · rfl
  · rfl

/-- A write leaves every other byte of memory. -/
theorem read_write_ne (m : Memory) {a b : Nat} (v : Byte) (h : b ≠ a) : read (write m a v) b = read m b := by
  have h' : a ≠ b := fun e => h e.symm
  induction m with
  | nil => rw [write, read_cons _ _ _ _ (fun e => absurd e h'), if_neg h']
  | cons c m ih =>
    unfold write
    split
    · rw [read_cons _ _ _ _ (fun e => absurd e h'), if_neg h']
    · split
      · next e => rw [read_cons _ _ _ _ (fun e => absurd e h'), if_neg h', read_cell_cons, if_neg (e ▸ h')]
      · rw [read_cell_cons, read_cell_cons, ih]

theorem wfFrom_cons {lo : Nat} {c : Host.Cell} {m : Memory} :
    wfFrom lo (c :: m) = true ↔ (lo ≤ c.1 ∧ c.1 < memorySize) ∧ c.2 ≠ unlistedByte ∧ wfFrom (c.1 + 1) m = true := by
  simp [wfFrom, and_assoc]

theorem wfFrom_mono {lo lo' : Nat} {m : Memory} (h : wfFrom lo m = true) (hl : lo' ≤ lo) : wfFrom lo' m = true := by
  cases m with
  | nil => rfl
  | cons c m =>
    rw [wfFrom_cons] at h ⊢
    exact ⟨⟨Nat.le_trans hl h.1.1, h.1.2⟩, h.2⟩

/-- Nothing is listed below the bound of the canonical form. -/
theorem read_below {lo a : Nat} {m : Memory} (h : wfFrom lo m = true) (ha : a < lo) : read m a = unlistedByte := by
  induction m generalizing lo with
  | nil => rfl
  | cons c m ih =>
    rw [wfFrom_cons] at h
    rw [read_cell_cons, if_neg (by omega)]
    exact ih h.2.2 (by omega)

theorem read_write_same_from {lo a : Nat} {m : Memory} (v : Byte) (h : wfFrom lo m = true) :
    read (write m a v) a = v := by
  induction m generalizing lo with
  | nil => rw [write, read_cons _ _ _ _ (fun _ _ => rfl), if_pos rfl]
  | cons c m ih =>
    have hc := h
    rw [wfFrom_cons] at h
    unfold write
    split
    · next e =>
      have hb : read (c :: m) a = unlistedByte := read_below (lo := c.1) (wfFrom_cons.2 ⟨⟨Nat.le_refl _, h.1.2⟩, h.2⟩) e
      rw [read_cons _ _ _ _ (fun _ _ => hb), if_pos rfl]
    · split
      · next e => rw [read_cons _ _ _ _ (fun _ _ => read_below h.2.2 (by omega)), if_pos rfl]
      · next e => rw [read_cell_cons, if_neg (fun c => e c.symm), ih h.2.2]

/-- A read after a write to the same place gives the value written (20_memory.md R74). -/
theorem read_write_same {m : Memory} (a : Nat) (v : Byte) (h : m.wf = true) : read (write m a v) a = v :=
  read_write_same_from v h

theorem read_write {m : Memory} (a b : Nat) (v : Byte) (h : m.wf = true) :
    read (write m a v) b = if b = a then v else read m b := by
  split
  · next e => rw [e, read_write_same a v h]
  · next e => exact read_write_ne m v e

theorem wfFrom_cons' {lo a : Nat} {v : Byte} {m : Memory} (hl : lo ≤ a) (ha : a < memorySize)
    (hm : wfFrom (a + 1) m = true) : wfFrom lo (Memory.cons a v m) = true := by
  unfold Memory.cons
  split
  · exact wfFrom_mono hm (by omega)
  · next e => exact wfFrom_cons.2 ⟨⟨hl, ha⟩, e, hm⟩

theorem wfFrom_write {lo a : Nat} {m : Memory} (v : Byte) (h : wfFrom lo m = true) (hl : lo ≤ a)
    (ha : a < memorySize) : wfFrom lo (write m a v) = true := by
  induction m generalizing lo with
  | nil => exact wfFrom_cons' hl ha rfl
  | cons c m ih =>
    rw [wfFrom_cons] at h
    unfold write
    split
    · next e => exact wfFrom_cons' hl ha (wfFrom_cons.2 ⟨⟨by omega, h.1.2⟩, h.2⟩)
    · split
      · next e => exact wfFrom_cons' hl ha (e ▸ h.2.2)
      · exact wfFrom_cons.2 ⟨h.1, h.2.1, ih h.2.2 (by omega)⟩

/-- A write keeps the canonical form. -/
theorem wf_write {a : Nat} {m : Memory} (v : Byte) (h : m.wf = true) (ha : a < memorySize) : (write m a v).wf = true :=
  wfFrom_write v h (Nat.zero_le a) ha

/-- The canonical form: memories that read alike are equal data. -/
theorem ext_from {lo : Nat} {m n : Memory} (hm : wfFrom lo m = true) (hn : wfFrom lo n = true)
    (h : ∀ a, read m a = read n a) : m = n := by
  induction m generalizing lo n with
  | nil =>
    cases n with
    | nil => rfl
    | cons d n =>
      rw [wfFrom_cons] at hn
      have := h d.1
      rw [read_cell_cons, if_pos rfl] at this
      exact absurd this.symm hn.2.1
  | cons c m ih =>
    have hm' := hm
    rw [wfFrom_cons] at hm
    cases n with
    | nil =>
      have := h c.1
      rw [read_cell_cons, if_pos rfl] at this
      exact absurd this hm.2.1
    | cons d n =>
      have hn' := hn
      rw [wfFrom_cons] at hn
      have e1 : c.1 = d.1 := by
        rcases Nat.lt_trichotomy c.1 d.1 with lt | e | gt
        · have := h c.1
          rw [read_cell_cons, if_pos rfl,
            read_below (lo := d.1) (wfFrom_cons.2 ⟨⟨Nat.le_refl _, hn.1.2⟩, hn.2⟩) lt] at this
          exact absurd this hm.2.1
        · exact e
        · have := h d.1
          rw [read_cell_cons d, if_pos rfl,
            read_below (lo := c.1) (wfFrom_cons.2 ⟨⟨Nat.le_refl _, hm.1.2⟩, hm.2⟩) gt] at this
          exact absurd this.symm hn.2.1
      have e2 : c.2 = d.2 := by
        have := h c.1
        rwa [read_cell_cons, read_cell_cons, if_pos rfl, if_pos e1.symm] at this
      have e3 : m = n := by
        refine ih hm.2.2 (e1 ▸ hn.2.2) (fun a => ?_)
        rcases Nat.lt_or_ge a (c.1 + 1) with lt | ge
        · rw [read_below hm.2.2 lt, read_below (e1 ▸ hn.2.2) lt]
        · have := h a
          rwa [read_cell_cons, read_cell_cons, if_neg (by omega), if_neg (by omega)] at this
      rw [e3, show c = d from Prod.ext e1 e2]

end Sys2Proof.Machine.Memory
end

