-- ==== Sys2Proof/Laws/State.lean ====
section
/-! SUPPORT. One lemma for each field and each update of the state, so that no proof unfolds a record update. -/

namespace Sys2Proof.Machine

open Sys2Proof

@[simp] theorem setR16_segs (s : State) (r : Reg16) (v : Word) : (setR16 s r v).segs = s.segs := rfl
@[simp] theorem setR16_ip (s : State) (r : Reg16) (v : Word) : (setR16 s r v).ip = s.ip := rfl
@[simp] theorem setR16_flags (s : State) (r : Reg16) (v : Word) : (setR16 s r v).flags = s.flags := rfl
@[simp] theorem setR16_mem (s : State) (r : Reg16) (v : Word) : (setR16 s r v).mem = s.mem := rfl
@[simp] theorem setR16_run (s : State) (r : Reg16) (v : Word) : (setR16 s r v).run = s.run := rfl
@[simp] theorem setR16_cache (s : State) (r : Reg16) (v : Word) : (setR16 s r v).cache = s.cache := rfl
@[simp] theorem setR16_pfx (s : State) (r : Reg16) (v : Word) : (setR16 s r v).pfx = s.pfx := rfl
@[simp] theorem setR16_clocks (s : State) (r : Reg16) (v : Word) : (setR16 s r v).clocks = s.clocks := rfl
@[simp] theorem setR16_params (s : State) (r : Reg16) (v : Word) : (setR16 s r v).params = s.params := rfl
@[simp] theorem setR16_draws (s : State) (r : Reg16) (v : Word) : (setR16 s r v).draws = s.draws := rfl
@[simp] theorem setR16_portCalls (s : State) (r : Reg16) (v : Word) : (setR16 s r v).portCalls = s.portCalls := rfl

@[simp] theorem setR8_segs (s : State) (r : Reg8) (v : Byte) : (setR8 s r v).segs = s.segs := rfl
@[simp] theorem setR8_ip (s : State) (r : Reg8) (v : Byte) : (setR8 s r v).ip = s.ip := rfl
@[simp] theorem setR8_flags (s : State) (r : Reg8) (v : Byte) : (setR8 s r v).flags = s.flags := rfl
@[simp] theorem setR8_mem (s : State) (r : Reg8) (v : Byte) : (setR8 s r v).mem = s.mem := rfl
@[simp] theorem setR8_run (s : State) (r : Reg8) (v : Byte) : (setR8 s r v).run = s.run := rfl
@[simp] theorem setR8_cache (s : State) (r : Reg8) (v : Byte) : (setR8 s r v).cache = s.cache := rfl
@[simp] theorem setR8_pfx (s : State) (r : Reg8) (v : Byte) : (setR8 s r v).pfx = s.pfx := rfl
@[simp] theorem setR8_clocks (s : State) (r : Reg8) (v : Byte) : (setR8 s r v).clocks = s.clocks := rfl
@[simp] theorem setR8_params (s : State) (r : Reg8) (v : Byte) : (setR8 s r v).params = s.params := rfl
@[simp] theorem setR8_draws (s : State) (r : Reg8) (v : Byte) : (setR8 s r v).draws = s.draws := rfl
@[simp] theorem setR8_portCalls (s : State) (r : Reg8) (v : Byte) : (setR8 s r v).portCalls = s.portCalls := rfl

@[simp] theorem setReg_segs (s : State) (w : Width) (r : Reg16) (v : Word) : (setReg s w r v).segs = s.segs := by cases w <;> rfl
@[simp] theorem setReg_ip (s : State) (w : Width) (r : Reg16) (v : Word) : (setReg s w r v).ip = s.ip := by cases w <;> rfl
@[simp] theorem setReg_flags (s : State) (w : Width) (r : Reg16) (v : Word) : (setReg s w r v).flags = s.flags := by cases w <;> rfl
@[simp] theorem setReg_mem (s : State) (w : Width) (r : Reg16) (v : Word) : (setReg s w r v).mem = s.mem := by cases w <;> rfl
@[simp] theorem setReg_run (s : State) (w : Width) (r : Reg16) (v : Word) : (setReg s w r v).run = s.run := by cases w <;> rfl
@[simp] theorem setReg_cache (s : State) (w : Width) (r : Reg16) (v : Word) : (setReg s w r v).cache = s.cache := by cases w <;> rfl
@[simp] theorem setReg_pfx (s : State) (w : Width) (r : Reg16) (v : Word) : (setReg s w r v).pfx = s.pfx := by cases w <;> rfl
@[simp] theorem setReg_clocks (s : State) (w : Width) (r : Reg16) (v : Word) : (setReg s w r v).clocks = s.clocks := by cases w <;> rfl
@[simp] theorem setReg_params (s : State) (w : Width) (r : Reg16) (v : Word) : (setReg s w r v).params = s.params := by cases w <;> rfl
@[simp] theorem setReg_draws (s : State) (w : Width) (r : Reg16) (v : Word) : (setReg s w r v).draws = s.draws := by cases w <;> rfl
@[simp] theorem setReg_portCalls (s : State) (w : Width) (r : Reg16) (v : Word) : (setReg s w r v).portCalls = s.portCalls := by cases w <;> rfl

@[simp] theorem setSeg_gpr (s : State) (r : SegReg) (v : Word) : (setSeg s r v).gpr = s.gpr := rfl
@[simp] theorem setSeg_ip (s : State) (r : SegReg) (v : Word) : (setSeg s r v).ip = s.ip := rfl
@[simp] theorem setSeg_flags (s : State) (r : SegReg) (v : Word) : (setSeg s r v).flags = s.flags := rfl
@[simp] theorem setSeg_mem (s : State) (r : SegReg) (v : Word) : (setSeg s r v).mem = s.mem := rfl
@[simp] theorem setSeg_run (s : State) (r : SegReg) (v : Word) : (setSeg s r v).run = s.run := rfl
@[simp] theorem setSeg_cache (s : State) (r : SegReg) (v : Word) : (setSeg s r v).cache = s.cache := rfl
@[simp] theorem setSeg_pfx (s : State) (r : SegReg) (v : Word) : (setSeg s r v).pfx = s.pfx := rfl
@[simp] theorem setSeg_clocks (s : State) (r : SegReg) (v : Word) : (setSeg s r v).clocks = s.clocks := rfl
@[simp] theorem setSeg_params (s : State) (r : SegReg) (v : Word) : (setSeg s r v).params = s.params := rfl
@[simp] theorem setSeg_draws (s : State) (r : SegReg) (v : Word) : (setSeg s r v).draws = s.draws := rfl
@[simp] theorem setSeg_portCalls (s : State) (r : SegReg) (v : Word) : (setSeg s r v).portCalls = s.portCalls := rfl

@[simp] theorem setIp_gpr (s : State) (v : Word) : (setIp s v).gpr = s.gpr := rfl
@[simp] theorem setIp_segs (s : State) (v : Word) : (setIp s v).segs = s.segs := rfl
@[simp] theorem setIp_ip (s : State) (v : Word) : (setIp s v).ip = v := rfl
@[simp] theorem setIp_flags (s : State) (v : Word) : (setIp s v).flags = s.flags := rfl
@[simp] theorem setIp_mem (s : State) (v : Word) : (setIp s v).mem = s.mem := rfl
@[simp] theorem setIp_run (s : State) (v : Word) : (setIp s v).run = s.run := rfl
@[simp] theorem setIp_cache (s : State) (v : Word) : (setIp s v).cache = s.cache := rfl
@[simp] theorem setIp_pfx (s : State) (v : Word) : (setIp s v).pfx = s.pfx := rfl
@[simp] theorem setIp_clocks (s : State) (v : Word) : (setIp s v).clocks = s.clocks := rfl
@[simp] theorem setIp_params (s : State) (v : Word) : (setIp s v).params = s.params := rfl
@[simp] theorem setIp_draws (s : State) (v : Word) : (setIp s v).draws = s.draws := rfl
@[simp] theorem setIp_portCalls (s : State) (v : Word) : (setIp s v).portCalls = s.portCalls := rfl

@[simp] theorem setFlags_gpr (s : State) (f : Word) : (setFlags s f).gpr = s.gpr := rfl
@[simp] theorem setFlags_segs (s : State) (f : Word) : (setFlags s f).segs = s.segs := rfl
@[simp] theorem setFlags_ip (s : State) (f : Word) : (setFlags s f).ip = s.ip := rfl
@[simp] theorem setFlags_flags (s : State) (f : Word) : (setFlags s f).flags = f := rfl
@[simp] theorem setFlags_mem (s : State) (f : Word) : (setFlags s f).mem = s.mem := rfl
@[simp] theorem setFlags_run (s : State) (f : Word) : (setFlags s f).run = s.run := rfl
@[simp] theorem setFlags_cache (s : State) (f : Word) : (setFlags s f).cache = s.cache := rfl
@[simp] theorem setFlags_pfx (s : State) (f : Word) : (setFlags s f).pfx = s.pfx := rfl
@[simp] theorem setFlags_clocks (s : State) (f : Word) : (setFlags s f).clocks = s.clocks := rfl
@[simp] theorem setFlags_params (s : State) (f : Word) : (setFlags s f).params = s.params := rfl
@[simp] theorem setFlags_draws (s : State) (f : Word) : (setFlags s f).draws = s.draws := rfl
@[simp] theorem setFlags_portCalls (s : State) (f : Word) : (setFlags s f).portCalls = s.portCalls := rfl

@[simp] theorem writeFlag_gpr (s : State) (g : Flag) (b : Bool) : (writeFlag s g b).gpr = s.gpr := rfl
@[simp] theorem writeFlag_segs (s : State) (g : Flag) (b : Bool) : (writeFlag s g b).segs = s.segs := rfl
@[simp] theorem writeFlag_ip (s : State) (g : Flag) (b : Bool) : (writeFlag s g b).ip = s.ip := rfl
@[simp] theorem writeFlag_flags (s : State) (g : Flag) (b : Bool) : (writeFlag s g b).flags = setFlag s.flags g b := rfl
@[simp] theorem writeFlag_mem (s : State) (g : Flag) (b : Bool) : (writeFlag s g b).mem = s.mem := rfl
@[simp] theorem writeFlag_run (s : State) (g : Flag) (b : Bool) : (writeFlag s g b).run = s.run := rfl
@[simp] theorem writeFlag_cache (s : State) (g : Flag) (b : Bool) : (writeFlag s g b).cache = s.cache := rfl
@[simp] theorem writeFlag_pfx (s : State) (g : Flag) (b : Bool) : (writeFlag s g b).pfx = s.pfx := rfl
@[simp] theorem writeFlag_clocks (s : State) (g : Flag) (b : Bool) : (writeFlag s g b).clocks = s.clocks := rfl
@[simp] theorem writeFlag_params (s : State) (g : Flag) (b : Bool) : (writeFlag s g b).params = s.params := rfl
@[simp] theorem writeFlag_draws (s : State) (g : Flag) (b : Bool) : (writeFlag s g b).draws = s.draws := rfl
@[simp] theorem writeFlag_portCalls (s : State) (g : Flag) (b : Bool) : (writeFlag s g b).portCalls = s.portCalls := rfl

@[simp] theorem setDrawnFlags_gpr (s : State) (f : Word) : (setDrawnFlags s f).gpr = s.gpr := rfl
@[simp] theorem setDrawnFlags_segs (s : State) (f : Word) : (setDrawnFlags s f).segs = s.segs := rfl
@[simp] theorem setDrawnFlags_ip (s : State) (f : Word) : (setDrawnFlags s f).ip = s.ip := rfl
@[simp] theorem setDrawnFlags_flags (s : State) (f : Word) : (setDrawnFlags s f).flags = f := rfl
@[simp] theorem setDrawnFlags_mem (s : State) (f : Word) : (setDrawnFlags s f).mem = s.mem := rfl
@[simp] theorem setDrawnFlags_run (s : State) (f : Word) : (setDrawnFlags s f).run = s.run := rfl
@[simp] theorem setDrawnFlags_cache (s : State) (f : Word) : (setDrawnFlags s f).cache = s.cache := rfl
@[simp] theorem setDrawnFlags_pfx (s : State) (f : Word) : (setDrawnFlags s f).pfx = s.pfx := rfl
@[simp] theorem setDrawnFlags_clocks (s : State) (f : Word) : (setDrawnFlags s f).clocks = s.clocks := rfl
@[simp] theorem setDrawnFlags_params (s : State) (f : Word) : (setDrawnFlags s f).params = s.params := rfl
@[simp] theorem setDrawnFlags_draws (s : State) (f : Word) : (setDrawnFlags s f).draws = s.draws + 1 := rfl
@[simp] theorem setDrawnFlags_portCalls (s : State) (f : Word) : (setDrawnFlags s f).portCalls = s.portCalls := rfl

@[simp] theorem setMem_gpr (s : State) (m : Memory) : (setMem s m).gpr = s.gpr := rfl
@[simp] theorem setMem_segs (s : State) (m : Memory) : (setMem s m).segs = s.segs := rfl
@[simp] theorem setMem_ip (s : State) (m : Memory) : (setMem s m).ip = s.ip := rfl
@[simp] theorem setMem_flags (s : State) (m : Memory) : (setMem s m).flags = s.flags := rfl
@[simp] theorem setMem_mem (s : State) (m : Memory) : (setMem s m).mem = m := rfl
@[simp] theorem setMem_run (s : State) (m : Memory) : (setMem s m).run = s.run := rfl
@[simp] theorem setMem_cache (s : State) (m : Memory) : (setMem s m).cache = s.cache := rfl
@[simp] theorem setMem_pfx (s : State) (m : Memory) : (setMem s m).pfx = s.pfx := rfl
@[simp] theorem setMem_clocks (s : State) (m : Memory) : (setMem s m).clocks = s.clocks := rfl
@[simp] theorem setMem_params (s : State) (m : Memory) : (setMem s m).params = s.params := rfl
@[simp] theorem setMem_draws (s : State) (m : Memory) : (setMem s m).draws = s.draws := rfl
@[simp] theorem setMem_portCalls (s : State) (m : Memory) : (setMem s m).portCalls = s.portCalls := rfl

@[simp] theorem withCache_gpr (s : State) (c : OperandCache) : (withCache s c).gpr = s.gpr := rfl
@[simp] theorem withCache_segs (s : State) (c : OperandCache) : (withCache s c).segs = s.segs := rfl
@[simp] theorem withCache_ip (s : State) (c : OperandCache) : (withCache s c).ip = s.ip := rfl
@[simp] theorem withCache_flags (s : State) (c : OperandCache) : (withCache s c).flags = s.flags := rfl
@[simp] theorem withCache_mem (s : State) (c : OperandCache) : (withCache s c).mem = s.mem := rfl
@[simp] theorem withCache_run (s : State) (c : OperandCache) : (withCache s c).run = s.run := rfl
@[simp] theorem withCache_cache (s : State) (c : OperandCache) : (withCache s c).cache = some c := rfl
@[simp] theorem withCache_pfx (s : State) (c : OperandCache) : (withCache s c).pfx = s.pfx := rfl
@[simp] theorem withCache_clocks (s : State) (c : OperandCache) : (withCache s c).clocks = s.clocks := rfl
@[simp] theorem withCache_params (s : State) (c : OperandCache) : (withCache s c).params = s.params := rfl
@[simp] theorem withCache_draws (s : State) (c : OperandCache) : (withCache s c).draws = s.draws := rfl
@[simp] theorem withCache_portCalls (s : State) (c : OperandCache) : (withCache s c).portCalls = s.portCalls := rfl

@[simp] theorem halt_gpr (c : HaltCause) (s : State) : (halt c s).gpr = s.gpr := rfl
@[simp] theorem halt_segs (c : HaltCause) (s : State) : (halt c s).segs = s.segs := rfl
@[simp] theorem halt_ip (c : HaltCause) (s : State) : (halt c s).ip = s.ip := rfl
@[simp] theorem halt_flags (c : HaltCause) (s : State) : (halt c s).flags = s.flags := rfl
@[simp] theorem halt_mem (c : HaltCause) (s : State) : (halt c s).mem = s.mem := rfl
@[simp] theorem halt_run (c : HaltCause) (s : State) : (halt c s).run = .halted c := rfl
@[simp] theorem halt_cache (c : HaltCause) (s : State) : (halt c s).cache = s.cache := rfl
@[simp] theorem halt_pfx (c : HaltCause) (s : State) : (halt c s).pfx = s.pfx := rfl
@[simp] theorem halt_clocks (c : HaltCause) (s : State) : (halt c s).clocks = s.clocks := rfl
@[simp] theorem halt_params (c : HaltCause) (s : State) : (halt c s).params = s.params := rfl
@[simp] theorem halt_draws (c : HaltCause) (s : State) : (halt c s).draws = s.draws := rfl
@[simp] theorem halt_portCalls (c : HaltCause) (s : State) : (halt c s).portCalls = s.portCalls := rfl

@[simp] theorem clearTransient_gpr (s : State) : (clearTransient s).gpr = s.gpr := rfl
@[simp] theorem clearTransient_segs (s : State) : (clearTransient s).segs = s.segs := rfl
@[simp] theorem clearTransient_ip (s : State) : (clearTransient s).ip = s.ip := rfl
@[simp] theorem clearTransient_flags (s : State) : (clearTransient s).flags = s.flags := rfl
@[simp] theorem clearTransient_mem (s : State) : (clearTransient s).mem = s.mem := rfl
@[simp] theorem clearTransient_run (s : State) : (clearTransient s).run = s.run := rfl
@[simp] theorem clearTransient_cache (s : State) : (clearTransient s).cache = none := rfl
@[simp] theorem clearTransient_pfx (s : State) : (clearTransient s).pfx = .clear := rfl
@[simp] theorem clearTransient_clocks (s : State) : (clearTransient s).clocks = s.clocks := rfl
@[simp] theorem clearTransient_params (s : State) : (clearTransient s).params = s.params := rfl
@[simp] theorem clearTransient_draws (s : State) : (clearTransient s).draws = s.draws := rfl
@[simp] theorem clearTransient_portCalls (s : State) : (clearTransient s).portCalls = s.portCalls := rfl

@[simp] theorem hostReset_gpr (s : State) : (hostReset s).gpr = s.params.resetState.gpr := rfl
@[simp] theorem hostReset_segs (s : State) : (hostReset s).segs = s.params.resetState.segs := rfl
@[simp] theorem hostReset_ip (s : State) : (hostReset s).ip = s.params.resetState.ip := rfl
@[simp] theorem hostReset_flags (s : State) : (hostReset s).flags = s.params.resetState.flags := rfl
@[simp] theorem hostReset_mem (s : State) : (hostReset s).mem = s.mem := rfl
@[simp] theorem hostReset_run (s : State) : (hostReset s).run = .running := rfl
@[simp] theorem hostReset_cache (s : State) : (hostReset s).cache = none := rfl
@[simp] theorem hostReset_pfx (s : State) : (hostReset s).pfx = .clear := rfl
@[simp] theorem hostReset_clocks (s : State) : (hostReset s).clocks = 0 := rfl
@[simp] theorem hostReset_params (s : State) : (hostReset s).params = s.params := rfl
@[simp] theorem hostReset_draws (s : State) : (hostReset s).draws = s.draws := rfl
@[simp] theorem hostReset_portCalls (s : State) : (hostReset s).portCalls = s.portCalls := rfl

end Sys2Proof.Machine
end

