-- ==== Sys2Proof/Laws/Registers.lean ====
section
/-! SUPPORT. What reading a register gives after an update, and what reading a flag gives after a write. -/

namespace Sys2Proof.Machine

open Sys2Proof

/-! ## Words and their halves -/

@[simp] theorem loByte_mkWord (lo hi : Byte) : loByte (mkWord lo hi) = lo := by
  apply BitVec.eq_of_getLsbD_eq
  intro i h
  simp only [loByte, mkWord, BitVec.getLsbD_setWidth, BitVec.getLsbD_append]
  simp [h]

@[simp] theorem hiByte_mkWord (lo hi : Byte) : hiByte (mkWord lo hi) = hi := by
  apply BitVec.eq_of_getLsbD_eq
  intro i h
  simp only [hiByte, mkWord, BitVec.getLsbD_setWidth, BitVec.getLsbD_ushiftRight, BitVec.getLsbD_append]
  simp [h]

@[simp] theorem mkWord_halves (v : Word) : mkWord (loByte v) (hiByte v) = v := by
  apply BitVec.eq_of_getLsbD_eq
  intro i h
  simp only [loByte, hiByte, mkWord, BitVec.getLsbD_append, BitVec.getLsbD_setWidth, BitVec.getLsbD_ushiftRight]
  split
  · simp [*]
  · rw [Nat.add_sub_cancel' (by omega)]; simp; omega

@[simp] theorem loByte_zext16 (v : Byte) : loByte (zext16 v) = v := by
  apply BitVec.eq_of_getLsbD_eq
  intro i h
  simp [loByte, zext16, h]

/-! ## General registers -/

theorem getR16_setR16 (s : State) (r q : Reg16) (v : Word) :
    getR16 (setR16 s r v) q = if q = r then v else getR16 s q := by
  cases r <;> cases q <;> rfl

@[simp] theorem getR16_setR16_same (s : State) (r : Reg16) (v : Word) : getR16 (setR16 s r v) r = v := by
  cases r <;> rfl

theorem getR16_setR16_ne (s : State) {r q : Reg16} (v : Word) (h : q ≠ r) :
    getR16 (setR16 s r v) q = getR16 s q := by
  rw [getR16_setR16, if_neg h]

/-- A general register depends on the field `gpr` alone. -/
theorem getR16_congr {s t : State} (h : t.gpr = s.gpr) (r : Reg16) : getR16 t r = getR16 s r := by
  unfold getR16; rw [h]

theorem getR8_congr {s t : State} (h : t.gpr = s.gpr) (r : Reg8) : getR8 t r = getR8 s r := by
  unfold getR8; rw [getR16_congr h]

theorem getReg_congr {s t : State} (h : t.gpr = s.gpr) (w : Width) (r : Reg16) : getReg t w r = getReg s w r := by
  cases w
  · exact congrArg zext16 (getR8_congr h _)
  · exact getR16_congr h r

theorem getSeg_congr {s t : State} (h : t.segs = s.segs) (r : SegReg) : getSeg t r = getSeg s r := by
  unfold getSeg; rw [h]

theorem gpr_ax (s : State) : s.gpr.ax = getR16 s .ax := rfl
theorem gpr_cx (s : State) : s.gpr.cx = getR16 s .cx := rfl
theorem gpr_dx (s : State) : s.gpr.dx = getR16 s .dx := rfl
theorem gpr_bx (s : State) : s.gpr.bx = getR16 s .bx := rfl
theorem gpr_sp (s : State) : s.gpr.sp = getR16 s .sp := rfl
theorem gpr_bp (s : State) : s.gpr.bp = getR16 s .bp := rfl
theorem gpr_si (s : State) : s.gpr.si = getR16 s .si := rfl
theorem gpr_di (s : State) : s.gpr.di = getR16 s .di := rfl

theorem segs_es (s : State) : s.segs.es = getSeg s .es := rfl
theorem segs_cs (s : State) : s.segs.cs = getSeg s .cs := rfl
theorem segs_ss (s : State) : s.segs.ss = getSeg s .ss := rfl
theorem segs_ds (s : State) : s.segs.ds = getSeg s .ds := rfl

@[simp] theorem getR16_setSeg (s : State) (q : SegReg) (v : Word) (r : Reg16) : getR16 (setSeg s q v) r = getR16 s r := rfl
@[simp] theorem getR8_setSeg (s : State) (q : SegReg) (v : Word) (r : Reg8) : getR8 (setSeg s q v) r = getR8 s r := rfl
@[simp] theorem getReg_setSeg (s : State) (q : SegReg) (v : Word) (w : Width) (r : Reg16) :
    getReg (setSeg s q v) w r = getReg s w r := rfl
@[simp] theorem getR16_setIp (s : State) (v : Word) (r : Reg16) : getR16 (setIp s v) r = getR16 s r := rfl
@[simp] theorem getR8_setIp (s : State) (v : Word) (r : Reg8) : getR8 (setIp s v) r = getR8 s r := rfl
@[simp] theorem getReg_setIp (s : State) (v : Word) (w : Width) (r : Reg16) :
    getReg (setIp s v) w r = getReg s w r := rfl
@[simp] theorem getR16_setFlags (s : State) (f : Word) (r : Reg16) : getR16 (setFlags s f) r = getR16 s r := rfl
@[simp] theorem getR8_setFlags (s : State) (f : Word) (r : Reg8) : getR8 (setFlags s f) r = getR8 s r := rfl
@[simp] theorem getReg_setFlags (s : State) (f : Word) (w : Width) (r : Reg16) :
    getReg (setFlags s f) w r = getReg s w r := rfl
@[simp] theorem getR16_writeFlag (s : State) (g : Flag) (b : Bool) (r : Reg16) : getR16 (writeFlag s g b) r = getR16 s r := rfl
@[simp] theorem getR8_writeFlag (s : State) (g : Flag) (b : Bool) (r : Reg8) : getR8 (writeFlag s g b) r = getR8 s r := rfl
@[simp] theorem getReg_writeFlag (s : State) (g : Flag) (b : Bool) (w : Width) (r : Reg16) :
    getReg (writeFlag s g b) w r = getReg s w r := rfl
@[simp] theorem getR16_setDrawnFlags (s : State) (f : Word) (r : Reg16) : getR16 (setDrawnFlags s f) r = getR16 s r := rfl
@[simp] theorem getR8_setDrawnFlags (s : State) (f : Word) (r : Reg8) : getR8 (setDrawnFlags s f) r = getR8 s r := rfl
@[simp] theorem getReg_setDrawnFlags (s : State) (f : Word) (w : Width) (r : Reg16) :
    getReg (setDrawnFlags s f) w r = getReg s w r := rfl
@[simp] theorem getR16_setMem (s : State) (m : Memory) (r : Reg16) : getR16 (setMem s m) r = getR16 s r := rfl
@[simp] theorem getR8_setMem (s : State) (m : Memory) (r : Reg8) : getR8 (setMem s m) r = getR8 s r := rfl
@[simp] theorem getReg_setMem (s : State) (m : Memory) (w : Width) (r : Reg16) :
    getReg (setMem s m) w r = getReg s w r := rfl
@[simp] theorem getR16_withCache (s : State) (c : OperandCache) (r : Reg16) : getR16 (withCache s c) r = getR16 s r := rfl
@[simp] theorem getR8_withCache (s : State) (c : OperandCache) (r : Reg8) : getR8 (withCache s c) r = getR8 s r := rfl
@[simp] theorem getReg_withCache (s : State) (c : OperandCache) (w : Width) (r : Reg16) :
    getReg (withCache s c) w r = getReg s w r := rfl
@[simp] theorem getR16_halt (c : HaltCause) (s : State) (r : Reg16) : getR16 (halt c s) r = getR16 s r := rfl
@[simp] theorem getR8_halt (c : HaltCause) (s : State) (r : Reg8) : getR8 (halt c s) r = getR8 s r := rfl
@[simp] theorem getReg_halt (c : HaltCause) (s : State) (w : Width) (r : Reg16) :
    getReg (halt c s) w r = getReg s w r := rfl
@[simp] theorem getR16_clearTransient (s : State) (r : Reg16) : getR16 (clearTransient s) r = getR16 s r := rfl
@[simp] theorem getR8_clearTransient (s : State) (r : Reg8) : getR8 (clearTransient s) r = getR8 s r := rfl
@[simp] theorem getReg_clearTransient (s : State) (w : Width) (r : Reg16) :
    getReg (clearTransient s) w r = getReg s w r := rfl
@[simp] theorem getSeg_setR16 (s : State) (q : Reg16) (v : Word) (r : SegReg) : getSeg (setR16 s q v) r = getSeg s r := rfl
@[simp] theorem getSeg_setR8 (s : State) (q : Reg8) (v : Byte) (r : SegReg) : getSeg (setR8 s q v) r = getSeg s r := rfl
@[simp] theorem getSeg_setReg (s : State) (w : Width) (q : Reg16) (v : Word) (r : SegReg) : getSeg (setReg s w q v) r = getSeg s r := getSeg_congr (setReg_segs s w q v) r
@[simp] theorem getSeg_setIp (s : State) (v : Word) (r : SegReg) : getSeg (setIp s v) r = getSeg s r := rfl
@[simp] theorem getSeg_setFlags (s : State) (f : Word) (r : SegReg) : getSeg (setFlags s f) r = getSeg s r := rfl
@[simp] theorem getSeg_writeFlag (s : State) (g : Flag) (b : Bool) (r : SegReg) : getSeg (writeFlag s g b) r = getSeg s r := rfl
@[simp] theorem getSeg_setDrawnFlags (s : State) (f : Word) (r : SegReg) : getSeg (setDrawnFlags s f) r = getSeg s r := rfl
@[simp] theorem getSeg_setMem (s : State) (m : Memory) (r : SegReg) : getSeg (setMem s m) r = getSeg s r := rfl
@[simp] theorem getSeg_withCache (s : State) (c : OperandCache) (r : SegReg) : getSeg (withCache s c) r = getSeg s r := rfl
@[simp] theorem getSeg_halt (c : HaltCause) (s : State) (r : SegReg) : getSeg (halt c s) r = getSeg s r := rfl
@[simp] theorem getSeg_clearTransient (s : State) (r : SegReg) : getSeg (clearTransient s) r = getSeg s r := rfl

/-! ## Byte registers and registers by width -/

theorem getR8_setR8_same (s : State) (r : Reg8) (v : Byte) : getR8 (setR8 s r v) r = v := by
  cases r <;> simp [getR8, setR8, isHighHalf, byteSlot]

/-- Writing a byte register leaves every other byte register (10_state.md R31). -/
theorem getR8_setR8_ne (s : State) {r q : Reg8} (v : Byte) (h : q ≠ r) : getR8 (setR8 s r v) q = getR8 s q := by
  cases r <;> cases q <;> first | exact absurd rfl h | simp [getR8, setR8, isHighHalf, byteSlot, getR16_setR16]

/-- Writing a byte register leaves the slots it is not half of (10_state.md R31, R32). -/
theorem getR16_setR8_ne (s : State) (r : Reg8) {q : Reg16} (v : Byte) (h : q ≠ byteSlot r) :
    getR16 (setR8 s r v) q = getR16 s q := getR16_setR16_ne s _ h

@[simp] theorem getReg_setReg_same (s : State) (w : Width) (r : Reg16) (v : Word) :
    getReg (setReg s w r v) w r = keep w v := by
  cases w
  · exact congrArg zext16 (getR8_setR8_same s _ _)
  · exact getR16_setR16_same s r v

theorem getR16_setReg_ne (s : State) (w : Width) {r q : Reg16} (v : Word) (h : q ≠ slotOf w r) :
    getR16 (setReg s w r v) q = getR16 s q := by
  cases w
  · exact getR16_setR8_ne s _ _ h
  · exact getR16_setR16_ne s _ h

theorem getSeg_setSeg (s : State) (r q : SegReg) (v : Word) :
    getSeg (setSeg s r v) q = if q = r then v else getSeg s q := by
  cases r <;> cases q <;> rfl

@[simp] theorem getSeg_setSeg_same (s : State) (r : SegReg) (v : Word) : getSeg (setSeg s r v) r = v := by
  cases r <;> rfl

theorem getSeg_setSeg_ne (s : State) {r q : SegReg} (v : Word) (h : q ≠ r) :
    getSeg (setSeg s r v) q = getSeg s q := by
  rw [getSeg_setSeg, if_neg h]

/-! ## Flags -/

theorem flagBit_lt (g : Flag) : flagBit g < 16 := by cases g <;> decide

theorem flagBit_injective {g h : Flag} (e : flagBit g = flagBit h) : g = h := by
  cases g <;> cases h <;> first | rfl | exact absurd e (by decide)

/-- Every bit of FLAGS after one flag is written. -/
theorem getLsbD_setFlag (f : Word) (g : Flag) (b : Bool) (k : Nat) (hk : k < 16) :
    (setFlag f g b).getLsbD k = if k = flagBit g then b else f.getLsbD k := by
  have h1 : (1#16 <<< flagBit g).getLsbD k = decide (k = flagBit g) := by
    rw [BitVec.getLsbD_shiftLeft, BitVec.getLsbD_one]
    by_cases e : k = flagBit g
    · subst e; simp [hk]
    · simp [e]; omega
  unfold setFlag
  cases b <;>
    simp only [Bool.false_eq_true, if_false, if_true, BitVec.getLsbD_or, BitVec.getLsbD_and, BitVec.getLsbD_not, h1, hk] <;>
    by_cases e : k = flagBit g <;> simp [e]

@[simp] theorem getFlag_setFlag_same (f : Word) (g : Flag) (b : Bool) : getFlag (setFlag f g b) g = b := by
  rw [getFlag, getLsbD_setFlag _ _ _ _ (flagBit_lt g), if_pos rfl]

theorem getFlag_setFlag_ne (f : Word) {g h : Flag} (b : Bool) (e : h ≠ g) :
    getFlag (setFlag f g b) h = getFlag f h := by
  rw [getFlag, getLsbD_setFlag _ _ _ _ (flagBit_lt h), if_neg (fun c => e (flagBit_injective c)), getFlag]

theorem getFlag_setFlag (f : Word) (g h : Flag) (b : Bool) :
    getFlag (setFlag f g b) h = if h = g then b else getFlag f h := by
  split
  · next e => rw [e, getFlag_setFlag_same]
  · next e => exact getFlag_setFlag_ne f b e

/-- Two FLAGS values with the same sixteen bits are equal. -/
theorem flags_ext {f g : Word} (h : ∀ k, k < 16 → f.getLsbD k = g.getLsbD k) : f = g :=
  BitVec.eq_of_getLsbD_eq h

end Sys2Proof.Machine
end

