-- ==== Sys2Proof/Laws/Access.lean ====
section
/-! SUPPORT. What an access of memory can do: it answers exactly where the address exists, a write changes the
cells it names and nothing else, and a read after a write gives the value back. -/

namespace Sys2Proof.Machine

open Sys2Proof

theorem physical_lt {p : Params} {a k : Nat} (h : physical p a = some k) : k < memorySize := by
  unfold physical at h
  split at h
  · cases h; assumption
  · split at h
    · cases h
    · cases h; exact Nat.mod_lt _ (by decide)

theorem physical_of_lt {p : Params} {a : Nat} (h : a < memorySize) : physical p a = some a := by
  unfold physical; rw [if_pos h]

theorem physical_wrap {p : Params} (h : p.highAddress = .wrap20) (a : Nat) : physical p a = some (a % memorySize) := by
  unfold physical
  split
  · next e => rw [Nat.mod_eq_of_lt e]
  · rw [h]

/-- Whatever the parameter, an address that has a cell has the one it names modulo 2^20. -/
theorem physical_eq_mod {p : Params} {a k : Nat} (h : physical p a = some k) : k = a % memorySize := by
  unfold physical at h
  split at h
  · next e => cases h; rw [Nat.mod_eq_of_lt e]
  · split at h
    · cases h
    · cases h; rfl

theorem byteAccessible_iff {p : Params} {a : Nat} : byteAccessible p a = true ↔ ∃ k, physical p a = some k :=
  Option.isSome_iff_exists

/-- The low and the high byte of a word have different cells. -/
theorem physical_second_ne {p : Params} {a k k' : Nat} {off : Word} (ho : off.toNat ≤ a)
    (h : physical p a = some k) (h' : physical p (secondByte p a off) = some k') : k' ≠ k := by
  have e := physical_eq_mod h
  have e' := physical_eq_mod h'
  have hoff := off.isLt
  rw [e, e']
  unfold secondByte memorySize
  split
  · omega
  · rw [BitVec.toNat_add]
    have one : BitVec.toNat (1 : Word) = 1 := rfl
    rw [one]
    omega

theorem lin_offset_le (seg off : Word) : off.toNat ≤ lin seg off := Nat.le_add_left _ _

/-! ## One byte -/

theorem readByte_ok {s : State} {a : Nat} {b : Byte} :
    readByte s a = .ok b ↔ ∃ k, physical s.params a = some k ∧ b = Memory.read s.mem k := by
  unfold readByte
  cases physical s.params a with
  | none => simp
  | some k => simp [eq_comm]

theorem readByte_some {s : State} {a k : Nat} (h : physical s.params a = some k) :
    readByte s a = .ok (Memory.read s.mem k) := by
  unfold readByte; rw [h]

theorem writeByte_ok {s t : State} {a : Nat} {v : Byte} :
    writeByte s a v = .ok t ↔ ∃ k, physical s.params a = some k ∧ t = setMem s (Memory.write s.mem k v) := by
  unfold writeByte
  cases physical s.params a with
  | none => simp
  | some k => simp [eq_comm]

theorem writeByte_some {s : State} {a k : Nat} (v : Byte) (h : physical s.params a = some k) :
    writeByte s a v = .ok (setMem s (Memory.write s.mem k v)) := by
  unfold writeByte; rw [h]

/-! ## By width -/

theorem readWord_ok {s : State} {a : Nat} {off v : Word} :
    readWord s a off = .ok v ↔ ∃ k k', physical s.params a = some k ∧
      physical s.params (secondByte s.params a off) = some k' ∧
      v = mkWord (Memory.read s.mem k) (Memory.read s.mem k') := by
  unfold readWord readByte
  cases physical s.params a with
  | none => simp [bind, Except.bind]
  | some k =>
    cases physical s.params (secondByte s.params a off) with
    | none => simp [bind, Except.bind]
    | some k' => simp [bind, Except.bind, eq_comm]

theorem writeWord_ok {s t : State} {a : Nat} {off v : Word} :
    writeWord s a off v = .ok t ↔ ∃ k k', physical s.params a = some k ∧
      physical s.params (secondByte s.params a off) = some k' ∧
      t = setMem s (Memory.write (Memory.write s.mem k (loByte v)) k' (hiByte v)) := by
  unfold writeWord writeByte
  cases physical s.params a with
  | none => simp [bind, Except.bind]
  | some k =>
    simp only [bind, Except.bind, setMem_params, setMem_mem]
    cases physical s.params (secondByte s.params a off) with
    | none => simp
    | some k' => simp [eq_comm, setMem]

/-- An accessible operand can be read (20_memory.md R72, R73). -/
theorem readMem_total {s : State} {w : Width} {a : Nat} {off : Word} (h : accessible s.params w a off = true) :
    ∃ v, readMem s w a off = .ok v := by
  cases w with
  | byte =>
    obtain ⟨k, hk⟩ := byteAccessible_iff.1 h
    exact ⟨_, by simp only [readMem, readByte_some hk]; rfl⟩
  | word =>
    rw [accessible, Bool.and_eq_true] at h
    obtain ⟨⟨k, hk⟩, ⟨k', hk'⟩⟩ := And.intro (byteAccessible_iff.1 h.1) (byteAccessible_iff.1 h.2)
    exact ⟨_, readWord_ok.2 ⟨k, k', hk, hk', rfl⟩⟩

/-- An operand that is read is accessible. -/
theorem accessible_of_read {s : State} {w : Width} {a : Nat} {off v : Word} (h : readMem s w a off = .ok v) :
    accessible s.params w a off = true := by
  cases w with
  | byte =>
    rw [readMem] at h
    cases hb : readByte s a with
    | error e => rw [hb] at h; cases h
    | ok b =>
      obtain ⟨k, hk, -⟩ := readByte_ok.1 hb
      exact byteAccessible_iff.2 ⟨k, hk⟩
  | word =>
    obtain ⟨k, k', hk, hk', -⟩ := readWord_ok.1 h
    rw [accessible, Bool.and_eq_true]
    exact ⟨byteAccessible_iff.2 ⟨k, hk⟩, byteAccessible_iff.2 ⟨k', hk'⟩⟩

/-- An accessible operand can be written (20_memory.md R74, R75). -/
theorem writeMem_total {s : State} {w : Width} {a : Nat} {off : Word} (v : Word)
    (h : accessible s.params w a off = true) : ∃ m, writeMem s w a off v = .ok (setMem s m) := by
  cases w with
  | byte =>
    obtain ⟨k, hk⟩ := byteAccessible_iff.1 h
    exact ⟨_, writeByte_some _ hk⟩
  | word =>
    rw [accessible, Bool.and_eq_true] at h
    obtain ⟨⟨k, hk⟩, ⟨k', hk'⟩⟩ := And.intro (byteAccessible_iff.1 h.1) (byteAccessible_iff.1 h.2)
    exact ⟨_, writeWord_ok.2 ⟨k, k', hk, hk', rfl⟩⟩

/-- Everything a write can do: it changes memory alone, keeps its canonical form, and changes only the cells it
names. -/
theorem writeMem_spec {s t : State} {w : Width} {a : Nat} {off v : Word} (h : writeMem s w a off v = .ok t) :
    ∃ m, t = setMem s m ∧ (s.mem.wf = true → m.wf = true) ∧
      ∀ b, b ∉ accessCells s.params w a off → Memory.read m b = Memory.read s.mem b := by
  cases w with
  | byte =>
    obtain ⟨k, hk, rfl⟩ := writeByte_ok.1 h
    refine ⟨_, rfl, fun hw => Memory.wf_write _ hw (physical_lt hk), fun b hb => ?_⟩
    rw [accessCells, hk] at hb
    exact Memory.read_write_ne _ _ (by simpa using hb)
  | word =>
    obtain ⟨k, k', hk, hk', rfl⟩ := writeWord_ok.1 h
    refine ⟨_, rfl, fun hw => Memory.wf_write _ (Memory.wf_write _ hw (physical_lt hk)) (physical_lt hk'), fun b hb => ?_⟩
    rw [accessCells, hk, hk'] at hb
    have hb' : b ≠ k ∧ b ≠ k' := by simpa using hb
    rw [Memory.read_write_ne _ _ hb'.2, Memory.read_write_ne _ _ hb'.1]

/-- A read after a write to the same operand gives the value written (20_memory.md R72 to R75). -/
theorem readMem_writeMem {s t : State} {w : Width} {a : Nat} {off v : Word} (hw : s.mem.wf = true) (ho : off.toNat ≤ a)
    (h : writeMem s w a off v = .ok t) : readMem t w a off = .ok (keep w v) := by
  cases w with
  | byte =>
    obtain ⟨k, hk, rfl⟩ := writeByte_ok.1 h
    have e : readByte (setMem s (Memory.write s.mem k (loByte v))) a = .ok (loByte v) := by
      rw [readByte_some (s := setMem s (Memory.write s.mem k (loByte v))) hk, setMem_mem, Memory.read_write_same _ _ hw]
    simp only [readMem, e]; rfl
  | word =>
    obtain ⟨k, k', hk, hk', rfl⟩ := writeWord_ok.1 h
    refine readWord_ok.2 ⟨k, k', hk, hk', ?_⟩
    rw [setMem_mem, Memory.read_write_same _ _ (Memory.wf_write _ hw (physical_lt hk)),
      Memory.read_write_ne _ _ (physical_second_ne ho hk hk').symm, Memory.read_write_same _ _ hw, mkWord_halves]
    rfl

/-- A read looks at the parameters and the cells it names only. -/
theorem readMem_congr {s t : State} {w : Width} {a : Nat} {off : Word} (hp : t.params = s.params)
    (hm : ∀ b, b ∈ accessCells s.params w a off → Memory.read t.mem b = Memory.read s.mem b) :
    readMem t w a off = readMem s w a off := by
  cases w with
  | byte =>
    simp only [readMem, readByte, hp]
    cases hk : physical s.params a with
    | none => rfl
    | some k => simp only [hm k (by simp [accessCells, hk])]
  | word =>
    simp only [readMem, readWord, readByte, hp]
    cases hk : physical s.params a with
    | none => rfl
    | some k =>
      cases hk' : physical s.params (secondByte s.params a off) with
      | none => rfl
      | some k' =>
        simp only [hm k (by simp [accessCells, hk]), hm k' (by simp [accessCells, hk'])]

/-- The one way an access of memory fails (20_memory.md R76). -/
theorem readMem_error {s : State} {w : Width} {a : Nat} {off : Word} {f : Fault} (h : readMem s w a off = .error f) :
    f = .beyondBackingStore ∧ accessible s.params w a off = false := by
  cases ha : accessible s.params w a off with
  | true =>
    obtain ⟨v, hv⟩ := readMem_total ha
    rw [hv] at h; cases h
  | false =>
    refine ⟨?_, rfl⟩
    cases w with
    | byte =>
      simp only [readMem, readByte] at h
      split at h <;> cases h; rfl
    | word =>
      unfold readMem readWord readByte at h
      cases hk : physical s.params a with
      | none => rw [hk] at h; cases h; rfl
      | some k =>
        cases hk' : physical s.params (secondByte s.params a off) with
        | none => simp only [hk, hk', bind, Except.bind] at h; cases h; rfl
        | some k' => simp only [hk, hk', bind, Except.bind] at h; cases h

theorem writeMem_error {s : State} {w : Width} {a : Nat} {off v : Word} {f : Fault}
    (h : writeMem s w a off v = .error f) : f = .beyondBackingStore ∧ accessible s.params w a off = false := by
  cases ha : accessible s.params w a off with
  | true =>
    obtain ⟨m, hm⟩ := writeMem_total v ha
    rw [hm] at h; cases h
  | false =>
    refine ⟨?_, rfl⟩
    cases w with
    | byte =>
      simp only [writeMem, writeByte] at h
      split at h <;> cases h; rfl
    | word =>
      unfold writeMem writeWord writeByte at h
      cases hk : physical s.params a with
      | none => rw [hk] at h; cases h; rfl
      | some k =>
        cases hk' : physical s.params (secondByte s.params a off) with
        | none => simp only [hk, hk', bind, Except.bind, setMem_params] at h; cases h; rfl
        | some k' => simp only [hk, hk', bind, Except.bind, setMem_params] at h; cases h

/-- Under `wrap20` every address exists (20_memory.md R76). -/
theorem accessible_wrap {p : Params} (h : p.highAddress = .wrap20) (w : Width) (a : Nat) (off : Word) :
    accessible p w a off = true := by
  have hb : ∀ a, byteAccessible p a = true := fun a => byteAccessible_iff.2 ⟨_, physical_wrap h a⟩
  cases w <;> simp [accessible, hb]

end Sys2Proof.Machine
end

