-- ==== Sys2Proof/Laws/Operands.lean ====
section
/-! SUPPORT. What resolving an operand and writing it back can do, and what an instruction with a Mod-Reg-R/M byte
comes to. -/

namespace Sys2Proof.Machine

open Sys2Proof

/-- The cache contents for an operand whose value is `v` (41_addressing.md R180 to R191). -/
def cacheOf (s : State) (w : Width) (reg : BitVec 3) (rm : RM) (v : Word) : OperandCache :=
  { mod := rm.modBits, reg := reg, rm := rm.rmBits, w := w, place := placeOf s rm, op := v }

theorem rmValue_reg (s : State) (w : Width) (n : Reg16) : rmValue s w (.reg n) = .ok (getReg s w n) := rfl

theorem rmValue_mem (s : State) (w : Width) (b : EaBase) (d : Disp) :
    rmValue s w (.mem b d) = readMem s w (effectiveLinear s (.mem b d)) (effectiveAddress s (.mem b d)) := rfl

theorem rmValue_direct (s : State) (w : Width) (d : Word) :
    rmValue s w (.direct d) = readMem s w (effectiveLinear s (.direct d)) (effectiveAddress s (.direct d)) := rfl

/-- An accessible r/m operand has a value. -/
theorem rmValue_total {s : State} {w : Width} {rm : RM} (h : rmAccessible s w rm = true) :
    ∃ v, rmValue s w rm = .ok v := by
  cases rm with
  | reg n => exact ⟨_, rfl⟩
  | mem b d => exact readMem_total h
  | direct d => exact readMem_total h

theorem rmAccessible_of_value {s : State} {w : Width} {rm : RM} {v : Word} (h : rmValue s w rm = .ok v) :
    rmAccessible s w rm = true := by
  cases rm with
  | reg n => rfl
  | mem b d => exact accessible_of_read h
  | direct d => exact accessible_of_read h

theorem rmValue_error {s : State} {w : Width} {rm : RM} {f : Fault} (h : rmValue s w rm = .error f) :
    f = .beyondBackingStore ∧ rmAccessible s w rm = false := by
  cases rm with
  | reg n => cases h
  | mem b d => exact readMem_error h
  | direct d => exact readMem_error h

/-- An instruction with a Mod-Reg-R/M byte whose operand has the value `v`. -/
theorem onRM_of_value {s : State} {w : Width} {reg : BitVec 3} {rm : RM} {v : Word}
    (rest : OperandCache → State → Res State) (h : rmValue s w rm = .ok v) :
    onRM w reg rm rest s = outcome (rest (cacheOf s w reg rm v) (withCache s (cacheOf s w reg rm v))) := by
  unfold rmValue at h
  simp only [onRM, resolve, h, bind, Except.bind]
  rfl

/-- An instruction with a Mod-Reg-R/M byte whose operand cannot be read. -/
theorem onRM_of_error {s : State} {w : Width} {reg : BitVec 3} {rm : RM} {f : Fault}
    (rest : OperandCache → State → Res State) (h : rmValue s w rm = .error f) : onRM w reg rm rest s = .fault f := by
  unfold rmValue at h
  simp only [onRM, resolve, h, bind, Except.bind]
  rfl

/-- Where an instruction with a Mod-Reg-R/M byte answers a next state, its operand has a value and the rest of it
completes. -/
theorem onRM_next {s t : State} {w : Width} {reg : BitVec 3} {rm : RM} {rest : OperandCache → State → Res State}
    (h : onRM w reg rm rest s = .next t) :
    ∃ v, rmValue s w rm = .ok v ∧ rest (cacheOf s w reg rm v) (withCache s (cacheOf s w reg rm v)) = .ok t := by
  cases hv : rmValue s w rm with
  | error f => rw [onRM_of_error rest hv] at h; cases h
  | ok v =>
    rw [onRM_of_value rest hv] at h
    refine ⟨v, rfl, ?_⟩
    cases hr : rest (cacheOf s w reg rm v) (withCache s (cacheOf s w reg rm v)) with
    | error f => rw [hr] at h; cases h
    | ok u => rw [hr] at h; cases h; rfl

/-- Where the rest of an instruction with a Mod-Reg-R/M byte leaves the operand cache, the cache holds the three fields
of that byte, the place of its r/m operand and the value the operand had (10_state.md R43, 41_addressing.md R190). -/
theorem onRM_cache {s t : State} {w : Width} {reg : BitVec 3} {rm : RM} {rest : OperandCache → State → Res State}
    (h : onRM w reg rm rest s = .next t) (hr : ∀ c u v, rest c u = .ok v → v.cache = u.cache) :
    ∃ c, t.cache = some c ∧ c.mod = rm.modBits ∧ c.reg = reg ∧ c.rm = rm.rmBits ∧ c.place = placeOf s rm ∧
      rmValue s c.w rm = .ok c.op := by
  obtain ⟨v, hv, ht⟩ := onRM_next h
  exact ⟨_, hr _ _ _ ht, rfl, rfl, rfl, rfl, hv⟩

theorem outcome_next {r : Res State} {t : State} : outcome r = .next t ↔ r = .ok t := by
  cases r with
  | error f => simp [outcome]
  | ok u => simp [outcome]

theorem outcome_fault {r : Res State} {f : Fault} : outcome r = .fault f ↔ r = .error f := by
  cases r with
  | error f => simp [outcome]
  | ok u => simp [outcome]

theorem outcome_ne_refused {r : Res State} {x : Refusal} : outcome r ≠ .refused x := by
  cases r <;> simp [outcome]

/-- Writing a register operand writes the register (41_addressing.md R192). -/
theorem writeRM_reg (s u : State) (w : Width) (reg : BitVec 3) (n : Reg16) (v x : Word) :
    writeRM (cacheOf s w reg (.reg n) v) x u = .ok (setReg u w n x) := rfl

/-- Writing a memory operand goes to the address the resolver computed (41_addressing.md R192, 70_reset_and_hazards.md
R511). -/
theorem writeRM_mem (s u : State) (w : Width) (reg : BitVec 3) (b : EaBase) (d : Disp) (v x : Word) :
    writeRM (cacheOf s w reg (.mem b d) v) x u =
      writeMem u w (effectiveLinear s (.mem b d)) (effectiveAddress s (.mem b d)) x := rfl

theorem writeRM_direct (s u : State) (w : Width) (reg : BitVec 3) (d : Word) (v x : Word) :
    writeRM (cacheOf s w reg (.direct d) v) x u =
      writeMem u w (effectiveLinear s (.direct d)) (effectiveAddress s (.direct d)) x := rfl

/-- Everything writing an r/m operand can do: a register operand changes that register alone, a memory operand
changes memory in the operand's cells alone. -/
theorem writeRM_spec {s u t : State} {w : Width} {reg : BitVec 3} {rm : RM} {v x : Word} (hp : u.params = s.params)
    (h : writeRM (cacheOf s w reg rm v) x u = .ok t) :
    (∃ n, rm = .reg n ∧ t = setReg u w n x) ∨
      (isRegister rm = false ∧ ∃ m, t = setMem u m ∧ (u.mem.wf = true → m.wf = true) ∧
        ∀ b, b ∉ rmCells s w rm → Memory.read m b = Memory.read u.mem b) := by
  cases rm with
  | reg n =>
    rw [writeRM_reg] at h
    cases h
    exact .inl ⟨n, rfl, rfl⟩
  | mem b d =>
    obtain ⟨m, e, hw, hf⟩ := writeMem_spec h
    exact .inr ⟨rfl, m, e, hw, by rw [hp] at hf; exact hf⟩
  | direct d =>
    obtain ⟨m, e, hw, hf⟩ := writeMem_spec h
    exact .inr ⟨rfl, m, e, hw, by rw [hp] at hf; exact hf⟩

/-- An accessible r/m operand can be written. -/
theorem writeRM_total {s u : State} {w : Width} (reg : BitVec 3) {rm : RM} (v x : Word) (hp : u.params = s.params)
    (h : rmAccessible s w rm = true) : ∃ t, writeRM (cacheOf s w reg rm v) x u = .ok t := by
  cases rm with
  | reg n => exact ⟨_, rfl⟩
  | mem b d =>
    obtain ⟨m, e⟩ := writeMem_total (s := u) x (by rw [hp]; exact h)
    exact ⟨_, e⟩
  | direct d =>
    obtain ⟨m, e⟩ := writeMem_total (s := u) x (by rw [hp]; exact h)
    exact ⟨_, e⟩

/-- What a register or memory operand reads as at its place after a write: the value written, kept to its width
(41_addressing.md R192). -/
theorem readPlace_writeRM {s u t : State} {w : Width} {reg : BitVec 3} {rm : RM} {v x : Word}
    (hw : u.mem.wf = true) (h : writeRM (cacheOf s w reg rm v) x u = .ok t) :
    readPlace t w (placeOf s rm) = .ok (keep w x) := by
  cases rm with
  | reg n =>
    cases h
    exact congrArg Except.ok (getReg_setReg_same u w n x)
  | mem b d => exact readMem_writeMem hw (lin_offset_le _ _) h
  | direct d => exact readMem_writeMem hw (lin_offset_le _ _) h

/-- The second word of a far pointer of a memory operand. -/
theorem readFarSegment_reg (s u : State) (w : Width) (reg : BitVec 3) (n : Reg16) (v : Word) :
    readFarSegment (cacheOf s w reg (.reg n) v) u = .error .undefinedForm := rfl

theorem readFarSegment_error {s u : State} {w : Width} {reg : BitVec 3} {rm : RM} {v : Word} {f : Fault}
    (h : readFarSegment (cacheOf s w reg rm v) u = .error f) :
    f = .beyondBackingStore ∨ (f = .undefinedForm ∧ isRegister rm = true) := by
  cases rm with
  | reg n => cases h; exact .inr ⟨rfl, rfl⟩
  | mem b d => exact .inl (readMem_error (w := .word) h).1
  | direct d => exact .inl (readMem_error (w := .word) h).1

end Sys2Proof.Machine
end

