-- ==== Sys2Proof/Laws/Stack.lean ====
section
/-! SUPPORT. What a push, a pop, taking an exception and returning from one can do. -/

namespace Sys2Proof.Machine

open Sys2Proof

/-- Everything a push can do: SP goes down by 2 and memory changes in the cells of the new top of stack. -/
theorem push16_spec {s t : State} {v : Word} (h : push16 v s = .ok t) :
    ∃ m, t = setMem (setR16 s .sp (s.gpr.sp - 2)) m ∧ (s.mem.wf = true → m.wf = true) ∧
      ∀ b, b ∉ stackCells s (s.gpr.sp - 2) → Memory.read m b = Memory.read s.mem b :=
  writeMem_spec (w := .word) h

/-- A push completes where its word can be accessed. -/
theorem push16_total {s : State} (v : Word) (h : stackAccessible s (s.gpr.sp - 2) = true) :
    ∃ m, push16 v s = .ok (setMem (setR16 s .sp (s.gpr.sp - 2)) m) :=
  writeMem_total (s := setR16 s .sp (s.gpr.sp - 2)) (w := .word) v h

/-- The one way a push fails. -/
theorem push16_error {s : State} {v : Word} {f : Fault} (h : push16 v s = .error f) :
    f = .beyondBackingStore ∧ stackAccessible s (s.gpr.sp - 2) = false :=
  writeMem_error (s := setR16 s .sp (s.gpr.sp - 2)) (w := .word) h

/-- The word a push stored is at the new top of stack. -/
theorem readWord_push16 {s t : State} {v : Word} (hw : s.mem.wf = true) (h : push16 v s = .ok t) :
    readWord t (lin s.segs.ss (s.gpr.sp - 2)) (s.gpr.sp - 2) = .ok v :=
  readMem_writeMem (s := setR16 s .sp (s.gpr.sp - 2)) (w := .word) hw (lin_offset_le _ _) h

/-- Everything a pop can do: it reads the word at the top of stack, and SP goes up by 2. -/
theorem pop16_ok {s t : State} {v : Word} :
    pop16 s = .ok (v, t) ↔
      readWord s (lin s.segs.ss s.gpr.sp) s.gpr.sp = .ok v ∧ t = setR16 s .sp (s.gpr.sp + 2) := by
  unfold pop16
  cases readWord s (lin s.segs.ss s.gpr.sp) s.gpr.sp with
  | error e => simp [bind, Except.bind]
  | ok x =>
    simp only [bind, Except.bind, Except.ok.injEq, Prod.mk.injEq]
    exact ⟨fun h => ⟨h.1, h.2.symm⟩, fun h => ⟨h.1, h.2.symm⟩⟩

/-- A pop completes where its word can be accessed. -/
theorem pop16_total {s : State} (h : stackAccessible s s.gpr.sp = true) :
    ∃ v, readWord s (lin s.segs.ss s.gpr.sp) s.gpr.sp = .ok v ∧ pop16 s = .ok (v, setR16 s .sp (s.gpr.sp + 2)) := by
  obtain ⟨v, hv⟩ := readMem_total (w := .word) h
  exact ⟨v, hv, pop16_ok.2 ⟨hv, rfl⟩⟩

/-- The one way a pop fails. -/
theorem pop16_error {s : State} {f : Fault} (h : pop16 s = .error f) :
    f = .beyondBackingStore ∧ stackAccessible s s.gpr.sp = false := by
  unfold pop16 at h
  cases hv : readWord s (lin s.segs.ss s.gpr.sp) s.gpr.sp with
  | error e =>
    rw [hv] at h
    cases h
    exact readMem_error (w := .word) hv
  | ok v => rw [hv] at h; cases h

/-- The vector table lies inside the backing store (44_stack_interrupt.md R300). -/
theorem vector_accessible (p : Params) (n : Byte) (d : Nat) (hd : d ≤ 2) :
    accessible p .word (vectorAddr n + d) (BitVec.ofNat 16 (vectorAddr n + d)) = true := by
  have hn : n.toNat < 256 := n.isLt
  have hb : ∀ a, a < memorySize → byteAccessible p a = true := fun a ha =>
    byteAccessible_iff.2 ⟨a, physical_of_lt ha⟩
  rw [accessible, hb _ (by unfold vectorAddr memorySize; omega), Bool.true_and]
  apply hb
  unfold secondByte vectorAddr memorySize
  split
  · omega
  · have : (BitVec.ofNat 16 (4 * n.toNat + d) + 1).toNat < 65536 := BitVec.isLt _
    omega

/-- Everything taking an interrupt can do (44_stack_interrupt.md R300, R301). -/
theorem interrupt_spec {s t : State} {n : Byte} (h : interrupt n s = .ok t) :
    ∃ m ip cs, t = { setR16 s .sp (s.gpr.sp - 2 - 2 - 2) with
        mem := m, ip := ip, segs := { s.segs with cs := cs }, run := .running,
        flags := setFlag (setFlag s.flags .TF false) .IF false } ∧
      (s.mem.wf = true → m.wf = true) ∧
      ∀ b, b ∉ stackCells s (s.gpr.sp - 2) → b ∉ stackCells s (s.gpr.sp - 2 - 2) →
        b ∉ stackCells s (s.gpr.sp - 2 - 2 - 2) → Memory.read m b = Memory.read s.mem b := by
  unfold interrupt at h
  cases h1 : push16 s.flags s with
  | error e => rw [h1] at h; cases h
  | ok t1 =>
    obtain ⟨m1, rfl, w1, f1⟩ := push16_spec h1
    rw [h1] at h
    simp only [bind, Except.bind] at h
    split at h
    · cases h
    · next t2 h2 =>
      obtain ⟨m2, rfl, w2, f2⟩ := push16_spec h2
      split at h
      · cases h
      · next t3 h3 =>
        obtain ⟨m3, rfl, w3, f3⟩ := push16_spec h3
        split at h
        · cases h
        · next ip _ =>
          split at h
          · cases h
          · next cs _ =>
            cases h
            exact ⟨m3, ip, cs, rfl, fun hw => w3 (w2 (w1 hw)),
              fun b b1 b2 b3 => (f3 b b3).trans ((f2 b b2).trans (f1 b b1))⟩

/-- The one way taking an interrupt fails: one of its three pushes. -/
theorem interrupt_total {s : State} (n : Byte) (h1 : stackAccessible s (s.gpr.sp - 2) = true)
    (h2 : stackAccessible s (s.gpr.sp - 2 - 2) = true) (h3 : stackAccessible s (s.gpr.sp - 2 - 2 - 2) = true) :
    ∃ t, interrupt n s = .ok t := by
  obtain ⟨m1, e1⟩ := push16_total s.flags h1
  unfold interrupt
  simp only [e1, bind, Except.bind]
  generalize hs2 : setFlags (setMem (setR16 s .sp (s.gpr.sp - 2)) m1) _ = s2
  have hg : s2.gpr.sp = s.gpr.sp - 2 := by subst hs2; rfl
  have hss : s2.segs = s.segs := by subst hs2; rfl
  have hp : s2.params = s.params := by subst hs2; rfl
  obtain ⟨m2, e2⟩ := push16_total (s := s2) s2.segs.cs (by rw [hg, stackAccessible, hss, hp]; exact h2)
  simp only [e2]
  generalize hs3 : (setMem (setR16 s2 .sp (s2.gpr.sp - 2)) m2) = s3
  have hg3 : s3.gpr.sp = s.gpr.sp - 2 - 2 := by subst hs3; rw [← hg]; rfl
  have hss3 : s3.segs = s.segs := by subst hs3; rw [← hss]; rfl
  have hp3 : s3.params = s.params := by subst hs3; rw [← hp]; rfl
  obtain ⟨m3, e3⟩ := push16_total (s := s3) s3.ip (by rw [hg3, stackAccessible, hss3, hp3]; exact h3)
  simp only [e3]
  obtain ⟨ip, e4⟩ := readMem_total (s := (setMem (setR16 s3 .sp (s3.gpr.sp - 2)) m3)) (w := .word)
    (vector_accessible _ n 0 (by omega))
  obtain ⟨cs, e5⟩ := readMem_total (s := (setMem (setR16 s3 .sp (s3.gpr.sp - 2)) m3)) (w := .word)
    (vector_accessible _ n 2 (by omega))
  simp only [readMem, Nat.add_zero] at e4 e5
  simp only [e4, e5]
  exact ⟨_, rfl⟩

theorem interrupt_error {s : State} {n : Byte} {f : Fault} (h : interrupt n s = .error f) : f = .beyondBackingStore := by
  unfold interrupt at h
  simp only [bind, Except.bind] at h
  split at h
  · next h1 => cases h; exact (push16_error h1).1
  · split at h
    · next h2 => cases h; exact (push16_error h2).1
    · split at h
      · next h3 => cases h; exact (push16_error h3).1
      · split at h
        · next h4 => cases h; exact (readMem_error (w := .word) h4).1
        · split at h
          · next h5 => cases h; exact (readMem_error (w := .word) h5).1
          · cases h

end Sys2Proof.Machine
end

