-- ==== Sys2Proof/Machine/Effects.lean ====
section
/-! DEFINITION. The tables the frame statements are written in: for each instruction, the registers, segment
registers, flags and bytes of memory its rule lets it write. The machine does not use them. -/

namespace Sys2Proof.Machine

open Sys2Proof

/-- A destination register: a number at a width. -/
abbrev Dest := Width × Reg16

/-- Whether writing a destination register writes a byte register (10_state.md R31). -/
def Dest.touches (d : Dest) (q : Reg8) : Bool :=
  match d.1 with
  | .byte => Reg8.ofNumber d.2 == q
  | .word => byteSlot q == d.2

/-- The register destination of an r/m operand, if it is one. -/
def rmDest (w : Width) : RM → List Dest
  | .reg n => [(w, n)]
  | .mem _ _ => []
  | .direct _ => []

/-- The destination of an instruction with a `reg` and an r/m operand, by the direction bit. -/
def dirDest (d : Dir) (w : Width) (m : ModRM) : List Dest :=
  match d with
  | .toRm => rmDest w m.rm
  | .toReg => [(w, m.reg)]

/-- The cells of the destination of an instruction with a `reg` and an r/m operand. -/
def dirCells (s : State) (d : Dir) (w : Width) (m : ModRM) : List Nat :=
  match d with
  | .toRm => rmCells s w m.rm
  | .toReg => []

/-- SP as a destination: a push, a pop, an interrupt. -/
def spDest : Dest := (.word, .sp)

/-- CX as a destination of a string instruction, under REP only (46_string_shift_muldiv_misc.md R391). -/
def repDest (s : State) : List Dest :=
  match s.pfx.rep with
  | none => []
  | some _ => [(.word, .cx)]

/-- The halves of the double-width result: AX, or AX and DX (46_string_shift_muldiv_misc.md R410 to R413). -/
def doubleDest : Width → List Dest
  | .byte => [(.word, .ax)]
  | .word => [(.word, .ax), (.word, .dx)]

/-- Whether DIV on this operand raises a divide error (46_string_shift_muldiv_misc.md R412). -/
def divRaises (s : State) (w : Width) (rm : RM) : Bool :=
  match rmValue s w rm with
  | .ok v => !divFits w (dividend w s) v.toNat
  | .error _ => false

/-- Whether IDIV on this operand raises a divide error (46_string_shift_muldiv_misc.md R413). -/
def idivRaises (s : State) (w : Width) (rm : RM) : Bool :=
  match rmValue s w rm with
  | .ok v => !idivFits s.params.idivRange w (signedDividend w s) (signedValue w v)
  | .error _ => false

/-- Whether an instruction takes an exception on this state (60_exceptions.md R462). -/
def takesInterrupt (i : Instr) (s : State) : Bool :=
  match i with
  | .int3 => true
  | .int _ => true
  | .into => s.flag .OF
  | .div w m => divRaises s w m.rm
  | .idiv w m => idivRaises s w m.rm
  | .aam base => base == 0
  | _ => false

/-- The general registers an instruction writes when it takes no exception, each named by its rule. -/
def ownDests (i : Instr) (s : State) : List Dest :=
  match i with
  | .addRmReg d w m | .orRmReg d w m | .adcRmReg d w m | .sbbRmReg d w m => dirDest d w m
  | .andRmReg d w m | .subRmReg d w m | .xorRmReg d w m => dirDest d w m
  | .addAccImm i | .orAccImm i | .adcAccImm i | .sbbAccImm i | .andAccImm i | .subAccImm i | .xorAccImm i =>
    [(i.width, .ax)]
  | .addRmImm m i | .orRmImm m i | .adcRmImm m i | .sbbRmImm m i => rmDest i.width m.rm
  | .andRmImm m i | .subRmImm m i | .xorRmImm m i => rmDest i.width m.rm
  | .cmpRmReg _ _ _ | .cmpAccImm _ | .cmpRmImm _ _ | .testRmReg _ _ | .testAccImm _ | .testRmImm _ _ => []
  | .incReg r | .decReg r => [(.word, r)]
  | .incRm w m | .decRm w m | .notRm w m | .negRm w m => rmDest w m.rm
  | .pushReg _ | .pushSeg _ | .pushRm _ | .pushf => [spDest]
  | .popReg r => [spDest, (.word, r)]
  | .popSeg _ | .popf | .iret => [spDest]
  | .popRm m => spDest :: rmDest .word m.rm
  | .int3 | .int _ | .into | .hlt => []
  | .movRmReg d w m => dirDest d w m
  | .movRmImm m i => rmDest i.width m.rm
  | .movRmSeg m => rmDest .word m.rm
  | .movSegRm _ => []
  | .movMoffs d w _ => match d with | .toReg => [(w, .ax)] | .toRm => []
  | .movRegImm r i => [(i.width, r)]
  | .lea m | .lds m | .les m => [(.word, m.reg)]
  | .xchgRmReg w m => (w, m.reg) :: rmDest w m.rm
  | .xchgAcc r => [(.word, .ax), (.word, r)]
  | .nop => []
  | .cbw => [(.word, .ax)]
  | .cwd => [(.word, .dx)]
  | .lahf => [(.byte, .sp)]
  | .sahf => []
  | .xlat => [(.byte, .ax)]
  | .jo _ | .jno _ | .jb _ | .jnb _ | .jz _ | .jnz _ | .jbe _ | .ja _ => []
  | .js _ | .jns _ | .jp _ | .jnp _ | .jl _ | .jnl _ | .jle _ | .jnle _ => []
  | .jmpShort _ | .jmpNear _ | .jmpFar _ _ | .jmpRm _ | .jmpFarMem _ => []
  | .callNear _ | .callFar _ _ | .callRm _ | .callFarMem _ => [spDest]
  | .ret | .retImm _ | .retf | .retfImm _ => [spDest]
  | .loop _ | .loopz _ | .loopnz _ => [(.word, .cx)]
  | .jcxz _ => []
  | .clc | .stc | .cmc | .cli | .sti | .cld | .std => []
  | .movsb | .movsw | .cmpsb | .cmpsw => (.word, .si) :: (.word, .di) :: repDest s
  | .stosb | .stosw | .scasb | .scasw => (.word, .di) :: repDest s
  | .lodsb => (.word, .si) :: (.byte, .ax) :: repDest s
  | .lodsw => (.word, .si) :: (.word, .ax) :: repDest s
  | .rol _ w m | .ror _ w m | .rcl _ w m | .rcr _ w m => rmDest w m.rm
  | .shl _ w m | .shr _ w m | .sar _ w m => rmDest w m.rm
  | .mul w _ | .imul w _ | .div w _ | .idiv w _ => doubleDest w
  | .daa | .das => [(.byte, .ax)]
  | .aaa | .aas | .aam _ | .aad _ => [(.word, .ax)]
  | .inImm w _ | .inDx w => [(w, .ax)]
  | .outImm _ _ | .outDx _ | .esc _ _ | .wait => []
  | .segEs | .segCs | .segSs | .segDs | .lock | .repnz | .repz | .unmapped _ | .emptyChild _ _ => []

/-- The general registers an instruction writes: SP alone when it takes an exception
(44_stack_interrupt.md R300, R308). -/
def dests (i : Instr) (s : State) : List Dest := if takesInterrupt i s then [spDest] else ownDests i s

/-- The segment registers an instruction writes when it takes no exception. -/
def ownSegs (i : Instr) : List SegReg :=
  match i with
  | .popSeg r => [r]
  | .movSegRm m => (SegReg.ofNumber m.reg).toList
  | .lds _ => [.ds]
  | .les _ => [.es]
  | .jmpFar _ _ | .jmpFarMem _ | .callFar _ _ | .callFarMem _ | .retf | .retfImm _ | .iret => [.cs]
  | _ => []

/-- The segment registers an instruction writes: CS when it takes an exception. -/
def writtenSegs (i : Instr) (s : State) : List SegReg := if takesInterrupt i s then [.cs] else ownSegs i

/-- The six status flags. -/
def statusFlags : List Flag := [.CF, .PF, .AF, .ZF, .SF, .OF]

/-- The flags of a shift or rotate: none for a count of 0 (46_string_shift_muldiv_misc.md R400). -/
def shiftWrites (k : ShiftOp) (c : ShiftCount) (s : State) : List Flag :=
  if shiftCount c s = 0 then [] else if isShift k then statusFlags else [.CF, .OF]

/-- The flags of CMPS and SCAS: none when REP makes no repetition (46_string_shift_muldiv_misc.md R391). -/
def compareWrites (s : State) : List Flag :=
  match s.pfx.rep with
  | none => statusFlags
  | some _ => if s.gpr.cx = 0 then [] else statusFlags

/-- The flags an instruction writes when it takes no exception; POPF and IRET, which write all sixteen bits, are
apart (`writesAllFlags`). -/
def ownFlags (i : Instr) (s : State) : List Flag :=
  match i with
  | .addRmReg _ _ _ | .addAccImm _ | .addRmImm _ _ | .adcRmReg _ _ _ | .adcAccImm _ | .adcRmImm _ _ => statusFlags
  | .sbbRmReg _ _ _ | .sbbAccImm _ | .sbbRmImm _ _ | .subRmReg _ _ _ | .subAccImm _ | .subRmImm _ _ => statusFlags
  | .cmpRmReg _ _ _ | .cmpAccImm _ | .cmpRmImm _ _ | .negRm _ _ => statusFlags
  | .orRmReg _ _ _ | .orAccImm _ | .orRmImm _ _ | .andRmReg _ _ _ | .andAccImm _ | .andRmImm _ _ => [.CF, .PF, .ZF, .SF, .OF]
  | .xorRmReg _ _ _ | .xorAccImm _ | .xorRmImm _ _ => [.CF, .PF, .ZF, .SF, .OF]
  | .testRmReg _ _ | .testAccImm _ | .testRmImm _ _ => [.CF, .PF, .ZF, .SF, .OF]
  | .incReg _ | .incRm _ _ | .decReg _ | .decRm _ _ => [.PF, .AF, .ZF, .SF, .OF]
  | .sahf => [.CF, .PF, .AF, .ZF, .SF]
  | .clc | .stc | .cmc => [.CF]
  | .cli | .sti => [.IF]
  | .cld | .std => [.DF]
  | .cmpsb | .cmpsw | .scasb | .scasw => compareWrites s
  | .rol c _ _ => shiftWrites .rol c s
  | .ror c _ _ => shiftWrites .ror c s
  | .rcl c _ _ => shiftWrites .rcl c s
  | .rcr c _ _ => shiftWrites .rcr c s
  | .shl c _ _ => shiftWrites .shl c s
  | .shr c _ _ => shiftWrites .shr c s
  | .sar c _ _ => shiftWrites .sar c s
  | .mul _ _ | .imul _ _ | .div _ _ | .idiv _ _ => statusFlags
  | .daa | .das | .aaa | .aas | .aam _ | .aad _ => statusFlags
  | _ => []

/-- The flags an instruction writes: TF and IF when it takes an exception (44_stack_interrupt.md R300). -/
def writtenFlags (i : Instr) (s : State) : List Flag := if takesInterrupt i s then [.TF, .IF] else ownFlags i s

/-- The two instructions that write all sixteen bits of FLAGS (44_stack_interrupt.md R299, R305). -/
def writesAllFlags : Instr → Bool
  | .popf => true
  | .iret => true
  | _ => false

/-- The cells of the three words an interrupt pushes (44_stack_interrupt.md R300). -/
def interruptCells (s : State) : List Nat :=
  stackCells s (s.gpr.sp - 2) ++ stackCells s (s.gpr.sp - 4) ++ stackCells s (s.gpr.sp - 6)

/-- The offset in ES of the `j`-th element a string instruction writes. -/
def stringOffset (w : Width) (s : State) (j : Nat) : Word := s.gpr.di + BitVec.ofNat 16 j * stringDelta w s

/-- How many elements a string instruction that never stops early handles (46_string_shift_muldiv_misc.md
R391). -/
def stringCount (s : State) : Nat :=
  match s.pfx.rep with
  | none => 1
  | some _ => s.gpr.cx.toNat

/-- The cells MOVS and STOS write, in ES from DI by DF (46_string_shift_muldiv_misc.md R390 to R394). -/
def stringCells (w : Width) (s : State) : List Nat :=
  (List.range (stringCount s)).flatMap
    (fun j => accessCells s.params w (lin s.segs.es (stringOffset w s j)) (stringOffset w s j))

/-- The cells of memory an instruction stores to when it takes no exception. -/
def ownCells (i : Instr) (s : State) : List Nat :=
  match i with
  | .addRmReg d w m | .orRmReg d w m | .adcRmReg d w m | .sbbRmReg d w m => dirCells s d w m
  | .andRmReg d w m | .subRmReg d w m | .xorRmReg d w m | .movRmReg d w m => dirCells s d w m
  | .addRmImm m i | .orRmImm m i | .adcRmImm m i | .sbbRmImm m i => rmCells s i.width m.rm
  | .andRmImm m i | .subRmImm m i | .xorRmImm m i => rmCells s i.width m.rm
  | .incRm w m | .decRm w m | .notRm w m | .negRm w m => rmCells s w m.rm
  | .pushReg _ | .pushSeg _ | .pushRm _ | .pushf => stackCells s (s.gpr.sp - 2)
  | .popRm m => rmCells s .word m.rm
  | .movRmImm m i => rmCells s i.width m.rm
  | .movRmSeg m => rmCells s .word m.rm
  | .movMoffs d w off => match d with | .toReg => [] | .toRm => accessCells s.params w (moffsLinear s off) off
  | .xchgRmReg w m => rmCells s w m.rm
  | .callNear _ | .callRm _ => stackCells s (s.gpr.sp - 2)
  | .callFar _ _ | .callFarMem _ => stackCells s (s.gpr.sp - 2) ++ stackCells s (s.gpr.sp - 4)
  | .movsb | .stosb => stringCells .byte s
  | .movsw | .stosw => stringCells .word s
  | .rol c w m | .ror c w m | .rcl c w m | .rcr c w m | .shl c w m | .shr c w m | .sar c w m =>
    if shiftCount c s = 0 then [] else rmCells s w m.rm
  | _ => []

/-- The cells of memory an instruction stores to: the three pushed words when it takes an exception. -/
def storedCells (i : Instr) (s : State) : List Nat := if takesInterrupt i s then interruptCells s else ownCells i s

/-- The instructions whose rule replaces IP (45_transfer_control.md sections 4 to 6, 44_stack_interrupt.md R305);
every other one leaves the IP the fetch gave it, unless it takes an exception (40_decode_dispatch.md R168). -/
def transfersControl : Instr → Bool
  | .jo _ | .jno _ | .jb _ | .jnb _ | .jz _ | .jnz _ | .jbe _ | .ja _ => true
  | .js _ | .jns _ | .jp _ | .jnp _ | .jl _ | .jnl _ | .jle _ | .jnle _ => true
  | .jmpShort _ | .jmpNear _ | .jmpFar _ _ | .jmpRm _ | .jmpFarMem _ => true
  | .callNear _ | .callFar _ _ | .callRm _ | .callFarMem _ => true
  | .ret | .retImm _ | .retf | .retfImm _ | .iret => true
  | .loop _ | .loopz _ | .loopnz _ | .jcxz _ => true
  | _ => false

/-- The instructions that halt the core, with the cause (10_state.md R42). -/
def haltCauseOf : Instr → Option HaltCause
  | .hlt => some .hlt
  | .unmapped _ => some .unmapped
  | .emptyChild _ _ => some .emptyChild
  | _ => none

/-- The operand forms inside registered slots that have no meaning (30_encoding.md R140). -/
def undefinedForm : Instr → Bool
  | .lea m | .lds m | .les m => isRegister m.rm
  | .callFarMem m | .jmpFarMem m => isRegister m.rm
  | .movRmSeg m | .movSegRm m => (SegReg.ofNumber m.reg).isNone
  | _ => false

/-- The result of an ALU operation as its rule states it (43_alu.md R244 to R252); `c` is CF before it. -/
def aluResult (k : AluOp) (w : Width) (dst src : Nat) (c : Bool) : Nat :=
  match k with
  | .add => (dst + src) % 2 ^ bits w
  | .or => dst ||| src
  | .adc => (dst + src + c.toNat) % 2 ^ bits w
  | .sbb => (((dst : Int) - src - c.toNat) % 2 ^ bits w).toNat
  | .and => dst &&& src
  | .sub => (((dst : Int) - src) % 2 ^ bits w).toNat
  | .xor => dst ^^^ src
  | .cmp => dst

/-- `signed_w` of a number below `2^w` (00_scope.md R10). -/
def signedNat (w : Width) (v : Nat) : Int := if v < 2 ^ (bits w - 1) then v else (v : Int) - 2 ^ bits w

/-- Whether a number lies outside the signed numbers of a width. -/
def outsideSigned (w : Width) (r : Int) : Bool := decide (r < -(2 ^ (bits w - 1)) ∨ 2 ^ (bits w - 1) ≤ r)

/-- How many of the low 8 bits of a number are 1 (42_flags.md R212). -/
def lowOnes (v : Nat) : Nat := ((List.range 8).filter (fun k => v.testBit k)).length

/-- What PSZ says of a result: ZF, SF and PF (42_flags.md R211, R212). -/
def pszHolds (f : Word) (w : Width) (m : Nat) : Prop :=
  getFlag f .ZF = decide (m = 0) ∧ getFlag f .SF = decide (2 ^ (bits w - 1) ≤ m) ∧
    getFlag f .PF = decide (lowOnes m % 2 = 0)

/-- The target of a relative jump: `(IP_after + offset) mod 2^16` (30_encoding.md R114). -/
def relativeTarget (s : State) (offset : Int) : Word := BitVec.ofInt 16 ((s.ip.toNat : Int) + offset)

/-- The state of a step that runs the bytes of an instruction at CS:IP, byte by byte (40_decode_dispatch.md R150). -/
def bytesAtIp (s : State) (bs : List Byte) : Prop :=
  ∀ k, ∀ h : k < bs.length, readByte s (lin s.segs.cs (s.ip + BitVec.ofNat 16 k)) = .ok bs[k]

/-- Bytes at CS:IP are one instruction, as the machine's registry reads them (40_decode_dispatch.md R150 to R155). -/
def fetches (s : State) (i : Instr) (bs : List Byte) : Prop :=
  bytesAtIp s bs ∧ decodeWith s.params.registry bs = .ok (i, [])

/-- The slots of the prefix handlers (30_encoding.md R142). -/
def prefixSlots : List (Slot Handler Child) := [.direct .segOverride, .direct .lock, .direct .rep]

/-- The offset after a push of `n` words. -/
def pushedSp (s : State) (n : Nat) : Word := s.gpr.sp - BitVec.ofNat 16 (2 * n)

/-- The word at an offset of the stack segment (44_stack_interrupt.md R291). -/
def stackWord (s : State) (off : Word) : Res Word := readWord s (lin s.segs.ss off) off

/-- A state as a string instruction sees it without REP (46_string_shift_muldiv_misc.md R391). -/
def withRep (r : Option RepKind) (s : State) : State := { s with pfx := { s.pfx with rep := r } }

/-- The ten string instructions (46_string_shift_muldiv_misc.md R390). -/
def stringInstrs : List Instr :=
  [.movsb, .movsw, .cmpsb, .cmpsw, .stosb, .stosw, .lodsb, .lodsw, .scasb, .scasw]

/-- Whether a repetition of CMPS or SCAS ends on ZF: under F3 when ZF = 0, under F2 when ZF = 1; the others never do
(46_string_shift_muldiv_misc.md R391). -/
def repStops (i : Instr) (k : RepKind) (s : State) : Bool :=
  match i with
  | .cmpsb | .cmpsw | .scasb | .scasw =>
    match k with
    | .f3 => !s.flag .ZF
    | .f2 => s.flag .ZF
  | _ => false

/-- A CF and an operand as one number of `w + 1` bits, CF the top bit (46_string_shift_muldiv_misc.md R403: "The carry
is a ninth (or seventeenth) bit of the rotation"). -/
def carryAnd (w : Width) (c : Bool) (v : Nat) : Nat := c.toNat * 2 ^ bits w + v

/-- `v` rotated left by `n` in `k` bits. -/
def rotateLeft (k n v : Nat) : Nat := (v * 2 ^ (n % k)) % 2 ^ k + v / 2 ^ (k - n % k)

/-- `v` rotated right by `n` in `k` bits. -/
def rotateRight (k n v : Nat) : Nat := v / 2 ^ (n % k) + (v * 2 ^ (k - n % k)) % 2 ^ k

end Sys2Proof.Machine
end

