-- ==== Sys2Proof/Machine/Launch.lean ====
section
/-! DEFINITION. Launch: the registry is built, memory is loaded, the reset values are applied
(70_reset_and_hazards.md R501). -/

namespace Sys2Proof.Machine

open Sys2Proof

/-- Memory with a launch image, the parameter `initMem`: the bytes of the image one after another, those whose address
is in the backing store (20_memory.md R70; 70_reset_and_hazards.md R501). -/
def loadImage : List Host.Cell → Memory → Memory
  | [], m => m
  | c :: cs, m => loadImage cs (if c.1 < memorySize then Memory.write m c.1 c.2 else m)

/-- Launch, with the parameters, the registrations of the handlers and the image: a configuration error stops it, so that
no state is reached (30_encoding.md R108); else the core has the built registry, the image in memory and the values of
`resetState` (70_reset_and_hazards.md R501). `p.registry` is not read: the built table takes its place. -/
def launch (p : Params) (rs : List (Registration Handler Child)) (image : List Host.Cell) : Except ConfigError State :=
  match buildRegistry rs with
  | .error e => .error e
  | .ok t => .ok (hostReset { State.reset with params := { p with registry := t }, mem := loadImage image [] })

end Sys2Proof.Machine
end

