-- ==== Sys2Proof/Safety.lean ====
section
/-! DEFINITION. What counts as a safe run: the invariant every step keeps, and a run that no fault and no refusal
ends (40_decode_dispatch.md R166). -/

namespace Sys2Proof.Machine

open Sys2Proof

/-- The invariant of the model: memory is in its canonical form; nothing of the operand cache or of the prefix
state is left between steps (10_state.md R44, R46); and the clock accumulator does not run when the accountant is
off (R48); the registry is one a build gives: 256 slots, 8 children in each demux node (R47). -/
def State.Inv (s : State) : Prop :=
  s.mem.wf = true ∧ s.params.registry.wf = true ∧ s.cache = none ∧ s.pfx = .clear ∧ (s.params.cycleAccounting = false → s.clocks = 0)

/-- A state that some number of steps reaches from another, with no fault and no refusal. -/
inductive Reaches : State → State → Prop where
  | refl (s : State) : Reaches s s
  | step {s t u : State} (h : Reaches s t) (e : Machine.step t = .next u) : Reaches s u

/-- A run whose every step answers a next state: only such a run has a result (40_decode_dispatch.md R166). -/
def SafeFrom (s : State) : Prop := ∀ t, Reaches s t → ∃ u, Machine.step t = .next u

/-- The end of a run: the core is HALTED, and further steps change nothing (40_decode_dispatch.md R164, R166). -/
def Finished (s : State) : Prop := isHalted s = true

end Sys2Proof.Machine
end

