-- ==== Sys2Proof/Certificates/Slice0/Obligations.lean ====
section
/-! DEFINITION. The statements for the provers. Each docstring names the rules of spec/ a statement formalises; a
statement that rests on the model's own choices says so. -/

open Sys2Proof Sys2Proof.Machine

/-! ## Encoding -/

/-- O1. Every well-formed instruction's bytes decode to it, whatever follows them: no bit of an encoding is
dropped (30_encoding.md R110 to R117). -/
def Obligations.EncodedInstructionDecodes : Prop :=
  ∀ (i : Instr) (rest : List Byte), i.wf = true → decode (encode i ++ rest) = .ok (i, rest)

/-- O2. What decodes is well formed and has the bytes it was decoded from: each byte sequence has one meaning
(30_encoding.md R110 to R117). -/
def Obligations.DecodedBytesEncode : Prop :=
  ∀ (bs rest : List Byte) (i : Instr), decode bs = .ok (i, rest) → i.wf = true ∧ encode i ++ rest = bs

/-- O3. Six bytes always hold an instruction, of 1 to 6 bytes (30_encoding.md R116); the decoder refuses no
encoding (R138, R139 give the empty slots their meaning). -/
def Obligations.SixBytesDecode : Prop :=
  ∀ bs : List Byte, 6 ≤ bs.length →
    ∃ i rest, decode bs = .ok (i, rest) ∧ 1 ≤ (encode i).length ∧ (encode i).length ≤ 6

/-- O4. Words written out from the opcode map and the Mod-Reg-R/M layout decode to the instructions they stand for
(30_encoding.md R111, R113, R119); that the table's number has the opcode byte in bits 15:8, and that the displacement
bytes it does not give are 0, is the reading of notes/assumptions/7.md (DEDUCED). -/
def Obligations.WrittenWordsDecode : Prop :=
  decodeTableWord 16 0b00000000_11_011_000 = some (.addRmReg .toRm .byte ⟨.bx, .reg .ax⟩) ∧
  decodeTableWord 16 0b10001011_01_010_110 = some (.movRmReg .toReg .word ⟨.dx, .mem .bp (.d8 0)⟩) ∧
  decodeTableWord 16 0b11110111_00_110_111 = some (.div .word ⟨.si, .mem .bx .none⟩) ∧
  decodeTableWord 16 0b11010010_11_101_001 = some (.shr .cl .byte ⟨.bp, .reg .cx⟩) ∧
  decodeTableWord 8 0b01110101 = some (.jnz 0) ∧
  decodeTableWord 8 0b00011110 = some (.pushSeg .ds) ∧
  decodeTableWord 8 0b11110011 = some .repz ∧
  decodeTableWord 8 0b11001111 = some .iret ∧
  decodeTableWord 8 0b00001111 = some (.unmapped 0x0F)

/-- O5. The registrations of the default map build without a conflict, into the map: 256 slots, 8 children in each demux
node (30_encoding.md R119, R120; 10_state.md R47). -/
def Obligations.RegistryBuilds : Prop :=
  buildRegistry registrations = .ok defaultRegistry ∧ defaultRegistry.wf = true

/-- O6. The table a list of registrations builds does not depend on their order, a list with a conflict fails in every
order; in what builds, each byte of a direct template reaches the handler registered for it, each `reg` value of a child
of a demux registration reaches that child, and two direct templates that share a byte do not build (30_encoding.md
R107). -/
def Obligations.RegistryOrderIndependent : Prop :=
  ∀ (H C : Type) (rs rs' : List (Registration H C)), rs.Perm rs' →
    (∀ t, buildRegistry rs = .ok t → buildRegistry rs' = .ok t) ∧
    (∀ e, buildRegistry rs = .error e → ∃ e', buildRegistry rs' = .error e') ∧
    (∀ tab t h bs n, buildRegistry rs = .ok tab → .direct t h ∈ rs → compileTemplate 8 t = .ok bs → n ∈ expand bs →
      tab[n]? = some (.direct h)) ∧
    (∀ tab t cs bs n rt h b3 j, buildRegistry rs = .ok tab → .demux t cs ∈ rs → compileTemplate 8 t = .ok bs →
      n ∈ expand bs → (rt, h) ∈ cs → compileTemplate 3 rt = .ok b3 → j ∈ expand b3 →
      ∃ children, tab[n]? = some (.demux children) ∧ children[j]? = some (some h)) ∧
    (∀ t1 t2 h1 h2 b1 b2 n, compileTemplate 8 t1 = .ok b1 → compileTemplate 8 t2 = .ok b2 → n ∈ expand b1 →
      n ∈ expand b2 → ∃ e, buildRegistry (.direct t1 h1 :: .direct t2 h2 :: rs) = .error e)

/-- O7. A template with `k` wildcards expands to `2^k` distinct numbers of its width, one for each assignment of the
wildcards, and to no other number (30_encoding.md R102). -/
def Obligations.TemplateExpansion : Prop :=
  ∀ bs : List TBit,
    (expand bs).length = 2 ^ (bs.filter (fun b => b == .any)).length ∧ (expand bs).Nodup ∧
    ∀ n, n ∈ expand bs ↔ n < 2 ^ bs.length ∧
      ∀ j, ∀ h : j < bs.length, (bs[j] = .zero → n.testBit (bs.length - 1 - j) = false) ∧
        (bs[j] = .one → n.testBit (bs.length - 1 - j) = true)

/-! ## The step -/

/-- O8. Where the core is RUNNING and the bytes at CS:IP are, in its registry, those of an instruction that is no prefix
and is admitted, the step is `exec` of it on the state with the cache and the prefix state clear and IP past the
instruction; around it the step adds its clocks, clears the cache and the prefix state (that it clears them at its
start and at its end is the model's choice, notes/assumptions/10.md, DESIGN CHOICE), and takes the single-step trap when `singleStep` is on, TF was 1 and the core
did not halt, as section 4 of 60_exceptions.md says. With the opcode map, the bytes of a well-formed instruction are
`encode` of it, which is O1 (40_decode_dispatch.md R150, R168; 60_exceptions.md R468). -/
def Obligations.StepRunsInstruction : Prop :=
  ∀ (i : Instr) (bs : List Byte) (s u : State), isPrefix i = false → s.run = .running → fetches s i bs →
    u = setIp (clearTransient s) (s.ip + BitVec.ofNat 16 bs.length) →
    (needsTierG i u = true → s.params.admitTierG = true) →
    Machine.step s =
      match exec i u with
      | .next t =>
        if t.params.singleStep && s.flag .TF && !isHalted t then
          outcome (interrupt 1 (clearTransient (charge bs i u t)))
        else .next (clearTransient (charge bs i u t))
      | .fault f => .fault f
      | .refused r => .refused r

/-- O9. A prefix sets its field and nests the dispatch of the next opcode, IP past the prefix byte; the dispatch of an
admitted instruction that is no prefix, which ends the chain, is `exec` of it with the fields the prefixes set, IP past
it, and its clocks; the step of a RUNNING core is that dispatch, begun with the cache and the prefix state clear. In this
last clause the bound `longestChain` on the chain is the model's (notes/assumptions/8.md, DESIGN CHOICE), so is the
clearing of the cache and the prefix state at the start and at the end of the step (notes/assumptions/10.md, DESIGN CHOICE), and the
single-step trap is that of section 4 of 60_exceptions.md (40_decode_dispatch.md R150, R156, R160; 60_exceptions.md
R468). -/
def Obligations.PrefixNests : Prop :=
  (∀ (i : Instr) (bs : List Byte) (s t : State) (n : Nat), isPrefix i = true → fetches s i bs →
    exec i (setIp s (s.ip + 1)) = .next t →
    dispatch (n + 1) s = dispatch n (charge bs i (setIp s (s.ip + 1)) t)) ∧
  (∀ (i : Instr) (bs : List Byte) (s u : State) (n : Nat), isPrefix i = false → fetches s i bs →
    u = setIp s (s.ip + BitVec.ofNat 16 bs.length) → (needsTierG i u = true → s.params.admitTierG = true) →
    dispatch (n + 1) s =
      match exec i u with
      | .next t => .next (charge bs i u t)
      | .fault f => .fault f
      | .refused r => .refused r) ∧
  (∀ s : State, s.run = .running →
    Machine.step s =
      match dispatch longestChain (clearTransient s) with
      | .next t =>
        if t.params.singleStep && s.flag .TF && !isHalted t then outcome (interrupt 1 (clearTransient t))
        else .next (clearTransient t)
      | .fault f => .fault f
      | .refused r => .refused r)

/-- O10. A HALTED core takes no step: nothing changes, IP and clocks included; the host's reset and interrupt leave the
core RUNNING (40_decode_dispatch.md R164). -/
def Obligations.HaltedCoreTakesNoStep : Prop :=
  (∀ s : State, isHalted s = true → Machine.step s = .next s) ∧ (∀ s : State, (hostReset s).run = .running) ∧
  (∀ (n : Byte) (s t : State), hostInterrupt n s = .next t → t.run = .running)

/-- O11. A code segment that is all prefixes never reaches an opcode; the model stops there by name
(40_decode_dispatch.md R160; the named stop is the model's, notes/assumptions/8.md). -/
def Obligations.EndlessPrefixChainStops : Prop :=
  ∀ s : State, s.run = .running →
    (∀ off : Word, ∃ b, readByte s (lin s.segs.cs off) = .ok b ∧ s.params.registry.slot b ∈ prefixSlots) →
    Machine.step s = .fault .endlessPrefixChain

/-- O12. A step refuses only under `admitTierG = false`, and there exactly what is tier G: the dispatch of an instruction
that is no prefix, whatever prefixes came before it, is refused if and only if what it does in that state is tier G, and
so is the step that begins at it (00_scope.md R14, D46; which rules are tier G is DEDUCED, notes/assumptions/13.md). -/
def Obligations.RefusalOnlyWithoutTierG : Prop :=
  (∀ (s : State) (r : Refusal), Machine.step s = .refused r → r = .tierGNotAdmitted ∧ s.params.admitTierG = false) ∧
  (∀ (i : Instr) (bs : List Byte) (s : State) (n : Nat), isPrefix i = false → fetches s i bs →
    s.params.admitTierG = false →
    (dispatch (n + 1) s = .refused .tierGNotAdmitted ↔
      needsTierG i (setIp s (s.ip + BitVec.ofNat 16 bs.length)) = true)) ∧
  (∀ (i : Instr) (bs : List Byte) (s : State), isPrefix i = false → fetches s i bs → s.run = .running →
    s.params.admitTierG = false →
    (Machine.step s = .refused .tierGNotAdmitted ↔
      needsTierG i (setIp (clearTransient s) (s.ip + BitVec.ofNat 16 bs.length)) = true)) ∧
  (∀ (w : Width) (m : ModRM) (s : State) (v : Word), rmValue s w m.rm = .ok v →
    needsTierG (.div w m) s = decide (v.toNat ≠ 0) ∧ needsTierG (.idiv w m) s = decide (v.toNat ≠ 0))

/-- O13. Every step keeps the invariant and writes no parameter (10_state.md R44, R46, R48). -/
def Obligations.StepKeepsInvariant : Prop :=
  ∀ s t : State, s.Inv → Machine.step s = .next t → t.Inv ∧ t.params = s.params

/-- O14. The state after reset meets the invariant, every register, FLAGS and IP are zero, and the core is RUNNING
(10_state.md R50). Launch with the default parameters and registrations and an empty image gives that state; a
configuration error gives no state; else the launched core has the built registry, the values of `resetState`, in memory
the image (where it lists an address twice, the later byte), and meets the invariant (30_encoding.md R108;
70_reset_and_hazards.md R501). That memory outside the image reads 0 is notes/assumptions/2.md. -/
def Obligations.ResetState : Prop :=
  (State.reset.Inv ∧ (∀ r, getR16 State.reset r = 0) ∧ (∀ r, getSeg State.reset r = 0) ∧ State.reset.ip = 0 ∧
    State.reset.flags = 0 ∧ State.reset.run = .running ∧ State.reset.clocks = 0) ∧
  launch Params.default registrations [] = .ok State.reset ∧
  (∀ (p : Params) (rs : List (Registration Handler Child)) (image : List Host.Cell) (e : ConfigError),
    buildRegistry rs = .error e → launch p rs image = .error e) ∧
  (∀ (p : Params) (rs : List (Registration Handler Child)) (image : List Host.Cell) (t : Registry),
    buildRegistry rs = .ok t →
    ∃ s, launch p rs image = .ok s ∧ s.Inv ∧ s.run = .running ∧ s.params = { p with registry := t } ∧
      s.gpr = p.resetState.gpr ∧ s.segs = p.resetState.segs ∧ s.ip = p.resetState.ip ∧ s.flags = p.resetState.flags ∧
      ∀ a, a < memorySize → Memory.read s.mem a = (image.reverse.lookup a).getD unlistedByte)

/-- O15. Only HLT, an empty slot and an empty child halt the core, each with its own cause, and only an interrupt sets
it RUNNING (10_state.md R42, 60_exceptions.md R463, R470). -/
def Obligations.OnlyHaltInstructionsHalt : Prop :=
  ∀ (i : Instr) (s t : State), exec i s = .next t →
    t.run = match haltCauseOf i with
      | some c => .halted c
      | none => if takesInterrupt i s then .running else s.run

/-- O16. The undefined operand forms fault, after the resolver has run, whatever the state (30_encoding.md R140). -/
def Obligations.UndefinedFormsFault : Prop :=
  ∀ (i : Instr) (s : State), undefinedForm i = true →
    (∀ rm, i.rm? = some rm → rmAccessible s .word rm = true) → exec i s = .fault .undefinedForm

/-- O17. Under `wrap20` every instruction that is not an undefined form completes, on every state. In general an
instruction faults only at an address beyond the backing store, and that only under `highAddress = fault`, or as an
undefined form; none refuses (20_memory.md R76, 30_encoding.md R140, 40_decode_dispatch.md R163). -/
def Obligations.EveryDefinedFormCompletes : Prop :=
  (∀ (i : Instr) (s : State), s.params.highAddress = .wrap20 → undefinedForm i = false → ∃ t, exec i s = .next t) ∧
  (∀ (i : Instr) (s : State) (f : Fault), exec i s = .fault f →
    (f = .beyondBackingStore ∧ s.params.highAddress = .fault) ∨ (f = .undefinedForm ∧ undefinedForm i = true)) ∧
  (∀ (i : Instr) (s : State) (r : Refusal), exec i s ≠ .refused r)

/-! ## Frames -/

/-- O18. Every instruction leaves the general registers its rule does not write, and the halves of AX to BX it does not
write; when it takes an exception, all but SP. `dests` names the registers: the destination, SP for a stack access, CX,
SI and DI where the rule uses them (files 43 to 46; 10_state.md R31). -/
def Obligations.RegisterFrame : Prop :=
  ∀ (i : Instr) (s t : State), exec i s = .next t →
    (∀ q, (∀ d, d ∈ dests i s → slotOf d.1 d.2 ≠ q) → getR16 t q = getR16 s q) ∧
    (∀ q, (∀ d, d ∈ dests i s → Dest.touches d q = false) → getR8 t q = getR8 s q)

/-- O19. Every instruction leaves the segment registers its rule does not write; an exception writes CS alone (files 43
to 46; 44_stack_interrupt.md R300). -/
def Obligations.SegmentFrame : Prop :=
  ∀ (i : Instr) (s t : State), exec i s = .next t → ∀ q, q ∉ writtenSegs i s → getSeg t q = getSeg s q

/-- O20. Every instruction leaves every bit of FLAGS but the flags its rule names; POPF and IRET write all sixteen; an
exception writes TF and IF alone (42_flags.md R225, 44_stack_interrupt.md R300). -/
def Obligations.FlagFrame : Prop :=
  ∀ (i : Instr) (s t : State), exec i s = .next t → writesAllFlags i = false →
    ∀ k, k < 16 → (∀ g, g ∈ writtenFlags i s → flagBit g ≠ k) → t.flags.getLsbD k = s.flags.getLsbD k

/-- O21. Every instruction leaves every byte of memory but those it stores to: the cells of its destination operand, of
the stack slots it pushes, of the elements a string instruction writes, of the three words an exception pushes; an
instruction that stores nothing leaves all of memory (files 43 to 46; 44_stack_interrupt.md R290, R300). -/
def Obligations.MemoryFrame : Prop :=
  ∀ (i : Instr) (s t : State), exec i s = .next t →
    ∀ a, a ∉ storedCells i s → Memory.read t.mem a = Memory.read s.mem a

/-- O22. No instruction writes a parameter or the clock accumulator; only a prefix writes the prefix state; only IN and
OUT call a port; IP stays past the instruction unless the rule transfers control or takes an exception; the calls are
those of the model's own record `portCalls` (notes/assumptions/5.md, DESIGN CHOICE). An instruction with a Mod-Reg-R/M
byte leaves in the operand cache the three fields of that byte, the place of its r/m operand and the value that operand
had; any other leaves the cache as it was (10_state.md R43; 40_decode_dispatch.md R158, R161, R168; 20_memory.md R84). -/
def Obligations.HiddenStateFrame : Prop :=
  ∀ (i : Instr) (s t : State), exec i s = .next t →
    t.params = s.params ∧ t.clocks = s.clocks ∧ (isPrefix i = false → t.pfx = s.pfx) ∧
    (transfersControl i = false → takesInterrupt i s = false → t.ip = s.ip) ∧
    ((∀ w p, i ≠ .inImm w p) → (∀ w, i ≠ .inDx w) → (∀ w p, i ≠ .outImm w p) → (∀ w, i ≠ .outDx w) →
      t.portCalls = s.portCalls) ∧
    (i.modrm? = none → t.cache = s.cache) ∧
    (∀ m, i.modrm? = some m → ∃ c, t.cache = some c ∧ c.mod = m.rm.modBits ∧ c.reg = m.reg.bits ∧ c.rm = m.rm.rmBits ∧
      c.place = placeOf s m.rm ∧ rmValue s c.w m.rm = .ok c.op)

/-! ## Flags -/

/-- O23. The flags of an addition, in terms of the numbers added: CF the carry out, OF signed overflow, AF the carry out
of the low nibble, ZF, SF and PF of the result; TF, IF, DF and the reserved bits stay (42_flags.md R211 to R216,
R219). -/
def Obligations.AddFlags : Prop :=
  ∀ (f : Word) (w : Width) (dst src : Nat), dst < 2 ^ bits w → src < 2 ^ bits w →
    getFlag (flagsAdd f w dst src) .CF = decide (2 ^ bits w ≤ dst + src) ∧
    getFlag (flagsAdd f w dst src) .OF = outsideSigned w (signedNat w dst + signedNat w src) ∧
    getFlag (flagsAdd f w dst src) .AF = decide (16 ≤ dst % 16 + src % 16) ∧
    pszHolds (flagsAdd f w dst src) w ((dst + src) % 2 ^ bits w) ∧
    ∀ k, k < 16 → (∀ g, g ∈ statusFlags → flagBit g ≠ k) → (flagsAdd f w dst src).getLsbD k = f.getLsbD k

/-- O24. The flags of a subtraction: CF the borrow, OF signed overflow, AF the borrow of the whole low byte, ZF, SF and
PF of the result; the other bits stay (42_flags.md R211, R212, R215, R217, R218, R220). -/
def Obligations.SubFlags : Prop :=
  ∀ (f : Word) (w : Width) (dst src : Nat), dst < 2 ^ bits w → src < 2 ^ bits w →
    getFlag (flagsSub f w dst src) .CF = decide (dst < src) ∧
    getFlag (flagsSub f w dst src) .OF = outsideSigned w (signedNat w dst - signedNat w src) ∧
    getFlag (flagsSub f w dst src) .AF = decide (dst % 256 < src % 256) ∧
    pszHolds (flagsSub f w dst src) w ((2 ^ bits w + dst - src) % 2 ^ bits w) ∧
    ∀ k, k < 16 → (∀ g, g ∈ statusFlags → flagBit g ≠ k) → (flagsSub f w dst src).getLsbD k = f.getLsbD k

/-- O25. The logical helper clears CF and OF, sets ZF, SF and PF from the result and leaves AF; the no-carry helpers set
what the add and sub helpers set and leave CF (42_flags.md R221, R222). -/
def Obligations.LogicAndNoCarryFlags : Prop :=
  (∀ (f : Word) (w : Width) (r : Nat), r < 2 ^ bits w →
    getFlag (flagsLogic f w r) .CF = false ∧ getFlag (flagsLogic f w r) .OF = false ∧
    getFlag (flagsLogic f w r) .AF = getFlag f .AF ∧ pszHolds (flagsLogic f w r) w r) ∧
  (∀ (f : Word) (w : Width) (dst src : Nat),
    getFlag (flagsAddNC f w dst src) .CF = getFlag f .CF ∧ getFlag (flagsSubNC f w dst src) .CF = getFlag f .CF ∧
    (∀ g, g ≠ .CF → getFlag (flagsAddNC f w dst src) g = getFlag (flagsAdd f w dst src) g) ∧
    (∀ g, g ≠ .CF → getFlag (flagsSubNC f w dst src) g = getFlag (flagsSub f w dst src) g))

/-- O26. ADC and SBB: the result is the same in every mode, and so are PF, ZF and SF; CF is the true carry or borrow
under `twoPassOrCarry` and `singlePass`; under `twoPassOverwrite` with CF = 1 it is the second pass's alone. With CF = 0
FLAGS are those of ADD and SUB; with CF = 1, OF and AF are the second pass's under the two-pass modes, and those of the
one sum or difference under `singlePass` (43_alu.md R246, R247, R252). -/
def Obligations.AdcSbbModes : Prop :=
  ∀ (mode : AdcSbbMode) (f : Word) (w : Width) (dst src : Nat), dst < 2 ^ bits w → src < 2 ^ bits w →
    (adc mode f w dst src).1 = aluResult .adc w dst src (getFlag f .CF) ∧
    (sbb mode f w dst src).1 = aluResult .sbb w dst src (getFlag f .CF) ∧
    pszHolds (adc mode f w dst src).2 w (adc mode f w dst src).1 ∧
    pszHolds (sbb mode f w dst src).2 w (sbb mode f w dst src).1 ∧
    getFlag (adc mode f w dst src).2 .CF =
      (match mode with
        | .twoPassOverwrite =>
          if getFlag f .CF then decide ((dst + src) % 2 ^ bits w = 2 ^ bits w - 1) else decide (2 ^ bits w ≤ dst + src)
        | .twoPassOrCarry => decide (2 ^ bits w ≤ dst + src + (getFlag f .CF).toNat)
        | .singlePass => decide (2 ^ bits w ≤ dst + src + (getFlag f .CF).toNat)) ∧
    getFlag (sbb mode f w dst src).2 .CF =
      (match mode with
        | .twoPassOverwrite => if getFlag f .CF then decide (dst = src) else decide (dst < src)
        | .twoPassOrCarry => decide (dst < src + (getFlag f .CF).toNat)
        | .singlePass => decide (dst < src + (getFlag f .CF).toNat)) ∧
    (getFlag f .CF = false →
      (adc mode f w dst src).2 = flagsAdd f w dst src ∧ (sbb mode f w dst src).2 = flagsSub f w dst src) ∧
    (getFlag f .CF = true → mode ≠ .singlePass →
      getFlag (adc mode f w dst src).2 .OF = decide ((dst + src) % 2 ^ bits w = 2 ^ (bits w - 1) - 1) ∧
      getFlag (adc mode f w dst src).2 .AF = decide ((dst + src) % 16 = 15) ∧
      getFlag (sbb mode f w dst src).2 .OF = decide ((2 ^ bits w + dst - src) % 2 ^ bits w = 2 ^ (bits w - 1)) ∧
      getFlag (sbb mode f w dst src).2 .AF = decide (dst % 256 = src % 256)) ∧
    (getFlag f .CF = true → mode = .singlePass →
      getFlag (adc mode f w dst src).2 .OF = outsideSigned w (signedNat w dst + signedNat w src + 1) ∧
      getFlag (adc mode f w dst src).2 .AF = decide (16 ≤ dst % 16 + src % 16 + 1) ∧
      getFlag (sbb mode f w dst src).2 .OF = outsideSigned w (signedNat w dst - signedNat w src - 1) ∧
      getFlag (sbb mode f w dst src).2 .AF = decide (dst % 256 < src % 256 + 1)) ∧
    (∀ k, k < 16 → (∀ g, g ∈ statusFlags → flagBit g ≠ k) →
      (adc mode f w dst src).2.getLsbD k = f.getLsbD k ∧ (sbb mode f w dst src).2.getLsbD k = f.getLsbD k)

/-! ## Arithmetic and logic -/

/-- O27. ADD, OR, ADC, SBB, AND, SUB, XOR and CMP between r/m and reg, both ways: the result of the operation is in the
destination (for CMP the destination stays), FLAGS are those of the helper the table of R240 gives (43_alu.md R240,
R241). -/
def Obligations.AluRegisterForms : Prop :=
  (∀ (k : AluOp) (d : Dir) (w : Width) (m : ModRM) (s : State) (v : Word),
    s.mem.wf = true → rmValue s w m.rm = .ok v →
    ∃ t, exec (aluRmRegInstr k d w m) s = .next t ∧
      match d with
      | .toRm =>
        t.flags = (alu k s.params.adcSbbMode s.flags w v.toNat (getReg s w m.reg).toNat).2 ∧
        readPlace t w (placeOf s m.rm) =
          .ok (BitVec.ofNat 16 (aluResult k w v.toNat (getReg s w m.reg).toNat (s.flag .CF)))
      | .toReg =>
        t.flags = (alu k s.params.adcSbbMode s.flags w (getReg s w m.reg).toNat v.toNat).2 ∧
        getReg t w m.reg = BitVec.ofNat 16 (aluResult k w (getReg s w m.reg).toNat v.toNat (s.flag .CF))) ∧
  (∀ (k : AluOp) (mode : AdcSbbMode) (f : Word) (w : Width) (dst src : Nat),
    (alu k mode f w dst src).2 =
      match k with
      | .add => flagsAdd f w dst src
      | .or => flagsLogic f w (dst ||| src)
      | .adc => (adc mode f w dst src).2
      | .sbb => (sbb mode f w dst src).2
      | .and => flagsLogic f w (dst &&& src)
      | .sub => flagsSub f w dst src
      | .xor => flagsLogic f w (dst ^^^ src)
      | .cmp => flagsSub f w dst src)

/-- O28. The same eight operations with an immediate, on the accumulator and on r/m; the immediate of opcode 83 is
sign-extended (43_alu.md R242, R243). -/
def Obligations.AluImmediateForms : Prop :=
  (∀ (k : AluOp) (i : Imm) (s : State),
    ∃ t, exec (aluAccImmInstr k i) s = .next t ∧
      t.flags = (alu k s.params.adcSbbMode s.flags i.width (getReg s i.width .ax).toNat (immValue i).toNat).2 ∧
      getReg t i.width .ax =
        BitVec.ofNat 16 (aluResult k i.width (getReg s i.width .ax).toNat (immValue i).toNat (s.flag .CF))) ∧
  (∀ (k : AluOp) (m : ModRM) (i : GrpImm) (s : State) (v : Word),
    s.mem.wf = true → rmValue s i.width m.rm = .ok v →
    ∃ t, exec (aluRmImmInstr k m i) s = .next t ∧
      t.flags = (alu k s.params.adcSbbMode s.flags i.width v.toNat (grpImmValue i).toNat).2 ∧
      readPlace t i.width (placeOf s m.rm) =
        .ok (BitVec.ofNat 16 (aluResult k i.width v.toNat (grpImmValue i).toNat (s.flag .CF)))) ∧
  (∀ x : Byte, (grpImmValue (.ib80 x)).toNat = x.toNat ∧ (grpImmValue (.ib82 x)).toNat = x.toNat ∧
    grpImmValue (.sx83 x) = BitVec.ofInt 16 x.toInt) ∧
  (∀ x : Word, grpImmValue (.iw81 x) = x)

/-- O29. TEST in its three forms sets ZF, SF and PF from the AND of its operands, clears CF and OF, leaves AF and every
other bit of FLAGS, and writes nothing else: no register, no memory (43_alu.md R253, R254, R255). -/
def Obligations.TestForms : Prop :=
  ∀ (i : Instr) (w : Width) (a b : Word) (s : State),
    (∃ m, i = .testRmReg w m ∧ rmValue s w m.rm = .ok a ∧ b = getReg s w m.reg) ∨
    (∃ j, i = .testAccImm j ∧ w = j.width ∧ a = getReg s w .ax ∧ b = immValue j) ∨
    (∃ m j, i = .testRmImm m j ∧ w = j.width ∧ rmValue s w m.rm = .ok a ∧ b = immValue j) →
    ∃ t, exec i s = .next t ∧ pszHolds t.flags w (a.toNat &&& b.toNat) ∧
      getFlag t.flags .CF = false ∧ getFlag t.flags .OF = false ∧
      (∀ k, k < 16 → (∀ g, g ∈ [Sys2Proof.Flag.CF, .PF, .ZF, .SF, .OF] → flagBit g ≠ k) →
        t.flags.getLsbD k = s.flags.getLsbD k) ∧
      t.gpr = s.gpr ∧ t.segs = s.segs ∧ t.mem = s.mem

/-- O30. INC and DEC of a register and of r/m: one more or one less, modulo `2^w`, with CF unchanged and the flags of the
no-carry helper (43_alu.md R256, R257, R258, R259). -/
def Obligations.IncDecForms : Prop :=
  (∀ (r : Reg16) (s : State),
    (∃ t, exec (.incReg r) s = .next t ∧ (getR16 t r).toNat = ((getR16 s r).toNat + 1) % 65536 ∧
      t.flags = flagsAddNC s.flags .word (getR16 s r).toNat 1) ∧
    (∃ t, exec (.decReg r) s = .next t ∧ (getR16 t r).toNat = ((getR16 s r).toNat + 65535) % 65536 ∧
      t.flags = flagsSubNC s.flags .word (getR16 s r).toNat 1)) ∧
  (∀ (w : Width) (m : ModRM) (s : State) (v : Word), s.mem.wf = true → rmValue s w m.rm = .ok v →
    (∃ t, exec (.incRm w m) s = .next t ∧ t.flags = flagsAddNC s.flags w v.toNat 1 ∧
      readPlace t w (placeOf s m.rm) = .ok (BitVec.ofNat 16 ((v.toNat + 1) % 2 ^ bits w))) ∧
    (∃ t, exec (.decRm w m) s = .next t ∧ t.flags = flagsSubNC s.flags w v.toNat 1 ∧
      readPlace t w (placeOf s m.rm) = .ok (BitVec.ofNat 16 ((v.toNat + 2 ^ bits w - 1) % 2 ^ bits w))))

/-- O31. NOT writes the one's complement and no flag; NEG writes the two's complement with the flags of 0 - op: CF = 1
iff the operand is not 0, OF = 1 iff it is `2^(w-1)`, AF = 1 iff its low byte is not 0, and ZF, SF, PF of the result (43_alu.md R260,
R261). -/
def Obligations.NotNegForms : Prop :=
  ∀ (w : Width) (m : ModRM) (s : State) (v : Word), s.mem.wf = true → rmValue s w m.rm = .ok v →
    (∃ t, exec (.notRm w m) s = .next t ∧ t.flags = s.flags ∧
      readPlace t w (placeOf s m.rm) = .ok (BitVec.ofNat 16 (2 ^ bits w - 1 - v.toNat))) ∧
    (∃ t, exec (.negRm w m) s = .next t ∧ t.flags = flagsSub s.flags w 0 v.toNat ∧
      readPlace t w (placeOf s m.rm) = .ok (BitVec.ofNat 16 ((2 ^ bits w - v.toNat) % 2 ^ bits w)) ∧
      getFlag t.flags .CF = decide (v.toNat ≠ 0) ∧ getFlag t.flags .OF = decide (v.toNat = 2 ^ (bits w - 1)) ∧
      getFlag t.flags .AF = decide (v.toNat % 256 ≠ 0) ∧ pszHolds t.flags w ((2 ^ bits w - v.toNat) % 2 ^ bits w))

/-! ## Stack, exceptions, halting -/

/-- O32. The pushes: SP goes down by 2 and the word at the new top of stack is the one pushed: a register (for PUSH SP,
SP before or after the decrement as `pushSpValue` says), a segment register, the r/m value read before SP changed, or
all 16 bits of FLAGS (44_stack_interrupt.md R290, R292, R294, R296, R298). -/
def Obligations.Pushes : Prop :=
  ∀ (i : Instr) (s : State) (v : Word), s.mem.wf = true → stackAccessible s (pushedSp s 1) = true →
    (∃ r, i = .pushReg r ∧
      v = if r = .sp ∧ s.params.pushSpValue = .new then pushedSp s 1 else getR16 s r) ∨
    (∃ r, i = .pushSeg r ∧ v = getSeg s r) ∨ (∃ m, i = .pushRm m ∧ rmValue s .word m.rm = .ok v) ∨
    (i = .pushf ∧ v = s.flags) →
    ∃ t, exec i s = .next t ∧ t.gpr.sp = pushedSp s 1 ∧ stackWord t t.gpr.sp = .ok v ∧ t.flags = s.flags

/-- O33. The pops: the word at the top of stack goes to the register, segment register or r/m operand, and SP goes up by
2; where SP is the destination it holds the popped word, which R293 marks as the spec's inference from R291
(44_stack_interrupt.md R291, R293, R295, R297). -/
def Obligations.Pops : Prop :=
  ∀ (s : State) (v : Word), s.mem.wf = true → stackWord s s.gpr.sp = .ok v →
    (∀ r, ∃ t, exec (.popReg r) s = .next t ∧ getR16 t r = v ∧ (r ≠ .sp → t.gpr.sp = s.gpr.sp + 2) ∧ t.flags = s.flags) ∧
    (∀ r, ∃ t, exec (.popSeg r) s = .next t ∧ getSeg t r = v ∧ t.gpr.sp = s.gpr.sp + 2 ∧ t.flags = s.flags) ∧
    (∀ m, rmAccessible s .word m.rm = true → ∃ t, exec (.popRm m) s = .next t ∧
      readPlace t .word (placeOf s m.rm) = .ok v ∧ (m.rm ≠ .reg .sp → t.gpr.sp = s.gpr.sp + 2) ∧ t.flags = s.flags)

/-- O34. POPF takes all 16 bits of FLAGS from the top of stack; "for all reachable 16-bit flag combinations, push-flags
then pop-flags restores the exact value", whatever became of FLAGS in between, with SP back where it was
(44_stack_interrupt.md R298, R299). -/
def Obligations.PushfPopfRoundTrip : Prop :=
  (∀ (s : State) (v : Word), stackWord s s.gpr.sp = .ok v →
    ∃ t, exec .popf s = .next t ∧ t.flags = v ∧ t.gpr.sp = s.gpr.sp + 2) ∧
  (∀ (s : State) (f : Word), s.mem.wf = true → stackAccessible s (pushedSp s 1) = true →
    ∃ t u, exec .pushf s = .next t ∧ exec .popf (setFlags t f) = .next u ∧ u.flags = s.flags ∧ u.gpr = s.gpr)

/-- O35. Taking an exception, by INT n, INT 3, INTO with OF = 1 or the host's call: FLAGS, CS and IP are pushed in that
order, TF and IF are cleared and nothing else in FLAGS, CS:IP is the vector-table entry at linear 4n as memory holds it
after the pushes, the other registers and the rest of memory stay, and the core is RUNNING even where it was HALTED
(44_stack_interrupt.md R300 to R304, 60_exceptions.md R469, R470). -/
def Obligations.ExceptionEntry : Prop :=
  ∀ (n : Byte) (s : State) (o : Out), s.mem.wf = true →
    stackAccessible s (pushedSp s 1) = true → stackAccessible s (pushedSp s 2) = true →
    stackAccessible s (pushedSp s 3) = true →
    (o = exec (.int n) s ∨ (n = 3 ∧ o = exec .int3 s) ∨ (n = 4 ∧ s.flag .OF = true ∧ o = exec .into s) ∨
      o = hostInterrupt n s) →
    ∃ t, o = .next t ∧ t.gpr.sp = pushedSp s 3 ∧
      stackWord t (pushedSp s 1) = .ok s.flags ∧ stackWord t (pushedSp s 2) = .ok s.segs.cs ∧
      stackWord t (pushedSp s 3) = .ok s.ip ∧
      readWord t (4 * n.toNat) (BitVec.ofNat 16 (4 * n.toNat)) = .ok t.ip ∧
      readWord t (4 * n.toNat + 2) (BitVec.ofNat 16 (4 * n.toNat + 2)) = .ok t.segs.cs ∧
      getFlag t.flags .TF = false ∧ getFlag t.flags .IF = false ∧
      (∀ k, k < 16 → k ≠ 8 → k ≠ 9 → t.flags.getLsbD k = s.flags.getLsbD k) ∧ t.run = .running ∧
      (∀ q, q ≠ .sp → getR16 t q = getR16 s q) ∧ (∀ q, q ≠ .cs → getSeg t q = getSeg s q) ∧
      ∀ a, a ∉ interruptCells s → Memory.read t.mem a = Memory.read s.mem a

/-- O36. INTO with OF = 0 changes nothing; IRET takes IP, CS and all 16 bits of FLAGS from the three words at the top of
stack (44_stack_interrupt.md R304, R305). -/
def Obligations.IntoAndIret : Prop :=
  (∀ s : State, s.flag .OF = false → exec .into s = .next s) ∧
  (∀ (s : State) (a b c : Word), stackWord s s.gpr.sp = .ok a → stackWord s (s.gpr.sp + 2) = .ok b →
    stackWord s (s.gpr.sp + 4) = .ok c →
    ∃ t, exec .iret s = .next t ∧ t.ip = a ∧ t.segs.cs = b ∧ t.flags = c ∧ t.gpr.sp = s.gpr.sp + 6)

/-- O37. Taking an interrupt and then IRET restores IP, CS, FLAGS and SP, whatever the handler did in between, as long as
SP, SS and the three words are as it found them; the handler's changes of the other registers survive, which R307 marks
as the spec's inference from R300 and R305 (44_stack_interrupt.md R307). -/
def Obligations.InterruptIretRoundTrip : Prop :=
  ∀ (n : Byte) (s t u : State), s.mem.wf = true → hostInterrupt n s = .next t →
    u.gpr.sp = t.gpr.sp → u.segs.ss = t.segs.ss → u.params = t.params →
    (∀ a, a ∈ interruptCells s → Memory.read u.mem a = Memory.read t.mem a) →
    ∃ v, exec .iret u = .next v ∧ v.ip = s.ip ∧ v.segs.cs = s.segs.cs ∧ v.flags = s.flags ∧ v.gpr.sp = s.gpr.sp ∧
      (∀ q, q ≠ .sp → getR16 v q = getR16 u q) ∧ (∀ q, q ≠ .cs → getSeg v q = getSeg u q)

/-- O38. HLT, an empty slot and an empty child halt the core with their cause, change no register, flag or memory byte,
and a further step then changes nothing (40_decode_dispatch.md R151, R154, R164; 44_stack_interrupt.md R306). -/
def Obligations.HaltingInstructions : Prop :=
  ∀ (i : Instr) (s : State) (c : HaltCause), haltCauseOf i = some c →
    (∀ op m, i = .emptyChild op m → rmAccessible s (demuxWidth op) m.rm = true) →
    ∃ t, exec i s = .next t ∧ t.run = .halted c ∧ t.gpr = s.gpr ∧ t.segs = s.segs ∧ t.flags = s.flags ∧ t.ip = s.ip ∧
      t.mem = s.mem ∧ Machine.step t = .next t

/-! ## Transfer -/

/-- O39. MOV between r/m and reg, of an immediate to r/m and of an immediate to a register: the destination holds the
source, FLAGS stay; a byte immediate leaves every other byte register (45_transfer_control.md R330, R331, R335). -/
def Obligations.MovForms : Prop :=
  (∀ (w : Width) (m : ModRM) (s : State) (v : Word), s.mem.wf = true → rmValue s w m.rm = .ok v →
    (∃ t, exec (.movRmReg .toRm w m) s = .next t ∧ readPlace t w (placeOf s m.rm) = .ok (getReg s w m.reg) ∧
      t.flags = s.flags) ∧
    (∃ t, exec (.movRmReg .toReg w m) s = .next t ∧ getReg t w m.reg = v ∧ t.flags = s.flags)) ∧
  (∀ (m : ModRM) (i : Imm) (s : State), s.mem.wf = true → rmAccessible s i.width m.rm = true →
    ∃ t, exec (.movRmImm m i) s = .next t ∧ readPlace t i.width (placeOf s m.rm) = .ok (immValue i) ∧
      t.flags = s.flags) ∧
  (∀ (r : Reg16) (i : Imm) (s : State),
    ∃ t, exec (.movRegImm r i) s = .next t ∧ getReg t i.width r = immValue i ∧ t.flags = s.flags ∧
      (i.width = .byte → ∀ q, q ≠ Reg8.ofNumber r → getR8 t q = getR8 s q))

/-- O40. MOV of a segment register to r/m and back, MOV CS included, with IP unchanged; a `reg` field that names no
segment register is an undefined form; MOV of the accumulator from and to a 16-bit offset in DS or the override segment
(45_transfer_control.md R332, R333, R334). -/
def Obligations.MovSegmentAndMoffs : Prop :=
  (∀ (m : ModRM) (r : SegReg) (s : State) (v : Word), s.mem.wf = true → SegReg.ofNumber m.reg = some r →
    rmValue s .word m.rm = .ok v →
    (∃ t, exec (.movRmSeg m) s = .next t ∧ readPlace t .word (placeOf s m.rm) = .ok (getSeg s r) ∧ t.ip = s.ip ∧
      t.flags = s.flags) ∧
    (∃ t, exec (.movSegRm m) s = .next t ∧ getSeg t r = v ∧ t.ip = s.ip ∧ t.flags = s.flags)) ∧
  (∀ (m : ModRM) (s : State), SegReg.ofNumber m.reg = none → rmAccessible s .word m.rm = true →
    exec (.movRmSeg m) s = .fault .undefinedForm ∧ exec (.movSegRm m) s = .fault .undefinedForm) ∧
  (∀ (w : Width) (off : Word) (seg : SegReg) (s : State) (v : Word), s.mem.wf = true →
    seg = s.pfx.segOverride.getD .ds → readMem s w (lin (getSeg s seg) off) off = .ok v →
    (∃ t, exec (.movMoffs .toReg w off) s = .next t ∧ getReg t w .ax = v ∧ t.flags = s.flags) ∧
    (∃ t, exec (.movMoffs .toRm w off) s = .next t ∧
      readMem t w (lin (getSeg s seg) off) off = .ok (getReg s w .ax) ∧ t.flags = s.flags))

/-- O41. The effective address of a memory operand is the sum of the registers of its template, of the eight of R184, and
of its displacement, sign-extended from a byte, modulo 2^16; the direct form's is its displacement; the segment is SS for
the templates with BP, DS for the others and the direct form, and an override replaces it. LEA gives the effective
address whatever the segment; LDS and LES give the word at the
operand to reg and the word at the operand's offset plus 2 to DS or ES; a register operand is an undefined form, and an
operand beyond the backing store faults, LEA's included (45_transfer_control.md R336, R337, R338; 41_addressing.md
R184 to R188). -/
def Obligations.AddressLoads : Prop :=
  (∀ (m : ModRM) (s : State), isRegister m.rm = false → rmAccessible s .word m.rm = true →
    ∃ t, exec (.lea m) s = .next t ∧ getR16 t m.reg = effectiveAddress s m.rm ∧ t.flags = s.flags) ∧
  ([0, 1, 2, 3, 4, 5, 6, 7].map EaBase.ofBits = [.bxSi, .bxDi, .bpSi, .bpDi, .si, .di, .bp, .bx]) ∧
  (∀ (b : EaBase) (d : Disp) (s : State) (x y : Word) (z : Int),
    (b, x, y) ∈ [(.bxSi, s.gpr.bx, s.gpr.si), (.bxDi, s.gpr.bx, s.gpr.di), (.bpSi, s.gpr.bp, s.gpr.si),
      (.bpDi, s.gpr.bp, s.gpr.di), (.si, s.gpr.si, 0), (.di, s.gpr.di, 0), (.bp, s.gpr.bp, 0), (.bx, s.gpr.bx, 0)] →
    z = (match d with | .none => 0 | .d8 v => v.toInt | .d16 v => (v.toNat : Int)) →
    ((effectiveAddress s (.mem b d)).toNat : Int) = ((x.toNat : Int) + y.toNat + z) % 65536) ∧
  (∀ (d : Word) (s : State), effectiveAddress s (.direct d) = d) ∧
  (∀ (b : EaBase) (d : Disp) (v : Word) (s : State),
    effectiveSegment s (.mem b d) =
      (match s.pfx.segOverride with
        | some r => r
        | none => if b = .bpSi ∨ b = .bpDi ∨ b = .bp then .ss else .ds) ∧
    effectiveSegment s (.direct v) =
      (match s.pfx.segOverride with
        | some r => r
        | none => .ds)) ∧
  (∀ (rm : RM) (s : State), isRegister rm = false →
    effectiveLinear s rm = (getSeg s (effectiveSegment s rm)).toNat * 16 + (effectiveAddress s rm).toNat ∧
    ∀ w, rmValue s w rm = readMem s w (effectiveLinear s rm) (effectiveAddress s rm)) ∧
  (∀ (m : ModRM) (s : State) (off seg : Word), isRegister m.rm = false → rmValue s .word m.rm = .ok off →
    readWord s (lin (getSeg s (effectiveSegment s m.rm)) (effectiveAddress s m.rm + 2))
      (effectiveAddress s m.rm + 2) = .ok seg →
    (∃ t, exec (.lds m) s = .next t ∧ getR16 t m.reg = off ∧ t.segs.ds = seg ∧ t.flags = s.flags) ∧
    (∃ t, exec (.les m) s = .next t ∧ getR16 t m.reg = off ∧ t.segs.es = seg ∧ t.flags = s.flags)) ∧
  (∀ (m : ModRM) (s : State), isRegister m.rm = true → exec (.lea m) s = .fault .undefinedForm ∧
    exec (.lds m) s = .fault .undefinedForm ∧ exec (.les m) s = .fault .undefinedForm) ∧
  (∀ (m : ModRM) (s : State), rmAccessible s .word m.rm = false → exec (.lea m) s = .fault .beyondBackingStore ∧
    exec (.lds m) s = .fault .beyondBackingStore ∧ exec (.les m) s = .fault .beyondBackingStore)

/-- O42. XCHG exchanges its operands, also where both halves of one register are exchanged; NOP changes nothing
(45_transfer_control.md R339, R340). -/
def Obligations.Exchanges : Prop :=
  (∀ (w : Width) (m : ModRM) (s : State) (v : Word), s.mem.wf = true → rmValue s w m.rm = .ok v →
    ∃ t, exec (.xchgRmReg w m) s = .next t ∧ getReg t w m.reg = v ∧
      readPlace t w (placeOf s m.rm) = .ok (getReg s w m.reg) ∧ t.flags = s.flags) ∧
  (∀ (r : Reg16) (s : State),
    ∃ t, exec (.xchgAcc r) s = .next t ∧ t.gpr.ax = getR16 s r ∧ getR16 t r = s.gpr.ax ∧ t.flags = s.flags) ∧
  (∀ s : State, exec .nop s = .next s)

/-- O43. CBW and CWD extend the sign of AL and AX; LAHF gives the low byte of FLAGS to AH; SAHF gives bits 7, 6, 4, 2 and
0 of AH to FLAGS; XLAT gives the byte at (BX + AL) mod 2^16 in DS or the override segment to AL
(45_transfer_control.md R341 to R345). -/
def Obligations.Conversions : Prop :=
  ∀ s : State,
    (∃ t, exec .cbw s = .next t ∧ t.gpr.ax.toInt = (getR8 s .al).toInt ∧ t.flags = s.flags) ∧
    (∃ t, exec .cwd s = .next t ∧ (t.gpr.dx ++ t.gpr.ax).toInt = s.gpr.ax.toInt ∧ t.gpr.ax = s.gpr.ax ∧
      t.flags = s.flags) ∧
    (∃ t, exec .lahf s = .next t ∧ (getR8 t .ah).toNat = s.flags.toNat % 256 ∧ t.flags = s.flags) ∧
    (∃ t, exec .sahf s = .next t ∧ t.gpr = s.gpr ∧
      ∀ k, k < 16 → t.flags.getLsbD k =
        if k = 0 ∨ k = 2 ∨ k = 4 ∨ k = 6 ∨ k = 7 then (getR8 s .ah).getLsbD k else s.flags.getLsbD k) ∧
    (∀ (off : Word) (b : Byte), off.toNat = (s.gpr.bx.toNat + (getR8 s .al).toNat) % 65536 →
      readByte s (lin (getSeg s (s.pfx.segOverride.getD .ds)) off) = .ok b →
      ∃ t, exec .xlat s = .next t ∧ getR8 t .al = b ∧ t.flags = s.flags)

/-- O44. CLC, STC, CMC, CLI, STI, CLD and STD write their one flag, and nothing else of the state
(45_transfer_control.md R380 to R386). -/
def Obligations.FlagInstructions : Prop :=
  ∀ (i : Instr) (g : Sys2Proof.Flag) (b : Bool) (s : State),
    (i, g, b) ∈ [(.clc, .CF, false), (.stc, .CF, true), (.cmc, .CF, !s.flag .CF), (.cli, .IF, false), (.sti, .IF, true),
      (.cld, .DF, false), (.std, .DF, true)] →
    ∃ f, exec i s = .next { s with flags := f } ∧ getFlag f g = b ∧
      ∀ k, k < 16 → k ≠ flagBit g → f.getLsbD k = s.flags.getLsbD k

/-! ## Control transfer -/

/-- O45. Each conditional jump goes to `(IP_after + disp) mod 2^16` exactly when its condition on the flags holds, and
changes nothing else (45_transfer_control.md R346 to R362). -/
def Obligations.ConditionalJumps : Prop :=
  ∀ (i : Instr) (d : Byte) (s : State) (taken : Bool),
    (i, taken) ∈ [
      (.jo d, s.flag .OF), (.jno d, !s.flag .OF), (.jb d, s.flag .CF), (.jnb d, !s.flag .CF),
      (.jz d, s.flag .ZF), (.jnz d, !s.flag .ZF), (.jbe d, s.flag .CF || s.flag .ZF),
      (.ja d, !s.flag .CF && !s.flag .ZF), (.js d, s.flag .SF), (.jns d, !s.flag .SF), (.jp d, s.flag .PF),
      (.jnp d, !s.flag .PF), (.jl d, s.flag .SF != s.flag .OF), (.jnl d, s.flag .SF == s.flag .OF),
      (.jle d, s.flag .ZF || s.flag .SF != s.flag .OF), (.jnle d, !s.flag .ZF && s.flag .SF == s.flag .OF)] →
    exec i s = .next (if taken then setIp s (relativeTarget s d.toInt) else s)

/-- O46. The jumps: short and near go to `(IP_after + disp) mod 2^16`, far to the pointer given, the indirect ones to the
r/m word, or to the far pointer in memory; a far pointer in a register is an undefined form (45_transfer_control.md R363
to R367). -/
def Obligations.Jumps : Prop :=
  (∀ (d : Byte) (s : State), exec (.jmpShort d) s = .next (setIp s (relativeTarget s d.toInt))) ∧
  (∀ (d : Word) (s : State), exec (.jmpNear d) s = .next (setIp s (relativeTarget s d.toInt))) ∧
  (∀ (off seg : Word) (s : State), ∃ t, exec (.jmpFar off seg) s = .next t ∧ t.ip = off ∧ t.segs.cs = seg ∧
    t.gpr = s.gpr ∧ t.flags = s.flags ∧ t.mem = s.mem) ∧
  (∀ (m : ModRM) (s : State) (v : Word), rmValue s .word m.rm = .ok v →
    ∃ t, exec (.jmpRm m) s = .next t ∧ t.ip = v ∧ t.segs = s.segs ∧ t.gpr = s.gpr ∧ t.flags = s.flags ∧ t.mem = s.mem) ∧
  (∀ (m : ModRM) (s : State) (off seg : Word), isRegister m.rm = false → rmValue s .word m.rm = .ok off →
    readWord s (lin (getSeg s (effectiveSegment s m.rm)) (effectiveAddress s m.rm + 2)) (effectiveAddress s m.rm + 2) = .ok seg →
    ∃ t, exec (.jmpFarMem m) s = .next t ∧ t.ip = off ∧ t.segs.cs = seg ∧ t.gpr = s.gpr ∧ t.flags = s.flags ∧
      t.mem = s.mem) ∧
  (∀ (m : ModRM) (s : State), isRegister m.rm = true → exec (.jmpFarMem m) s = .fault .undefinedForm)

/-- O47. The calls push the return address: IP after the instruction, under CS for the far ones; the target is
relative, given, the r/m word read before the push, or the far pointer read before the pushes; a far pointer in a
register is an undefined form (45_transfer_control.md R368 to R371). -/
def Obligations.Calls : Prop :=
  (∀ (i : Instr) (s : State) (target : Word), s.mem.wf = true → stackAccessible s (pushedSp s 1) = true →
    (∃ d : Word, i = .callNear d ∧ target = relativeTarget s d.toInt) ∨
    (∃ m, i = .callRm m ∧ rmValue s .word m.rm = .ok target) →
    ∃ t, exec i s = .next t ∧ t.ip = target ∧ t.segs = s.segs ∧ t.gpr.sp = pushedSp s 1 ∧
      stackWord t (pushedSp s 1) = .ok s.ip ∧ t.flags = s.flags) ∧
  (∀ (i : Instr) (s : State) (off seg : Word), s.mem.wf = true → stackAccessible s (pushedSp s 1) = true →
    stackAccessible s (pushedSp s 2) = true →
    i = .callFar off seg ∨
    (∃ m, i = .callFarMem m ∧ isRegister m.rm = false ∧ rmValue s .word m.rm = .ok off ∧
      readWord s (lin (getSeg s (effectiveSegment s m.rm)) (effectiveAddress s m.rm + 2)) (effectiveAddress s m.rm + 2) = .ok seg) →
    ∃ t, exec i s = .next t ∧ t.ip = off ∧ t.segs.cs = seg ∧ t.gpr.sp = pushedSp s 2 ∧
      stackWord t (pushedSp s 1) = .ok s.segs.cs ∧ stackWord t (pushedSp s 2) = .ok s.ip ∧ t.flags = s.flags) ∧
  (∀ (m : ModRM) (s : State), isRegister m.rm = true → exec (.callFarMem m) s = .fault .undefinedForm)

/-- O48. The returns take IP, and for the far ones CS, from the top of stack, and release the bytes the immediate says
(45_transfer_control.md R372 to R375). -/
def Obligations.Returns : Prop :=
  (∀ (i : Instr) (n : Word) (s : State) (a : Word), stackWord s s.gpr.sp = .ok a →
    (i = .ret ∧ n = 0) ∨ i = .retImm n →
    ∃ t, exec i s = .next t ∧ t.ip = a ∧ t.segs = s.segs ∧ t.gpr.sp = s.gpr.sp + 2 + n ∧ t.flags = s.flags ∧
      t.mem = s.mem) ∧
  (∀ (i : Instr) (n : Word) (s : State) (a b : Word), stackWord s s.gpr.sp = .ok a →
    stackWord s (s.gpr.sp + 2) = .ok b → (i = .retf ∧ n = 0) ∨ i = .retfImm n →
    ∃ t, exec i s = .next t ∧ t.ip = a ∧ t.segs.cs = b ∧ t.gpr.sp = s.gpr.sp + 4 + n ∧ t.flags = s.flags ∧
      t.mem = s.mem)

/-- O49. LOOP, LOOPZ and LOOPNZ take 1 from CX modulo 2^16 and jump when CX is then not 0 and their condition on ZF holds;
JCXZ jumps when CX is 0 and leaves it (45_transfer_control.md R376 to R379). -/
def Obligations.Loops : Prop :=
  (∀ (i : Instr) (d : Byte) (ok : Bool) (s : State),
    (i, ok) ∈ [(.loop d, true), (.loopz d, s.flag .ZF), (.loopnz d, !s.flag .ZF)] →
    ∃ t, exec i s = .next t ∧ t.gpr.cx.toNat = (s.gpr.cx.toNat + 65535) % 65536 ∧
      t.ip = (if s.gpr.cx.toNat ≠ 1 ∧ ok = true then relativeTarget s d.toInt else s.ip) ∧ t.flags = s.flags) ∧
  (∀ (d : Byte) (s : State),
    exec (.jcxz d) s = .next (if s.gpr.cx.toNat = 0 then setIp s (relativeTarget s d.toInt) else s))

/-! ## Strings -/

/-- O50. One element of each string instruction, without REP: MOVS copies the source to ES:DI, CMPS and SCAS set the
flags of the comparison, STOS stores and LODS loads the accumulator; SI and DI go on by the element size, down when
DF = 1 (46_string_shift_muldiv_misc.md R390, R392 to R396). -/
def Obligations.StringElements : Prop :=
  ∀ (w : Width) (s : State) (size a b : Word) (source : Nat), s.mem.wf = true → s.pfx.rep = none →
    size = (match w with | .byte => 1 | .word => 2) → source = lin (getSeg s (s.pfx.segOverride.getD .ds)) s.gpr.si →
    readMem s w source s.gpr.si = .ok a → readMem s w (lin s.segs.es s.gpr.di) s.gpr.di = .ok b →
    let next (r : Word) : Word := if s.flag .DF then r - size else r + size
    (∃ t, exec (match w with | .byte => .movsb | .word => .movsw) s = .next t ∧
      readMem t w (lin s.segs.es s.gpr.di) s.gpr.di = .ok a ∧ t.gpr.si = next s.gpr.si ∧ t.gpr.di = next s.gpr.di ∧
      t.flags = s.flags) ∧
    (∃ t, exec (match w with | .byte => .cmpsb | .word => .cmpsw) s = .next t ∧
      t.flags = flagsSub s.flags w a.toNat b.toNat ∧ t.gpr.si = next s.gpr.si ∧ t.gpr.di = next s.gpr.di ∧
      t.mem = s.mem) ∧
    (∃ t, exec (match w with | .byte => .stosb | .word => .stosw) s = .next t ∧
      readMem t w (lin s.segs.es s.gpr.di) s.gpr.di = .ok (getReg s w .ax) ∧ t.gpr.di = next s.gpr.di ∧
      t.flags = s.flags) ∧
    (∃ t, exec (match w with | .byte => .lodsb | .word => .lodsw) s = .next t ∧
      getReg t w .ax = a ∧ t.gpr.si = next s.gpr.si ∧ t.flags = s.flags ∧ t.mem = s.mem) ∧
    (∃ t, exec (match w with | .byte => .scasb | .word => .scasw) s = .next t ∧
      t.flags = flagsSub s.flags w (getReg s w .ax).toNat b.toNat ∧ t.gpr.di = next s.gpr.di ∧ t.mem = s.mem)

/-- O51. A string instruction under REP with CX = 0 changes nothing; otherwise it does its element once, takes 1 from CX,
and goes on from there, unless it is CMPS or SCAS and ZF ends it (46_string_shift_muldiv_misc.md R391). -/
def Obligations.RepeatedStrings : Prop :=
  ∀ (i : Instr) (k : RepKind) (s : State), i ∈ stringInstrs → s.pfx.rep = some k →
    (s.gpr.cx.toNat = 0 → exec i s = .next s) ∧
    (s.gpr.cx.toNat ≠ 0 →
      exec i s =
        match exec i (withRep none s) with
        | .next t =>
          if repStops i k t then .next (withRep (some k) (setR16 t .cx (t.gpr.cx - 1)))
          else exec i (withRep (some k) (setR16 t .cx (t.gpr.cx - 1)))
        | .fault f => .fault f
        | .refused r => .refused r)

/-! ## Shifts, multiplication, division, decimal -/

/-- O52. SHL, SHR and SAR by a count that is not 0, the whole of CL or 1: the operand times or divided by `2^n`, rounded
down, SAR on the signed operand; CF is the last bit shifted out; OF by the rule for a count of 1; ZF, SF and PF of the
result. For a count of 0 no flag and no operand changes (46_string_shift_muldiv_misc.md R400, R405 to R407). -/
def Obligations.Shifts : Prop :=
  ∀ (c : ShiftCount) (w : Width) (m : ModRM) (s : State) (v : Word) (n : Nat), s.mem.wf = true →
    rmValue s w m.rm = .ok v → n = (match c with | .one => 1 | .cl => (getR8 s .cl).toNat) →
    (∃ t, exec (.shl c w m) s = .next t ∧
      (n = 0 → t.flags = s.flags ∧ t.mem = s.mem ∧ t.gpr = s.gpr) ∧
      (n ≠ 0 → readPlace t w (placeOf s m.rm) = .ok (BitVec.ofNat 16 (v.toNat * 2 ^ n % 2 ^ bits w)) ∧
        getFlag t.flags .CF = decide (v.toNat * 2 ^ n / 2 ^ bits w % 2 = 1) ∧
        pszHolds t.flags w (v.toNat * 2 ^ n % 2 ^ bits w)) ∧
      (n = 1 → getFlag t.flags .OF =
        (decide (2 ^ (bits w - 1) ≤ v.toNat * 2 % 2 ^ bits w) != decide (2 ^ (bits w - 1) ≤ v.toNat)))) ∧
    (∃ t, exec (.shr c w m) s = .next t ∧
      (n = 0 → t.flags = s.flags ∧ t.mem = s.mem ∧ t.gpr = s.gpr) ∧
      (n ≠ 0 → readPlace t w (placeOf s m.rm) = .ok (BitVec.ofNat 16 (v.toNat / 2 ^ n)) ∧
        getFlag t.flags .CF = decide (v.toNat / 2 ^ (n - 1) % 2 = 1) ∧ pszHolds t.flags w (v.toNat / 2 ^ n)) ∧
      (n = 1 → getFlag t.flags .OF = decide (2 ^ (bits w - 1) ≤ v.toNat))) ∧
    (∃ t, exec (.sar c w m) s = .next t ∧
      (n = 0 → t.flags = s.flags ∧ t.mem = s.mem ∧ t.gpr = s.gpr) ∧
      (n ≠ 0 → ∃ x : Nat, (x : Int) = signedNat w v.toNat / 2 ^ n % 2 ^ bits w ∧
        readPlace t w (placeOf s m.rm) = .ok (BitVec.ofNat 16 x) ∧ pszHolds t.flags w x ∧
        getFlag t.flags .CF = decide (signedNat w v.toNat / 2 ^ (n - 1) % 2 = 1)) ∧
      (n = 1 → getFlag t.flags .OF = false))

/-- O53. ROL and ROR rotate the operand, RCL and RCR the operand with CF as its top bit, by the whole count; CF is the
last bit rotated out; OF by the rule for a count of 1; PF, AF, ZF and SF stay. For a count of 0 nothing changes
(46_string_shift_muldiv_misc.md R400 to R404). -/
def Obligations.Rotates : Prop :=
  ∀ (c : ShiftCount) (w : Width) (m : ModRM) (s : State) (v : Word) (n : Nat), s.mem.wf = true →
    rmValue s w m.rm = .ok v → n = (match c with | .one => 1 | .cl => (getR8 s .cl).toNat) →
    let keeps (t : State) : Prop :=
      (n = 0 → t.flags = s.flags ∧ t.mem = s.mem ∧ t.gpr = s.gpr) ∧
      (∀ g, g ≠ .CF → g ≠ .OF → getFlag t.flags g = getFlag s.flags g)
    (∃ t, exec (.rol c w m) s = .next t ∧ keeps t ∧
      (n ≠ 0 → readPlace t w (placeOf s m.rm) = .ok (BitVec.ofNat 16 (rotateLeft (bits w) n v.toNat)) ∧
        getFlag t.flags .CF = decide (rotateLeft (bits w) n v.toNat % 2 = 1)) ∧
      (n = 1 → getFlag t.flags .OF =
        (decide (2 ^ (bits w - 1) ≤ rotateLeft (bits w) 1 v.toNat) != decide (2 ^ (bits w - 1) ≤ v.toNat)))) ∧
    (∃ t, exec (.ror c w m) s = .next t ∧ keeps t ∧
      (n ≠ 0 → readPlace t w (placeOf s m.rm) = .ok (BitVec.ofNat 16 (rotateRight (bits w) n v.toNat)) ∧
        getFlag t.flags .CF = decide (2 ^ (bits w - 1) ≤ rotateRight (bits w) n v.toNat)) ∧
      (n = 1 → getFlag t.flags .OF = (decide (v.toNat % 2 = 1) != decide (2 ^ (bits w - 1) ≤ v.toNat)))) ∧
    (∃ t, exec (.rcl c w m) s = .next t ∧ keeps t ∧
      (n ≠ 0 → ∃ x, x = rotateLeft (bits w + 1) n (carryAnd w (s.flag .CF) v.toNat) ∧
        readPlace t w (placeOf s m.rm) = .ok (BitVec.ofNat 16 (x % 2 ^ bits w)) ∧
        getFlag t.flags .CF = decide (2 ^ bits w ≤ x)) ∧
      (n = 1 → getFlag t.flags .OF =
        (decide (2 ^ (bits w - 2) ≤ v.toNat % 2 ^ (bits w - 1)) != decide (2 ^ (bits w - 1) ≤ v.toNat)))) ∧
    (∃ t, exec (.rcr c w m) s = .next t ∧ keeps t ∧
      (n ≠ 0 → ∃ x, x = rotateRight (bits w + 1) n (carryAnd w (s.flag .CF) v.toNat) ∧
        readPlace t w (placeOf s m.rm) = .ok (BitVec.ofNat 16 (x % 2 ^ bits w)) ∧
        getFlag t.flags .CF = decide (2 ^ bits w ≤ x)) ∧
      (n = 1 → getFlag t.flags .OF = (s.flag .CF != decide (2 ^ (bits w - 1) ≤ v.toNat))))

/-- O54. MUL and IMUL give the whole product, to AX for a byte and to DX:AX for a word, and set CF = OF when it does not
fit the low half (46_string_shift_muldiv_misc.md R410, R411). -/
def Obligations.Multiplications : Prop :=
  (∀ (m : ModRM) (s : State) (v : Word), rmValue s .byte m.rm = .ok v →
    (∃ t, exec (.mul .byte m) s = .next t ∧ t.gpr.ax.toNat = (getR8 s .al).toNat * v.toNat ∧
      getFlag t.flags .CF = decide (256 ≤ (getR8 s .al).toNat * v.toNat) ∧
      getFlag t.flags .OF = decide (256 ≤ (getR8 s .al).toNat * v.toNat)) ∧
    (∃ t, exec (.imul .byte m) s = .next t ∧ t.gpr.ax.toInt = (getR8 s .al).toInt * signedNat .byte v.toNat ∧
      getFlag t.flags .CF = outsideSigned .byte ((getR8 s .al).toInt * signedNat .byte v.toNat) ∧
      getFlag t.flags .OF = outsideSigned .byte ((getR8 s .al).toInt * signedNat .byte v.toNat))) ∧
  (∀ (m : ModRM) (s : State) (v : Word), rmValue s .word m.rm = .ok v →
    (∃ t, exec (.mul .word m) s = .next t ∧
      t.gpr.dx.toNat * 65536 + t.gpr.ax.toNat = s.gpr.ax.toNat * v.toNat ∧
      getFlag t.flags .CF = decide (65536 ≤ s.gpr.ax.toNat * v.toNat) ∧
      getFlag t.flags .OF = decide (65536 ≤ s.gpr.ax.toNat * v.toNat)) ∧
    (∃ t, exec (.imul .word m) s = .next t ∧ (t.gpr.dx ++ t.gpr.ax).toInt = s.gpr.ax.toInt * v.toInt ∧
      getFlag t.flags .CF = outsideSigned .word (s.gpr.ax.toInt * v.toInt) ∧
      getFlag t.flags .OF = outsideSigned .word (s.gpr.ax.toInt * v.toInt)))

/-- O55. DIV and IDIV where the divisor is not 0 and the quotient is in range: quotient to AL or AX, remainder to AH or
DX; IDIV's quotient is truncated toward zero and its remainder has the sign of the dividend; the least quotient IDIV
accepts is set by `idivRange` (46_string_shift_muldiv_misc.md R412, R413). -/
def Obligations.Divisions : Prop :=
  (∀ (m : ModRM) (s : State) (v : Word), rmValue s .byte m.rm = .ok v → v.toNat ≠ 0 → s.gpr.ax.toNat / v.toNat < 256 →
    ∃ t, exec (.div .byte m) s = .next t ∧ (getR8 t .al).toNat = s.gpr.ax.toNat / v.toNat ∧
      (getR8 t .ah).toNat = s.gpr.ax.toNat % v.toNat) ∧
  (∀ (m : ModRM) (s : State) (v : Word) (d : Nat), rmValue s .word m.rm = .ok v → v.toNat ≠ 0 →
    d = s.gpr.dx.toNat * 65536 + s.gpr.ax.toNat → d / v.toNat < 65536 →
    ∃ t, exec (.div .word m) s = .next t ∧ t.gpr.ax.toNat = d / v.toNat ∧ t.gpr.dx.toNat = d % v.toNat) ∧
  (∀ (m : ModRM) (s : State) (v : Word) (d q : Int), rmValue s .byte m.rm = .ok v → v.toNat ≠ 0 → d = s.gpr.ax.toInt →
    q = d.tdiv (signedNat .byte v.toNat) → q ≤ 127 → -127 ≤ q ∨ (q = -128 ∧ s.params.idivRange = .full) →
    ∃ t, exec (.idiv .byte m) s = .next t ∧ (getR8 t .al).toInt = q ∧
      (getR8 t .ah).toInt = d - q * signedNat .byte v.toNat) ∧
  (∀ (m : ModRM) (s : State) (v : Word) (d q : Int), rmValue s .word m.rm = .ok v → v.toNat ≠ 0 →
    d = (s.gpr.dx ++ s.gpr.ax).toInt → q = d.tdiv v.toInt → q ≤ 32767 →
    -32767 ≤ q ∨ (q = -32768 ∧ s.params.idivRange = .full) →
    ∃ t, exec (.idiv .word m) s = .next t ∧ t.gpr.ax.toInt = q ∧ t.gpr.dx.toInt = d - q * v.toInt)

/-- O56. A divide error: DIV and IDIV with a divisor of 0 or a quotient out of range, and AAM with a base of 0, do what
the host's `interrupt(0)` does on the state with nothing but the operand cache written first
(44_stack_interrupt.md R308, 46_string_shift_muldiv_misc.md R412, R413, R424). -/
def Obligations.DivideErrors : Prop :=
  (∀ (w : Width) (m : ModRM) (s : State) (v : Word), rmValue s w m.rm = .ok v →
    (v.toNat = 0 ∨ 2 ^ bits w ≤ (match w with | .byte => s.gpr.ax.toNat | .word => s.gpr.dx.toNat * 65536 + s.gpr.ax.toNat) / v.toNat →
      ∃ c, exec (.div w m) s = hostInterrupt 0 (withCache s c)) ∧
    (v.toNat = 0 → ∃ c, exec (.idiv w m) s = hostInterrupt 0 (withCache s c)) ∧
    (∀ q : Int, q = (match w with | .byte => s.gpr.ax.toInt | .word => (s.gpr.dx ++ s.gpr.ax).toInt).tdiv (signedNat w v.toNat) →
      (2 ^ (bits w - 1) ≤ q ∨ q < -(2 ^ (bits w - 1)) ∨ (q = -(2 ^ (bits w - 1)) ∧ s.params.idivRange = .i8086)) →
      ∃ c, exec (.idiv w m) s = hostInterrupt 0 (withCache s c))) ∧
  (∀ s : State, exec (.aam 0) s = hostInterrupt 0 s)

/-- O57. The decimal adjustments: DAA follows its rule, and after adding two packed decimal numbers gives their packed sum
modulo 100 with CF the decimal carry; DAS, AAA and AAS follow their rules on AL, AH, AF and CF; AAM divides AL by the
base, AAD multiplies AH back into AL (46_string_shift_muldiv_misc.md R420 to R425). -/
def Obligations.DecimalAdjusts : Prop :=
  (∀ s : State, ∃ t, exec .daa s = .next t ∧
    ∀ a b : Nat, a < 100 → b < 100 →
      (getR8 s .al).toNat = (a / 10 * 16 + a % 10 + (b / 10 * 16 + b % 10)) % 256 →
      s.flag .CF = decide (256 ≤ a / 10 * 16 + a % 10 + (b / 10 * 16 + b % 10)) →
      s.flag .AF = decide (16 ≤ a % 10 + b % 10) →
      (getR8 t .al).toNat = (a + b) % 100 / 10 * 16 + (a + b) % 10 ∧ t.flag .CF = decide (100 ≤ a + b) ∧
        pszHolds t.flags .byte (getR8 t .al).toNat) ∧
  (∀ (s : State) (al : Nat) (low high : Bool), al = (getR8 s .al).toNat → low = (decide (9 < al % 16) || s.flag .AF) →
    high = (decide (0x99 < al) || s.flag .CF) →
    (∃ t, exec .daa s = .next t ∧
      (getR8 t .al).toNat = (al + (if low then 6 else 0) + (if high then 0x60 else 0)) % 256 ∧ t.flag .AF = low ∧
      t.flag .CF = high ∧ pszHolds t.flags .byte (getR8 t .al).toNat) ∧
    ∃ t, exec .das s = .next t ∧
      (getR8 t .al).toNat = (al + (if low then 250 else 0) + (if high then 0xA0 else 0)) % 256 ∧ t.flag .AF = low ∧
      t.flag .CF = (high || (low && (s.flag .CF || decide (al < 6)))) ∧ pszHolds t.flags .byte (getR8 t .al).toNat) ∧
  (∀ (s : State) (al ah : Nat) (low : Bool), al = (getR8 s .al).toNat → ah = (getR8 s .ah).toNat →
    low = (decide (9 < al % 16) || s.flag .AF) →
    (∃ t, exec .aaa s = .next t ∧ (getR8 t .al).toNat = (if low then al + 6 else al) % 16 ∧
      (getR8 t .ah).toNat = (if low then ah + 1 else ah) % 256 ∧ t.flag .AF = low ∧ t.flag .CF = low) ∧
    (∃ t, exec .aas s = .next t ∧ (getR8 t .al).toNat = (if low then al + 250 else al) % 16 ∧
      (getR8 t .ah).toNat = (if low then ah + 255 else ah) % 256 ∧ t.flag .AF = low ∧ t.flag .CF = low)) ∧
  (∀ (s : State) (base : Byte),
    (base.toNat ≠ 0 → ∃ t, exec (.aam base) s = .next t ∧
      base.toNat * (getR8 t .ah).toNat + (getR8 t .al).toNat = (getR8 s .al).toNat ∧
      (getR8 t .al).toNat < base.toNat ∧ pszHolds t.flags .byte (getR8 t .al).toNat) ∧
    (∃ t, exec (.aad base) s = .next t ∧
      (getR8 t .al).toNat = ((getR8 s .ah).toNat * base.toNat + (getR8 s .al).toNat) % 256 ∧
      (getR8 t .ah).toNat = 0 ∧ pszHolds t.flags .byte (getR8 t .al).toNat))

/-! ## Ports, escape, prefixes, reset, clocks -/

/-- O58. IN from an unmapped port gives 0 and OUT to one changes nothing; on a mapped port IN and OUT make exactly one
call of the device, with its width, port and value, and IN gives AL or AX the device's reply; ESC reads its operand and changes no register, flag or memory, and
faults where the operand lies beyond the backing store; WAIT changes nothing (20_memory.md R84, R85;
46_string_shift_muldiv_misc.md R440 to R447; the record of the calls is
the model's own field, notes/assumptions/5.md). -/
def Obligations.PortsEscWait : Prop :=
  (∀ (i j : Instr) (w : Width) (port : Word) (s : State),
    (∃ p : Byte, i = .inImm w p ∧ j = .outImm w p ∧ port.toNat = p.toNat) ∨ (i = .inDx w ∧ j = .outDx w ∧ port = s.gpr.dx) →
    (∃ t, exec i s = .next t ∧ t.flags = s.flags ∧ t.mem = s.mem ∧
      (port ∉ s.params.mappedPorts → getReg t w .ax = 0 ∧ t.portCalls = s.portCalls) ∧
      (port ∈ s.params.mappedPorts → t.portCalls = .pin (decide (w = .word)) port :: s.portCalls ∧
        getReg t w .ax = portValue w (Config.pinDraw s.draws s.portCalls (decide (w = .word)) port))) ∧
    (∃ t, exec j s = .next t ∧ t.gpr = s.gpr ∧ t.flags = s.flags ∧ t.mem = s.mem ∧
      (port ∉ s.params.mappedPorts → t = s) ∧
      (port ∈ s.params.mappedPorts →
        t.portCalls = .pout (decide (w = .word)) port (getReg s w .ax) :: s.portCalls))) ∧
  (∀ (n : BitVec 3) (m : ModRM) (s : State), rmAccessible s .word m.rm = true →
    ∃ t, exec (.esc n m) s = .next t ∧ t.gpr = s.gpr ∧ t.segs = s.segs ∧ t.flags = s.flags ∧ t.mem = s.mem ∧ t.ip = s.ip) ∧
  (∀ (n : BitVec 3) (m : ModRM) (s : State), rmAccessible s .word m.rm = false →
    exec (.esc n m) s = .fault .beyondBackingStore) ∧
  (∀ s : State, exec .wait s = .next s)

/-- O59. Each prefix sets its own field of the prefix state and changes nothing else; the host's reset gives the registers
the values of `resetState`, all zero by default, and clears the hidden state, with memory, the parameters and the record
of the port calls unchanged, and leaves HALTED; the record is the model's own field (notes/assumptions/5.md, DESIGN
CHOICE) (40_decode_dispatch.md R157 to R159, 70_reset_and_hazards.md R500). -/
def Obligations.PrefixesAndReset : Prop :=
  (∀ (i : Instr) (s : State) (p : Prefixes),
    (i, p) ∈ [(.segEs, { s.pfx with segOverride := some .es }), (.segCs, { s.pfx with segOverride := some .cs }),
      (.segSs, { s.pfx with segOverride := some .ss }), (.segDs, { s.pfx with segOverride := some .ds }),
      (.lock, { s.pfx with lockActive := true }), (.repnz, { s.pfx with rep := some .f2 }),
      (.repz, { s.pfx with rep := some .f3 })] →
    exec i s = .next { s with pfx := p }) ∧
  (∀ s : State, (hostReset s).gpr = s.params.resetState.gpr ∧ (hostReset s).segs = s.params.resetState.segs ∧
    (hostReset s).ip = s.params.resetState.ip ∧ (hostReset s).flags = s.params.resetState.flags ∧
    (hostReset s).run = .running ∧ (hostReset s).cache = none ∧ (hostReset s).pfx = .clear ∧ (hostReset s).clocks = 0 ∧
    (hostReset s).mem = s.mem ∧ (hostReset s).params = s.params ∧ (hostReset s).portCalls = s.portCalls) ∧
  (∀ s : State, s.params.resetState = .zero → (∀ r, getR16 (hostReset s) r = 0) ∧ (∀ r, getSeg (hostReset s) r = 0) ∧
    (hostReset s).ip = 0 ∧ (hostReset s).flags = 0)

/-- O60. The clocks, whatever the clock table: a conditional jump, a loop, JCXZ and INTO add `costTrue` exactly when
their condition holds and `costFalse` otherwise; a shift or rotate by CL adds `base + CL * perBit` and its operand's
address cost; a repeated string instruction adds `base + n * perIteration`, `n` the iterations it made, which for MOVS,
STOS and LODS is the CX it began with; the address cost is that of R525's table, 2 more under a segment override and 0
for a register; the costs are those the table gives the handler that the registry binds, one and the same for every
opcode byte and `reg` value it is bound to, and 0 for an empty slot or child; with the accountant off nothing is added.
The opaque table and which handlers are one are the model's (notes/assumptions/6.md, DESIGN CHOICE and DEDUCED), and the
surcharge of an override, which a model may drop, is taken, notes/assumptions/16.md (30_encoding.md R109;
70_reset_and_hazards.md R522 to R528). -/
def Obligations.ClockShapes : Prop :=
  (∀ (bs : List Byte) (i : Instr) (taken : Bool) (d : Byte) (s t : State), s.params.cycleAccounting = true →
    ((∃ c, i = jccInstr c d ∧ taken = cond c s.flags) ∨
      (i, taken) ∈ [(.loop d, decide (s.gpr.cx.toNat ≠ 1)), (.loopz d, decide (s.gpr.cx.toNat ≠ 1) && s.flag .ZF),
        (.loopnz d, decide (s.gpr.cx.toNat ≠ 1) && !s.flag .ZF), (.jcxz d, decide (s.gpr.cx.toNat = 0)),
        (.into, s.flag .OF)]) →
    (charge bs i s t).clocks = t.clocks + handlerCost (handlerOf s.params.registry bs) (if taken then .costTrue else .costFalse)) ∧
  (∀ (bs : List Byte) (k : ShiftOp) (w : Width) (m : ModRM) (s t : State) (cost : ClockCost → Nat),
    s.params.cycleAccounting = true →
    cost = handlerCost (handlerOf s.params.registry bs) →
    (charge bs (shiftInstr k .cl w m) s t).clocks =
      t.clocks + (cost .base + (getR8 s .cl).toNat * cost .perBit) + addressCost s m.rm) ∧
  (∀ (bs : List Byte) (i : Instr) (k : RepKind) (s t : State) (cost : ClockCost → Nat),
    s.params.cycleAccounting = true → i ∈ stringInstrs → s.pfx.rep = some k → exec i s = .next t →
    cost = handlerCost (handlerOf s.params.registry bs) →
    ∃ n : Nat, n + t.gpr.cx.toNat = s.gpr.cx.toNat ∧
      (charge bs i s t).clocks = s.clocks + cost .base + n * cost .perIteration ∧
      (i ∈ [.movsb, .movsw, .stosb, .stosw, .lodsb, .lodsw] → n = s.gpr.cx.toNat)) ∧
  (∀ (s : State) (o : Nat), o = (if s.pfx.segOverride.isSome then 2 else 0) →
    (∀ n, addressCost s (.reg n) = 0) ∧ (∀ v, addressCost s (.direct v) = 6 + o) ∧
    (∀ b, b ∈ [EaBase.si, .di, .bx] → addressCost s (.mem b .none) = 5 + o) ∧
    (∀ b, b ∈ [EaBase.bpDi, .bxSi] → addressCost s (.mem b .none) = 7 + o) ∧
    (∀ b, b ∈ [EaBase.bpSi, .bxDi] → addressCost s (.mem b .none) = 8 + o) ∧
    (∀ d, d ≠ .none →
      (∀ b, b ∈ [EaBase.si, .di, .bp, .bx] → addressCost s (.mem b d) = 9 + o) ∧
      (∀ b, b ∈ [EaBase.bpDi, .bxSi] → addressCost s (.mem b d) = 11 + o) ∧
      (∀ b, b ∈ [EaBase.bpSi, .bxDi] → addressCost s (.mem b d) = 12 + o))) ∧
  (∀ (r : Registry) (op b : Byte) (bs : List Byte) (cost : ClockCost),
    (∀ h, r.slot op = .direct h → handlerCost (handlerOf r (op :: bs)) cost = Config.clockTable (.direct h) cost) ∧
    (r.slot op = .empty → handlerCost (handlerOf r (op :: bs)) cost = 0) ∧
    (∀ cs, r.slot op = .demux cs →
      (∀ c, cs[(b.extractLsb' 3 3).toNat]? = some (some c) →
        handlerCost (handlerOf r (op :: b :: bs)) cost = Config.clockTable (.child c) cost) ∧
      (cs[(b.extractLsb' 3 3).toNat]? = some none → handlerCost (handlerOf r (op :: b :: bs)) cost = 0))) ∧
  (∀ (bs : List Byte) (i : Instr) (s t : State), s.params.cycleAccounting = false → charge bs i s t = t)
end

