-- ==== Sys2Proof/Laws/Encoding.lean ====
section
/-! SUPPORT. The parts of the encoding both ways: register numbers, the Mod-Reg-R/M byte, words and immediates, and
how long each part is (30_encoding.md R111 to R116). -/

namespace Sys2Proof

@[simp] theorem Reg16.ofBits_bits (r : Reg16) : Reg16.ofBits r.bits = r := by cases r <;> rfl
@[simp] theorem Reg16.bits_ofBits (b : BitVec 3) : (Reg16.ofBits b).bits = b := by revert b; decide
@[simp] theorem SegReg.ofBits_bits (r : SegReg) : SegReg.ofBits r.bits = r := by cases r <;> rfl
@[simp] theorem SegReg.bits_ofBits (b : BitVec 2) : (SegReg.ofBits b).bits = b := by revert b; decide
@[simp] theorem EaBase.ofBits_bits (r : EaBase) : EaBase.ofBits r.bits = r := by cases r <;> rfl
@[simp] theorem EaBase.bits_ofBits (b : BitVec 3) : (EaBase.ofBits b).bits = b := by revert b; decide
@[simp] theorem AluOp.ofBits_bits (k : AluOp) : AluOp.ofBits k.bits = k := by cases k <;> rfl
@[simp] theorem AluOp.bits_ofBits (b : BitVec 3) : (AluOp.ofBits b).bits = b := by revert b; decide
@[simp] theorem Cond.ofBits_bits (c : Cond) : Cond.ofBits c.bits = c := by cases c <;> rfl
@[simp] theorem Cond.bits_ofBits (b : BitVec 4) : (Cond.ofBits b).bits = b := by revert b; decide

/-- The fields of a Mod-Reg-R/M byte are the ones it was made of (30_encoding.md R111). -/
theorem modrmByte_mod (mod : BitVec 2) (reg rm : BitVec 3) : (modrmByte mod reg rm).extractLsb' 6 2 = mod := by
  revert mod reg rm; decide
theorem modrmByte_reg (mod : BitVec 2) (reg rm : BitVec 3) : (modrmByte mod reg rm).extractLsb' 3 3 = reg := by
  revert mod reg rm; decide
theorem modrmByte_rm (mod : BitVec 2) (reg rm : BitVec 3) : (modrmByte mod reg rm).extractLsb' 0 3 = rm := by
  revert mod reg rm; decide

/-- A byte is the Mod-Reg-R/M byte of its fields. -/
theorem modrmByte_fields (b : Byte) : modrmByte (b.extractLsb' 6 2) (b.extractLsb' 3 3) (b.extractLsb' 0 3) = b := by
  revert b; decide

@[simp] theorem takeWord_wordBytes (v : Word) (rest : List Byte) : takeWord (wordBytes v ++ rest) = .ok (v, rest) :=
  congrArg (fun x => Except.ok (x, rest)) (Machine.mkWord_halves v)

/-- A word that was taken has the bytes it was taken from. -/
theorem takeWord_ok {bs rest : List Byte} {v : Word} (h : takeWord bs = .ok (v, rest)) : wordBytes v ++ rest = bs := by
  match bs, h with
  | lo :: hi :: r, h => cases h; simp [wordBytes]
  | [_], h => cases h
  | [], h => cases h

@[simp] theorem takeImm_bytes (i : Imm) (rest : List Byte) : takeImm i.width (i.bytes ++ rest) = .ok (i, rest) := by
  cases i with
  | ib v => rfl
  | iw v => simp [Imm.width, Imm.bytes, takeImm, Parse.map]

/-- The r/m operand of the bytes of a well-formed one is that operand (30_encoding.md R112, R115). -/
theorem takeRM_bytes {rm : RM} (h : rm.wf = true) (rest : List Byte) :
    takeRM rm.modBits rm.rmBits (rm.dispBytes ++ rest) = .ok (rm, rest) := by
  cases rm with
  | reg n => simp [takeRM, RM.modBits, RM.rmBits, RM.dispBytes]
  | direct v => simp [takeRM, RM.modBits, RM.rmBits, RM.dispBytes, Parse.map]
  | mem b d =>
    cases d with
    | none => cases b <;> first | rfl | cases h
    | d8 v => simp [takeRM, RM.modBits, RM.rmBits, RM.dispBytes, Parse.map, takeByte]
    | d16 v => simp [takeRM, RM.modBits, RM.rmBits, RM.dispBytes, Parse.map]

/-- A Mod-Reg-R/M byte and its displacement decode to their `reg` field and r/m operand (30_encoding.md R111,
R112). -/
theorem takeModRM_encodeModRM {m : ModRM} (h : m.rm.wf = true) (rest : List Byte) :
    takeModRM (encodeModRM m ++ rest) = .ok (m, rest) := by
  simp [encodeModRM, takeModRM, modrmByte_mod, modrmByte_reg, modrmByte_rm, takeRM_bytes h, Parse.map]

theorem Parse.map_ok {α β : Type} {f : α → β} {p : Parse α} {y : β} {rest : List Byte} (h : p.map f = .ok (y, rest)) :
    ∃ x, p = .ok (x, rest) ∧ y = f x := by
  cases p with
  | error e => cases h
  | ok q => cases h; exact ⟨q.1, rfl, rfl⟩

/-- The r/m operand of the fields `mod` and `rm` has those fields (30_encoding.md R112). -/
theorem takeRM_fields {mod : BitVec 2} {n : BitVec 3} {bs rest : List Byte} {rm : RM}
    (h : takeRM mod n bs = .ok (rm, rest)) : rm.modBits = mod ∧ rm.rmBits = n := by
  have hm : mod = 0 ∨ mod = 1 ∨ mod = 2 ∨ mod = 3 := by clear h; revert mod; decide
  obtain rfl | rfl | rfl | rfl := hm
  · by_cases hn : n = 6
    · subst hn
      obtain ⟨x, -, rfl⟩ := Parse.map_ok (p := takeWord bs) h
      exact ⟨rfl, rfl⟩
    · simp only [takeRM, hn, if_false] at h
      cases h
      exact ⟨rfl, EaBase.bits_ofBits n⟩
  · obtain ⟨x, -, rfl⟩ := Parse.map_ok (p := takeByte bs) h
    exact ⟨rfl, EaBase.bits_ofBits n⟩
  · obtain ⟨x, -, rfl⟩ := Parse.map_ok (p := takeWord bs) h
    exact ⟨rfl, EaBase.bits_ofBits n⟩
  · cases h
    exact ⟨rfl, Reg16.bits_ofBits n⟩

/-- The `mod`, `reg` and `rm` of a Mod-Reg-R/M byte that was taken are bits 7:6, 5:3 and 2:0 of it (41_addressing.md
R181; 10_state.md R43). -/
theorem takeModRM_fields {b : Byte} {bs rest : List Byte} {m : ModRM} (h : takeModRM (b :: bs) = .ok (m, rest)) :
    m.rm.modBits = b.extractLsb' 6 2 ∧ m.reg.bits = b.extractLsb' 3 3 ∧ m.rm.rmBits = b.extractLsb' 0 3 := by
  obtain ⟨x, hx, rfl⟩ := Parse.map_ok h
  exact ⟨(takeRM_fields hx).1, Reg16.bits_ofBits _, (takeRM_fields hx).2⟩

/-! ## Lengths -/

@[simp] theorem wordBytes_length (v : Word) : (wordBytes v).length = 2 := rfl

theorem Imm.bytes_length (i : Imm) : 1 ≤ i.bytes.length ∧ i.bytes.length ≤ 2 := by
  cases i <;> simp [Imm.bytes]

theorem encodeModRM_length (m : ModRM) : 1 ≤ (encodeModRM m).length ∧ (encodeModRM m).length ≤ 3 := by
  obtain ⟨reg, rm⟩ := m
  cases rm with
  | reg n => simp [encodeModRM, RM.dispBytes]
  | direct v => simp [encodeModRM, RM.dispBytes]
  | mem b d => cases d <;> simp [encodeModRM, RM.dispBytes]

end Sys2Proof
end

