-- ==== Sys2Proof/Laws/Decoding.lean ====
section
/-! SUPPORT. What decoding takes from a byte list: the instruction's bytes alone, whatever follows them, and at most 6
(30_encoding.md R110, R116). -/

namespace Sys2Proof

/-- A parser takes at most `n` bytes, and what follows them does not matter to it. -/
def Local {α : Type} (n : Nat) (f : List Byte → Parse α) : Prop :=
  ∀ bs r a, f bs = .ok (a, r) → bs.length ≤ r.length + n ∧ ∀ rest, f (bs ++ rest) = .ok (a, r ++ rest)

theorem Local.mono {α : Type} {n m : Nat} {f : List Byte → Parse α} (h : Local n f) (hm : n ≤ m) : Local m f :=
  fun bs r a e => ⟨by have := (h bs r a e).1; omega, (h bs r a e).2⟩

/-- Taking nothing. -/
theorem Local.ok {α : Type} (n : Nat) (a : α) : Local n (fun bs => .ok (a, bs)) := by
  intro bs r b e
  cases e
  exact ⟨by omega, fun _ => rfl⟩

/-- A parse passed through a function. -/
theorem Local.map {α β : Type} {n : Nat} {f : List Byte → Parse α} (g : α → β) (h : Local n f) :
    Local n (fun bs => (f bs).map g) := by
  intro bs r b e
  cases hf : f bs with
  | error x => simp [hf, Parse.map] at e
  | ok p =>
    simp only [hf, Parse.map, Except.ok.injEq, Prod.mk.injEq] at e
    obtain ⟨rfl, rfl⟩ := e
    obtain ⟨hl, ha⟩ := h bs p.2 p.1 hf
    exact ⟨hl, fun rest => by simp only [ha rest, Parse.map]⟩

/-- One parse after another. -/
theorem Local.bind {α β : Type} {n m : Nat} {f : List Byte → Parse α} {g : α → List Byte → Parse β}
    {F : List Byte → Parse β} (hf : Local n f) (hg : ∀ a, Local m (g a))
    (hok : ∀ bs a r, f bs = .ok (a, r) → F bs = g a r) (herr : ∀ bs e, f bs = .error e → F bs = .error e) :
    Local (n + m) F := by
  intro bs r b e
  cases h : f bs with
  | error x => rw [herr bs x h] at e; cases e
  | ok p =>
    rw [hok bs p.1 p.2 h] at e
    obtain ⟨hl, ha⟩ := hf bs p.2 p.1 h
    obtain ⟨kl, ka⟩ := hg p.1 p.2 r b e
    exact ⟨by omega, fun rest => by rw [hok _ _ _ (ha rest), ka rest]⟩

theorem local_takeByte : Local 1 takeByte
  | [], _, _, e => by cases e
  | _ :: _, _, _, e => by cases e; exact ⟨by simp, fun _ => rfl⟩

theorem local_takeWord : Local 2 takeWord
  | [], _, _, e => by cases e
  | [_], _, _, e => by cases e
  | _ :: _ :: _, _, _, e => by cases e; exact ⟨by simp, fun _ => rfl⟩

theorem local_takeImm (w : Width) : Local 2 (takeImm w) := by
  cases w
  · exact (local_takeByte.map _).mono (by omega)
  · exact local_takeWord.map _

theorem local_takeFar : Local 4 takeFar :=
  local_takeWord.bind (fun off => local_takeWord.map (fun seg => (off, seg)))
    (fun bs a r h => by simp only [takeFar, h]) (fun bs e h => by simp only [takeFar, h])

theorem local_takeGrpImm (op : Byte) : Local 2 (takeGrpImm op) := by
  unfold takeGrpImm
  split
  · exact (local_takeByte.map _).mono (by omega)
  · exact local_takeWord.map _
  · exact (local_takeByte.map _).mono (by omega)
  · exact (local_takeByte.map _).mono (by omega)

theorem local_takeRM (mod : BitVec 2) (rm : BitVec 3) : Local 2 (takeRM mod rm) := by
  unfold takeRM
  split
  · by_cases h : rm = 6
    · simpa only [h, if_true] using local_takeWord.map _
    · simpa only [h, if_false] using Local.ok 2 _
  · exact (local_takeByte.map _).mono (by omega)
  · exact local_takeWord.map _
  · exact Local.ok 2 _

theorem local_takeModRM : Local 3 takeModRM
  | [], _, _, e => by cases e
  | b :: bs, r, a, e => by
    obtain ⟨hl, ha⟩ := (local_takeRM _ _).map _ bs r a e
    exact ⟨by simp; omega, ha⟩

/-- A direct handler takes at most 5 bytes after the opcode. -/
theorem local_decodeDirect (h : Handler) (op : Byte) : Local 5 (decodeDirect h op) := by
  cases h <;>
    first
    | exact Local.ok 5 _
    | exact (local_takeByte.map _).mono (by omega)
    | exact (local_takeWord.map _).mono (by omega)
    | exact ((local_takeImm _).map _).mono (by omega)
    | exact (local_takeFar.map _).mono (by omega)
    | exact (local_takeModRM.map _).mono (by omega)

/-- A demux child takes at most 2 bytes after the displacement. -/
theorem local_decodeChild (c : Child) (op : Byte) (m : ModRM) : Local 2 (decodeChild c op m) := by
  cases c <;>
    first
    | exact Local.ok 2 _
    | exact (local_takeGrpImm _).map _
    | exact (local_takeImm _).map _

/-- A slot takes at most 5 bytes after the opcode (30_encoding.md R116). -/
theorem local_decodeSlot (slot : Slot Handler Child) (op : Byte) : Local 5 (decodeSlot slot op) := by
  cases slot with
  | empty => exact Local.ok 5 _
  | direct h => exact local_decodeDirect h op
  | demux cs =>
    refine local_takeModRM.bind (m := 2) (g := fun m r =>
      match cs.getD m.reg.bits.toNat none with
      | none => .ok (.emptyChild op m, r)
      | some c => decodeChild c op m r) (fun m => ?_) (fun bs a r h => by
        simp only [decodeSlot, h] <;> cases cs.getD a.reg.bits.toNat none <;> rfl)
      (fun bs e h => by simp only [decodeSlot, h])
    cases cs.getD m.reg.bits.toNat none with
    | none => exact Local.ok 2 _
    | some c => exact local_decodeChild c op m

/-- The decoder takes at most 6 bytes, and what follows the instruction does not matter to it. -/
theorem local_decodeWith (t : Registry) : Local 6 (decodeWith t)
  | [], _, _, e => by cases e
  | op :: bs, r, a, e => by
    obtain ⟨hl, ha⟩ := local_decodeSlot (t.slot op) op bs r a e
    exact ⟨by simp; omega, ha⟩

theorem decodeWith_length {t : Registry} {bs : List Byte} {i : Instr} (h : decodeWith t bs = .ok (i, [])) :
    bs.length ≤ 6 := by
  simpa using (local_decodeWith t bs [] i h).1

theorem decodeWith_append {t : Registry} {bs : List Byte} {i : Instr} (rest : List Byte)
    (h : decodeWith t bs = .ok (i, [])) : decodeWith t (bs ++ rest) = .ok (i, rest) :=
  (local_decodeWith t bs [] i h).2 rest

@[simp] theorem aluRmRegInstr_modrm (k : AluOp) (d : Dir) (w : Width) (m : ModRM) :
    (aluRmRegInstr k d w m).modrm? = some m := by cases k <;> rfl
@[simp] theorem aluAccImmInstr_modrm (k : AluOp) (i : Imm) : (aluAccImmInstr k i).modrm? = none := by cases k <;> rfl
@[simp] theorem aluRmImmInstr_modrm (k : AluOp) (m : ModRM) (i : GrpImm) : (aluRmImmInstr k m i).modrm? = some m := by
  cases k <;> rfl
@[simp] theorem shiftInstr_modrm (k : ShiftOp) (c : ShiftCount) (w : Width) (m : ModRM) :
    (shiftInstr k c w m).modrm? = some m := by cases k <;> rfl
@[simp] theorem jccInstr_modrm (c : Cond) (d : Byte) : (jccInstr c d).modrm? = none := by cases c <;> rfl
@[simp] theorem segInstr_modrm (r : SegReg) : (segInstr r).modrm? = none := by cases r <;> rfl
@[simp] theorem xchgAccInstr_modrm (r : Reg16) : (xchgAccInstr r).modrm? = none := by cases r <;> rfl
theorem byWidth_modrm (op : Byte) {b w : Instr} (hb : b.modrm? = none) (hw : w.modrm? = none) :
    (byWidth op b w).modrm? = none := by
  unfold byWidth
  cases opWidth op
  · exact hb
  · exact hw

/-- A direct handler's instruction has the Mod-Reg-R/M byte that follows the opcode, or none. -/
theorem decodeDirect_modrm {h : Handler} {op : Byte} {bs rest : List Byte} {i : Instr} {m : ModRM}
    (hd : decodeDirect h op bs = .ok (i, rest)) (hm : i.modrm? = some m) : takeModRM bs = .ok (m, rest) := by
  cases h <;> simp only [decodeDirect] at hd <;>
    first
    | cases hd; cases hm
    | obtain ⟨x, hx, rfl⟩ := Parse.map_ok hd; cases hm <;> exact hx
    | obtain ⟨x, hx, rfl⟩ := Parse.map_ok hd; simp only [aluRmRegInstr_modrm, Option.some.injEq] at hm; exact hm ▸ hx
    | obtain ⟨x, hx, rfl⟩ := Parse.map_ok hd; simp at hm
    | cases hd; rw [byWidth_modrm op rfl rfl] at hm; cases hm
    | cases hd; simp at hm

/-- A demux child's instruction has the Mod-Reg-R/M byte it received, whatever its `reg` field. -/
theorem decodeChild_modrm {c : Child} {op : Byte} {m : ModRM} {bs rest : List Byte} {i : Instr}
    (h : decodeChild c op m bs = .ok (i, rest)) : i.modrm? = some m := by
  cases c <;> simp only [decodeChild] at h <;>
    first
    | cases h; rfl
    | cases h; simp
    | obtain ⟨x, -, rfl⟩ := Parse.map_ok h; rfl
    | obtain ⟨x, -, rfl⟩ := Parse.map_ok h; simp

/-- Whatever the registry binds, the Mod-Reg-R/M byte of a decoded instruction is the byte after its opcode, with its
three fields (10_state.md R43, 41_addressing.md R181). -/
theorem decodeWith_modrm {t : Registry} {bs rest : List Byte} {i : Instr} {m : ModRM}
    (h : decodeWith t bs = .ok (i, rest)) (hm : i.modrm? = some m) :
    ∃ b, bs[1]? = some b ∧ m.rm.modBits = b.extractLsb' 6 2 ∧ m.reg.bits = b.extractLsb' 3 3 ∧
      m.rm.rmBits = b.extractLsb' 0 3 := by
  match bs, h with
  | op :: bs, h =>
    have hb : ∃ r, takeModRM bs = .ok (m, r) := by
      simp only [decodeWith, decodeSlot] at h
      split at h
      · cases h; cases hm
      · exact ⟨_, decodeDirect_modrm h hm⟩
      · split at h
        · cases h
        · next m' r hr =>
          have hi : i.modrm? = some m' := by
            split at h
            · cases h; rfl
            · exact decodeChild_modrm h
          rw [hm] at hi
          cases hi
          exact ⟨r, hr⟩
    obtain ⟨r, hr⟩ := hb
    match bs, hr with
    | b :: _, hr => exact ⟨b, rfl, takeModRM_fields hr⟩

/-- The decoder over the opcode map, one slot at a time. -/
theorem decode_cons (op : Byte) (bs : List Byte) : decode (op :: bs) = decodeSlot (registry op) op bs := rfl

end Sys2Proof
end

