-- ==== Sys2Proof/Laws/Fetch.lean ====
section
/-! SUPPORT. What the fetch reads, and what one dispatch does once its instruction is known. -/

namespace Sys2Proof.Machine

open Sys2Proof

/-- Bytes that lie at an offset of the code segment are at the front of the fetch window there. -/
theorem fetchWindow_front (s : State) (bs : List Byte) (n : Nat) (off : Word) (hn : bs.length ≤ n)
    (h : ∀ k, ∀ hk : k < bs.length, readByte s (lin s.segs.cs (off + BitVec.ofNat 16 k)) = .ok bs[k]) :
    ∃ rest, fetchWindow s n off = bs ++ rest := by
  induction bs generalizing n off with
  | nil => exact ⟨_, rfl⟩
  | cons b bs ih =>
    cases n with
    | zero => exact absurd hn (by simp)
    | succ n =>
      have h0 := h 0 (by simp)
      simp only [BitVec.add_zero, List.getElem_cons_zero] at h0
      obtain ⟨rest, hr⟩ := ih n (off + 1) (by simpa using hn) (by
        intro k hk
        have := h (k + 1) (by simpa using hk)
        rw [List.getElem_cons_succ, BitVec.ofNat_add, BitVec.add_comm (BitVec.ofNat 16 k), ← BitVec.add_assoc] at this
        exact this)
      refine ⟨rest, ?_⟩
      rw [fetchWindow, h0, hr]
      rfl

/-- The same at CS:IP. -/
theorem fetchWindow_bytesAtIp {s : State} {bs : List Byte} (hn : bs.length ≤ longestInstr) (h : bytesAtIp s bs) :
    ∃ rest, fetchWindow s longestInstr s.ip = bs ++ rest :=
  fetchWindow_front s bs longestInstr s.ip hn h

/-- The fetched instruction is what the window's bytes decode to, and its bytes are what the decoder took. -/
theorem fetchInstr_of_window {s : State} {bs rest : List Byte} {i : Instr}
    (hw : fetchWindow s longestInstr s.ip = bs ++ rest)
    (hd : decodeWith s.params.registry (bs ++ rest) = .ok (i, rest)) : fetchInstr s = .ok (i, bs) := by
  unfold fetchInstr
  simp only [hw, hd, List.length_append, Nat.add_sub_cancel_right, List.take_left']

/-- What the bytes at CS:IP are an instruction's says of the fetch. -/
theorem fetchInstr_of_fetches {s : State} {i : Instr} {bs : List Byte} (h : fetches s i bs) :
    fetchInstr s = .ok (i, bs) := by
  obtain ⟨rest, hw⟩ := fetchWindow_bytesAtIp (decodeWith_length h.2) h.1
  exact fetchInstr_of_window hw (by simpa using decodeWith_append rest h.2)

/-- A dispatch whose fetch is known. -/
theorem dispatch_of_fetch {s : State} {i : Instr} {bs : List Byte} (n : Nat) (h : fetchInstr s = .ok (i, bs)) :
    dispatch (n + 1) s = runInstr i bs (dispatch n) s := by
  rw [dispatch, h]

@[simp] theorem charge_gpr (bs : List Byte) (i : Instr) (s t : State) : (charge bs i s t).gpr = t.gpr := by
  unfold charge; split <;> rfl
@[simp] theorem charge_segs (bs : List Byte) (i : Instr) (s t : State) : (charge bs i s t).segs = t.segs := by
  unfold charge; split <;> rfl
@[simp] theorem charge_ip (bs : List Byte) (i : Instr) (s t : State) : (charge bs i s t).ip = t.ip := by
  unfold charge; split <;> rfl
@[simp] theorem charge_flags (bs : List Byte) (i : Instr) (s t : State) : (charge bs i s t).flags = t.flags := by
  unfold charge; split <;> rfl
@[simp] theorem charge_mem (bs : List Byte) (i : Instr) (s t : State) : (charge bs i s t).mem = t.mem := by
  unfold charge; split <;> rfl
@[simp] theorem charge_run (bs : List Byte) (i : Instr) (s t : State) : (charge bs i s t).run = t.run := by
  unfold charge; split <;> rfl
@[simp] theorem charge_pfx (bs : List Byte) (i : Instr) (s t : State) : (charge bs i s t).pfx = t.pfx := by
  unfold charge; split <;> rfl
@[simp] theorem charge_params (bs : List Byte) (i : Instr) (s t : State) : (charge bs i s t).params = t.params := by
  unfold charge; split <;> rfl
@[simp] theorem charge_draws (bs : List Byte) (i : Instr) (s t : State) : (charge bs i s t).draws = t.draws := by
  unfold charge; split <;> rfl
@[simp] theorem charge_portCalls (bs : List Byte) (i : Instr) (s t : State) : (charge bs i s t).portCalls = t.portCalls := by
  unfold charge; split <;> rfl

/-! ## Placing bytes -/

/-- Placing bytes changes memory alone, and keeps its canonical form. -/
theorem placeBytes_spec (bs : List Byte) (off : Word) (s : State) :
    ∃ m, placeBytes bs off s = setMem s m ∧ (s.mem.wf = true → m.wf = true) := by
  induction bs generalizing off s with
  | nil => exact ⟨s.mem, rfl, id⟩
  | cons b bs ih =>
    unfold placeBytes
    cases hk : physical s.params (lin s.segs.cs off) with
    | none => exact ih (off + 1) s
    | some k =>
      obtain ⟨m, e, hm⟩ := ih (off + 1) (setMem s (Memory.write s.mem k b))
      exact ⟨m, e, fun hw => hm (Memory.wf_write _ hw (physical_lt hk))⟩

/-- Placing an instruction keeps the canonical form of memory. -/
theorem withFetchWord_mem_wf {s : State} (nbits w : Nat) (h : s.mem.wf = true) :
    (s.withFetchWord nbits w).mem.wf = true := by
  obtain ⟨m, e, hm⟩ := placeBytes_spec (tableWordBytes nbits w) s.ip s
  show (placeBytes (tableWordBytes nbits w) s.ip s).mem.wf = true
  rw [e]
  exact hm h

/-- Memory is in its canonical form after reset. -/
theorem reset_mem_wf : State.reset.mem.wf = true := rfl

end Sys2Proof.Machine
end

