-- ==== Sys2Proof/Laws/Flags.lean ====
section
/-! SUPPORT. What each flag helper says of each flag (42_flags.md), in terms of the masked result. -/

namespace Sys2Proof.Machine

open Sys2Proof

theorem masked_lt (w : Width) (r : Int) : masked w r < 2 ^ bits w := by
  have h1 := Int.emod_nonneg r (b := 2 ^ bits w) (by positivity)
  have h2 := Int.emod_lt_of_pos r (b := 2 ^ bits w) (by positivity)
  unfold masked
  zify
  rw [Int.toNat_of_nonneg h1]
  exact_mod_cast h2

/-- The masked result of a number that fits. -/
theorem masked_of_lt {w : Width} {n : Nat} (h : n < 2 ^ bits w) : masked w (n : Int) = n := by
  unfold masked
  rw [Int.emod_eq_of_lt (by positivity) (by exact_mod_cast h), Int.toNat_natCast]

/-- The masked result of a sum is the sum modulo `2^w`. -/
theorem masked_natCast (w : Width) (n : Nat) : masked w (n : Int) = n % 2 ^ bits w := by
  unfold masked
  have h : ((n : Int) % 2 ^ bits w) = ((n % 2 ^ bits w : Nat) : Int) := by push_cast; rfl
  rw [h, Int.toNat_natCast]

theorem msb_eq {w : Width} {v : Nat} (h : v < 2 ^ bits w) : msb w v = decide (2 ^ (bits w - 1) ≤ v) := by
  have e : bits w - 1 + 1 = bits w := by cases w <;> rfl
  have hp : 2 ^ bits w = 2 * 2 ^ (bits w - 1) := by rw [← e, pow_succ]; simp; omega
  unfold msb
  rw [Nat.testBit_eq_decide_div_mod_eq]
  congr 1
  apply propext
  rw [hp] at h
  have hd : v / 2 ^ (bits w - 1) < 2 := Nat.div_lt_of_lt_mul (by omega)
  constructor
  · intro h1
    by_contra hc
    rw [Nat.div_eq_of_lt (by omega)] at h1
    omega
  · intro h1
    have := (Nat.le_div_iff_mul_le (by positivity : 0 < 2 ^ (bits w - 1))).2 ((Nat.one_mul _).le.trans h1)
    omega

/-- The count of 1 bits of R212 is that of the low byte. -/
theorem ones_eight (v : Nat) : ones v 8 = lowOnes v := by
  have h : ∀ n, ones v n = ((List.range n).filter (fun k => v.testBit k)).length := by
    intro n
    induction n with
    | zero => rfl
    | succ n ih =>
      rw [List.range_succ, List.filter_append, List.length_append, ← ih, ones]
      cases hv : v.testBit n <;> simp [hv, Nat.add_comm]
  exact h 8

/-- Numbers with the same low byte have the same count. -/
theorem lowOnes_mod (v : Nat) : lowOnes (v % 256) = lowOnes v := by
  unfold lowOnes
  congr 1
  apply List.filter_congr
  intro k hk
  have hk' : k < 8 := List.mem_range.1 hk
  show (v % 2 ^ 8).testBit k = v.testBit k
  rw [Nat.testBit_mod_two_pow]
  simp [hk']

theorem parity8_eq (v : Nat) : parity8 v = decide (lowOnes v % 2 = 0) := by
  unfold parity8
  rw [ones_eight]
  rfl

/-- The low byte of the masked result is that of the unmasked one (42_flags.md R211, R212). -/
theorem parity8_masked (w : Width) (r : Int) : parity8 (r % 256).toNat = decide (lowOnes (masked w r) % 2 = 0) := by
  have h : (r % 256).toNat = masked w r % 256 := by
    unfold masked
    cases w <;> simp only [bits] <;> omega
  rw [parity8_eq, h, lowOnes_mod]

/-- PSZ sets ZF, SF and PF by the masked result (42_flags.md R211). -/
theorem pszHolds_psz (f : Word) (w : Width) (r : Int) : pszHolds (psz f w r) w (masked w r) := by
  refine ⟨?_, ?_, ?_⟩
  · simp only [psz, getFlag_setFlag, reduceCtorEq, if_false, if_true]
    rfl
  · simp only [psz, getFlag_setFlag, reduceCtorEq, if_false, if_true]
    exact msb_eq (masked_lt w r)
  · simp only [psz, getFlag_setFlag, if_true]
    exact parity8_masked w r

/-- PSZ leaves the other flags (42_flags.md R211). -/
theorem getFlag_psz_ne (f : Word) (w : Width) (r : Int) {g : Flag} (h : g ≠ .ZF) (h' : g ≠ .SF) (h'' : g ≠ .PF) :
    getFlag (psz f w r) g = getFlag f g := by
  unfold psz
  rw [getFlag_setFlag_ne _ _ h'', getFlag_setFlag_ne _ _ h', getFlag_setFlag_ne _ _ h]

/-- Writing another flag keeps what PSZ said. -/
theorem pszHolds_setFlag {f : Word} {w : Width} {m : Nat} (h : pszHolds f w m) {g : Flag} (b : Bool)
    (hz : Flag.ZF ≠ g) (hs : Flag.SF ≠ g) (hp : Flag.PF ≠ g) : pszHolds (setFlag f g b) w m := by
  unfold pszHolds
  rw [getFlag_setFlag_ne _ _ hz, getFlag_setFlag_ne _ _ hs, getFlag_setFlag_ne _ _ hp]
  exact h

theorem drawFlags_nil (n : Nat) (f : Word) : drawFlags n [] f = f := rfl

/-- A draw leaves the flags that are not drawn (42_flags.md R224). -/
theorem getFlag_drawFlags_ne (n : Nat) {gs : List Flag} {g : Flag} (f : Word) (h : g ∉ gs) :
    getFlag (drawFlags n gs f) g = getFlag f g := by
  induction gs generalizing f with
  | nil => rfl
  | cons x gs ih =>
    rw [drawFlags, ih _ (fun e => h (List.mem_cons_of_mem _ e)),
      getFlag_setFlag_ne _ _ (fun e => h (List.mem_cons.2 (.inl e)))]

theorem pszHolds_drawFlags {n : Nat} {gs : List Flag} {f : Word} {w : Width} {m : Nat} (h : pszHolds f w m)
    (hz : Flag.ZF ∉ gs) (hs : Flag.SF ∉ gs) (hp : Flag.PF ∉ gs) : pszHolds (drawFlags n gs f) w m := by
  unfold pszHolds
  rw [getFlag_drawFlags_ne n f hz, getFlag_drawFlags_ne n f hs, getFlag_drawFlags_ne n f hp]
  exact h

end Sys2Proof.Machine
end

