-- ==== Sys2Proof/Laws/Frame.lean ====
section
/-! SUPPORT. What the shared operations leave unchanged: one frame lemma for each, with the registers, segment
registers, flags and cells it may write. -/

namespace Sys2Proof.Machine

open Sys2Proof


/-- Everything outside the named destinations is as before: registers, halves, segment registers, flag bits and
bytes of memory. -/
structure Frame (s t : State) (D : List Dest) (S : List SegReg) (F : List Flag) (C : List Nat) : Prop where
  r16 : ∀ q, (∀ d ∈ D, slotOf d.1 d.2 ≠ q) → getR16 t q = getR16 s q
  r8 : ∀ q, (∀ d ∈ D, Dest.touches d q = false) → getR8 t q = getR8 s q
  seg : ∀ q, q ∉ S → getSeg t q = getSeg s q
  fl : ∀ k, k < 16 → (∀ g ∈ F, flagBit g ≠ k) → t.flags.getLsbD k = s.flags.getLsbD k
  mem : ∀ a, a ∉ C → Memory.read t.mem a = Memory.read s.mem a

theorem Frame.refl (s : State) : Frame s s [] [] [] [] := ⟨fun _ _ => rfl, fun _ _ => rfl, fun _ _ => rfl, fun _ _ _ => rfl, fun _ _ => rfl⟩

/-- Frames compose. -/
theorem Frame.trans {s t u : State} {D S F C D' S' F' C'} (h : Frame s t D S F C) (h' : Frame t u D' S' F' C') :
    Frame s u (D ++ D') (S ++ S') (F ++ F') (C ++ C') :=
  ⟨fun q hq => (h'.r16 q fun d hd => hq d (List.mem_append_right _ hd)).trans (h.r16 q fun d hd => hq d (List.mem_append_left _ hd)),
   fun q hq => (h'.r8 q fun d hd => hq d (List.mem_append_right _ hd)).trans (h.r8 q fun d hd => hq d (List.mem_append_left _ hd)),
   fun q hq => (h'.seg q fun d => hq (List.mem_append_right _ d)).trans (h.seg q fun d => hq (List.mem_append_left _ d)),
   fun k hk hq => (h'.fl k hk fun d hd => hq d (List.mem_append_right _ hd)).trans (h.fl k hk fun d hd => hq d (List.mem_append_left _ hd)),
   fun q hq => (h'.mem q fun d => hq (List.mem_append_right _ d)).trans (h.mem q fun d => hq (List.mem_append_left _ d))⟩

/-- A frame may name more than is written. -/
theorem Frame.weaken {s t : State} {D S F C D' S' F' C'} (h : Frame s t D S F C) (hD : ∀ d ∈ D, d ∈ D') (hS : ∀ d ∈ S, d ∈ S')
    (hF : ∀ d ∈ F, d ∈ F') (hC : ∀ d ∈ C, d ∈ C') : Frame s t D' S' F' C' :=
  ⟨fun q hq => h.r16 q fun d hd => hq d (hD d hd), fun q hq => h.r8 q fun d hd => hq d (hD d hd),
   fun q hq => h.seg q fun d => hq (hS _ d), fun k hk hq => h.fl k hk fun d hd => hq d (hF d hd), fun q hq => h.mem q fun d => hq (hC _ d)⟩

theorem frame_setReg (s : State) (w : Width) (r : Reg16) (v : Word) : Frame s (setReg s w r v) [(w, r)] [] [] [] :=
  ⟨fun q hq => getR16_setReg_ne s w v (fun e => hq _ (List.mem_singleton.2 rfl) e.symm),
   fun q hq => by
    have := hq _ (List.mem_singleton.2 rfl)
    cases w with
    | byte => exact getR8_setR8_ne s _ (by intro e; simp [Dest.touches, e] at this)
    | word =>
      have h : byteSlot q ≠ r := by intro e; simp [Dest.touches, e] at this
      show getR8 (setR16 s r v) q = _
      unfold getR8; rw [getR16_setR16_ne s v h],
   fun q _ => getSeg_setReg s w r v q, fun _ _ _ => by simp, fun _ _ => by simp⟩

theorem frame_setR16 (s : State) (r : Reg16) (v : Word) : Frame s (setR16 s r v) [(.word, r)] [] [] [] := frame_setReg s .word r v
theorem frame_setSeg (s : State) (r : SegReg) (v : Word) : Frame s (setSeg s r v) [] [r] [] [] :=
  ⟨fun _ _ => rfl, fun _ _ => rfl, fun q hq => getSeg_setSeg_ne s v (by simpa using hq), fun _ _ _ => rfl, fun _ _ => rfl⟩
theorem frame_same {s t : State} (h1 : t.gpr = s.gpr) (h2 : t.segs = s.segs) (h3 : t.flags = s.flags) (h4 : t.mem = s.mem) : Frame s t [] [] [] [] :=
  ⟨fun _ _ => getR16_congr h1 _, fun _ _ => getR8_congr h1 _, fun _ _ => getSeg_congr h2 _, fun _ _ _ => by rw [h3], fun _ _ => by rw [h4]⟩
theorem frame_memo {s : State} {m : Memory} {C} (h : ∀ b, b ∉ C → Memory.read m b = Memory.read s.mem b) : Frame s (setMem s m) [] [] [] C :=
  ⟨fun _ _ => rfl, fun _ _ => rfl, fun _ _ => rfl, fun _ _ _ => rfl, h⟩
theorem frame_flags {s t : State} {F : List Flag} (h1 : t.gpr = s.gpr) (h2 : t.segs = s.segs) (h4 : t.mem = s.mem)
   (h : ∀ k, k < 16 → (∀ g ∈ F, flagBit g ≠ k) → t.flags.getLsbD k = s.flags.getLsbD k) : Frame s t [] [] F [] :=
  ⟨fun _ _ => getR16_congr h1 _, fun _ _ => getR8_congr h1 _, fun _ _ => getSeg_congr h2 _, h, fun _ _ => by rw [h4]⟩

/-- Two FLAGS values agree outside some flags. -/
def FlagsOnly (F : List Flag) (f g : Word) : Prop := ∀ k, k < 16 → (∀ x ∈ F, flagBit x ≠ k) → g.getLsbD k = f.getLsbD k
theorem FlagsOnly.refl (F) (f : Word) : FlagsOnly F f f := fun _ _ _ => rfl
theorem FlagsOnly.set {F f g} (x : Flag) (b : Bool) (h : FlagsOnly F f g) (hx : x ∈ F) : FlagsOnly F f (setFlag g x b) := by
  intro k hk hF
  rw [getLsbD_setFlag _ _ _ _ hk, if_neg (fun e => hF x hx e.symm)]
  exact h k hk hF
theorem FlagsOnly.trans {F f g h} (a : FlagsOnly F f g) (b : FlagsOnly F g h) : FlagsOnly F f h := fun k hk hF => (b k hk hF).trans (a k hk hF)
theorem FlagsOnly.mono {F F' f g} (h : FlagsOnly F f g) (hF : ∀ x ∈ F, x ∈ F') : FlagsOnly F' f g := fun k hk hh => h k hk (fun x hx => hh x (hF x hx))
theorem psz_only {f w r} : FlagsOnly [.PF, .ZF, .SF] f (psz f w r) := by
  unfold psz; exact (((FlagsOnly.refl _ f).set _ _ (by simp)).set _ _ (by simp)).set _ _ (by simp)
theorem flagsAdd_only {f w a b} : FlagsOnly statusFlags f (flagsAdd f w a b) := by
  unfold flagsAdd pszc
  exact (((psz_only.mono (by simp [statusFlags])).set _ _ (by simp [statusFlags])).set _ _ (by simp [statusFlags])).set _ _ (by simp [statusFlags])
theorem flagsSub_only {f w a b} : FlagsOnly statusFlags f (flagsSub f w a b) := by
  unfold flagsSub pszc
  exact (((psz_only.mono (by simp [statusFlags])).set _ _ (by simp [statusFlags])).set _ _ (by simp [statusFlags])).set _ _ (by simp [statusFlags])
theorem nc_only {f g : Word} (h : FlagsOnly statusFlags f g) : FlagsOnly [.PF, .AF, .ZF, .SF, .OF] f (setFlag g .CF (getFlag f .CF)) := by
  intro k hk hF
  rw [getLsbD_setFlag _ _ _ _ hk]
  split
  · next e => rw [e]; rfl
  · next e =>
    apply h k hk
    intro x hx
    cases x <;> simp [statusFlags] at hx <;> first | exact fun c => e c.symm | exact hF _ (by simp)
theorem logic_only {f w r} : FlagsOnly [.CF, .PF, .ZF, .SF, .OF] f (flagsLogic f w r) := by
  unfold flagsLogic
  exact ((psz_only.mono (by simp)).set _ _ (by simp)).set _ _ (by simp)
theorem draw_only {F n gs f} (h : ∀ g ∈ gs, g ∈ F) : FlagsOnly F f (drawFlags n gs f) := by
  induction gs generalizing f with
  | nil => exact FlagsOnly.refl _ _
  | cons g gs ih =>
    unfold drawFlags
    exact ((FlagsOnly.refl F f).set g _ (h g (by simp))).trans (ih (fun x hx => h x (by simp [hx])))

theorem frame_setFlags {s : State} {F : List Flag} {f : Word} (h : FlagsOnly F s.flags f) : Frame s (setFlags s f) [] [] F [] :=
  frame_flags rfl rfl rfl h
theorem frame_setDrawn {s : State} {F : List Flag} {f : Word} (h : FlagsOnly F s.flags f) : Frame s (setDrawnFlags s f) [] [] F [] :=
  frame_flags rfl rfl rfl h

theorem frame_writeRM {s u t : State} {w : Width} {reg : BitVec 3} {rm : RM} {v x : Word} (hp : u.params = s.params)
    (h : writeRM (cacheOf s w reg rm v) x u = .ok t) : Frame u t (rmDest w rm) [] [] (rmCells s w rm) := by
  rcases writeRM_spec hp h with ⟨n, rfl, rfl⟩ | ⟨_, m, rfl, _, hm⟩
  · exact (frame_setReg u w n x)
  · exact (frame_memo hm).weaken (by simp) (by simp) (by simp) (by simp)
theorem frame_push {s t : State} {v : Word} (h : push16 v s = .ok t) : Frame s t [spDest] [] [] (stackCells s (s.gpr.sp - 2)) := by
  obtain ⟨m, rfl, _, hm⟩ := push16_spec h
  exact (frame_setR16 s .sp _).trans (frame_memo (s := setR16 s .sp _) hm)
theorem frame_pop {s t : State} {v : Word} (h : pop16 s = .ok (v, t)) : Frame s t [spDest] [] [] [] := by
  obtain ⟨_, rfl⟩ := pop16_ok.1 h
  exact frame_setR16 s .sp _
theorem sub22 (a : Word) : a - 2 - 2 = a - 4 := by bv_omega
theorem sub222 (a : Word) : a - 2 - 2 - 2 = a - 6 := by bv_omega

theorem frame_interrupt {s t : State} {n} (h : interrupt n s = .ok t) : Frame s t [spDest] [.cs] [.TF, .IF] (interruptCells s) := by
  obtain ⟨m, ip, cs, rfl, _, hm⟩ := interrupt_spec h
  refine ⟨fun q hq => (frame_setR16 s .sp (s.gpr.sp - 2 - 2 - 2)).r16 q hq, fun q hq => (frame_setR16 s .sp (s.gpr.sp - 2 - 2 - 2)).r8 q hq, ?_, ?_, ?_⟩
  · intro q hq; exact getSeg_setSeg_ne s cs (by simpa using hq)
  · exact ((FlagsOnly.refl [.TF, .IF] s.flags).set _ _ (by simp)).set _ _ (by simp)
  · intro a ha
    unfold interruptCells at ha
    rw [List.mem_append, List.mem_append, not_or, not_or] at ha
    exact hm a ha.1.1 (by rw [sub22]; exact ha.1.2) (by rw [sub222]; exact ha.2)

theorem frame_withCache (s : State) (c) : Frame s (withCache s c) [] [] [] [] := frame_same rfl rfl rfl rfl

theorem bind_ok {α β : Type} {x : Res α} {f : α → Res β} {b : β} (h : (x >>= f) = .ok b) : ∃ a, x = .ok a ∧ f a = .ok b := by
  cases x with
  | error e => cases h
  | ok a => exact ⟨a, rfl, h⟩

/-- The flags an ALU operation writes. -/
def aluFlags (k : AluOp) : List Flag := match k with
  | .or | .and | .xor => [.CF, .PF, .ZF, .SF, .OF]
  | _ => statusFlags

theorem alu_only {k mode f w a b} : FlagsOnly (aluFlags k) f (alu k mode f w a b).2 := by
  cases k with
  | add => exact flagsAdd_only
  | or => exact logic_only
  | and => exact logic_only
  | xor => exact logic_only
  | sub => exact flagsSub_only
  | cmp => exact flagsSub_only
  | adc =>
    simp only [alu, adc, aluFlags]
    split
    · cases mode
      · exact flagsAdd_only.trans flagsAdd_only
      · exact (flagsAdd_only.trans flagsAdd_only).set _ _ (by simp [statusFlags])
      · unfold pszc; exact (((psz_only.mono (by simp [statusFlags])).set _ _ (by simp [statusFlags])).set _ _ (by simp [statusFlags])).set _ _ (by simp [statusFlags])
    · exact flagsAdd_only
  | sbb =>
    simp only [alu, sbb, aluFlags]
    split
    · cases mode
      · exact flagsSub_only.trans flagsSub_only
      · exact (flagsSub_only.trans flagsSub_only).set _ _ (by simp [statusFlags])
      · unfold pszc; exact (((psz_only.mono (by simp [statusFlags])).set _ _ (by simp [statusFlags])).set _ _ (by simp [statusFlags])).set _ _ (by simp [statusFlags])
    · exact flagsSub_only

/-- The destination of an ALU operation: none for CMP. -/
def aluDest (k : AluOp) (l : List Dest) : List Dest := if k = .cmp then [] else l
/-- The cells an ALU operation writes: none for CMP. -/
def aluCells (k : AluOp) (l : List Nat) : List Nat := if k = .cmp then [] else l

theorem frame_aluApply {k w dst src write} {s t : State} {D C} (h : aluApply k w dst src write s = .ok t)
    (hw : ∀ v u, write v s = .ok u → Frame s u D [] [] C) : Frame s t (aluDest k D) [] (aluFlags k) (aluCells k C) := by
  unfold aluApply at h
  obtain ⟨u, hu, h⟩ := bind_ok h
  cases h
  have hf : FlagsOnly (aluFlags k) u.flags (alu k s.params.adcSbbMode s.flags w dst.toNat src.toNat).2 → Frame u (setFlags u (alu k s.params.adcSbbMode s.flags w dst.toNat src.toNat).2) [] [] (aluFlags k) [] := frame_setFlags
  unfold aluWrite at hu
  by_cases hk : k = .cmp
  · rw [if_pos hk] at hu
    cases hu
    exact (hf alu_only).weaken (by simp) (by simp) (by simp) (by simp)
  · rw [if_neg hk] at hu
    have h1 := hw _ _ hu
    have h2 := h1.trans (hf ?_)
    · refine h2.weaken ?_ ?_ ?_ ?_ <;> simp [aluDest, aluCells, hk]
    · intro k' hk' hF
      rw [h1.fl k' hk' (by simp)]
      exact alu_only k' hk' hF
theorem frame_onRM {s t : State} {w reg rm rest D S F C} (h : onRM w reg rm rest s = .next t)
   (hr : ∀ v, rmValue s w rm = .ok v → ∀ u, rest (cacheOf s w reg rm v) (withCache s (cacheOf s w reg rm v)) = .ok u → Frame (withCache s (cacheOf s w reg rm v)) u D S F C) : Frame s t D S F C := by
  obtain ⟨v, hv, h⟩ := onRM_next h
  exact ((frame_withCache s _).trans (hr v hv t h))

theorem frame_aluRmReg {k d w m} {s t : State} (h : aluRmReg k d w m s = .next t) :
    Frame s t (aluDest k (dirDest d w m)) [] (aluFlags k) (aluCells k (dirCells s d w m)) := by
  refine frame_onRM h fun v hv u hu => ?_
  cases d with
  | toRm => exact frame_aluApply hu fun x y hy => frame_writeRM rfl hy
  | toReg => exact frame_aluApply hu fun x y hy => by cases hy; exact frame_setReg _ w m.reg x
theorem frame_aluAccImm {k i} {s t : State} (h : aluAccImm k i s = .next t) :
    Frame s t (aluDest k [(i.width, .ax)]) [] (aluFlags k) (aluCells k []) := by
  exact frame_aluApply (outcome_next.1 h) fun x y hy => by cases hy; exact frame_setReg _ _ _ x
theorem frame_aluRmImm {k m i} {s t : State} (h : aluRmImm k m i s = .next t) :
    Frame s t (aluDest k (rmDest i.width m.rm)) [] (aluFlags k) (aluCells k (rmCells s i.width m.rm)) := by
  refine frame_onRM h fun v hv u hu => frame_aluApply hu fun x y hy => frame_writeRM rfl hy

theorem shiftFlags_only {k n f w c old x cf} : FlagsOnly (if isShift k then statusFlags else [.CF, .OF]) f (shiftFlags k n f w c old x cf) := by
  unfold shiftFlags
  have h1 : ∀ F : List Flag, Flag.CF ∈ F → Flag.OF ∈ F → FlagsOnly F f
      (if c = 1 then setFlag (setFlag f .CF cf) .OF (shiftOF k w old x cf) else drawFlags n [.OF] (setFlag f .CF cf)) := by
    intro F h h'
    split
    · exact ((FlagsOnly.refl _ _).set _ _ h).set _ _ h'
    · exact ((FlagsOnly.refl _ _).set _ _ h).trans (draw_only (by simp [h']))
  cases hk : isShift k
  · exact h1 _ (by simp) (by simp)
  · refine ((h1 statusFlags (by simp [statusFlags]) (by simp [statusFlags])).trans (psz_only.mono ?_)).trans (draw_only ?_) <;> simp [statusFlags]

theorem frame_shiftRm {k c w m} {s t : State} (h : shiftRm k c w m s = .next t) :
    Frame s t (if shiftCount c s = 0 then [] else rmDest w m.rm) [] (shiftWrites k c s) (if shiftCount c s = 0 then [] else rmCells s w m.rm) := by
  refine frame_onRM h fun v hv u hu => ?_
  unfold shiftWrites
  have e : ∀ x, shiftCount c (withCache s x) = shiftCount c s := fun _ => by cases c <;> rfl
  simp only [e] at hu
  unfold shiftApply at hu
  split at hu
  · next h0 => cases hu; rw [if_pos h0, if_pos h0, if_pos h0]; exact Frame.refl _
  · next h0 =>
    rw [if_neg h0, if_neg h0, if_neg h0]
    obtain ⟨y, hy, hu⟩ := bind_ok hu
    have h1 := frame_writeRM (s := s) (u := withCache s (cacheOf s w m.reg.bits m.rm v)) rfl hy
    have h2 : FlagsOnly (if isShift k then statusFlags else [.CF, .OF]) y.flags (shiftFlags k s.draws s.flags w (shiftCount c s) v.toNat
       (shiftSteps k w (shiftCount c s) (v.toNat, s.flag .CF)).1 (shiftSteps k w (shiftCount c s) (v.toNat, s.flag .CF)).2) := by
      intro i hi hF
      rw [h1.fl i hi (by simp)]
      exact shiftFlags_only i hi hF
    cases hu
    unfold writeShiftFlags
    split
    · exact ((h1.trans (frame_setDrawn h2)).weaken (by simp) (by simp) (by simp) (by simp))
    · exact ((h1.trans (frame_setFlags h2)).weaken (by simp) (by simp) (by simp) (by simp))

theorem frame_setR8 (s : State) (r : Reg16) (v : Byte) : Frame s (setR8 s (Reg8.ofNumber r) v) [(.byte, r)] [] [] [] := by
  have := frame_setReg s .byte r (zext16 v)
  unfold setReg at this
  simpa using this

theorem frame_loopWhen {ok disp} {s t : State} (h : loopWhen ok disp s = .next t) : Frame s t [(.word, .cx)] [] [] [] := by
  unfold loopWhen at h
  simp only [Host.Outcome.next.injEq] at h
  subst h
  split
  · exact ((frame_setR16 s .cx _).trans (frame_same rfl rfl rfl rfl))
  · exact frame_setR16 s .cx _

theorem frame_jcc {c disp} {s t : State} (h : jcc c disp s = .next t) : Frame s t [] [] [] [] := by
  unfold jcc at h
  simp only [Host.Outcome.next.injEq] at h
  subst h
  split
  · exact frame_same rfl rfl rfl rfl
  · exact Frame.refl _

theorem frame_setIp (s : State) (v) : Frame s (setIp s v) [] [] [] [] := frame_same rfl rfl rfl rfl
theorem frame_jumpFar (s : State) (a b) : Frame s (jumpFar a b s) [] [.cs] [] [] :=
  (frame_setIp s a).trans (frame_setSeg (setIp s a) .cs b)

theorem frame_returnNear {n} {s t : State} (h : returnNear n s = .ok t) : Frame s t [spDest] [] [] [] := by
  obtain ⟨⟨v, u⟩, hp, h⟩ := bind_ok h
  cases h
  exact (((frame_pop hp).trans (frame_setIp _ v)).trans (frame_setR16 _ .sp _)).weaken (by simp [spDest]) (by simp) (by simp) (by simp)
theorem frame_returnFar {n} {s t : State} (h : returnFar n s = .ok t) : Frame s t [spDest] [.cs] [] [] := by
  obtain ⟨⟨v, u⟩, hp, h⟩ := bind_ok h
  obtain ⟨⟨v', u'⟩, hp', h⟩ := bind_ok h
  cases h
  exact (((((frame_pop hp).trans (frame_setIp _ v)).trans (frame_pop hp')).trans (frame_setSeg _ .cs _)).trans (frame_setR16 _ .sp _)).weaken (by simp [spDest]) (by simp) (by simp) (by simp)

theorem push_sp {s t : State} {v} (h : push16 v s = .ok t) : t.gpr.sp = s.gpr.sp - 2 ∧ t.segs = s.segs ∧ t.params = s.params := by
  obtain ⟨m, rfl, _, _⟩ := push16_spec h
  exact ⟨rfl, rfl, rfl⟩

theorem frame_callFarTo {a b} {s t : State} (h : callFarTo a b s = .ok t) : Frame s t [spDest] [.cs] [] (stackCells s (s.gpr.sp - 2) ++ stackCells s (s.gpr.sp - 4)) := by
  obtain ⟨u, h1, h⟩ := bind_ok h
  obtain ⟨u', h2, h⟩ := bind_ok h
  cases h
  obtain ⟨a1, a2, a3⟩ := push_sp h1
  have f2 := frame_push h2
  have e : stackCells u (u.gpr.sp - 2) = stackCells s (s.gpr.sp - 4) := by
    unfold stackCells; rw [a1, a2, a3, sub22]
  rw [e] at f2
  refine (((frame_push h1).trans f2).trans (frame_jumpFar _ a b)).weaken (by simp [spDest]) (by simp) (by simp) (by simp)

theorem frame_advSi {w} (s : State) : Frame s (advanceSi w s) [(.word, .si)] [] [] [] := frame_setR16 _ _ _
theorem frame_advDi {w} (s : State) : Frame s (advanceDi w s) [(.word, .di)] [] [] [] := frame_setR16 _ _ _

theorem frame_movsBody {w} {s t : State} (h : movsBody w s = .ok t) : Frame s t [(.word, .si), (.word, .di)] [] [] (accessCells s.params w (stringDest s) s.gpr.di) := by
  obtain ⟨v, hv, h⟩ := bind_ok h
  obtain ⟨u, hu, h⟩ := bind_ok h
  cases h
  obtain ⟨m, rfl, _, hm⟩ := writeMem_spec hu
  exact (((frame_memo hm).trans (frame_advSi _)).trans (frame_advDi _)).weaken (by simp) (by simp) (by simp) (by simp)
theorem frame_stosBody {w} {s t : State} (h : stosBody w s = .ok t) : Frame s t [(.word, .di)] [] [] (accessCells s.params w (stringDest s) s.gpr.di) := by
  obtain ⟨u, hu, h⟩ := bind_ok h
  cases h
  obtain ⟨m, rfl, _, hm⟩ := writeMem_spec hu
  exact ((frame_memo hm).trans (frame_advDi _)).weaken (by simp) (by simp) (by simp) (by simp)
theorem frame_cmpsBody {w} {s t : State} (h : cmpsBody w s = .ok t) : Frame s t [(.word, .si), (.word, .di)] [] statusFlags [] := by
  obtain ⟨v, hv, h⟩ := bind_ok h
  obtain ⟨u, hu, h⟩ := bind_ok h
  cases h
  exact (((frame_setFlags flagsSub_only).trans (frame_advSi _)).trans (frame_advDi _)).weaken (by simp) (by simp) (by simp) (by simp)
theorem frame_scasBody {w} {s t : State} (h : scasBody w s = .ok t) : Frame s t [(.word, .di)] [] statusFlags [] := by
  obtain ⟨u, hu, h⟩ := bind_ok h
  cases h
  exact ((frame_setFlags flagsSub_only).trans (frame_advDi _)).weaken (by simp) (by simp) (by simp) (by simp)
theorem frame_lodsBody {w} {s t : State} (h : lodsBody w s = .ok t) : Frame s t [(.word, .si), (w, .ax)] [] [] [] := by
  obtain ⟨v, hv, h⟩ := bind_ok h
  cases h
  exact ((frame_setReg _ w .ax v).trans (frame_advSi _)).weaken (by simp) (by simp) (by simp) (by simp)

theorem frame_repeat {stop body D F} (hb : ∀ s t, body s = .ok t → Frame s t D [] F []) :
    ∀ n s t, repeatBody stop body n s = .ok t → Frame s t (D ++ [(.word, .cx)]) [] (if n = 0 then [] else F) [] := by
  intro n
  induction n with
  | zero => intro s t h; cases h; exact (Frame.refl s).weaken (by simp) (by simp) (by simp) (by simp)
  | succ n ih =>
    intro s t h
    obtain ⟨u, hu, h⟩ := bind_ok h
    simp only [] at h
    have h1 := (hb _ _ hu).trans (frame_setR16 u .cx (u.gpr.cx - 1))
    split at h
    · cases h; exact h1.weaken (by simp) (by simp) (by simp) (by simp)
    · refine (h1.trans (ih _ _ h)).weaken (by simp; tauto) (by simp) ?_ (by simp)
      intro x hx
      simp only [List.append_nil, List.mem_append] at hx
      rcases hx with hx | hx
      · simpa using hx
      · split at hx
        · simp at hx
        · simpa using hx

theorem frame_stringOp {stop body D F} (hb : ∀ s t, body s = .ok t → Frame s t D [] F []) {s t : State}
   (h : stringOp stop body s = .next t) : Frame s t (D ++ repDest s) [] (match s.pfx.rep with | none => F | some _ => if s.gpr.cx = 0 then [] else F) [] := by
  have h := outcome_next.1 h
  unfold repDest
  cases hr : s.pfx.rep with
  | none => rw [hr] at h; exact (hb _ _ h).weaken (by simp) (by simp) (by simp) (by simp)
  | some k =>
    rw [hr] at h
    have := frame_repeat hb _ _ _ h
    have e : (s.gpr.cx.toNat = 0) = (s.gpr.cx = 0) := by
      apply propext; constructor
      · intro e; exact BitVec.eq_of_toNat_eq e
      · intro e; rw [e]; rfl
    simp only [e] at this
    exact this

theorem frame_storing {w body D} (hb : ∀ s t, body s = .ok t → Frame s t D [] [] (accessCells s.params w (stringDest s) s.gpr.di) ∧ t.gpr.di = s.gpr.di + stringDelta w s ∧ t.params = s.params ∧ t.segs = s.segs ∧ t.flags = s.flags) :
    ∀ n s t, repeatBody (fun _ => false) body n s = .ok t → Frame s t (D ++ [(.word, .cx)]) [] []
      ((List.range n).flatMap (fun j => accessCells s.params w (lin s.segs.es (stringOffset w s j)) (stringOffset w s j))) := by
  intro n
  induction n with
  | zero => intro s t h; cases h; exact (Frame.refl s).weaken (by simp) (by simp) (by simp) (by simp)
  | succ n ih =>
    intro s t h
    obtain ⟨u, hu, h⟩ := bind_ok h
    obtain ⟨h1, h2, h3, h4, h5⟩ := hb _ _ hu
    have h1 := h1.trans (frame_setR16 u .cx (u.gpr.cx - 1))
    have h := ih _ _ (show repeatBody (fun _ => false) body n (setR16 u .cx (u.gpr.cx - 1)) = .ok t from h)
    refine (h1.trans h).weaken (by simp; tauto) (by simp) (by simp) ?_
    intro x hx
    rw [List.mem_append, List.mem_append] at hx
    rw [List.mem_flatMap]
    rcases hx with (hx | hx) | hx
    · refine ⟨0, by simp, ?_⟩
      have e : stringOffset w s 0 = s.gpr.di := by unfold stringOffset; simp
      rw [e]; exact hx
    · simp at hx
    · rw [List.mem_flatMap] at hx
      obtain ⟨j, hj, hx⟩ := hx
      refine ⟨j + 1, by simp at hj ⊢; omega, ?_⟩
      have hd : stringDelta w (setR16 u .cx (u.gpr.cx - 1)) = stringDelta w s := by
        unfold stringDelta State.flag; simp [h5]
      have e : stringOffset w (setR16 u .cx (u.gpr.cx - 1)) j = stringOffset w s (j + 1) := by
        unfold stringOffset
        rw [hd]
        show u.gpr.di + _ = _
        rw [h2, BitVec.ofNat_add, BitVec.add_mul, BitVec.add_assoc]
        congr 1
        rw [BitVec.add_comm]; congr 1
        simp
      rw [e] at hx
      simp only [setR16_params, setR16_segs, h3, h4] at hx
      exact hx

theorem frame_storingOp {w body D} (hb : ∀ s t, body s = .ok t → Frame s t D [] [] (accessCells s.params w (stringDest s) s.gpr.di) ∧ t.gpr.di = s.gpr.di + stringDelta w s ∧ t.params = s.params ∧ t.segs = s.segs ∧ t.flags = s.flags) {s t : State}
   (h : stringOp neverStops body s = .next t) : Frame s t (D ++ repDest s) [] [] (stringCells w s) := by
  have h := outcome_next.1 h
  unfold repDest stringCells stringCount
  cases hr : s.pfx.rep with
  | none =>
    rw [hr] at h
    refine (hb _ _ h).1.weaken (by simp) (by simp) (by simp) ?_
    intro x hx
    have e : stringOffset w s 0 = s.gpr.di := by unfold stringOffset; simp
    simp [List.range_one, e]; exact hx
  | some k =>
    rw [hr] at h
    exact frame_storing hb _ _ _ h

theorem movs_hb {w} {s t : State} (h : movsBody w s = .ok t) : Frame s t [(.word, .si), (.word, .di)] [] [] (accessCells s.params w (stringDest s) s.gpr.di) ∧ t.gpr.di = s.gpr.di + stringDelta w s ∧ t.params = s.params ∧ t.segs = s.segs ∧ t.flags = s.flags := by
  refine ⟨frame_movsBody h, ?_⟩
  obtain ⟨v, hv, h⟩ := bind_ok h
  obtain ⟨u, hu, h⟩ := bind_ok h
  cases h
  obtain ⟨m, rfl, _, hm⟩ := writeMem_spec hu
  exact ⟨rfl, rfl, rfl, rfl⟩
theorem stos_hb {w} {s t : State} (h : stosBody w s = .ok t) : Frame s t [(.word, .di)] [] [] (accessCells s.params w (stringDest s) s.gpr.di) ∧ t.gpr.di = s.gpr.di + stringDelta w s ∧ t.params = s.params ∧ t.segs = s.segs ∧ t.flags = s.flags := by
  refine ⟨frame_stosBody h, ?_⟩
  obtain ⟨u, hu, h⟩ := bind_ok h
  cases h
  obtain ⟨m, rfl, _, hm⟩ := writeMem_spec hu
  exact ⟨rfl, rfl, rfl, rfl⟩

theorem frame_next_inj {a b : State} (h : (Host.Outcome.next a : Out) = .next b) : b = a := by cases h; rfl


theorem psz3 {f w r} : FlagsOnly statusFlags f (psz f w r) := psz_only.mono (by simp [statusFlags])
theorem mulFlags_only {n f b} : FlagsOnly statusFlags f (mulFlags n f b) :=
  (((FlagsOnly.refl _ _).set _ _ (by simp [statusFlags])).set _ _ (by simp [statusFlags])).trans (draw_only (by simp [statusFlags]))
theorem divFlags_only {n f} : FlagsOnly statusFlags f (divFlags n f) := draw_only (by simp [statusFlags])
theorem frame_double (s : State) (w : Width) (p : Int) {D} (hD : D = doubleDest w) : Frame s (writeDouble w p s) D [] [] [] := by
  subst hD
  cases w with
  | byte => exact frame_setR16 s .ax _
  | word => exact (frame_setR16 s .ax _).trans (frame_setR16 _ .dx _)
theorem frame_writeQuotient (s : State) (w : Width) (p q : Int) : Frame s (writeQuotient w p q s) (doubleDest w) [] [] [] := by
  cases w with
  | byte => exact frame_setR16 s .ax _
  | word => exact (frame_setR16 s .ax _).trans (frame_setR16 _ .dx _)
theorem daa_only {n a f} : FlagsOnly statusFlags f (drawFlags n [.OF] (daaAdjust a f).2) :=
  ((((FlagsOnly.refl _ _).set _ _ (by simp [statusFlags])).set _ _ (by simp [statusFlags])).trans psz3).trans (draw_only (by simp [statusFlags]))
theorem das_only {n a f} : FlagsOnly statusFlags f (drawFlags n [.OF] (dasAdjust a f).2) :=
  ((((FlagsOnly.refl _ _).set _ _ (by simp [statusFlags])).set _ _ (by simp [statusFlags])).trans psz3).trans (draw_only (by simp [statusFlags]))
theorem frame_ascii {a b x} {s : State} : Frame s (asciiAdjust a b x s) [(.word, .ax)] [] statusFlags [] := by
  have hf : FlagsOnly statusFlags s.flags (drawFlags s.draws [.OF, .SF, .ZF, .PF] (setFlag (setFlag s.flags .AF x) .CF x)) :=
    (((FlagsOnly.refl _ _).set _ _ (by simp [statusFlags])).set _ _ (by simp [statusFlags])).trans (draw_only (by simp [statusFlags]))
  unfold asciiAdjust asciiAx
  split
  · exact (frame_setR16 s .ax _).trans (frame_setDrawn (s := setAx s _ _) hf)
  · exact (frame_setR16 s .ax _).trans (frame_setDrawn (s := setAx s _ _) hf)
theorem frame_inPort {w p} {s : State} : Frame s (setReg (portIn w p s).2 w .ax (portIn w p s).1) [(w, .ax)] [] [] [] := by
  refine Frame.trans (D := []) (S := []) (F := []) (C := []) ?_ (frame_setReg (portIn w p s).2 w .ax (portIn w p s).1)
  unfold portIn
  split <;> exact frame_same rfl rfl rfl rfl
theorem frame_out {w p v} {s : State} : Frame s (portOut w p v s) [] [] [] [] := by
  unfold portOut
  split <;> exact frame_same rfl rfl rfl rfl

theorem frame_quot {w reg rm v p q} {s : State} : Frame s (quotientApply w p q (withCache s (cacheOf s w reg rm v))) (doubleDest w) [] statusFlags [] := by
  have h := frame_writeQuotient (withCache s (cacheOf s w reg rm v)) w p q
  have h2 : FlagsOnly statusFlags (writeQuotient w p q (withCache s (cacheOf s w reg rm v))).flags (divFlags s.draws s.flags) := by
    intro k hk hF
    rw [h.fl k hk (by simp)]
    exact divFlags_only k hk hF
  have h3 := (frame_withCache s (cacheOf s w reg rm v)).trans (h.trans (frame_setDrawn h2))
  simp only [List.append_nil, List.nil_append] at h3
  exact h3
theorem frame_mul {w reg rm v p b} {s : State} : Frame (withCache s (cacheOf s w reg rm v)) (setDrawnFlags (writeDouble w p (withCache s (cacheOf s w reg rm v)))
   (mulFlags (withCache s (cacheOf s w reg rm v)).draws (withCache s (cacheOf s w reg rm v)).flags b)) (doubleDest w) [] statusFlags [] := by
  have h := frame_double (withCache s (cacheOf s w reg rm v)) w p rfl
  have h2 : FlagsOnly statusFlags (writeDouble w p (withCache s (cacheOf s w reg rm v))).flags (mulFlags (withCache s (cacheOf s w reg rm v)).draws (withCache s (cacheOf s w reg rm v)).flags b) := by
    intro k hk hF
    rw [h.fl k hk (by simp)]
    exact mulFlags_only k hk hF
  have h3 := h.trans (frame_setDrawn h2)
  simpa only [List.append_nil, List.nil_append] using h3

end Sys2Proof.Machine
end

