-- ==== Sys2Proof/Laws/PerInstr.lean ====
section
/-! SUPPORT. One lemma for each constructor of `Instr`: its bytes are 1 to 6 (30_encoding.md R116). -/

namespace Sys2Proof.Laws.EncodedLength

open Sys2Proof

/-- An instruction has 1 to 6 bytes without its prefixes (30_encoding.md R116). -/
def Statement (i : Instr) : Prop := 1 ≤ (encode i).length ∧ (encode i).length ≤ 6

theorem of_modrm (op : Byte) (m : ModRM) : 1 ≤ (op :: encodeModRM m).length ∧ (op :: encodeModRM m).length ≤ 6 := by
  have h := encodeModRM_length m
  rw [List.length_cons]
  omega

theorem of_imm (op : Byte) (i : Imm) : 1 ≤ (op :: i.bytes).length ∧ (op :: i.bytes).length ≤ 6 := by
  have h := i.bytes_length
  rw [List.length_cons]
  omega

theorem of_modrm_imm (op : Byte) (m : ModRM) (i : Imm) :
    1 ≤ (op :: encodeModRM m ++ i.bytes).length ∧ (op :: encodeModRM m ++ i.bytes).length ≤ 6 := by
  have h := encodeModRM_length m
  have h' := i.bytes_length
  rw [List.length_append, List.length_cons]
  omega

theorem of_grp (m : ModRM) (i : GrpImm) :
    1 ≤ (encodeAluRmImm m i).length ∧ (encodeAluRmImm m i).length ≤ 6 := by
  have h := encodeModRM_length m
  cases i <;> simp only [encodeAluRmImm, List.length_append, List.length_cons, List.length_nil, wordBytes_length] <;>
    omega

theorem short {n : Nat} (h : (Nat.ble 1 n && Nat.ble n 6) = true) : 1 ≤ n ∧ n ≤ 6 := by
  rw [Bool.and_eq_true] at h
  exact ⟨Nat.le_of_ble_eq_true h.1, Nat.le_of_ble_eq_true h.2⟩

theorem addRmReg : ∀ d w m, Statement (.addRmReg d w m) := fun _ _ m => of_modrm _ m
theorem addAccImm : ∀ i, Statement (.addAccImm i) := fun i => of_imm _ i
theorem addRmImm : ∀ m i, Statement (.addRmImm m i) := fun m i => of_grp m i
theorem orRmReg : ∀ d w m, Statement (.orRmReg d w m) := fun _ _ m => of_modrm _ m
theorem orAccImm : ∀ i, Statement (.orAccImm i) := fun i => of_imm _ i
theorem orRmImm : ∀ m i, Statement (.orRmImm m i) := fun m i => of_grp m i
theorem adcRmReg : ∀ d w m, Statement (.adcRmReg d w m) := fun _ _ m => of_modrm _ m
theorem adcAccImm : ∀ i, Statement (.adcAccImm i) := fun i => of_imm _ i
theorem adcRmImm : ∀ m i, Statement (.adcRmImm m i) := fun m i => of_grp m i
theorem sbbRmReg : ∀ d w m, Statement (.sbbRmReg d w m) := fun _ _ m => of_modrm _ m
theorem sbbAccImm : ∀ i, Statement (.sbbAccImm i) := fun i => of_imm _ i
theorem sbbRmImm : ∀ m i, Statement (.sbbRmImm m i) := fun m i => of_grp m i
theorem andRmReg : ∀ d w m, Statement (.andRmReg d w m) := fun _ _ m => of_modrm _ m
theorem andAccImm : ∀ i, Statement (.andAccImm i) := fun i => of_imm _ i
theorem andRmImm : ∀ m i, Statement (.andRmImm m i) := fun m i => of_grp m i
theorem subRmReg : ∀ d w m, Statement (.subRmReg d w m) := fun _ _ m => of_modrm _ m
theorem subAccImm : ∀ i, Statement (.subAccImm i) := fun i => of_imm _ i
theorem subRmImm : ∀ m i, Statement (.subRmImm m i) := fun m i => of_grp m i
theorem xorRmReg : ∀ d w m, Statement (.xorRmReg d w m) := fun _ _ m => of_modrm _ m
theorem xorAccImm : ∀ i, Statement (.xorAccImm i) := fun i => of_imm _ i
theorem xorRmImm : ∀ m i, Statement (.xorRmImm m i) := fun m i => of_grp m i
theorem cmpRmReg : ∀ d w m, Statement (.cmpRmReg d w m) := fun _ _ m => of_modrm _ m
theorem cmpAccImm : ∀ i, Statement (.cmpAccImm i) := fun i => of_imm _ i
theorem cmpRmImm : ∀ m i, Statement (.cmpRmImm m i) := fun m i => of_grp m i
theorem testRmReg : ∀ w m, Statement (.testRmReg w m) := fun _ m => of_modrm _ m
theorem testAccImm : ∀ i, Statement (.testAccImm i) := fun i => of_imm _ i
theorem testRmImm : ∀ m i, Statement (.testRmImm m i) := fun m i => of_modrm_imm _ m i
theorem incReg : ∀ r, Statement (.incReg r) := fun _ => short rfl
theorem incRm : ∀ w m, Statement (.incRm w m) := fun _ m => of_modrm _ m
theorem decReg : ∀ r, Statement (.decReg r) := fun _ => short rfl
theorem decRm : ∀ w m, Statement (.decRm w m) := fun _ m => of_modrm _ m
theorem notRm : ∀ w m, Statement (.notRm w m) := fun _ m => of_modrm _ m
theorem negRm : ∀ w m, Statement (.negRm w m) := fun _ m => of_modrm _ m
theorem pushReg : ∀ r, Statement (.pushReg r) := fun _ => short rfl
theorem pushSeg : ∀ r, Statement (.pushSeg r) := fun _ => short rfl
theorem pushRm : ∀ m, Statement (.pushRm m) := fun m => of_modrm _ m
theorem popReg : ∀ r, Statement (.popReg r) := fun _ => short rfl
theorem popSeg : ∀ r, Statement (.popSeg r) := fun _ => short rfl
theorem popRm : ∀ m, Statement (.popRm m) := fun m => of_modrm _ m
theorem pushf : Statement .pushf := short rfl
theorem popf : Statement .popf := short rfl
theorem int3 : Statement .int3 := short rfl
theorem int : ∀ n, Statement (.int n) := fun _ => short rfl
theorem into : Statement .into := short rfl
theorem iret : Statement .iret := short rfl
theorem hlt : Statement .hlt := short rfl
theorem movRmReg : ∀ d w m, Statement (.movRmReg d w m) := fun _ _ m => of_modrm _ m
theorem movRmImm : ∀ m i, Statement (.movRmImm m i) := fun m i => of_modrm_imm _ m i
theorem movRmSeg : ∀ m, Statement (.movRmSeg m) := fun m => of_modrm _ m
theorem movSegRm : ∀ m, Statement (.movSegRm m) := fun m => of_modrm _ m
theorem movMoffs : ∀ d w off, Statement (.movMoffs d w off) := fun _ _ _ => short rfl
theorem movRegImm : ∀ r i, Statement (.movRegImm r i) := fun _ i => of_imm _ i
theorem lea : ∀ m, Statement (.lea m) := fun m => of_modrm _ m
theorem lds : ∀ m, Statement (.lds m) := fun m => of_modrm _ m
theorem les : ∀ m, Statement (.les m) := fun m => of_modrm _ m
theorem xchgRmReg : ∀ w m, Statement (.xchgRmReg w m) := fun _ m => of_modrm _ m
theorem xchgAcc : ∀ r, Statement (.xchgAcc r) := fun _ => short rfl
theorem nop : Statement .nop := short rfl
theorem cbw : Statement .cbw := short rfl
theorem cwd : Statement .cwd := short rfl
theorem lahf : Statement .lahf := short rfl
theorem sahf : Statement .sahf := short rfl
theorem xlat : Statement .xlat := short rfl
theorem jo : ∀ disp, Statement (.jo disp) := fun _ => short rfl
theorem jno : ∀ disp, Statement (.jno disp) := fun _ => short rfl
theorem jb : ∀ disp, Statement (.jb disp) := fun _ => short rfl
theorem jnb : ∀ disp, Statement (.jnb disp) := fun _ => short rfl
theorem jz : ∀ disp, Statement (.jz disp) := fun _ => short rfl
theorem jnz : ∀ disp, Statement (.jnz disp) := fun _ => short rfl
theorem jbe : ∀ disp, Statement (.jbe disp) := fun _ => short rfl
theorem ja : ∀ disp, Statement (.ja disp) := fun _ => short rfl
theorem js : ∀ disp, Statement (.js disp) := fun _ => short rfl
theorem jns : ∀ disp, Statement (.jns disp) := fun _ => short rfl
theorem jp : ∀ disp, Statement (.jp disp) := fun _ => short rfl
theorem jnp : ∀ disp, Statement (.jnp disp) := fun _ => short rfl
theorem jl : ∀ disp, Statement (.jl disp) := fun _ => short rfl
theorem jnl : ∀ disp, Statement (.jnl disp) := fun _ => short rfl
theorem jle : ∀ disp, Statement (.jle disp) := fun _ => short rfl
theorem jnle : ∀ disp, Statement (.jnle disp) := fun _ => short rfl
theorem jmpShort : ∀ disp, Statement (.jmpShort disp) := fun _ => short rfl
theorem jmpNear : ∀ disp, Statement (.jmpNear disp) := fun _ => short rfl
theorem jmpFar : ∀ off seg, Statement (.jmpFar off seg) := fun _ _ => short rfl
theorem jmpRm : ∀ m, Statement (.jmpRm m) := fun m => of_modrm _ m
theorem jmpFarMem : ∀ m, Statement (.jmpFarMem m) := fun m => of_modrm _ m
theorem callNear : ∀ disp, Statement (.callNear disp) := fun _ => short rfl
theorem callFar : ∀ off seg, Statement (.callFar off seg) := fun _ _ => short rfl
theorem callRm : ∀ m, Statement (.callRm m) := fun m => of_modrm _ m
theorem callFarMem : ∀ m, Statement (.callFarMem m) := fun m => of_modrm _ m
theorem ret : Statement .ret := short rfl
theorem retImm : ∀ n, Statement (.retImm n) := fun _ => short rfl
theorem retf : Statement .retf := short rfl
theorem retfImm : ∀ n, Statement (.retfImm n) := fun _ => short rfl
theorem loop : ∀ disp, Statement (.loop disp) := fun _ => short rfl
theorem loopz : ∀ disp, Statement (.loopz disp) := fun _ => short rfl
theorem loopnz : ∀ disp, Statement (.loopnz disp) := fun _ => short rfl
theorem jcxz : ∀ disp, Statement (.jcxz disp) := fun _ => short rfl
theorem clc : Statement .clc := short rfl
theorem stc : Statement .stc := short rfl
theorem cmc : Statement .cmc := short rfl
theorem cli : Statement .cli := short rfl
theorem sti : Statement .sti := short rfl
theorem cld : Statement .cld := short rfl
theorem std : Statement .std := short rfl
theorem movsb : Statement .movsb := short rfl
theorem movsw : Statement .movsw := short rfl
theorem cmpsb : Statement .cmpsb := short rfl
theorem cmpsw : Statement .cmpsw := short rfl
theorem stosb : Statement .stosb := short rfl
theorem stosw : Statement .stosw := short rfl
theorem lodsb : Statement .lodsb := short rfl
theorem lodsw : Statement .lodsw := short rfl
theorem scasb : Statement .scasb := short rfl
theorem scasw : Statement .scasw := short rfl
theorem rol : ∀ c w m, Statement (.rol c w m) := fun _ _ m => of_modrm _ m
theorem ror : ∀ c w m, Statement (.ror c w m) := fun _ _ m => of_modrm _ m
theorem rcl : ∀ c w m, Statement (.rcl c w m) := fun _ _ m => of_modrm _ m
theorem rcr : ∀ c w m, Statement (.rcr c w m) := fun _ _ m => of_modrm _ m
theorem shl : ∀ c w m, Statement (.shl c w m) := fun _ _ m => of_modrm _ m
theorem shr : ∀ c w m, Statement (.shr c w m) := fun _ _ m => of_modrm _ m
theorem sar : ∀ c w m, Statement (.sar c w m) := fun _ _ m => of_modrm _ m
theorem mul : ∀ w m, Statement (.mul w m) := fun _ m => of_modrm _ m
theorem imul : ∀ w m, Statement (.imul w m) := fun _ m => of_modrm _ m
theorem div : ∀ w m, Statement (.div w m) := fun _ m => of_modrm _ m
theorem idiv : ∀ w m, Statement (.idiv w m) := fun _ m => of_modrm _ m
theorem daa : Statement .daa := short rfl
theorem das : Statement .das := short rfl
theorem aaa : Statement .aaa := short rfl
theorem aas : Statement .aas := short rfl
theorem aam : ∀ base, Statement (.aam base) := fun _ => short rfl
theorem aad : ∀ base, Statement (.aad base) := fun _ => short rfl
theorem inImm : ∀ w port, Statement (.inImm w port) := fun _ _ => short rfl
theorem inDx : ∀ w, Statement (.inDx w) := fun _ => short rfl
theorem outImm : ∀ w port, Statement (.outImm w port) := fun _ _ => short rfl
theorem outDx : ∀ w, Statement (.outDx w) := fun _ => short rfl
theorem esc : ∀ n m, Statement (.esc n m) := fun _ m => of_modrm _ m
theorem wait : Statement .wait := short rfl
theorem segEs : Statement .segEs := short rfl
theorem segCs : Statement .segCs := short rfl
theorem segSs : Statement .segSs := short rfl
theorem segDs : Statement .segDs := short rfl
theorem lock : Statement .lock := short rfl
theorem repnz : Statement .repnz := short rfl
theorem repz : Statement .repz := short rfl
theorem unmapped : ∀ op, Statement (.unmapped op) := fun _ => short rfl
theorem emptyChild : ∀ op m, Statement (.emptyChild op m) := fun _ m => of_modrm _ m

end Sys2Proof.Laws.EncodedLength
end

