-- ==== Sys2Proof/Tests/Slice0.lean ====
section
/-! SUPPORT. The model's own tests: ill-formed terms the checks refuse, words written out from the encodings, the
vectors of spec/95_test_vectors.md and the examples of the rules, and a witness for every statement that has
hypotheses. -/

namespace Sys2Proof.Tests

open Sys2Proof Sys2Proof.Machine

/-! ## Well-formedness: one ill-formed term for each check -/

theorem test_wf_refuses_bp_without_displacement : (Instr.lea ⟨.ax, .mem .bp .none⟩).wf = false := by decide
theorem test_wf_refuses_unmapped_mapped_byte : (Instr.unmapped 0x00).wf = false := by decide
theorem test_wf_refuses_empty_child_with_handler : (Instr.emptyChild 0xFE ⟨.cx, .reg .ax⟩).wf = false := by decide
theorem test_wf_refuses_empty_child_of_direct_slot : (Instr.emptyChild 0x90 ⟨.ax, .reg .ax⟩).wf = false := by decide
theorem test_wf_refuses_xchg_ax_ax : (Instr.xchgAcc .ax).wf = false := by decide
theorem test_wf_refuses_pop_cs : (Instr.popSeg .cs).wf = false := by decide
/-- One child of each `reg` value of R132 to R137, with another value. -/
theorem test_wf_refuses_child_at_other_reg : [Instr.rol .one .byte ⟨.si, .reg .ax⟩, .decRm .word ⟨.ax, .reg .ax⟩,
    .notRm .byte ⟨.bx, .reg .ax⟩, .callFarMem ⟨.bp, .reg .ax⟩, .jmpRm ⟨.dx, .reg .ax⟩, .subRmImm ⟨.ax, .reg .ax⟩ (.ib80 1),
    .pushRm ⟨.di, .reg .ax⟩, .idiv .word ⟨.si, .reg .ax⟩].all (fun i => !i.wf) = true := by decide
theorem test_wf_accepts : (Instr.lea ⟨.ax, .mem .bp (.d8 0)⟩).wf && (Instr.unmapped 0xF1).wf &&
    (Instr.emptyChild 0xFE ⟨.dx, .mem .bxSi .none⟩).wf && (Instr.xchgAcc .bx).wf && (Instr.popSeg .ss).wf = true := by
  decide

/-! ## Decoding: every constructor, from bytes written out by the layouts of 30_encoding.md R111 to R117, R119 and
R131 to R137 -/

/-- What the decoder reads from a whole byte list, when it takes all of it. -/
def dec (bs : List Byte) : Option Instr :=
  match decode bs with
  | .ok (i, []) => some i
  | .ok (_, _ :: _) => none
  | .error _ => none

/-- Every byte list of a table decodes to the instruction beside it. -/
def decodes (rows : List (List Byte × Instr)) : Bool := rows.all (fun r => dec r.1 == some r.2)

/-- Opcodes 00ooo0dw and 00ooo10w (R113; ooo of 43_alu.md R240). -/
theorem test_decode_alu_reg_acc : decodes [
    ([0b00_000_0_0_0, 0b11_011_000], .addRmReg .toRm .byte ⟨.bx, .reg .ax⟩),
    ([0b00_001_0_0_1, 0b00_110_111], .orRmReg .toRm .word ⟨.si, .mem .bx .none⟩),
    ([0b00_010_0_1_0, 0b01_001_110, 0xFE], .adcRmReg .toReg .byte ⟨.cx, .mem .bp (.d8 0xFE)⟩),
    ([0b00_011_0_1_1, 0b10_111_010, 0x34, 0x12], .sbbRmReg .toReg .word ⟨.di, .mem .bpSi (.d16 0x1234)⟩),
    ([0b00_100_0_0_0, 0b00_000_110, 0x34, 0x12], .andRmReg .toRm .byte ⟨.ax, .direct 0x1234⟩),
    ([0b00_101_0_0_1, 0b11_100_101], .subRmReg .toRm .word ⟨.sp, .reg .bp⟩),
    ([0b00_110_0_1_0, 0b00_010_000], .xorRmReg .toReg .byte ⟨.dx, .mem .bxSi .none⟩),
    ([0b00_111_0_1_1, 0b00_101_001], .cmpRmReg .toReg .word ⟨.bp, .mem .bxDi .none⟩),
    ([0b00_000_10_0, 0x01], .addAccImm (.ib 0x01)),
    ([0b00_001_10_1, 0x01, 0x02], .orAccImm (.iw 0x0201)),
    ([0b00_010_10_0, 0x80], .adcAccImm (.ib 0x80)),
    ([0b00_011_10_1, 0xFF, 0x7F], .sbbAccImm (.iw 0x7FFF)),
    ([0b00_100_10_0, 0x0F], .andAccImm (.ib 0x0F)),
    ([0b00_101_10_0, 0x01], .subAccImm (.ib 0x01)),
    ([0b00_110_10_0, 0xAA], .xorAccImm (.ib 0xAA)),
    ([0b00_111_10_0, 0x80], .cmpAccImm (.ib 0x80))] = true := by decide

/-- A demux slot all of whose children are SHL: 80 with `reg` 101 is SHL, and the operand cache holds 101 and the other
fields of the byte 01_101_111 (10_state.md R43, 41_addressing.md R181). -/
theorem test_child_at_other_reg :
    decodeWith (List.replicate 256 (.demux (List.replicate 8 (some (.grp2 .shl))))) [0x80, 0b01_101_111, 0xFE] =
      .ok (.shl .one .byte ⟨.bp, .mem .bx (.d8 0xFE)⟩, []) ∧
    (match exec (.shl .one .byte ⟨.bp, .mem .bx (.d8 0xFE)⟩) { State.reset with gpr := { State.reset.gpr with bx := 4 } } with
      | .next t => t.cache.map (fun c => (c.mod, c.reg, c.rm)) == some (0b01, 0b101, 0b111)
      | .fault _ => false
      | .refused _ => false) = true := ⟨rfl, by decide⟩

/-- Grp1, 80 to 83 (R132). -/
theorem test_decode_grp1 : decodes [
    ([0x80, 0b11_000_011, 0x05], .addRmImm ⟨.ax, .reg .bx⟩ (.ib80 5)),
    ([0x81, 0b11_001_011, 0x05, 0x06], .orRmImm ⟨.cx, .reg .bx⟩ (.iw81 0x0605)),
    ([0x82, 0b11_010_011, 0x05], .adcRmImm ⟨.dx, .reg .bx⟩ (.ib82 5)),
    ([0x83, 0b11_011_011, 0xFF], .sbbRmImm ⟨.bx, .reg .bx⟩ (.sx83 0xFF)),
    ([0x81, 0b00_100_100, 0x34, 0x12], .andRmImm ⟨.sp, .mem .si .none⟩ (.iw81 0x1234)),
    ([0x80, 0b01_101_101, 0x7F, 0x01], .subRmImm ⟨.bp, .mem .di (.d8 0x7F)⟩ (.ib80 1)),
    ([0x83, 0b10_110_011, 0x00, 0x01, 0x80], .xorRmImm ⟨.si, .mem .bpDi (.d16 0x0100)⟩ (.sx83 0x80)),
    ([0x81, 0b00_111_110, 0x34, 0x12, 0x78, 0x56], .cmpRmImm ⟨.di, .direct 0x1234⟩ (.iw81 0x5678))] = true := by decide

/-- TEST, INC, DEC, NOT, NEG (R113, R135 to R137). -/
theorem test_decode_unary : decodes [
    ([0b1000_0100, 0b11_000_011], .testRmReg .byte ⟨.ax, .reg .bx⟩),
    ([0b1010_1001, 0x00, 0x80], .testAccImm (.iw 0x8000)),
    ([0b1111_0110, 0b11_000_000, 0x80], .testRmImm ⟨.ax, .reg .ax⟩ (.ib 0x80)),
    ([0b01000_110], .incReg .si),
    ([0b01001_001], .decReg .cx),
    ([0b1111_1110, 0b11_000_011], .incRm .byte ⟨.ax, .reg .bx⟩),
    ([0b1111_1111, 0b00_001_111], .decRm .word ⟨.cx, .mem .bx .none⟩),
    ([0b1111_0110, 0b11_010_000], .notRm .byte ⟨.dx, .reg .ax⟩),
    ([0b1111_0111, 0b00_011_111], .negRm .word ⟨.bx, .mem .bx .none⟩)] = true := by decide

/-- The stack and interrupt family (R113, R119, R133, R137). -/
theorem test_decode_stack_interrupt : decodes [
    ([0b01010_100], .pushReg .sp), ([0b01011_011], .popReg .bx), ([0b000_01_110], .pushSeg .cs), ([0b000_11_111], .popSeg .ds),
    ([0xFF, 0b00_110_111], .pushRm ⟨.si, .mem .bx .none⟩), ([0x8F, 0b00_000_110, 0x00, 0x03], .popRm ⟨.ax, .direct 0x0300⟩),
    ([0x9C], .pushf), ([0x9D], .popf), ([0xCC], .int3), ([0xCD, 0x21], .int 0x21), ([0xCE], .into), ([0xCF], .iret),
    ([0xF4], .hlt)] = true := by decide

/-- The transfer family (R113, R119, R133). -/
theorem test_decode_transfer : decodes [
    ([0b100010_0_0, 0b11_100_000], .movRmReg .toRm .byte ⟨.sp, .reg .ax⟩),
    ([0b100010_1_1, 0b00_000_000], .movRmReg .toReg .word ⟨.ax, .mem .bxSi .none⟩),
    ([0xC7, 0b00_000_110, 0x00, 0x02, 0x34, 0x12], .movRmImm ⟨.ax, .direct 0x0200⟩ (.iw 0x1234)),
    ([0x8C, 0b11_011_000], .movRmSeg ⟨.bx, .reg .ax⟩), ([0x8E, 0b11_000_000], .movSegRm ⟨.ax, .reg .ax⟩),
    ([0xA1, 0x34, 0x12], .movMoffs .toReg .word 0x1234), ([0xA2, 0x00, 0x01], .movMoffs .toRm .byte 0x0100),
    ([0b1011_0_100, 0xFF], .movRegImm .sp (.ib 0xFF)), ([0b1011_1_100, 0x00, 0x20], .movRegImm .sp (.iw 0x2000)),
    ([0x8D, 0b01_010_000, 0x05], .lea ⟨.dx, .mem .bxSi (.d8 5)⟩),
    ([0xC5, 0b00_011_110, 0x00, 0x01], .lds ⟨.bx, .direct 0x0100⟩), ([0xC4, 0b00_011_111], .les ⟨.bx, .mem .bx .none⟩),
    ([0x86, 0b11_100_000], .xchgRmReg .byte ⟨.sp, .reg .ax⟩), ([0b10010_011], .xchgAcc .bx), ([0x90], .nop),
    ([0x98], .cbw), ([0x99], .cwd), ([0x9F], .lahf), ([0x9E], .sahf), ([0xD7], .xlat),
    ([0xF8], .clc), ([0xF9], .stc), ([0xF5], .cmc), ([0xFA], .cli), ([0xFB], .sti), ([0xFC], .cld),
    ([0xFD], .std)] = true := by decide

/-- Control transfer (R113, R114, R119, R137). -/
theorem test_decode_control : decodes [
    ([0b0111_0000, 0x05], .jo 5), ([0b0111_0001, 0x05], .jno 5), ([0b0111_0010, 0x05], .jb 5), ([0b0111_0011, 0x05], .jnb 5),
    ([0b0111_0100, 0x05], .jz 5), ([0b0111_0101, 0x80], .jnz 0x80), ([0b0111_0110, 0x02], .jbe 2), ([0b0111_0111, 0x02], .ja 2),
    ([0b0111_1000, 0x02], .js 2), ([0b0111_1001, 0x02], .jns 2), ([0b0111_1010, 0x02], .jp 2), ([0b0111_1011, 0x02], .jnp 2),
    ([0b0111_1100, 0x02], .jl 2), ([0b0111_1101, 0x02], .jnl 2), ([0b0111_1110, 0x02], .jle 2), ([0b0111_1111, 0x02], .jnle 2),
    ([0xEB, 0xFE], .jmpShort 0xFE), ([0xE9, 0x00, 0x80], .jmpNear 0x8000),
    ([0xEA, 0x00, 0x01, 0x00, 0x20], .jmpFar 0x0100 0x2000), ([0xFF, 0b11_100_011], .jmpRm ⟨.sp, .reg .bx⟩),
    ([0xFF, 0b00_101_111], .jmpFarMem ⟨.bp, .mem .bx .none⟩), ([0xE8, 0x00, 0x01], .callNear 0x0100),
    ([0x9A, 0x00, 0x05, 0x00, 0x10], .callFar 0x0500 0x1000), ([0xFF, 0b11_010_011], .callRm ⟨.dx, .reg .bx⟩),
    ([0xFF, 0b00_011_111], .callFarMem ⟨.bx, .mem .bx .none⟩), ([0xC3], .ret), ([0xC2, 0x04, 0x00], .retImm 4), ([0xCB], .retf),
    ([0xCA, 0x04, 0x00], .retfImm 4), ([0xE2, 0xFE], .loop 0xFE), ([0xE1, 0x05], .loopz 5), ([0xE0, 0x05], .loopnz 5),
    ([0xE3, 0x05], .jcxz 5)] = true := by decide

/-- Strings, shifts, multiply and divide, decimal (R113, R119, R134, R135). -/
theorem test_decode_string_shift_muldiv : decodes [
    ([0xA4], .movsb), ([0xA5], .movsw), ([0xA6], .cmpsb), ([0xA7], .cmpsw), ([0xAA], .stosb), ([0xAB], .stosw),
    ([0xAC], .lodsb), ([0xAD], .lodsw), ([0xAE], .scasb), ([0xAF], .scasw),
    ([0b1101_0000, 0b11_000_000], .rol .one .byte ⟨.ax, .reg .ax⟩), ([0b1101_0010, 0b11_001_000], .ror .cl .byte ⟨.cx, .reg .ax⟩),
    ([0b1101_0001, 0b11_010_001], .rcl .one .word ⟨.dx, .reg .cx⟩), ([0b1101_0011, 0b11_011_001], .rcr .cl .word ⟨.bx, .reg .cx⟩),
    ([0b1101_0010, 0b11_100_000], .shl .cl .byte ⟨.sp, .reg .ax⟩), ([0b1101_0011, 0b11_101_000], .shr .cl .word ⟨.bp, .reg .ax⟩),
    ([0b1101_0000, 0b11_111_000], .sar .one .byte ⟨.di, .reg .ax⟩),
    ([0xF6, 0b11_100_011], .mul .byte ⟨.sp, .reg .bx⟩), ([0xF7, 0b11_101_011], .imul .word ⟨.bp, .reg .bx⟩),
    ([0xF6, 0b11_110_011], .div .byte ⟨.si, .reg .bx⟩), ([0xF7, 0b11_111_011], .idiv .word ⟨.di, .reg .bx⟩),
    ([0x27], .daa), ([0x2F], .das), ([0x37], .aaa), ([0x3F], .aas), ([0xD4, 0x0A], .aam 10), ([0xD5, 0x0A], .aad 10)] =
    true := by decide

/-- Ports, ESC, WAIT, prefixes and empty slots (R113, R119, R138, R139, R142). -/
theorem test_decode_ports_prefixes_empty : decodes [
    ([0xE4, 0x60], .inImm .byte 0x60), ([0xED], .inDx .word), ([0xE7, 0x80], .outImm .word 0x80), ([0xEE], .outDx .byte),
    ([0b11011_001, 0b00_000_110, 0x00, 0x01], .esc 1 ⟨.ax, .direct 0x0100⟩), ([0x9B], .wait),
    ([0b001_00_110], .segEs), ([0b001_01_110], .segCs), ([0b001_10_110], .segSs), ([0b001_11_110], .segDs),
    ([0xF0], .lock), ([0xF2], .repnz), ([0xF3], .repz), ([0x0F], .unmapped 0x0F), ([0xF1], .unmapped 0xF1),
    ([0xFF, 0b10_111_110, 0x34, 0x12], .emptyChild 0xFF ⟨.di, .mem .bp (.d16 0x1234)⟩),
    ([0xD1, 0b11_110_000], .emptyChild 0xD1 ⟨.si, .reg .ax⟩)] = true := by decide

/-! ## The pattern compiler and the registry (95_test_vectors.md sections 1.1 and 1.2) -/

/-- What a template of a width denotes. -/
def denotes (width : Nat) (t : String) : Option (List Nat) :=
  match compileTemplate width t with
  | .ok bs => some (expand bs)
  | .error _ => none

theorem test_templates : ((denotes 8 "0000_0*0*" == some [0, 1, 4, 5]) && (denotes 3 "1*1" == some [5, 7]) &&
    (denotes 8 "___0000_0000___" == some [0]) && (denotes 8 "1011_0***" == some (List.range' 0xB0 8))) = true := by
  decide +kernel

theorem test_template_errors : (["0000_000", "0000_0000_0", "0000_000a"].all (fun t => denotes 8 t == none) &&
    denotes 3 "**" == none) = true := by decide +kernel

/-- The slots a list of registrations builds, or its configuration error. -/
def builds (rs : List (Registration Nat Nat)) : Except ConfigError (SlotTable Nat Nat) := buildRegistry rs

theorem test_registry_conflicts :
    ((match builds [.direct "0000_0*0*" 1, .direct "0000_0000" 2] with | .error e => e == .duplicateDirect | .ok _ => false) &&
    (match builds [.demux "1000_0000" [("000", 1)], .demux "1000_0000" [("000", 2)]] with
      | .error e => e == .regCollision | .ok _ => false) &&
    (match builds [.direct "1000_0000" 1, .demux "1000_0000" [("000", 1)]] with
      | .error e => e == .shapeMismatch | .ok _ => false) &&
    (match builds [.demux "1000_00**" [("000", 1)], .demux "1000_0000" [("001", 2)]] with
      | .ok t => t.getD 0x80 .empty == .demux [some 1, some 2, none, none, none, none, none, none]
      | .error _ => false)) = true := by decide +kernel

/-! ## One step: the vectors of 95_test_vectors.md section 2 and the examples of the rules -/

/-- A byte of memory given a value. -/
def put (a : Nat) (v : Byte) (s : State) : State := setMem s (Memory.write s.mem a v)

/-- A little-endian word of memory given a value. -/
def putw (a : Nat) (v : Word) (s : State) : State := put (a + 1) (hiByte v) (put a (loByte v) s)

/-- The little-endian word at an address. -/
def word (s : State) (a : Nat) : Word := mkWord (Memory.read s.mem a) (Memory.read s.mem (a + 1))

/-- The state after reset with a register, a segment register, IP or FLAGS given a value. -/
def r (q : Reg16) (v : Word) (s : State) : State := setR16 s q v
def sg (q : SegReg) (v : Word) (s : State) : State := setSeg s q v
def ip (v : Word) (s : State) : State := setIp s v
def fl (v : Word) (s : State) : State := setFlags s v

/-- The start of most vectors. -/
def z : State := State.reset

/-- One step of bytes at CS:IP answers a next state of which `p` holds. -/
def runs (bs : List Byte) (s : State) (p : State → Bool) : Bool :=
  match Machine.step (placeBytes bs s.ip s) with
  | .next t => p t
  | .fault _ => false
  | .refused _ => false

/-- One step of bytes at CS:IP stops with a fault. -/
def faults (bs : List Byte) (s : State) (f : Fault) : Bool :=
  match Machine.step (placeBytes bs s.ip s) with
  | .next _ => false
  | .fault g => f == g
  | .refused _ => false

/-- Section 2.1. -/
theorem test_step_empty_slots :
    (runs [0x0F] z (fun t => t.run == .halted .unmapped && t.ip == 1) &&
    runs [0xF3, 0xF0, 0x2E, 0x0F] z (fun t => t.run == .halted .unmapped && t.ip == 4 && t.pfx == .clear) &&
    runs [0xFE, 0x10] z (fun t => t.run == .halted .emptyChild && t.ip == 2) &&
    runs [0xFF, 0xBE, 0x34, 0x12] z (fun t => t.run == .halted .emptyChild && t.ip == 4) &&
    runs [0x8F, 0x48, 0x00] z (fun t => t.run == .halted .emptyChild && t.ip == 3) &&
    runs [0xF4] z (fun t => t.run == .halted .hlt && t.ip == 1)) = true := by decide +kernel

theorem test_step_undefined_forms : (faults [0x8D, 0xC0] z .undefinedForm && faults [0x8E, 0xE0] z .undefinedForm &&
    faults [0xC5, 0xC0] z .undefinedForm && faults [0xFF, 0xD8] z .undefinedForm) = true := by decide +kernel

/-- The start of section 2.2, each candidate byte distinct. -/
def addressing : State :=
  put 0x300FE 1 (put 0x21234 2 (put 0x400FE 3 (put 0x30200 4 (put 0x30090 5 (put 0x20010 6 (put 0x2007F 7
    (r .bp 0x0100 (r .di 0x0010 (sg .ds 0x2000 (sg .ss 0x3000 (sg .es 0x4000 z)))))))))))

/-- Launch with an image and with other registrations: byte 0F is INC of the register in its low bits (DI), and a
conflict stops launch (70_reset_and_hazards.md R501, 30_encoding.md R108, R109). -/
theorem test_launch :
    ((match launch Params.default [.direct "0000_1111" .incReg] [(0, 0x90), (0, 0x0F), (0x100000, 1)] with
      | .ok s => runs [] s (fun t => t.gpr.di == 1 && t.ip == 1 && t.params.registry.slot 0x90 == .empty)
      | .error _ => false) &&
    (match launch Params.default [.direct "0000_1111" .incReg, .direct "0000_111*" .hlt] [] with
      | .ok _ => false
      | .error e => e == .duplicateDirect)) = true := by decide +kernel

/-- Section 2.2: the byte loaded and IP after. -/
theorem test_step_addressing :
    (runs [0x8A, 0x46, 0xFE] addressing (fun t => getR8 t .al == 1 && t.ip == 3) &&
    runs [0x8A, 0x06, 0x34, 0x12] addressing (fun t => getR8 t .al == 2 && t.ip == 4) &&
    runs [0x26, 0x8A, 0x46, 0xFE] addressing (fun t => getR8 t .al == 3 && t.ip == 4) &&
    runs [0x8A, 0x86, 0x00, 0x01] addressing (fun t => getR8 t .al == 4 && t.ip == 4) &&
    runs [0x8A, 0x43, 0x80] addressing (fun t => getR8 t .al == 5 && t.ip == 3) &&
    runs [0x8A, 0x05] addressing (fun t => getR8 t .al == 6 && t.ip == 2) &&
    runs [0x8A, 0x47, 0x7F] addressing (fun t => getR8 t .al == 7 && t.ip == 3) &&
    runs [0x88, 0xE0] (r .ax 0x1234 z) (fun t => t.gpr.ax == 0x1212) &&
    runs [0x8B, 0xE0] (r .ax 0x1234 z) (fun t => t.gpr.sp == 0x1234)) = true := by decide +kernel

/-- The word at offset FFFF, and an address beyond the backing store, under both values of their parameters. -/
theorem test_step_memory_edges :
    (runs [0x8B, 0x07] (put 0xFFFF 0x11 (put 0x10000 0x22 (put 0 0x33 (ip 0x100 (r .bx 0xFFFF z)))))
      (fun t => t.gpr.ax == 0x2211) &&
    runs [0x8B, 0x07] { put 0xFFFF 0x11 (put 0x10000 0x22 (put 0 0x33 (ip 0x100 (r .bx 0xFFFF z)))) with
      params := { Params.default with wordSecondByte := .segmentWrap } } (fun t => t.gpr.ax == 0x3311) &&
    faults [0x8A, 0x07] (r .bx 0x0010 (sg .ds 0xFFFF z)) .beyondBackingStore &&
    runs [0x8A, 0x07] { r .bx 0x0010 (sg .ds 0xFFFF z) with params := { Params.default with highAddress := .wrap20 } }
      (fun t => getR8 t .al == 0x8A)) = true := by decide +kernel

/-- Section 2.3. -/
theorem test_flag_helpers :
    (([0x00, 0x03, 0xFF].all parity8 && [0x01, 0x80, 0xEF].all (fun v => !parity8 v)) &&
    psz 0 .word 0x0200 == 0x0004 && pszc 0 .byte 0x100 == 0x0045 && afAdd 0x0F 0x01 && !afAdd 0x08 0x07 &&
    !afSub 0x10 0x01 && !afSub 0xF0 0x01 && afSub 0x01 0x10 && afSub 0x1234 0x0035 && ofAdd .byte 0x80 0x80 0x100 &&
    ofSub .byte 0x7F 0x80 (-1) && flagsLogic 0x0010 .byte 0 == 0x0054) = true := by decide +kernel

/-- Section 2.4, and the source's vectors S7 and S8. -/
theorem test_step_alu :
    (runs [0x04, 0x01] (r .ax 0x00FF z) (fun t => t.gpr.ax == 0 && t.flags == 0x0055 && t.ip == 2) &&
    runs [0x04, 0x01] (r .ax 0x007F z) (fun t => t.gpr.ax == 0x80 && t.flags == 0x0890) &&
    runs [0x2C, 0x01] (r .ax 0x0010 z) (fun t => t.gpr.ax == 0x0F && t.flags == 0x0004) &&
    runs [0x2C, 0x01] (r .ax 0 z) (fun t => t.gpr.ax == 0xFF && t.flags == 0x0095) &&
    runs [0x3C, 0x80] (r .ax 0x7F z) (fun t => t.gpr.ax == 0x7F && t.flags == 0x0895) &&
    runs [0x24, 0x0F] (fl 0x0811 (r .ax 0xF3 z)) (fun t => t.gpr.ax == 0x03 && t.flags == 0x0014) &&
    runs [0x0C, 0x00] (fl 0x0010 z) (fun t => t.flags == 0x0054) &&
    runs [0x34, 0xAA] (r .ax 0x55 z) (fun t => t.gpr.ax == 0xFF && t.flags == 0x0084) &&
    runs [0x05, 0x01, 0x01] (r .ax 0x00FF z) (fun t => t.gpr.ax == 0x0200 && t.flags == 0x0014) &&
    runs [0x83, 0xC0, 0xFF] (r .ax 5 z) (fun t => t.gpr.ax == 4 && t.flags == 0x0011) &&
    runs [0x80, 0xFB, 0x05] (r .bx 5 z) (fun t => t.gpr.bx == 5 && t.flags == 0x0044) &&
    runs [0x00, 0xD8] (r .ax 0x80 (r .bx 0x80 z)) (fun t => t.gpr.ax == 0 && t.flags == 0x0845)) = true := by
  decide +kernel

theorem test_step_unary :
    (runs [0x40] (fl 1 (r .ax 0xFFFF z)) (fun t => t.gpr.ax == 0 && t.flags == 0x0055) &&
    runs [0x48] (r .ax 0x8000 z) (fun t => t.gpr.ax == 0x7FFF && t.flags == 0x0814) &&
    runs [0xFE, 0xC3] (r .bx 0xFF z) (fun t => t.gpr.bx == 0 && t.flags == 0x0054) &&
    runs [0xFE, 0xCB] (r .bx 1 z) (fun t => t.gpr.bx == 0 && t.flags == 0x0044) &&
    runs [0xF6, 0xD8] (r .ax 0 z) (fun t => t.gpr.ax == 0 && t.flags == 0x0044) &&
    runs [0xF6, 0xD8] (r .ax 0x80 z) (fun t => t.gpr.ax == 0x80 && t.flags == 0x0891) &&
    runs [0xF6, 0xD8] (r .ax 1 z) (fun t => t.gpr.ax == 0xFF && t.flags == 0x0095) &&
    runs [0xF6, 0xD0] (fl 0x0891 (r .ax 0x0F z)) (fun t => t.gpr.ax == 0xF0 && t.flags == 0x0891) &&
    runs [0x84, 0xC3] (r .ax 0xF0 (r .bx 0x0F z)) (fun t => t.flags == 0x0044 && t.gpr.ax == 0xF0 && t.gpr.bx == 0x0F) &&
    runs [0xA8, 0x80] (r .ax 0x80 z) (fun t => t.flags == 0x0080) &&
    runs [0xF6, 0xC0, 0x80] (r .ax 0x80 z) (fun t => t.flags == 0x0080 && t.ip == 3)) = true := by decide +kernel

/-- The row of ADC and SBB vectors for the three modes. -/
def modesGive (bs : List Byte) (al : Word) (result : Word) (fs : List Word) : Bool :=
  ([AdcSbbMode.twoPassOverwrite, .twoPassOrCarry, .singlePass].zip fs).all (fun p =>
    runs bs { fl 1 (r .ax al z) with params := { Params.default with adcSbbMode := p.1 } }
      (fun t => t.gpr.ax == result && t.flags == p.2))

theorem test_step_adc_sbb_modes :
    (modesGive [0x14, 0xFF] 0x01 0x01 [0x0000, 0x0001, 0x0011] && modesGive [0x1C, 0xFF] 0x00 0x00 [0x0044, 0x0045, 0x0055] &&
    modesGive [0x14, 0x00] 0x7F 0x80 [0x0890, 0x0890, 0x0890] &&
    modesGive [0x1C, 0x00] 0x80 0x7F [0x0800, 0x0800, 0x0800]) = true := by decide +kernel

/-- Section 2.5. -/
theorem test_step_stack :
    (runs [0x50] (r .ax 0x1234 z) (fun t => t.gpr.sp == 0xFFFE && word t 0xFFFE == 0x1234) &&
    runs [0x54] (ip 0x100 (r .sp 0x0200 z)) (fun t => t.gpr.sp == 0x01FE && word t 0x1FE == 0x0200) &&
    runs [0x54] { ip 0x100 (r .sp 0x0200 z) with params := { Params.default with pushSpValue := .new } }
      (fun t => t.gpr.sp == 0x01FE && word t 0x1FE == 0x01FE) &&
    runs [0x5C] (ip 0x100 (r .sp 0x0200 (putw 0x200 0x1234 z))) (fun t => t.gpr.sp == 0x1234) &&
    runs [0x59] (ip 0x100 (r .sp 0xFFFE (putw 0xFFFE 0x5678 z))) (fun t => t.gpr.cx == 0x5678 && t.gpr.sp == 0) &&
    runs [0x1E] (ip 0x100 (r .sp 0x0200 (sg .ds 0x2000 z))) (fun t => word t 0x1FE == 0x2000 && t.gpr.sp == 0x01FE) &&
    runs [0x07] (ip 0x100 (r .sp 0x01FE (putw 0x1FE 0x2000 z))) (fun t => t.segs.es == 0x2000 && t.gpr.sp == 0x0200) &&
    runs [0x8F, 0x06, 0x00, 0x03] (ip 0x100 (r .sp 0x01FE (putw 0x1FE 0x7777 z)))
      (fun t => word t 0x300 == 0x7777 && t.gpr.sp == 0x0200) &&
    runs [0x9C] (ip 0x100 (fl 0xFFFF (r .sp 0x0200 z))) (fun t => word t 0x1FE == 0xFFFF && t.flags == 0xFFFF) &&
    runs [0x9D] (ip 0x100 (r .sp 0x01FE (putw 0x1FE 0xFFFF z))) (fun t => t.flags == 0xFFFF && t.gpr.sp == 0x0200)) = true := by
  decide +kernel

theorem test_step_interrupts :
    (runs [0xCD, 0x21] (ip 0x100 (r .sp 0x0200 (putw 0x84 0x0500 z)))
      (fun t => t.gpr.sp == 0x01FA && word t 0x1FA == 0x0102 && t.ip == 0x0500) &&
    runs [0xCC] (ip 0x100 (fl 0x0300 (r .sp 0x0200 (putw 0xC 0x0040 (putw 0xE 0x0100 z)))))
      (fun t => t.flags == 0 && word t 0x1FE == 0x0300 && t.segs.cs == 0x0100 && t.ip == 0x0040) &&
    runs [0xCE] (ip 0x100 z) (fun t => t.ip == 0x0101) &&
    runs [0xCE] (ip 0x100 (fl 0x0B00 (r .sp 0x0200 (putw 0x10 0x0600 z))))
      (fun t => t.ip == 0x0600 && word t 0x1FA == 0x0101 && t.flags == 0x0800) &&
    runs [0xCF] (ip 0x100 (r .sp 0x01FA (putw 0x1FA 0x0007 (putw 0x1FC 0x0100 (putw 0x1FE 0xF2D7 z)))))
      (fun t => t.ip == 7 && t.segs.cs == 0x0100 && t.flags == 0xF2D7 && t.gpr.sp == 0x0200)) = true := by decide +kernel

/-- A halted core, woken by the host's `interrupt(8)` (R301, R470). -/
theorem test_host_interrupt_wakes :
    (match hostInterrupt 8 { ip 0x0101 (r .sp 0x0200 (putw 0x20 0x0500 z)) with run := .halted .hlt } with
      | .next t => t.run == .running && t.ip == 0x0500 && t.gpr.sp == 0x01FA && word t 0x1FA == 0x0101
      | .fault _ => false
      | .refused _ => false) = true := by decide +kernel

/-- The single-step trap, on and off, after a step that began with TF = 1 (R468). -/
theorem test_step_single_step_trap :
    (runs [0x90] { ip 0x100 (fl 0x0100 (r .sp 0x0200 (putw 4 0x0700 z))) with
      params := { Params.default with singleStep := true } } (fun t => t.ip == 0x0700 && t.flags == 0 && word t 0x1FA == 0x0101) &&
    runs [0x90] (ip 0x100 (fl 0x0100 z)) (fun t => t.ip == 0x0101 && t.flags == 0x0100)) = true := by decide +kernel

/-- Section 2.6. -/
theorem test_step_jumps :
    (runs [0x74, 0x05] (ip 0x10 (fl 0x0040 z)) (fun t => t.ip == 0x0017) && runs [0x74, 0x05] (ip 0x10 z) (fun t => t.ip == 0x0012) &&
    runs [0x75, 0x80] (ip 0x10 z) (fun t => t.ip == 0xFF92) && runs [0x7C, 0x02] (ip 0x10 (fl 0x0080 z)) (fun t => t.ip == 0x14) &&
    runs [0x7F, 0x02] (ip 0x10 z) (fun t => t.ip == 0x14) && runs [0x76, 0x02] (ip 0x10 (fl 1 z)) (fun t => t.ip == 0x14) &&
    runs [0x7A, 0x02] (ip 0x10 z) (fun t => t.ip == 0x12) && runs [0xEB, 0xFE] (ip 0x10 z) (fun t => t.ip == 0x10) &&
    runs [0xEB, 0x10] (ip 0xFFF0 z) (fun t => t.ip == 0x02) && runs [0xE9, 0x00, 0x80] (ip 0x10 z) (fun t => t.ip == 0x8013) &&
    runs [0xEA, 0x00, 0x01, 0x00, 0x20] z (fun t => t.segs.cs == 0x2000 && t.ip == 0x0100) &&
    runs [0xFF, 0xE3] (r .bx 0x4321 z) (fun t => t.ip == 0x4321) &&
    runs [0xFF, 0x2F] (ip 0x100 (r .bx 0x300 (putw 0x300 0x0040 (putw 0x302 0x1000 z)))) (fun t => t.ip == 0x40 && t.segs.cs == 0x1000) &&
    runs [0xE2, 0xFE] (ip 0x10 (r .cx 1 z)) (fun t => t.gpr.cx == 0 && t.ip == 0x12) &&
    runs [0xE2, 0xFE] (ip 0x10 z) (fun t => t.gpr.cx == 0xFFFF && t.ip == 0x10) &&
    runs [0xE3, 0x05] (ip 0x10 z) (fun t => t.ip == 0x17) &&
    runs [0xE1, 0x05] (ip 0x10 (r .cx 2 z)) (fun t => t.gpr.cx == 1 && t.ip == 0x12) &&
    runs [0xE0, 0x05] (ip 0x10 (r .cx 2 z)) (fun t => t.gpr.cx == 1 && t.ip == 0x17)) = true := by decide +kernel

theorem test_step_calls_returns :
    (runs [0xE8, 0x00, 0x01] (ip 0x100 (r .sp 0x0200 z)) (fun t => t.gpr.sp == 0x01FE && word t 0x1FE == 0x0103 && t.ip == 0x0203) &&
    runs [0xC3] (r .sp 0x01FE (putw 0x1FE 0x0103 z)) (fun t => t.ip == 0x0103 && t.gpr.sp == 0x0200) &&
    runs [0xC2, 0x04, 0x00] (r .sp 0x01FE (putw 0x1FE 0x0103 z)) (fun t => t.ip == 0x0103 && t.gpr.sp == 0x0204) &&
    runs [0x9A, 0x00, 0x05, 0x00, 0x10] (ip 0x100 (r .sp 0x0200 z))
      (fun t => word t 0x1FE == 0 && word t 0x1FC == 0x0105 && t.gpr.sp == 0x01FC && t.segs.cs == 0x1000 && t.ip == 0x0500) &&
    runs [0xCB] (ip 0x10 (r .sp 0x01FC (putw 0x1FC 0x0105 z))) (fun t => t.segs.cs == 0 && t.ip == 0x0105 && t.gpr.sp == 0x0200) &&
    runs [0xFF, 0xD3] (ip 0x100 (r .bx 0x4321 (r .sp 0x0200 z))) (fun t => t.ip == 0x4321 && word t 0x1FE == 0x0102)) = true := by
  decide +kernel

theorem test_step_transfers :
    (runs [0x8D, 0x50, 0x05] (r .bx 0x10 (r .si 0xFFFF z)) (fun t => t.gpr.dx == 0x14) &&
    runs [0xC5, 0x1E, 0x00, 0x01] (putw 0x100 0x1234 (putw 0x102 0x2000 z)) (fun t => t.gpr.bx == 0x1234 && t.segs.ds == 0x2000) &&
    runs [0xA1, 0x34, 0x12] (putw 0x1234 0xABCD z) (fun t => t.gpr.ax == 0xABCD) &&
    runs [0x98] (r .ax 0x80 z) (fun t => t.gpr.ax == 0xFF80) && runs [0x99] (r .ax 0x8000 z) (fun t => t.gpr.dx == 0xFFFF) &&
    runs [0x93] (r .ax 1 (r .bx 2 z)) (fun t => t.gpr.ax == 2 && t.gpr.bx == 1) && runs [0x90] z (fun t => t.ip == 1) &&
    runs [0x86, 0xE0] (r .ax 0x1234 z) (fun t => t.gpr.ax == 0x3412) &&
    runs [0x9F] (fl 0x0095 z) (fun t => getR8 t .ah == 0x95) && runs [0x9E] (r .ax 0xFF00 z) (fun t => t.flags == 0x00D5) &&
    runs [0xC7, 0x06, 0x00, 0x02, 0x34, 0x12] z (fun t => word t 0x200 == 0x1234) &&
    runs [0x8E, 0xC0] (r .ax 0x2000 z) (fun t => t.segs.es == 0x2000) && runs [0x8C, 0xD8] (sg .ds 0x2000 z) (fun t => t.gpr.ax == 0x2000) &&
    runs [0xB4, 0xFF] (r .ax 0x1234 z) (fun t => t.gpr.ax == 0xFF34) &&
    runs [0xD7] (r .ax 3 (r .bx 0x100 (put 0x103 0x5A z))) (fun t => t.gpr.ax == 0x5A)) = true := by decide +kernel

theorem test_step_flag_instructions :
    (runs [0xF9] z (fun t => t.flags == 1) && runs [0xF5] (fl 1 z) (fun t => t.flags == 0) && runs [0xF8] (fl 1 z) (fun t => t.flags == 0) &&
    runs [0xFD] z (fun t => t.flags == 0x0400) && runs [0xFC] (fl 0x0400 z) (fun t => t.flags == 0) &&
    runs [0xFB] z (fun t => t.flags == 0x0200) && runs [0xFA] (fl 0x0200 z) (fun t => t.flags == 0)) = true := by decide +kernel

/-- Section 2.7. -/
def abc (a : Nat) (x y w : Byte) (s : State) : State := put a x (put (a + 1) y (put (a + 2) w s))

theorem test_step_strings :
    (runs [0xF3, 0xA4] (abc 0x100 0x41 0x42 0x43 (r .cx 3 (r .si 0x100 (r .di 0x200 z))))
      (fun t => Memory.read t.mem 0x200 == 0x41 && Memory.read t.mem 0x202 == 0x43 && t.gpr.si == 0x103 && t.gpr.di == 0x203 &&
        t.gpr.cx == 0) &&
    runs [0xF3, 0xA4] (r .si 0x100 (r .di 0x200 z)) (fun t => t.ip == 2 && t.gpr.si == 0x100) &&
    runs [0xA4] (fl 0x0400 (put 0x100 0x77 (r .si 0x100 (r .di 0x200 z))))
      (fun t => Memory.read t.mem 0x200 == 0x77 && t.gpr.si == 0xFF && t.gpr.di == 0x1FF) &&
    runs [0xF3, 0xA6] (abc 0x100 0x41 0x42 0x43 (abc 0x200 0x41 0x42 0x44 (r .cx 5 (r .si 0x100 (r .di 0x200 z)))))
      (fun t => t.gpr.cx == 2 && t.gpr.si == 0x103 && t.gpr.di == 0x203 && t.flags == 0x0095) &&
    runs [0xF2, 0xAE] (abc 0x200 0x41 0x42 0x43 (r .ax 0x43 (r .cx 5 (r .di 0x200 z))))
      (fun t => t.gpr.cx == 2 && t.gpr.di == 0x203 && t.flag .ZF) &&
    runs [0xAB] (r .ax 0xBEEF (r .di 0x10 (sg .es 0x1000 z))) (fun t => word t 0x10010 == 0xBEEF && t.gpr.di == 0x12) &&
    runs [0x26, 0xAC] (r .si 5 (sg .es 0x1000 (put 0x10005 0x99 z))) (fun t => t.gpr.ax == 0x99 && t.gpr.si == 6) &&
    runs [0x26, 0xAA] (r .ax 0x77 (sg .es 0x1000 z)) (fun t => Memory.read t.mem 0x10000 == 0x77)) = true := by decide +kernel

/-- Section 2.8: the operand and the flags the rule defines, which no draw touches. -/
theorem test_shift_steps :
    (shiftSteps .shl .byte 1 (0x81, false) == (0x02, true) && shiftOF .shl .byte 0x81 0x02 true &&
    shiftSteps .shr .byte 1 (0x81, false) == (0x40, true) && shiftOF .shr .byte 0x81 0x40 true &&
    shiftSteps .sar .byte 1 (0x81, false) == (0xC0, true) && !shiftOF .sar .byte 0x81 0xC0 true &&
    shiftSteps .rol .byte 1 (0x81, false) == (0x03, true) && shiftOF .rol .byte 0x81 0x03 true &&
    shiftSteps .ror .byte 1 (0x01, false) == (0x80, true) && shiftOF .ror .byte 0x01 0x80 true &&
    shiftSteps .rcl .byte 1 (0x80, false) == (0x00, true) && shiftOF .rcl .byte 0x80 0x00 true &&
    shiftSteps .rcr .byte 1 (0x01, true) == (0x80, true) && shiftSteps .shl .byte 9 (0x81, false) == (0, false) &&
    shiftSteps .shl .byte 8 (0x81, false) == (0, true) && shiftSteps .shr .word 4 (0x1234, false) == (0x0123, false) &&
    shiftSteps .sar .byte 2 (0x81, false) == (0xE0, false)) = true := by decide +kernel

theorem test_step_shifts :
    (runs [0xD0, 0xE0] (r .ax 0x81 z) (fun t => t.gpr.ax == 0x02) && runs [0xD2, 0xE0] (fl 0x0801 (r .ax 0x81 z))
      (fun t => t.gpr.ax == 0x81 && t.flags == 0x0801) &&
    runs [0xD0, 0xC0] (r .ax 0x81 z) (fun t => t.gpr.ax == 0x03 && t.flags == 0x0801) &&
    runs [0xD3, 0xE8] (r .ax 0x1234 (r .cx 4 z)) (fun t => t.gpr.ax == 0x0123)) = true := by decide +kernel

/-- A drawn AF leaves the flags SHL defines (R400, R405, R224). -/
theorem test_shift_flags_defined :
    getFlag (shiftFlags .shl 0 0 .byte 1 0x81 0x02 true) .CF = true ∧ getFlag (shiftFlags .shl 0 0 .byte 1 0x81 0x02 true) .OF = true ∧
      getFlag (shiftFlags .shl 0 0 .byte 1 0x81 0x02 true) .ZF = false := by
  simp only [shiftFlags, isShift, if_true]
  refine ⟨?_, ?_, ?_⟩ <;> rw [getFlag_drawFlags_ne _ _ (by decide)] <;> decide

/-- Section 2.9: the registers. -/
theorem test_step_muldiv :
    (runs [0xF6, 0xE3] (ip 0x100 (r .ax 0x10 (r .bx 0x10 z))) (fun t => t.gpr.ax == 0x0100) &&
    runs [0xF7, 0xE3] (ip 0x100 (r .ax 0x8000 (r .bx 2 z))) (fun t => t.gpr.ax == 0 && t.gpr.dx == 1) &&
    runs [0xF6, 0xEB] (ip 0x100 (r .ax 0xFF (r .bx 0xFF z))) (fun t => t.gpr.ax == 1) &&
    runs [0xF6, 0xEB] (ip 0x100 (r .ax 0x80 (r .bx 0xFF z))) (fun t => t.gpr.ax == 0x80) &&
    runs [0xF6, 0xF3] (ip 0x100 (r .ax 7 (r .bx 2 z))) (fun t => t.gpr.ax == 0x0103 && t.ip == 0x102) &&
    runs [0xF7, 0xF3] (ip 0x100 (r .dx 1 (r .bx 2 z))) (fun t => t.gpr.ax == 0x8000 && t.gpr.dx == 0) &&
    runs [0xF6, 0xFB] (ip 0x100 (r .ax 0xFFF9 (r .bx 2 z))) (fun t => t.gpr.ax == 0xFFFD) &&
    runs [0xF6, 0xFB] (ip 0x100 (r .ax 7 (r .bx 0xFE z))) (fun t => t.gpr.ax == 0x01FD) &&
    runs [0xF6, 0xFB] { ip 0x100 (r .ax 0xFF00 (r .bx 2 z)) with params := { Params.default with idivRange := .full } }
      (fun t => t.gpr.ax == 0x0080)) = true := by decide +kernel

theorem test_step_divide_errors :
    ([(r .ax 7 z, [0xF6, 0xF3]), (r .ax 0x0200 (r .bx 2 z), [0xF6, 0xF3]), (r .ax 0xFF00 (r .bx 2 z), [0xF6, 0xFB]),
      (r .ax 0x1234 z, [0xD4, 0x00])].all (fun c => runs c.2 (ip 0x100 (fl 0x0303 (r .sp 0x0200 (putw 0 0x0500 c.1))))
        (fun t => t.ip == 0x0500 && t.gpr.ax == c.1.gpr.ax && t.gpr.sp == 0x01FA && word t 0x1FA == 0x0102 && word t 0x1FE == 0x0303 &&
          t.flags == 0x0003))) = true := by decide +kernel

theorem test_step_decimal :
    (runs [0x27] (r .ax 0x3C z) (fun t => t.gpr.ax == 0x42) && runs [0x27] (r .ax 0x9A z) (fun t => t.gpr.ax == 0) &&
    runs [0x2F] (r .ax 0x2D z) (fun t => t.gpr.ax == 0x27) && runs [0x37] (r .ax 0x000B z) (fun t => t.gpr.ax == 0x0101) &&
    runs [0x3F] (r .ax 0x020F z) (fun t => t.gpr.ax == 0x0109) && runs [0xD4, 0x0A] (r .ax 0x3F z) (fun t => t.gpr.ax == 0x0603) &&
    runs [0xD5, 0x0A] (r .ax 0x0603 z) (fun t => t.gpr.ax == 0x003F) &&
    daaAdjust 0x3C 0 == (0x42, 0x0014) && daaAdjust 0x9A 0 == (0, 0x0055) && dasAdjust 0x2D 0 == (0x27, 0x0014)) = true := by
  decide +kernel

/-- Section 2.10. -/
theorem test_step_ports :
    (runs [0xE4, 0x60] (r .ax 0x12FF z) (fun t => t.gpr.ax == 0x1200 && t.ip == 2) &&
    runs [0xED] (r .ax 0x12FF (r .dx 0x03F8 z)) (fun t => t.gpr.ax == 0 && t.ip == 1) &&
    runs [0xE6, 0x80] z (fun t => t.ip == 2 && t.portCalls == []) &&
    runs [0xEF] { r .ax 0xBEEF (r .dx 0x03F8 z) with params := { Params.default with mappedPorts := [0x03F8] } }
      (fun t => t.portCalls == [.pout true 0x03F8 0xBEEF]) &&
    runs [0xE4, 0x60] { z with params := { Params.default with mappedPorts := [0x60] } }
      (fun t => t.portCalls == [.pin false 0x60] && t.draws == 1) &&
    runs [0xD9, 0x06, 0x00, 0x01] z (fun t => t.ip == 4 && t.gpr == z.gpr) && runs [0xD8, 0xC0] z (fun t => t.ip == 2) &&
    runs [0x9B] z (fun t => t.ip == 1)) = true := by decide +kernel

/-- Section 2.11: the address-mode cost of the default table. -/
theorem test_ea_cost :
    ([(RM.direct 0x1234, 6), (.mem .bx .none, 5), (.mem .bx (.d8 0x10), 9), (.mem .bxSi .none, 7), (.mem .bpSi .none, 8),
      (.mem .bxSi (.d8 0x10), 11), (.mem .bxDi (.d16 0x0100), 12), (.reg .bx, 0)].all (fun c => addressCost z c.1 == c.2) &&
    addressCost { z with pfx := { Prefixes.clear with segOverride := some .es } } (.mem .bx .none) == 7) = true := by
  decide +kernel

/-- Section 2.11: `26 8A 07` adds the base cost of the prefix, of the MOV and 7; `26 0F` the prefix's alone. -/
theorem test_step_clocks :
    (match Machine.step (placeBytes [0x26, 0x8A, 0x07] 0 { z with params := { Params.default with cycleAccounting := true } }) with
      | .next t => some t.clocks
      | .fault _ => none
      | .refused _ => none) = some (0 + (Config.clockTable (.direct .segOverride) .base + 0) +
        (Config.clockTable (.direct .movRmReg) .base + 7)) := rfl

/-- Program P6: MOV r16,Iw adds one base cost, whichever of BE, BF and B9 it is; the handlers of REP and MOVSB. And
section 2.11: the CL-counted shape of `D2 E0` is that of Grp2's SHL, an empty slot runs no handler. -/
theorem test_handler_costs :
    ([0xBE, 0xBF, 0xB9].all (fun op => handlerOf defaultRegistry [op, 0, 1] == some (.direct .movRegImm)) &&
    handlerOf defaultRegistry [0xF3] == some (.direct .rep) && handlerOf defaultRegistry [0xA4] == some (.direct .movs) &&
    handlerOf defaultRegistry [0xD2, 0b11_100_000] == some (.child (.grp2 .shl)) &&
    (handlerOf defaultRegistry [0x0F]).isNone && (handlerOf defaultRegistry [0xFE, 0b11_010_000]).isNone) = true := by decide

/-- A tier-G instruction is refused when the model does not admit it, and a tier-N one runs (R14, D46). -/
theorem test_step_tier_refusal :
    ((match Machine.step (placeBytes [0xB0, 0x01] 0 { z with params := { Params.default with admitTierG := false } }) with
      | .next _ => false
      | .fault _ => false
      | .refused e => e == .tierGNotAdmitted) &&
    runs [0x04, 0x01] { z with params := { Params.default with admitTierG := false } } (fun t => t.gpr.ax == 1) &&
    runs [0xF6, 0xF3] (put 0 0x34 (put 1 0x12 { ip 0x100 z with params := { Params.default with admitTierG := false } }))
      (fun t => t.ip == 0x1234) &&
    [.inImm .byte 0x60, .inDx .word, .outImm .word 0x80, .outDx .byte].all (fun i => !needsTierG i z) &&
    runs [0xEC] (r .ax 5 { z with params := { Params.default with admitTierG := false } }) (fun t => t.gpr.ax == 0)) = true := by
  decide +kernel

/-- Section 2.12. -/
theorem test_host_reset :
    (let t := hostReset { r .ax 5 (sg .cs 7 (ip 9 (fl 3 z))) with run := .halted .unmapped, clocks := 4 }
    t.gpr == z.gpr && t.segs == z.segs && t.ip == 0 && t.flags == 0 && t.run == .running && t.clocks == 0) = true := by
  decide +kernel

/-- `withFetchWord` places an opcode-table word where the next step fetches it: the opcode is bits 15:8 of the word. -/
theorem test_with_fetch_word :
    (match Machine.step ((r .ax 0x80 (r .bx 0x80 z)).withFetchWord 16 0x00D8) with
      | .next t => t.gpr.ax == 0 && t.flags == 0x0845 && t.ip == 2
      | .fault _ => false
      | .refused _ => false) = true := by decide +kernel

/-! ## Witnesses: states and operands that meet the hypotheses of each statement, at the edges of their ranges -/

/-- A state with an odd stack and registers at their edges; DS:FFFF is the last byte of the backing store. -/
def edge : State := sg .ds 0xF000 (ip 0xFFFE (fl 0xFFFF (r .sp 0x0001 (r .bx 0xFFFF (r .cx 0x00FF (r .ax 0x8000 z))))))

/-- The last byte of the backing store as an operand. -/
def lastByte : RM := .direct 0xFFFF

/-- The last word of the backing store as an operand. -/
def lastWord : RM := .direct 0xFFFE

theorem witness_EncodedInstructionDecodes : (Instr.cmpRmImm ⟨.di, lastWord⟩ (.iw81 0xFFFF)).wf = true := by decide

theorem witness_DecodedBytesEncode :
    decode [0xFF, 0xBE, 0x34, 0x12, 0xF4] = .ok (.emptyChild 0xFF ⟨.di, .mem .bp (.d16 0x1234)⟩, [0xF4]) := rfl

theorem witness_SixBytesDecode : 6 ≤ ([0x81, 0x3E, 0x34, 0x12, 0x78, 0x56] : List Byte).length := by decide

theorem witness_RegistryOrderIndependent :
    (∃ t, builds [.demux "1000_0000" [("000", 1)], .direct "0000_0***" 2] = .ok t) ∧
      (∃ e, builds [.direct "0000_0*0*" 1, .direct "0000_0000" 2] = .error e) ∧
      [Registration.direct "0000_0*0*" 1, .direct "0000_0000" 2].Perm [Registration.direct (C := Nat) "0000_0000" 2, .direct "0000_0*0*" 1] ∧
      (∃ bs, compileTemplate 8 "0000_0***" = .ok bs ∧ 7 ∈ expand bs) ∧
      (∃ b1 b2, compileTemplate 8 "0000_0*0*" = .ok b1 ∧ compileTemplate 8 "0000_0*01" = .ok b2 ∧ 5 ∈ expand b1 ∧
        5 ∈ expand b2) ∧
      (∃ tab, builds [.demux "1000_00**" [("11*", 4)]] = .ok tab) ∧
      ∃ bs b3, compileTemplate 8 "1000_00**" = .ok bs ∧ 0x83 ∈ expand bs ∧ compileTemplate 3 "11*" = .ok b3 ∧ 7 ∈ expand b3 :=
  ⟨⟨_, rfl⟩, ⟨_, rfl⟩, List.Perm.swap _ _ _, ⟨_, rfl, by decide⟩, ⟨_, _, rfl, rfl, by decide, by decide⟩, ⟨_, rfl⟩,
    _, _, rfl, by decide, rfl, by decide⟩

/-- HLT at CS:IP, in the last byte before IP wraps, under the opcode map and under a registry that binds HLT to byte 0F. -/
theorem witness_StepRunsInstruction : isPrefix .hlt = false ∧ (put 0xFFFF 0xF4 (ip 0xFFFF z)).run = .running ∧
    fetches (put 0xFFFF 0xF4 (ip 0xFFFF z)) .hlt (encode .hlt) ∧ needsTierG .hlt (ip 0 z) = false ∧
    fetches (put 0xFFFF 0x0F { ip 0xFFFF z with params := { Params.default with registry := List.replicate 256 (.direct .hlt) } })
      .hlt [0x0F] :=
  ⟨rfl, rfl, ⟨fun k h => by
    match k, h with
    | 0, _ => rfl, rfl⟩, rfl, fun k h => by
    match k, h with
    | 0, _ => rfl, rfl⟩

/-- REPZ in the last byte before IP wraps, and HLT at CS:IP to end the chain. -/
theorem witness_PrefixNests : isPrefix .repz = true ∧ fetches (put 0xFFFF 0xF3 (ip 0xFFFF z)) .repz (encode .repz) ∧
    (∃ t, exec .repz (setIp (put 0xFFFF 0xF3 (ip 0xFFFF z)) 0) = .next t) ∧ isPrefix .hlt = false ∧
    fetches (put 0xFFFF 0xF4 (ip 0xFFFF z)) .hlt (encode .hlt) ∧ z.run = .running :=
  ⟨rfl, ⟨fun k h => by
    match k, h with
    | 0, _ => rfl, rfl⟩, ⟨_, rfl⟩, rfl, ⟨fun k h => by
    match k, h with
    | 0, _ => rfl, rfl⟩, rfl⟩

theorem witness_HaltedCoreTakesNoStep : isHalted { edge with run := .halted .emptyChild } = true ∧
    ∃ t, hostInterrupt 0xFF { edge with run := .halted .emptyChild } = .next t := ⟨rfl, _, rfl⟩

/-- Memory that holds one byte at each of a list of addresses reads as that byte there. -/
theorem read_same (v : Byte) (l : List Nat) {a : Nat} (h : a ∈ l) : Memory.read (l.map (fun k => (k, v))) a = v := by
  induction l with
  | nil => cases h
  | cons x xs ih =>
    rw [List.map_cons, Memory.read]
    split
    · rfl
    · next e => exact ih ((List.mem_cons.1 h).resolve_left (fun e' => e e'.symm))

/-- Memory whose first `n` bytes are the prefix 26. -/
def prefixesOnly (n : Nat) : State := { z with mem := (List.range n).map (fun k => (k, 0x26)) }

theorem read_prefixesOnly {n : Nat} (off : Word) (h : off.toNat < n) :
    readByte (prefixesOnly n) (lin (prefixesOnly n).segs.cs off) = .ok 0x26 := by
  have hl : lin (prefixesOnly n).segs.cs off = off.toNat := by show 0 * 16 + off.toNat = off.toNat; omega
  have hp : physical (prefixesOnly n).params off.toNat = some off.toNat := by
    have := off.isLt
    unfold physical memorySize
    rw [if_pos (by omega)]
  have e : (prefixesOnly n).mem = (List.range n).map (fun k => (k, 0x26)) := rfl
  rw [hl]
  unfold readByte
  rw [hp, e]
  simp only [read_same 0x26 (List.range n) (List.mem_range.2 h)]

/-- A code segment that holds nothing but prefixes. -/
theorem witness_EndlessPrefixChainStops : (prefixesOnly 65536).run = .running ∧
    ∀ off : Word, ∃ b, readByte (prefixesOnly 65536) (lin (prefixesOnly 65536).segs.cs off) = .ok b ∧
      (prefixesOnly 65536).params.registry.slot b ∈ prefixSlots :=
  ⟨rfl, fun off => ⟨0x26, read_prefixesOnly off off.isLt, List.mem_cons_self⟩⟩

/-- A state that does not admit tier G, with `MOV AL,1` at CS:IP. -/
def notAdmitted : State := put 0xFFFE 0xB0 (put 0xFFFF 1 { ip 0xFFFE z with params := { Params.default with admitTierG := false } })

theorem witness_RefusalOnlyWithoutTierG : (match Machine.step notAdmitted with
      | .refused r => r == .tierGNotAdmitted
      | _ => false) = true ∧
    isPrefix (.movRegImm .ax (.ib 1)) = false ∧ notAdmitted.run = .running ∧ notAdmitted.params.admitTierG = false ∧
    fetches notAdmitted (.movRegImm .ax (.ib 1)) (encode (.movRegImm .ax (.ib 1))) ∧
    needsTierG (.movRegImm .ax (.ib 1)) notAdmitted = true ∧ rmValue z .byte (.reg .bx) = .ok 0 ∧
    rmValue z .byte (.reg .sp) = .ok 0 :=
  ⟨by decide +kernel, rfl, rfl, rfl, ⟨fun k h => by
    match k, h with
    | 0, _ => rfl
    | 1, _ => rfl, rfl⟩, rfl, rfl, rfl⟩

theorem next_of_isNext {o : Out} (h : (match o with | .next _ => true | .fault _ => false | .refused _ => false) = true) :
    ∃ t, o = .next t := by
  cases o with
  | next t => exact ⟨t, rfl⟩
  | fault _ => cases h
  | refused _ => cases h

/-- Memory that lists the last byte of the backing store alone. -/
def topByte : State := put 0xFFFFF 1 z

theorem topByte_registry : topByte.params.registry.wf = true := by decide +kernel

theorem topByte_step : (match Machine.step topByte with | .next _ => true | .fault _ => false | .refused _ => false) = true := by
  decide +kernel

theorem witness_StepKeepsInvariant : topByte.Inv ∧ ∃ t, Machine.step topByte = .next t :=
  ⟨⟨rfl, topByte_registry, rfl, rfl, fun _ => rfl⟩, next_of_isNext topByte_step⟩

/-- A launch that succeeds, and one that a conflict stops. -/
theorem witness_ResetState : (∃ t : Registry, buildRegistry [.direct "0000_0000" .hlt] = .ok t) ∧
    (∃ e, buildRegistry [.direct "0000_000*" Handler.hlt, .direct (C := Child) "0000_0000" .hlt] = .error e) ∧ 0xFFFFF < memorySize :=
  ⟨⟨_, rfl⟩, ⟨_, rfl⟩, by decide⟩

theorem witness_OnlyHaltInstructionsHalt : (∃ t, exec (.unmapped 0x0F) edge = .next t) ∧ (∃ t, exec (.int 0xFF) edge = .next t) ∧
    ∃ t, exec (.emptyChild 0xFF ⟨.di, lastWord⟩) edge = .next t := ⟨⟨_, rfl⟩, ⟨_, rfl⟩, _, rfl⟩

theorem witness_UndefinedFormsFault : undefinedForm (.movRmSeg ⟨.sp, lastWord⟩) = true ∧ rmAccessible edge .word lastWord = true ∧
    undefinedForm (.movSegRm ⟨.di, .reg .ax⟩) = true ∧ undefinedForm (.lea ⟨.ax, .reg .di⟩) = true ∧
    undefinedForm (.jmpFarMem ⟨.bp, .reg .ax⟩) = true := by decide

theorem witness_EveryDefinedFormCompletes :
    ({ edge with params := { Params.default with highAddress := .wrap20 } }).params.highAddress = .wrap20 ∧
    undefinedForm (.movSegRm ⟨.bx, lastByte⟩) = false ∧ exec (.movSegRm ⟨.bx, lastByte⟩) edge = .fault .beyondBackingStore ∧
    exec (.lea ⟨.ax, .reg .di⟩) edge = .fault .undefinedForm := ⟨rfl, rfl, rfl, rfl⟩

/-- The frames: an instruction of each shape that answers a next state. -/
theorem witness_RegisterFrame : (∃ t, exec (.xchgRmReg .byte ⟨.di, lastByte⟩) edge = .next t) ∧ (∃ t, exec (.popReg .sp) edge = .next t) ∧
    ∃ t, exec (.aam 0) edge = .next t := ⟨⟨_, rfl⟩, ⟨_, rfl⟩, _, rfl⟩

theorem witness_SegmentFrame : (∃ t, exec (.les ⟨.ax, .direct 0xFFFC⟩) edge = .next t) ∧ (∃ t, exec .iret edge = .next t) ∧
    ∃ t, exec .int3 edge = .next t := ⟨⟨_, rfl⟩, ⟨_, rfl⟩, _, rfl⟩

theorem witness_FlagFrame : (∃ t, exec (.sbbRmReg .toRm .byte ⟨.ax, lastByte⟩) edge = .next t) ∧
    writesAllFlags (.sbbRmReg .toRm .byte ⟨.ax, lastByte⟩) = false ∧
    15 < 16 ∧ ∀ g, g ∈ writtenFlags (.sbbRmReg .toRm .byte ⟨.ax, lastByte⟩) edge → flagBit g ≠ 15 := by
  refine ⟨⟨_, rfl⟩, rfl, by decide, ?_⟩
  intro g _
  cases g <;> decide

theorem witness_MemoryFrame : (∃ t, exec (.pushReg .ax) edge = .next t) ∧ 0 ∉ storedCells (.pushReg .ax) edge ∧
    0xFFFF ∈ storedCells (.pushReg .ax) edge := by
  refine ⟨⟨_, rfl⟩, ?_, ?_⟩ <;> decide

theorem witness_HiddenStateFrame : (∃ t, exec (.cmpRmReg .toRm .word ⟨.ax, lastWord⟩) edge = .next t) ∧
    isPrefix (.cmpRmReg .toRm .word ⟨.ax, lastWord⟩) = false ∧ transfersControl (.cmpRmReg .toRm .word ⟨.ax, lastWord⟩) = false ∧
    takesInterrupt (.cmpRmReg .toRm .word ⟨.ax, lastWord⟩) edge = false ∧
    (Instr.cmpRmReg .toRm .word ⟨.ax, lastWord⟩).modrm? = some ⟨.ax, lastWord⟩ ∧ (∃ t, exec (.pushReg .ax) edge = .next t) ∧
    (Instr.pushReg .ax).modrm? = none := ⟨⟨_, rfl⟩, rfl, rfl, rfl, rfl, ⟨_, rfl⟩, rfl⟩

/-- AddFlags, SubFlags, AdcSbbModes and LogicAndNoCarryFlags: the greatest operands of both widths. -/
theorem witness_flag_operands : 255 < 2 ^ bits .byte ∧ 65535 < 2 ^ bits .word ∧ 0 < 2 ^ bits .byte := by decide

theorem witness_AluRegisterForms : edge.mem.wf = true ∧ rmValue edge .byte lastByte = .ok 0 ∧ rmValue edge .word lastWord = .ok 0 ∧
    rmValue edge .word (.reg .sp) = .ok 1 := ⟨rfl, rfl, rfl, rfl⟩

theorem witness_AluImmediateForms : edge.mem.wf = true ∧ rmValue edge (GrpImm.width (.ib80 0xFF)) lastByte = .ok 0 ∧
    rmValue edge (GrpImm.width (.sx83 0x80)) (.reg .ax) = .ok 0x8000 := ⟨rfl, rfl, rfl⟩

theorem witness_TestForms :
    (∃ m, Instr.testRmReg .byte ⟨.cx, lastByte⟩ = .testRmReg .byte m ∧ rmValue edge .byte m.rm = .ok 0 ∧ 0xFF = getReg edge .byte m.reg) ∧
    (∃ j, Instr.testAccImm (.iw 0xFFFF) = .testAccImm j ∧ Width.word = j.width ∧ 0x8000 = getReg edge .word .ax ∧ 0xFFFF = immValue j) ∧
    ∃ m j, Instr.testRmImm ⟨.ax, lastWord⟩ (.iw 0xFFFF) = .testRmImm m j ∧ Width.word = j.width ∧ rmValue edge .word m.rm = .ok 0 ∧
      0xFFFF = immValue j :=
  ⟨⟨_, rfl, rfl, rfl⟩, ⟨_, rfl, rfl, rfl, rfl⟩, _, _, rfl, rfl, rfl, rfl⟩

/-- IncDecForms and NotNegForms. -/
theorem witness_unary : edge.mem.wf = true ∧ rmValue edge .byte lastByte = .ok 0 ∧ rmValue edge .word (.reg .bx) = .ok 0xFFFF ∧
    rmValue edge .word (.reg .ax) = .ok 0x8000 := ⟨rfl, rfl, rfl, rfl⟩

/-- Pushes and PushfPopfRoundTrip: SP = 1 wraps, SP = 0 is the top of the segment; a pushed r/m operand. -/
theorem witness_Pushes : edge.mem.wf = true ∧ stackAccessible edge (pushedSp edge 1) = true ∧ stackAccessible z (pushedSp z 1) = true ∧
    (∃ m, Instr.pushRm ⟨.si, lastWord⟩ = .pushRm m ∧ rmValue edge .word m.rm = .ok 0) ∧
    (∃ q, Instr.pushReg .sp = .pushReg q ∧ (1 : Word) = if q = .sp ∧ edge.params.pushSpValue = .new then pushedSp edge 1 else getR16 edge q) :=
  ⟨rfl, rfl, rfl, ⟨_, rfl, rfl⟩, _, rfl, rfl⟩

theorem witness_Pops : edge.mem.wf = true ∧ stackWord edge edge.gpr.sp = .ok 0 ∧
    stackWord (r .sp 0xFFFE (putw 0xFFFE 0x5678 z)) 0xFFFE = .ok 0x5678 ∧ rmAccessible edge .word lastWord = true := ⟨rfl, rfl, rfl, rfl⟩

theorem witness_ExceptionEntry : edge.mem.wf = true ∧ stackAccessible edge (pushedSp edge 1) = true ∧
    stackAccessible edge (pushedSp edge 2) = true ∧ stackAccessible edge (pushedSp edge 3) = true ∧ edge.flag .OF = true :=
  ⟨rfl, rfl, rfl, rfl, rfl⟩

theorem witness_IntoAndIret : z.flag .OF = false ∧ stackWord edge edge.gpr.sp = .ok 0 ∧ stackWord edge (edge.gpr.sp + 2) = .ok 0 ∧
    stackWord edge (edge.gpr.sp + 4) = .ok 0 := ⟨rfl, rfl, rfl, rfl⟩

/-- The handler may do anything to AX, say. -/
theorem witness_InterruptIretRoundTrip : edge.mem.wf = true ∧ ∃ t, hostInterrupt 0xFF edge = .next t ∧
    (r .ax 5 t).gpr.sp = t.gpr.sp ∧ (r .ax 5 t).segs.ss = t.segs.ss ∧ (r .ax 5 t).params = t.params ∧
    ∀ a, a ∈ interruptCells edge → Memory.read (r .ax 5 t).mem a = Memory.read t.mem a :=
  ⟨rfl, _, rfl, rfl, rfl, rfl, fun _ _ => rfl⟩

theorem witness_HaltingInstructions : haltCauseOf .hlt = some .hlt ∧ haltCauseOf (.unmapped 0x0F) = some .unmapped ∧
    haltCauseOf (.emptyChild 0xFE ⟨.di, lastByte⟩) = some .emptyChild ∧ rmAccessible edge (demuxWidth 0xFE) lastByte = true :=
  ⟨rfl, rfl, rfl, rfl⟩

theorem witness_MovForms : edge.mem.wf = true ∧ rmValue edge .byte lastByte = .ok 0 ∧ rmAccessible edge (Imm.width (.ib 1)) lastByte = true ∧
    rmAccessible edge (Imm.width (.iw 1)) lastWord = true := ⟨rfl, rfl, rfl, rfl⟩

theorem witness_MovSegmentAndMoffs : edge.mem.wf = true ∧ SegReg.ofNumber .bx = some .ds ∧ SegReg.ofNumber .cx = some .cs ∧
    rmValue edge .word lastWord = .ok 0 ∧ SegReg.ds = edge.pfx.segOverride.getD .ds ∧
    readMem edge .byte (lin (getSeg edge .ds) 0xFFFF) 0xFFFF = .ok 0 ∧ SegReg.ofNumber .sp = none ∧
    SegReg.ofNumber .di = none ∧ rmAccessible edge .word lastWord = true := ⟨rfl, rfl, rfl, rfl, rfl, rfl, rfl, rfl, rfl⟩

/-- AddressLoads, and the far pointers of Jumps and Calls: the last four bytes of the backing store. -/
theorem witness_AddressLoads : isRegister (.direct 0xFFFC) = false ∧ rmAccessible edge .word lastWord = true ∧
    rmValue edge .word (.direct 0xFFFC) = .ok 0 ∧
    readWord edge (lin (getSeg edge (effectiveSegment edge (.direct 0xFFFC))) (effectiveAddress edge (.direct 0xFFFC) + 2))
      (effectiveAddress edge (.direct 0xFFFC) + 2) = .ok 0 ∧ stackAccessible edge (pushedSp edge 2) = true ∧
    isRegister (.reg .di) = true ∧ rmAccessible edge .word lastByte = false ∧
    (EaBase.bpDi, edge.gpr.bp, edge.gpr.di) ∈ [(EaBase.si, edge.gpr.si, 0), (.bpDi, edge.gpr.bp, edge.gpr.di)] ∧
    (-128 : Int) = (0x80 : Byte).toInt := ⟨rfl, rfl, rfl, rfl, rfl, rfl, rfl, by decide, rfl⟩

theorem witness_Exchanges : edge.mem.wf = true ∧ rmValue edge .byte (.reg .sp) = .ok 0x80 ∧ rmValue edge .byte lastByte = .ok 0 :=
  ⟨rfl, rfl, rfl⟩

/-- XLAT where BX + AL wraps. -/
theorem witness_Conversions : (0x0000 : Word).toNat = ((r .ax 1 edge).gpr.bx.toNat + (getR8 (r .ax 1 edge) .al).toNat) % 65536 ∧
    readByte (r .ax 1 edge) (lin (getSeg (r .ax 1 edge) ((r .ax 1 edge).pfx.segOverride.getD .ds)) 0) = .ok 0 := ⟨rfl, rfl⟩

theorem witness_FlagInstructions : (Instr.cmc, Flag.CF, !edge.flag .CF) ∈
    [(.clc, .CF, false), (.stc, .CF, true), (.cmc, .CF, !edge.flag .CF), (.cli, .IF, false), (.sti, .IF, true), (.cld, .DF, false),
      (.std, .DF, true)] := by decide

/-- JG with ZF = 0 and SF = OF is in the table of ConditionalJumps as taken. -/
theorem witness_ConditionalJumps : (!z.flag .ZF && z.flag .SF == z.flag .OF) = true ∧ (edge.flag .ZF || edge.flag .SF != edge.flag .OF) = true ∧
    (Instr.jnle 0x80, true) ∈ [(.jle 0x80, z.flag .ZF || z.flag .SF != z.flag .OF), (.jnle 0x80, !z.flag .ZF && z.flag .SF == z.flag .OF)] := by
  decide

theorem witness_Jumps : rmValue edge .word (.reg .bx) = .ok 0xFFFF ∧ rmValue edge .word lastWord = .ok 0 ∧
    isRegister (.direct 0xFFFC) = false ∧ rmValue edge .word (.direct 0xFFFC) = .ok 0 := ⟨rfl, rfl, rfl, rfl⟩

theorem witness_Calls : edge.mem.wf = true ∧ stackAccessible edge (pushedSp edge 1) = true ∧ stackAccessible edge (pushedSp edge 2) = true ∧
    (∃ d : Word, Instr.callNear 0x8000 = .callNear d ∧ relativeTarget edge (0x8000 : Word).toInt = relativeTarget edge d.toInt) ∧
    (∃ m, Instr.callRm ⟨.dx, lastWord⟩ = .callRm m ∧ rmValue edge .word m.rm = .ok 0) := ⟨rfl, rfl, rfl, ⟨_, rfl, rfl⟩, _, rfl, rfl⟩

theorem witness_Returns : stackWord edge edge.gpr.sp = .ok 0 ∧ stackWord edge (edge.gpr.sp + 2) = .ok 0 ∧
    ((Instr.ret = .ret ∧ (0 : Word) = 0) ∨ Instr.ret = .retImm 0) ∧ ((Instr.retfImm 0xFFFF = .retf ∧ (0xFFFF : Word) = 0) ∨
      Instr.retfImm 0xFFFF = .retfImm 0xFFFF) := ⟨rfl, rfl, .inl ⟨rfl, rfl⟩, .inr rfl⟩

theorem witness_Loops : (Instr.loopnz 0xFE, !z.flag .ZF) ∈ [(.loop 0xFE, true), (.loopz 0xFE, z.flag .ZF), (.loopnz 0xFE, !z.flag .ZF)] := by
  decide

/-- A string element at the last byte of the source segment. -/
theorem witness_StringElements : (r .si 0xFFFF edge).mem.wf = true ∧ (r .si 0xFFFF edge).pfx.rep = none ∧
    readMem (r .si 0xFFFF edge) .byte (lin (getSeg edge (edge.pfx.segOverride.getD .ds)) 0xFFFF) 0xFFFF = .ok 0 ∧
    readMem (r .si 0xFFFF edge) .byte (lin edge.segs.es edge.gpr.di) edge.gpr.di = .ok 0 := ⟨rfl, rfl, rfl, rfl⟩

theorem witness_RepeatedStrings : Instr.scasw ∈ stringInstrs ∧ (withRep (some .f2) edge).pfx.rep = some .f2 ∧
    (withRep (some .f2) edge).gpr.cx.toNat ≠ 0 ∧ (withRep (some .f3) z).gpr.cx.toNat = 0 := by decide

/-- Shifts and Rotates: counts 0, 1 and 255. -/
theorem witness_Shifts : edge.mem.wf = true ∧ rmValue edge .word (.reg .ax) = .ok 0x8000 ∧ rmValue edge .byte lastByte = .ok 0 ∧
    255 = (match ShiftCount.cl with | .one => 1 | .cl => (getR8 edge .cl).toNat) ∧
    0 = (match ShiftCount.cl with | .one => 1 | .cl => (getR8 z .cl).toNat) ∧
    1 = (match ShiftCount.one with | .one => 1 | .cl => (getR8 z .cl).toNat) := ⟨rfl, rfl, rfl, rfl, rfl, rfl⟩

theorem witness_Multiplications : rmValue edge .byte (.reg .sp) = .ok 0x80 ∧ rmValue edge .word (.reg .bx) = .ok 0xFFFF := ⟨rfl, rfl⟩

/-- A dividend with the least quotient of each IDIV range: -128 under `full`, -127 under `i8086`, 127 under both. -/
theorem witness_Divisions :
    (rmValue (r .ax 0x00FF (r .bx 1 z)) .byte (.reg .bx) = .ok 1 ∧ (1 : Word).toNat ≠ 0 ∧ (r .ax 0x00FF (r .bx 1 z)).gpr.ax.toNat / 1 < 256) ∧
    ((0xFF00 : Word).toInt.tdiv (signedNat .byte 2) = -128 ∧
      ({ z with params := { Params.default with idivRange := .full } }).params.idivRange = .full) ∧
    ((0xFF02 : Word).toInt.tdiv (signedNat .byte 2) = -127 ∧ (0x00FF : Word).toInt.tdiv (signedNat .byte 2) = 127) ∧
    (((0x0000 : Word) ++ (0xFFFE : Word)).toInt.tdiv (0x0002 : Word).toInt = 32767 ∧
      ((0xFFFF : Word) ++ (0x0002 : Word)).toInt.tdiv (0x0002 : Word).toInt = -32767) ∧
    (1 * 65536 + 0 = (r .dx 1 z).gpr.dx.toNat * 65536 + (r .dx 1 z).gpr.ax.toNat ∧ (1 * 65536 + 0) / 2 < 65536) :=
  ⟨⟨rfl, by decide, by decide⟩, ⟨rfl, rfl⟩, ⟨rfl, rfl⟩, ⟨rfl, rfl⟩, rfl, by decide⟩

/-- Each cause of a divide error: a divisor of 0, a quotient one too great, one too small, and -128 under `i8086`. -/
theorem witness_DivideErrors : rmValue z .byte (.reg .bx) = .ok 0 ∧ rmValue (r .bx 1 z) .byte (.reg .bx) = .ok 1 ∧
    2 ^ bits .byte ≤ (r .ax 0x0100 z).gpr.ax.toNat / 1 ∧ (2 : Int) ^ (bits .byte - 1) ≤ (0x0080 : Word).toInt.tdiv (signedNat .byte 1) ∧
    (0xFF7F : Word).toInt.tdiv (signedNat .byte 1) < -(2 ^ (bits .byte - 1)) ∧
    (0xFF80 : Word).toInt.tdiv (signedNat .byte 1) = -(2 ^ (bits .byte - 1)) ∧ z.params.idivRange = .i8086 := by
  refine ⟨rfl, rfl, ?_, ?_, ?_, ?_, rfl⟩ <;> decide

/-- 99 + 99, the greatest sum DAA adjusts; AF, AL and AH at their edges for the others. -/
theorem witness_DecimalAdjusts : (getR8 (fl 0x0011 (r .ax 0x32 z)) .al).toNat = (99 / 10 * 16 + 99 % 10 + (99 / 10 * 16 + 99 % 10)) % 256 ∧
    (fl 0x0011 (r .ax 0x32 z)).flag .CF = decide (256 ≤ 99 / 10 * 16 + 99 % 10 + (99 / 10 * 16 + 99 % 10)) ∧
    (fl 0x0011 (r .ax 0x32 z)).flag .AF = decide (16 ≤ 99 % 10 + 99 % 10) ∧ (255 : Byte).toNat ≠ 0 ∧
    true = (decide (9 < 0x0A % 16) || z.flag .AF) ∧ false = (decide (9 < 0x09 % 16) || z.flag .AF) ∧
    true = (decide (0x99 < 0x9A) || z.flag .CF) ∧ false = (decide (0x99 < 0x99) || z.flag .CF) := by decide

theorem witness_PortsEscWait : (∃ p : Byte, Instr.inImm .byte 0xFF = .inImm .byte p ∧ Instr.outImm .byte 0xFF = .outImm .byte p ∧
      (0x00FF : Word).toNat = p.toNat) ∧ 0x00FF ∉ z.params.mappedPorts ∧
    0xFFFF ∈ ({ edge with params := { Params.default with mappedPorts := [0xFFFF] } }).params.mappedPorts ∧
    rmAccessible edge .word lastWord = true ∧ rmAccessible edge .word lastByte = false := by
  refine ⟨⟨_, rfl, rfl, rfl⟩, ?_, ?_, rfl, rfl⟩ <;> decide

/-- ClockShapes: the accountant on, a repeated string with a next state, a jump with a next state; and off. -/
theorem witness_ClockShapes :
    ({ z with params := { Params.default with cycleAccounting := true } }).params.cycleAccounting = true ∧
    (∃ t, exec (jccInstr .nle 0x80) z = .next t) ∧ (withRep (some .f3) (r .cx 3 z)).pfx.rep = some .f3 ∧
    (∃ t, exec .movsb (withRep (some .f3) (r .cx 3 z)) = .next t) ∧ z.params.cycleAccounting = false ∧
    Instr.scasw ∈ stringInstrs ∧ (∃ t, exec .scasw (withRep (some .f2) (r .cx 1 z)) = .next t) ∧
    (Instr.into, edge.flag .OF) ∈ [(.jcxz 0xFF, decide (edge.gpr.cx.toNat = 0)), (.into, edge.flag .OF)] ∧
    defaultRegistry.slot 0xF7 = .demux grp3Children ∧ grp3Children[((0xFF : Byte).extractLsb' 3 3).toNat]? = some (some .idiv) ∧
    grp3Children[((0xC8 : Byte).extractLsb' 3 3).toNat]? = some none ∧ defaultRegistry.slot 0xF4 = .direct .hlt ∧
    defaultRegistry.slot 0x0F = .empty :=
  ⟨rfl, ⟨_, rfl⟩, rfl, ⟨_, rfl⟩, rfl, by decide, ⟨_, rfl⟩, by decide, rfl, rfl, rfl, rfl, rfl⟩

/-- PrefixesAndReset: the innermost REP byte stands in the table of prefixes. -/
theorem witness_PrefixesAndReset : (Instr.repz, { edge.pfx with rep := some .f3 }) ∈
    [(Instr.repnz, { edge.pfx with rep := some .f2 }), (.repz, { edge.pfx with rep := some .f3 })] ∧
    edge.params.resetState = .zero := ⟨by decide, rfl⟩

end Sys2Proof.Tests
end

section
/-! SUPPORT. What a template of the Bit-Pattern Compiler expands to (30_encoding.md R100 to R102). -/

namespace Sys2Proof

/-- A number has the bits a template fixes, the leftmost character the most significant bit (30_encoding.md R102,
D41). -/
def FitsTemplate (bs : List TBit) (n : Nat) : Prop :=
  ∀ j, ∀ h : j < bs.length, (bs[j] = .zero → n.testBit (bs.length - 1 - j) = false) ∧
    (bs[j] = .one → n.testBit (bs.length - 1 - j) = true)

/-- A number of the template's width that has the bits it fixes (30_encoding.md R101, R102). -/
def Denotes (bs : List TBit) (n : Nat) : Prop := n < 2 ^ bs.length ∧ FitsTemplate bs n

/-- The leftmost character speaks of the top bit, the others of the bits below it. -/
theorem fitsTemplate_cons {b : TBit} {bs : List TBit} {n : Nat} :
    FitsTemplate (b :: bs) n ↔ ((b = .zero → n.testBit bs.length = false) ∧ (b = .one → n.testBit bs.length = true)) ∧
      FitsTemplate bs n := by
  have hpos : ∀ j, (b :: bs).length - 1 - (j + 1) = bs.length - 1 - j := fun j => by rw [List.length_cons]; omega
  constructor
  · intro h
    refine ⟨h 0 (Nat.succ_pos _), fun j hj => ?_⟩
    have hb := h (j + 1) (Nat.succ_lt_succ hj)
    rwa [hpos j] at hb
  · rintro ⟨h0, h⟩ (_ | j) hj
    · exact h0
    · rw [hpos j]
      exact h j (Nat.lt_of_succ_lt_succ hj)

/-- A template does not speak of the bit above its leftmost character. -/
theorem fitsTemplate_add_two_pow {bs : List TBit} {m : Nat} :
    FitsTemplate bs (m + 2 ^ bs.length) ↔ FitsTemplate bs m := by
  refine forall_congr' fun j => forall_congr' fun hj => ?_
  rw [Nat.add_comm m, Nat.testBit_two_pow_add_gt (by omega)]

/-- Below the value of the top bit, a number fits where the leftmost character is not `1`. -/
theorem fitsTemplate_cons_low {b : TBit} {bs : List TBit} {n : Nat} (h : n < 2 ^ bs.length) :
    FitsTemplate (b :: bs) n ↔ b ≠ .one ∧ FitsTemplate bs n := by
  simp [fitsTemplate_cons, Nat.testBit_lt_two_pow h]

/-- With the top bit 1, a number fits where the leftmost character is not `0`. -/
theorem fitsTemplate_cons_high {b : TBit} {bs : List TBit} {m : Nat} (h : m < 2 ^ bs.length) :
    FitsTemplate (b :: bs) (m + 2 ^ bs.length) ↔ b ≠ .zero ∧ FitsTemplate bs m := by
  have htop : (m + 2 ^ bs.length).testBit bs.length = true := by
    rw [Nat.add_comm, Nat.testBit_two_pow_add_eq, Nat.testBit_lt_two_pow h]; rfl
  simp [fitsTemplate_cons, htop, fitsTemplate_add_two_pow]

/-- What a template denotes: what the rest denotes, with the top bit 0 unless the leftmost character is `1`, and with it
1 unless that character is `0`. -/
theorem denotes_cons {b : TBit} {bs : List TBit} {n : Nat} :
    Denotes (b :: bs) n ↔ (b ≠ .one ∧ Denotes bs n) ∨ (b ≠ .zero ∧ ∃ m, Denotes bs m ∧ m + 2 ^ bs.length = n) := by
  have hw : 2 ^ (b :: bs).length = 2 ^ bs.length + 2 ^ bs.length := by rw [List.length_cons]; omega
  constructor
  · rintro ⟨hn, hf⟩
    rw [hw] at hn
    rcases Nat.lt_or_ge n (2 ^ bs.length) with hlow | hhigh
    · obtain ⟨hb, hr⟩ := (fitsTemplate_cons_low hlow).1 hf
      exact .inl ⟨hb, hlow, hr⟩
    · obtain ⟨m, rfl⟩ := Nat.exists_eq_add_of_le' hhigh
      have hm : m < 2 ^ bs.length := by omega
      obtain ⟨hb, hr⟩ := (fitsTemplate_cons_high hm).1 hf
      exact .inr ⟨hb, m, ⟨hm, hr⟩, rfl⟩
  · rintro (⟨hb, hn, hr⟩ | ⟨hb, m, ⟨hm, hr⟩, rfl⟩)
    · exact ⟨by omega, (fitsTemplate_cons_low hn).2 ⟨hb, hr⟩⟩
    · exact ⟨by omega, (fitsTemplate_cons_high hm).2 ⟨hb, hr⟩⟩

/-- `expand` gives the numbers the template denotes (30_encoding.md R102). -/
theorem mem_expand {bs : List TBit} {n : Nat} : n ∈ expand bs ↔ Denotes bs n := by
  induction bs generalizing n with
  | nil => simp [expand, Denotes, FitsTemplate]
  | cons b bs ih => cases b <;> simp [expand, denotes_cons, ih]

/-- Every number of the expansion has the template's width. -/
theorem expand_lt {bs : List TBit} {n : Nat} (h : n ∈ expand bs) : n < 2 ^ bs.length := (mem_expand.1 h).1

/-- Each wildcard doubles the expansion (30_encoding.md R102). -/
theorem expand_length (bs : List TBit) : (expand bs).length = 2 ^ (bs.filter (fun b => b == .any)).length := by
  induction bs with
  | nil => rfl
  | cons b bs ih =>
    cases b with
    | zero => simpa [expand] using ih
    | one => simpa [expand] using ih
    | any => simp [expand, ih, Nat.pow_succ, Nat.mul_two]

/-- The expansion repeats no number: the two halves of a wildcard differ in its bit (30_encoding.md R102). -/
theorem expand_nodup (bs : List TBit) : (expand bs).Nodup := by
  induction bs with
  | nil => exact List.nodup_singleton 0
  | cons b bs ih =>
    have hhigh : ((expand bs).map (· + 2 ^ bs.length)).Nodup := ih.map fun _ _ => Nat.add_right_cancel
    cases b with
    | zero => exact ih
    | one => exact hhigh
    | any =>
      refine ih.append hhigh fun n hlow hn => ?_
      obtain ⟨m, -, rfl⟩ := List.mem_map.1 hn
      have := expand_lt hlow
      omega

/-- Settles O7: the expansion doubles at each wildcard, its halves differ in the wildcard's bit, and its members are the
numbers the template denotes. -/
theorem templateExpansion : Obligations.TemplateExpansion :=
  fun bs => ⟨expand_length bs, expand_nodup bs, fun _ => mem_expand⟩

end Sys2Proof
end

section
/-! SUPPORT. The build of the registry as claims on slots: a claim reads and writes one slot, two claims commute, and
what a claim bound stays bound (30_encoding.md R104 to R107). -/

namespace Sys2Proof

section Build

variable {H C : Type}

/-! ### Reading a list after a write -/

theorem getD_set_ne {α : Type} {l : List α} {i j : Nat} (a d : α) (h : i ≠ j) :
    (l.set i a).getD j d = l.getD j d := by
  rw [List.getD_eq_getElem?_getD, List.getElem?_set_ne h, List.getD_eq_getElem?_getD]

theorem getD_set_same {α : Type} {l : List α} {i : Nat} (a d : α) (h : i < l.length) : (l.set i a).getD i d = a := by
  rw [List.getD_eq_getElem?_getD, List.getElem?_set_self h, Option.getD_some]

theorem set_getD {α : Type} {l : List α} {i : Nat} {d : α} : l.set i (l.getD i d) = l := by
  rcases Nat.lt_or_ge i l.length with hi | hi
  · rw [List.getD_eq_getElem _ _ hi, List.set_getElem_self]
  · exact List.set_eq_of_length_le hi

/-! ### One claim on one slot -/

/-- The slot a claim binds. -/
def Claim.slot : Claim H C → Nat
  | .direct v _ => v
  | .node v => v
  | .child v _ _ => v

/-- The children a slot has as a demux node, where it is one or can become one (30_encoding.md R106). -/
def Slot.children? : Slot H C → Option (List (Option C))
  | .empty => some (noChildren C)
  | .direct _ => none
  | .demux cs => some cs

/-- What a claim makes of the slot it binds, where there is no conflict (30_encoding.md R105, R106). -/
def Claim.Binds : Claim H C → Slot H C → Slot H C → Prop
  | .direct _ h, x, y => x = .empty ∧ y = .direct h
  | .node _, x, y => ∃ cs, x.children? = some cs ∧ y = .demux cs
  | .child _ j h, x, y => ∃ cs, x.children? = some cs ∧ cs.getD j none = none ∧ y = .demux (cs.set j (some h))

/-- A new demux node has no child bound. -/
theorem noChildren_getD (j : Nat) : (noChildren C).getD j none = none := by
  rw [noChildren, List.getD_eq_getElem?_getD, List.getElem?_replicate]
  split <;> rfl

/-- A claim succeeds where it binds its slot without a conflict, and sets that slot alone. -/
theorem Claim.apply_eq_ok {t u : SlotTable H C} {c : Claim H C} :
    Claim.apply t c = .ok u ↔ ∃ x, c.Binds (t.getD c.slot .empty) x ∧ t.set c.slot x = u := by
  cases c with
  | direct v h => cases hx : t.getD v .empty <;> simp only [apply, slot, Binds, hx] <;> simp
  | node v =>
    have hself : t.set v (t.getD v .empty) = t := set_getD
    cases hx : t.getD v .empty <;> simp only [apply, slot, Binds, hx, Slot.children?] <;> simp_all
  | child v j h =>
    cases hx : t.getD v .empty with
    | empty =>
      simp only [apply, slot, Binds, hx, Slot.children?, Option.some.injEq, exists_eq_left', noChildren_getD]; simp
    | direct h' => simp only [apply, slot, Binds, hx, Slot.children?]; simp
    | demux cs =>
      cases hj : cs.getD j none <;>
        simp only [apply, slot, Binds, hx, hj, Slot.children?, Option.some.injEq, exists_eq_left'] <;> simp

/-- Two children that can be bound one after the other can be bound in the other order too. -/
theorem children_comm {cs : List (Option C)} {j k : Nat} {h g : C} (hj : cs.getD j none = none)
    (hk : (cs.set j (some h)).getD k none = none) :
    cs.getD k none = none ∧ (cs.set k (some g)).getD j none = none ∧
      (cs.set j (some h)).set k (some g) = (cs.set k (some g)).set j (some h) := by
  by_cases hjk : j = k
  · subst hjk
    have hlen : cs.length ≤ j := by
      by_contra hlt
      rw [getD_set_same _ _ (by omega)] at hk
      cases hk
    simp only [List.set_eq_of_length_le hlen, hj, and_self]
  · rw [getD_set_ne _ _ hjk] at hk
    exact ⟨hk, by rw [getD_set_ne _ _ (Ne.symm hjk), hj], List.set_comm _ _ hjk⟩

/-- A slot that takes two claims takes them in the other order too, and ends the same. -/
theorem Claim.Binds.comm {a b : Claim H C} {x y z : Slot H C} (h1 : a.Binds x y) (h2 : b.Binds y z) :
    ∃ y', b.Binds x y' ∧ a.Binds y' z := by
  cases a with
  | direct v h =>
    obtain ⟨rfl, rfl⟩ := h1
    cases b <;> simp [Binds, Slot.children?] at h2
  | node v =>
    obtain ⟨cs, hx, rfl⟩ := h1
    cases b with
    | direct w g => cases h2.1
    | node w => exact ⟨_, ⟨cs, hx, rfl⟩, h2⟩
    | child w k g =>
      obtain ⟨_, ⟨⟩, hk, rfl⟩ := h2
      exact ⟨_, ⟨cs, hx, hk, rfl⟩, _, rfl, rfl⟩
  | child v j h =>
    obtain ⟨cs, hx, hj, rfl⟩ := h1
    cases b with
    | direct w g => cases h2.1
    | node w =>
      obtain ⟨_, ⟨⟩, rfl⟩ := h2
      exact ⟨_, ⟨cs, hx, rfl⟩, cs, rfl, hj, rfl⟩
    | child w k g =>
      obtain ⟨_, ⟨⟩, hk, rfl⟩ := h2
      obtain ⟨hk', hj', hset⟩ := children_comm (g := g) hj hk
      exact ⟨_, ⟨cs, hx, hk', rfl⟩, _, rfl, hj', by rw [hset]⟩

/-- A directly bound slot takes no claim. -/
theorem Claim.not_binds_direct {c : Claim H C} {h : H} {y : Slot H C} : ¬ c.Binds (.direct h) y := by
  cases c <;> simp [Binds, Slot.children?]

/-- A bound child stays bound. -/
theorem Claim.Binds.keeps_child {c : Claim H C} {cs : List (Option C)} {j : Nat} {h : C} {y : Slot H C}
    (hj : cs[j]? = some (some h)) (hc : c.Binds (.demux cs) y) : ∃ ds, y = .demux ds ∧ ds[j]? = some (some h) := by
  cases c with
  | direct v g => cases hc.1
  | node v =>
    obtain ⟨_, ⟨⟩, rfl⟩ := hc
    exact ⟨cs, rfl, hj⟩
  | child v k g =>
    obtain ⟨_, ⟨⟩, hk, rfl⟩ := hc
    refine ⟨_, rfl, ?_⟩
    have hne : k ≠ j := by
      rintro rfl
      rw [List.getD_eq_getElem?_getD, hj] at hk
      cases hk
    rw [List.getElem?_set_ne hne, hj]

/-! ### Claims on the table -/

/-- A table that takes two claims takes them in the other order too, and ends the same. -/
theorem apply_comm {a b : Claim H C} {t t1 u : SlotTable H C} (h1 : Claim.apply t a = .ok t1)
    (h2 : Claim.apply t1 b = .ok u) : ∃ t2, Claim.apply t b = .ok t2 ∧ Claim.apply t2 a = .ok u := by
  obtain ⟨x, hx, rfl⟩ := Claim.apply_eq_ok.1 h1
  obtain ⟨y, hy, rfl⟩ := Claim.apply_eq_ok.1 h2
  simp only [Claim.apply_eq_ok]
  by_cases hs : a.slot = b.slot
  · rw [hs] at hx hy ⊢
    rcases Nat.lt_or_ge b.slot t.length with hlt | hge
    · rw [getD_set_same _ _ hlt] at hy
      obtain ⟨z, hz, hzy⟩ := hx.comm hy
      exact ⟨_, ⟨z, hz, rfl⟩, y, by rwa [getD_set_same _ _ hlt], by rw [List.set_set, List.set_set]⟩
    · have hset : ∀ z, t.set b.slot z = t := fun z => List.set_eq_of_length_le hge
      rw [hset] at hy
      exact ⟨t, ⟨y, hy, hset y⟩, x, hx, by rw [hset, hset]⟩
  · rw [getD_set_ne _ _ hs] at hy
    exact ⟨_, ⟨y, hy, rfl⟩, x, by rwa [getD_set_ne _ _ (Ne.symm hs)], List.set_comm _ _ (Ne.symm hs)⟩

theorem applyClaims_cons_eq_ok {c : Claim H C} {cs : List (Claim H C)} {t u : SlotTable H C} :
    applyClaims t (c :: cs) = .ok u ↔ ∃ t1, Claim.apply t c = .ok t1 ∧ applyClaims t1 cs = .ok u := by
  rw [applyClaims]
  cases Claim.apply t c <;> simp

theorem applyClaims_append_eq_ok {cs ds : List (Claim H C)} {t u : SlotTable H C} :
    applyClaims t (cs ++ ds) = .ok u ↔ ∃ t1, applyClaims t cs = .ok t1 ∧ applyClaims t1 ds = .ok u := by
  induction cs generalizing t with
  | nil => simp [applyClaims]
  | cons c cs ih =>
    simp only [List.cons_append, applyClaims_cons_eq_ok, ih]
    exact ⟨fun ⟨v, hv, w, hw, hu⟩ => ⟨w, ⟨v, hv, hw⟩, hu⟩, fun ⟨w, ⟨v, hv, hw⟩, hu⟩ => ⟨v, hv, w, hw, hu⟩⟩

/-- The table that claims give does not depend on their order (30_encoding.md R107). -/
theorem applyClaims_perm {cs ds : List (Claim H C)} (p : cs.Perm ds) {t u : SlotTable H C}
    (h : applyClaims t cs = .ok u) : applyClaims t ds = .ok u := by
  induction p generalizing t with
  | nil => exact h
  | cons c _ ih =>
    obtain ⟨t1, hc, hr⟩ := applyClaims_cons_eq_ok.1 h
    exact applyClaims_cons_eq_ok.2 ⟨t1, hc, ih hr⟩
  | swap a b cs =>
    obtain ⟨t1, hb, hr⟩ := applyClaims_cons_eq_ok.1 h
    obtain ⟨t2, ha, hu⟩ := applyClaims_cons_eq_ok.1 hr
    obtain ⟨t3, ha', hb'⟩ := apply_comm hb ha
    exact applyClaims_cons_eq_ok.2 ⟨t3, ha', applyClaims_cons_eq_ok.2 ⟨t2, hb', hu⟩⟩
  | trans _ _ ih1 ih2 => exact ih2 (ih1 h)

/-- Any of the claims can be taken first. -/
theorem applyClaims_first {c : Claim H C} {cs : List (Claim H C)} {t u : SlotTable H C} (hc : c ∈ cs)
    (h : applyClaims t cs = .ok u) : ∃ t1 ds, Claim.apply t c = .ok t1 ∧ applyClaims t1 ds = .ok u := by
  obtain ⟨before, after, rfl⟩ := List.append_of_mem hc
  obtain ⟨t1, h1, hu⟩ := applyClaims_cons_eq_ok.1 (applyClaims_perm List.perm_middle h)
  exact ⟨t1, _, h1, hu⟩

/-- What every claim keeps of a slot, a list of claims keeps. -/
theorem applyClaims_keeps {P : Slot H C → Prop} (hP : ∀ c x y, P x → Claim.Binds c x y → P y) {n : Nat}
    {cs : List (Claim H C)} {t u : SlotTable H C} (ht : P (t.getD n .empty)) (h : applyClaims t cs = .ok u) :
    P (u.getD n .empty) := by
  induction cs generalizing t with
  | nil => cases h; exact ht
  | cons c cs ih =>
    obtain ⟨t1, hc, hr⟩ := applyClaims_cons_eq_ok.1 h
    obtain ⟨x, hx, rfl⟩ := Claim.apply_eq_ok.1 hc
    refine ih ?_ hr
    by_cases hs : c.slot = n
    · subst hs
      rcases Nat.lt_or_ge c.slot t.length with hlt | hge
      · rw [getD_set_same _ _ hlt]
        exact hP c _ _ ht hx
      · rwa [List.set_eq_of_length_le hge]
    · rwa [getD_set_ne _ _ hs]

/-- What a claim makes of an empty slot, and every claim keeps, is in the table that the claims build. -/
theorem built_of_mem {P : Slot H C → Prop} (hP : ∀ c x y, P x → Claim.Binds c x y → P y) {c : Claim H C}
    {cs : List (Claim H C)} {u : SlotTable H C} (hc : c ∈ cs) (hn : c.slot < 256) (hb : ∀ x, c.Binds .empty x → P x)
    (h : applyClaims (SlotTable.initial H C) cs = .ok u) : P (u.getD c.slot .empty) := by
  obtain ⟨t1, ds, h1, hu⟩ := applyClaims_first hc h
  obtain ⟨x, hx, rfl⟩ := Claim.apply_eq_ok.1 h1
  have hempty : (SlotTable.initial H C).getD c.slot .empty = .empty := List.getD_replicate _ hn
  rw [hempty] at hx
  refine applyClaims_keeps hP ?_ hu
  rw [getD_set_same _ _ (by rwa [SlotTable.initial, List.length_replicate])]
  exact hb x hx

/-- A slot that is not empty is in the table. -/
theorem SlotTable.getElem?_of_getD {t : SlotTable H C} {n : Nat} {x : Slot H C} (h : t.getD n .empty = x)
    (hx : x ≠ .empty) : t[n]? = some x := by
  rw [List.getD_eq_getElem?_getD] at h
  cases ht : t[n]? with
  | none => rw [ht] at h; exact absurd h.symm hx
  | some y => rw [ht] at h; exact congrArg some h

/-- A direct claim's handler is in the table that the claims build. -/
theorem built_direct {n : Nat} {h : H} {cs : List (Claim H C)} {u : SlotTable H C} (hc : .direct n h ∈ cs)
    (hn : n < 256) (hu : applyClaims (SlotTable.initial H C) cs = .ok u) : u.getD n .empty = .direct h :=
  built_of_mem (P := (· = .direct h)) (fun _ _ _ hx hb => absurd (hx ▸ hb) Claim.not_binds_direct) hc hn
    (fun _ hb => hb.2) hu

/-- A child claim's handler is in the table that the claims build. -/
theorem built_child {n j : Nat} {h : C} {cs : List (Claim H C)} {u : SlotTable H C} (hc : .child n j h ∈ cs)
    (hn : n < 256) (hj : j < 8) (hu : applyClaims (SlotTable.initial H C) cs = .ok u) :
    ∃ children, u.getD n .empty = .demux children ∧ children[j]? = some (some h) := by
  refine built_of_mem (P := fun x => ∃ children, x = .demux children ∧ children[j]? = some (some h)) ?_ hc hn ?_ hu
  · rintro c _ y ⟨children, rfl, hch⟩ hb
    exact hb.keeps_child hch
  · rintro x ⟨_, ⟨⟩, -, rfl⟩
    exact ⟨_, rfl, List.getElem?_set_self (by rwa [noChildren, List.length_replicate])⟩

/-! ### The claims of registrations -/

theorem compileTemplate_length {w : Nat} {t : String} {bs : List TBit} (h : compileTemplate w t = .ok bs) :
    bs.length = w := by
  unfold compileTemplate at h
  split at h
  · cases h
  · split at h
    · next hl => cases h; exact hl
    · cases h

/-- A template of a width expands to numbers of that width (30_encoding.md R101, R102). -/
theorem expand_compileTemplate_lt {w n : Nat} {t : String} {bs : List TBit} (h : compileTemplate w t = .ok bs)
    (hn : n ∈ expand bs) : n < 2 ^ w :=
  compileTemplate_length h ▸ expand_lt hn

theorem allClaims_cons_eq_ok {r : Registration H C} {rs : List (Registration H C)} {cs : List (Claim H C)} :
    allClaims (r :: rs) = .ok cs ↔ ∃ a b, r.claims = .ok a ∧ allClaims rs = .ok b ∧ a ++ b = cs := by
  rw [allClaims]
  cases r.claims <;> cases allClaims rs <;> simp

theorem buildRegistry_eq_ok {rs : List (Registration H C)} {t : SlotTable H C} :
    buildRegistry rs = .ok t ↔ ∃ cs, allClaims rs = .ok cs ∧ applyClaims (SlotTable.initial H C) cs = .ok t := by
  rw [buildRegistry]
  cases allClaims rs <;> simp

/-- Registrations in another order make the same claims in another order. -/
theorem allClaims_perm {rs rs' : List (Registration H C)} (p : rs.Perm rs') {cs : List (Claim H C)}
    (h : allClaims rs = .ok cs) : ∃ ds, allClaims rs' = .ok ds ∧ cs.Perm ds := by
  induction p generalizing cs with
  | nil => exact ⟨cs, h, .refl cs⟩
  | cons r _ ih =>
    obtain ⟨a, b, ha, hb, rfl⟩ := allClaims_cons_eq_ok.1 h
    obtain ⟨d, hd, hbd⟩ := ih hb
    exact ⟨a ++ d, allClaims_cons_eq_ok.2 ⟨a, d, ha, hd, rfl⟩, hbd.append_left a⟩
  | swap r q rs =>
    obtain ⟨a, _, ha, hr, rfl⟩ := allClaims_cons_eq_ok.1 h
    obtain ⟨b, d, hb, hd, rfl⟩ := allClaims_cons_eq_ok.1 hr
    exact ⟨b ++ (a ++ d), allClaims_cons_eq_ok.2 ⟨b, _, hb, allClaims_cons_eq_ok.2 ⟨a, d, ha, hd, rfl⟩, rfl⟩,
      List.perm_append_comm_assoc a b d⟩
  | trans _ _ ih1 ih2 =>
    obtain ⟨ds, hds, p1⟩ := ih1 h
    obtain ⟨es, hes, p2⟩ := ih2 hds
    exact ⟨es, hes, p1.trans p2⟩

/-- The claims of a registration are among those of its list. -/
theorem claims_subset {r : Registration H C} {rs : List (Registration H C)} {cs : List (Claim H C)} (hr : r ∈ rs)
    (h : allClaims rs = .ok cs) : ∃ a, r.claims = .ok a ∧ a ⊆ cs := by
  induction rs generalizing cs with
  | nil => cases hr
  | cons q rs ih =>
    obtain ⟨a, b, ha, hb, rfl⟩ := allClaims_cons_eq_ok.1 h
    rcases List.mem_cons.1 hr with rfl | hr
    · exact ⟨a, ha, List.subset_append_left a b⟩
    · obtain ⟨d, hd, hsub⟩ := ih hr hb
      exact ⟨d, hd, List.subset_append_of_subset_right a hsub⟩

/-- A direct registration claims each number of its template (30_encoding.md R105). -/
theorem mem_claims_direct {t : String} {h : H} {bs : List TBit} {n : Nat} {a : List (Claim H C)}
    (ht : compileTemplate 8 t = .ok bs) (hn : n ∈ expand bs) (ha : (Registration.direct t h).claims = .ok a) :
    .direct n h ∈ a := by
  simp only [Registration.claims, ht] at ha
  cases ha
  exact List.mem_map_of_mem hn

/-- A child is claimed at each of its `reg` values, in each slot of the registration (30_encoding.md R106). -/
theorem mem_childClaims {vs : List Nat} {cs : List (String × C)} {rt : String} {h : C} {bs : List TBit} {v j : Nat}
    {a : List (Claim H C)} (hc : (rt, h) ∈ cs) (ht : compileTemplate 3 rt = .ok bs) (hv : v ∈ vs) (hj : j ∈ expand bs)
    (ha : childClaims vs cs = .ok a) : .child v j h ∈ a := by
  induction cs generalizing a with
  | nil => cases hc
  | cons q cs ih =>
    obtain ⟨rq, g⟩ := q
    rw [childClaims] at ha
    split at ha
    · cases ha
    · next b3 hq =>
      split at ha
      · cases ha
      · next ds hds =>
        cases ha
        rcases List.mem_cons.1 hc with heq | hc
        · cases heq
          cases hq.symm.trans ht
          exact List.mem_append_left _ (List.mem_flatMap.2 ⟨v, hv, List.mem_map_of_mem hj⟩)
        · exact List.mem_append_right _ (ih hc hds)

/-- A demux registration claims each child in each slot of its template (30_encoding.md R106). -/
theorem mem_claims_demux {t rt : String} {cs : List (String × C)} {h : C} {bs b3 : List TBit} {n j : Nat}
    {a : List (Claim H C)} (ht : compileTemplate 8 t = .ok bs) (hn : n ∈ expand bs) (hc : (rt, h) ∈ cs)
    (hrt : compileTemplate 3 rt = .ok b3) (hj : j ∈ expand b3) (ha : (Registration.demux t cs).claims = .ok a) :
    .child n j h ∈ a := by
  simp only [Registration.claims, ht] at ha
  split at ha
  · cases ha
  · next ds hds =>
    cases ha
    exact List.mem_append_right _ (mem_childClaims hc hrt hn hj hds)

/-! ### The build -/

/-- A build does not depend on the order of the registrations (30_encoding.md R107). -/
theorem buildRegistry_perm {rs rs' : List (Registration H C)} (p : rs.Perm rs') {t : SlotTable H C}
    (h : buildRegistry rs = .ok t) : buildRegistry rs' = .ok t := by
  obtain ⟨cs, hcs, ht⟩ := buildRegistry_eq_ok.1 h
  obtain ⟨ds, hds, pc⟩ := allClaims_perm p hcs
  exact buildRegistry_eq_ok.2 ⟨ds, hds, applyClaims_perm pc ht⟩

/-- A build that fails fails in every order (30_encoding.md R107). -/
theorem buildRegistry_error_perm {rs rs' : List (Registration H C)} (p : rs.Perm rs') {e : ConfigError}
    (h : buildRegistry rs = .error e) : ∃ e', buildRegistry rs' = .error e' := by
  cases h' : buildRegistry rs' with
  | error e' => exact ⟨e', rfl⟩
  | ok t => cases h.symm.trans (buildRegistry_perm p.symm h')

/-- Each byte of a direct template reaches the handler registered for it (30_encoding.md R107). -/
theorem buildRegistry_direct {rs : List (Registration H C)} {tab : SlotTable H C} {t : String} {h : H} {bs : List TBit}
    {n : Nat} (hb : buildRegistry rs = .ok tab) (hr : .direct t h ∈ rs) (ht : compileTemplate 8 t = .ok bs)
    (hn : n ∈ expand bs) : tab[n]? = some (.direct h) := by
  obtain ⟨cs, hcs, htab⟩ := buildRegistry_eq_ok.1 hb
  obtain ⟨a, ha, hsub⟩ := claims_subset hr hcs
  exact SlotTable.getElem?_of_getD
    (built_direct (hsub (mem_claims_direct ht hn ha)) (expand_compileTemplate_lt ht hn) htab) nofun

/-- Each `reg` value of a child of a demux registration reaches that child (30_encoding.md R107). -/
theorem buildRegistry_demux {rs : List (Registration H C)} {tab : SlotTable H C} {t rt : String}
    {cs : List (String × C)} {h : C} {bs b3 : List TBit} {n j : Nat} (hb : buildRegistry rs = .ok tab)
    (hr : .demux t cs ∈ rs) (ht : compileTemplate 8 t = .ok bs) (hn : n ∈ expand bs) (hc : (rt, h) ∈ cs)
    (hrt : compileTemplate 3 rt = .ok b3) (hj : j ∈ expand b3) :
    ∃ children, tab[n]? = some (.demux children) ∧ children[j]? = some (some h) := by
  obtain ⟨ds, hds, htab⟩ := buildRegistry_eq_ok.1 hb
  obtain ⟨a, ha, hsub⟩ := claims_subset hr hds
  obtain ⟨children, hslot, hchild⟩ := built_child (hsub (mem_claims_demux ht hn hc hrt hj ha))
    (expand_compileTemplate_lt ht hn) (expand_compileTemplate_lt hrt hj) htab
  exact ⟨children, SlotTable.getElem?_of_getD hslot nofun, hchild⟩

/-- Two direct templates that share a byte do not build: after the first, its slot takes no claim (30_encoding.md R105,
R107). -/
theorem buildRegistry_overlap {rs : List (Registration H C)} {t1 t2 : String} {h1 h2 : H} {b1 b2 : List TBit} {n : Nat}
    (ht1 : compileTemplate 8 t1 = .ok b1) (ht2 : compileTemplate 8 t2 = .ok b2) (hn1 : n ∈ expand b1)
    (hn2 : n ∈ expand b2) : ∃ e, buildRegistry (.direct t1 h1 :: .direct t2 h2 :: rs) = .error e := by
  cases hb : buildRegistry (.direct t1 h1 :: .direct t2 h2 :: rs) with
  | error e => exact ⟨e, rfl⟩
  | ok tab =>
    exfalso
    obtain ⟨cs, hcs, htab⟩ := buildRegistry_eq_ok.1 hb
    obtain ⟨a, b, ha, hrest, rfl⟩ := allClaims_cons_eq_ok.1 hcs
    obtain ⟨u, hu, hbu⟩ := applyClaims_append_eq_ok.1 htab
    have hslot := built_direct (mem_claims_direct ht1 hn1 ha) (expand_compileTemplate_lt ht1 hn1) hu
    obtain ⟨a2, ha2, hsub⟩ := claims_subset List.mem_cons_self hrest
    obtain ⟨v, ds, hv, -⟩ := applyClaims_first (hsub (mem_claims_direct ht2 hn2 ha2)) hbu
    obtain ⟨x, hx, -⟩ := Claim.apply_eq_ok.1 hv
    exact Claim.not_binds_direct (hslot ▸ hx)

end Build

/-- Settles O6: claims on the table commute, so the order of registrations does not matter, and what a claim bound stays
bound, so each byte and `reg` value reaches its handler and a second direct binding fails. -/
theorem registryOrderIndependent : Obligations.RegistryOrderIndependent :=
  fun _ _ _ _ p =>
    ⟨fun _ => buildRegistry_perm p, fun _ => buildRegistry_error_perm p, fun _ _ _ _ _ => buildRegistry_direct,
      fun _ _ _ _ _ _ _ _ _ => buildRegistry_demux, fun _ _ _ _ _ _ _ => buildRegistry_overlap⟩

end Sys2Proof
end

section
/-! SUPPORT. The undefined operand forms (30_encoding.md R140). -/

namespace Sys2Proof.Machine

open Sys2Proof

/-- Which forms are undefined: a register operand where an address is asked for, and a segment number 4 to 7
(30_encoding.md R140). -/
theorem undefinedForm_cases {i : Instr} (h : undefinedForm i = true) :
    (∃ m, isRegister m.rm = true ∧
      (i = .lea m ∨ i = .lds m ∨ i = .les m ∨ i = .callFarMem m ∨ i = .jmpFarMem m)) ∨
    (∃ m, SegReg.ofNumber m.reg = none ∧ (i = .movRmSeg m ∨ i = .movSegRm m)) := by
  unfold undefinedForm at h
  split at h
  case h_8 => cases h
  case h_6 | h_7 => exact .inr ⟨_, Option.isNone_iff_eq_none.1 h, by simp⟩
  all_goals exact .inl ⟨_, h, by simp⟩

/-- A register operand has the form `.reg`. -/
theorem isRegister_iff {rm : RM} : isRegister rm = true ↔ ∃ n, rm = .reg n := by
  cases rm <;> simp [isRegister]

/-- Where the operand can be read, a stop of the rest of the instruction is the instruction's. -/
theorem onRM_fault {s : State} {w : Width} {reg : BitVec 3} {rm : RM} {rest : OperandCache → State → Res State}
    {f : Fault} (h : rmAccessible s w rm = true) (hr : ∀ v u, rest (cacheOf s w reg rm v) u = .error f) :
    onRM w reg rm rest s = .fault f := by
  obtain ⟨v, hv⟩ := rmValue_total h
  rw [onRM_of_value rest hv, hr]
  rfl

/-- A register operand of an instruction that asks for an address stops it (30_encoding.md R140). -/
theorem registerForm_faults {i : Instr} {m : ModRM} (s : State) (hm : isRegister m.rm = true)
    (hi : i = .lea m ∨ i = .lds m ∨ i = .les m ∨ i = .callFarMem m ∨ i = .jmpFarMem m) :
    exec i s = .fault .undefinedForm := by
  obtain ⟨reg, rm⟩ := m
  obtain ⟨n, rfl⟩ := isRegister_iff.1 hm
  rcases hi with rfl | rfl | rfl | rfl | rfl <;>
    simp only [exec, execLea, execLds, execLes, loadFar, execCallFarMem, execJmpFarMem] <;>
    exact onRM_fault rfl fun _ _ => rfl

/-- A segment number 4 to 7 stops a MOV with a segment register, once its operand is read (30_encoding.md R140). -/
theorem segmentForm_faults {i : Instr} {m : ModRM} {s : State} (hm : SegReg.ofNumber m.reg = none)
    (ha : rmAccessible s .word m.rm = true) (hi : i = .movRmSeg m ∨ i = .movSegRm m) :
    exec i s = .fault .undefinedForm := by
  rcases hi with rfl | rfl <;> simp only [exec, execMovRmSeg, execMovSegRm, hm] <;>
    exact onRM_fault ha fun _ _ => rfl

/-- Settles O16, by the two kinds of undefined form. -/
theorem undefinedFormsFault : Obligations.UndefinedFormsFault := by
  intro i s h ha
  rcases undefinedForm_cases h with ⟨m, hm, hi⟩ | ⟨m, hm, hi⟩
  · exact registerForm_faults s hm hi
  · refine segmentForm_faults hm (ha m.rm ?_) hi
    rcases hi with rfl | rfl <;> rfl

end Sys2Proof.Machine
end

section
/-! SUPPORT. The HALTED core (40_decode_dispatch.md R164). -/

namespace Sys2Proof.Machine

open Sys2Proof

/-- A core that is HALTED has a cause (10_state.md R42). -/
theorem isHalted_iff {s : State} : isHalted s = true ↔ ∃ c, s.run = .halted c := by
  unfold isHalted
  cases s.run <;> simp

/-- The step of a HALTED core is the state itself (40_decode_dispatch.md R164). -/
theorem step_of_halted {s : State} {c : HaltCause} (h : s.run = .halted c) : Machine.step s = .next s := by
  simp only [step, stepOnce, h]

/-- An interrupt that is taken leaves the core RUNNING (44_stack_interrupt.md R301). -/
theorem interrupt_run {s t : State} {n : Byte} (h : interrupt n s = .ok t) : t.run = .running := by
  obtain ⟨_, _, _, rfl, -⟩ := interrupt_spec h
  rfl

/-- Settles O10: the step stops at the run state, and both calls of the host end with it RUNNING. -/
theorem haltedCoreTakesNoStep : Obligations.HaltedCoreTakesNoStep := by
  refine ⟨fun s hs => ?_, hostReset_run, fun n s t ht => interrupt_run (outcome_next.1 ht)⟩
  obtain ⟨c, hc⟩ := isHalted_iff.1 hs
  exact step_of_halted hc

end Sys2Proof.Machine
end

section
/-! SUPPORT. The operands in memory: effective address, segment and value (41_addressing.md R184 to R189), and what LEA,
LDS and LES come to (45_transfer_control.md R336 to R338). -/

namespace Sys2Proof.Machine

open Sys2Proof

/-! ### The effective address -/

/-- Each template with its two registers, a single register with 0 (41_addressing.md R184). -/
def templateRegisters (s : State) : List (EaBase × Word × Word) :=
  [(.bxSi, s.gpr.bx, s.gpr.si), (.bxDi, s.gpr.bx, s.gpr.di), (.bpSi, s.gpr.bp, s.gpr.si), (.bpDi, s.gpr.bp, s.gpr.di),
    (.si, s.gpr.si, 0), (.di, s.gpr.di, 0), (.bp, s.gpr.bp, 0), (.bx, s.gpr.bx, 0)]

theorem baseSum_of_mem_templateRegisters {s : State} {b : EaBase} {x y : Word} (h : (b, x, y) ∈ templateRegisters s) :
    baseSum s b = x + y := by
  have hall : ∀ p ∈ templateRegisters s, baseSum s p.1 = p.2.1 + p.2.2 := by simp [templateRegisters, baseSum]
  exact hall _ h

/-- The displacement as a number: a byte is signed, a word is not (41_addressing.md R185). -/
def dispNumber : Disp → Int
  | .none => 0
  | .d8 v => v.toInt
  | .d16 v => v.toNat

theorem toNat_sext16 (v : Byte) : ((sext16 v).toNat : Int) = v.toInt % 65536 := by
  have hsext : (sext16 v).toInt = v.toInt := BitVec.toInt_signExtend_of_le (Nat.le_add_left 8 8)
  have hlt := (sext16 v).isLt
  rw [← hsext, BitVec.toInt_eq_toNat_cond]
  split <;> omega

/-- The displacement the resolver adds is its number modulo 2^16 (41_addressing.md R185, R186). -/
theorem toNat_dispValue (d : Disp) : ((dispValue d).toNat : Int) = dispNumber d % 65536 := by
  cases d with
  | none => rfl
  | d8 v => exact toNat_sext16 v
  | d16 v => exact (Int.emod_eq_of_lt (Int.natCast_nonneg _) (Int.ofNat_lt.2 v.isLt)).symm

theorem effectiveAddress_mem (s : State) (b : EaBase) (d : Disp) :
    effectiveAddress s (.mem b d) = baseSum s b + dispValue d := rfl

/-- The effective address of a template is a sum modulo 2^16 (41_addressing.md R186). -/
theorem toNat_effectiveAddress_mem {s : State} {b : EaBase} {x y : Word} (d : Disp)
    (h : (b, x, y) ∈ templateRegisters s) :
    ((effectiveAddress s (.mem b d)).toNat : Int) = ((x.toNat : Int) + y.toNat + dispNumber d) % 65536 := by
  have hd := toNat_dispValue d
  rw [effectiveAddress_mem, baseSum_of_mem_templateRegisters h, BitVec.toNat_add, BitVec.toNat_add]
  omega

/-! ### The segment -/

theorem baseSegment_eq (b : EaBase) : baseSegment b = if b = .bpSi ∨ b = .bpDi ∨ b = .bp then .ss else .ds := by
  cases b <;> rfl

theorem effectiveSegment_mem (s : State) (b : EaBase) (d : Disp) :
    effectiveSegment s (.mem b d) = s.pfx.segOverride.getD (if b = .bpSi ∨ b = .bpDi ∨ b = .bp then .ss else .ds) := by
  rw [← baseSegment_eq]; rfl

theorem effectiveSegment_direct (s : State) (v : Word) :
    effectiveSegment s (.direct v) = s.pfx.segOverride.getD .ds := rfl

/-! ### The operand -/

/-- An operand that is not a register is read at its effective address in its segment (41_addressing.md R189). -/
theorem rmValue_memory (s : State) (w : Width) {rm : RM} (h : isRegister rm = false) :
    rmValue s w rm = readMem s w (effectiveLinear s rm) (effectiveAddress s rm) := by
  cases rm with
  | reg n => cases h
  | mem b d => rfl
  | direct d => rfl

/-- The second word of a far pointer lies two bytes on in the operand's segment (45_transfer_control.md R337). -/
theorem readFarSegment_memory (s u : State) (w : Width) (reg : BitVec 3) (v : Word) {rm : RM}
    (h : isRegister rm = false) : readFarSegment (cacheOf s w reg rm v) u =
      readWord u (lin (getSeg u (effectiveSegment s rm)) (effectiveAddress s rm + 2)) (effectiveAddress s rm + 2) := by
  cases rm with
  | reg n => cases h
  | mem b d => rfl
  | direct d => rfl

theorem rmValue_of_not_accessible {s : State} {w : Width} {rm : RM} (h : rmAccessible s w rm = false) :
    rmValue s w rm = .error .beyondBackingStore := by
  cases hv : rmValue s w rm with
  | ok v => cases h.symm.trans (rmAccessible_of_value hv)
  | error f => rw [(rmValue_error hv).1]

/-- The eager read stops an instruction whose operand lies beyond the backing store (41_addressing.md R189, 20_memory.md
R76). -/
theorem onRM_of_not_accessible {s : State} {w : Width} {rm : RM} (reg : BitVec 3)
    (rest : OperandCache → State → Res State) (h : rmAccessible s w rm = false) :
    onRM w reg rm rest s = .fault .beyondBackingStore :=
  onRM_of_error rest (rmValue_of_not_accessible h)

/-! ### LEA, LDS and LES -/

/-- LEA reads its operand and keeps the offset alone (45_transfer_control.md R336). -/
theorem execLea_memory {s : State} {m : ModRM} {v : Word} (hm : isRegister m.rm = false)
    (hv : rmValue s .word m.rm = .ok v) : execLea m s =
      .next (setR16 (withCache s (cacheOf s .word m.reg.bits m.rm v)) m.reg (effectiveAddress s m.rm)) := by
  obtain ⟨reg, rm⟩ := m
  cases rm with
  | reg n => cases hm
  | mem b d => exact onRM_of_value _ hv
  | direct d => exact onRM_of_value _ hv

/-- A far pointer in memory goes to a general and a segment register (45_transfer_control.md R337, R338). -/
theorem loadFar_memory {s : State} {m : ModRM} {off v : Word} (seg : SegReg) (hm : isRegister m.rm = false)
    (hoff : rmValue s .word m.rm = .ok off)
    (hv : readWord s (lin (getSeg s (effectiveSegment s m.rm)) (effectiveAddress s m.rm + 2))
      (effectiveAddress s m.rm + 2) = .ok v) : loadFar seg m s =
      .next (setSeg (setR16 (withCache s (cacheOf s .word m.reg.bits m.rm off)) m.reg off) seg v) := by
  have hfar : readFarSegment (cacheOf s .word m.reg.bits m.rm off) (withCache s (cacheOf s .word m.reg.bits m.rm off)) =
      .ok v := (readFarSegment_memory s _ _ _ _ hm).trans hv
  refine (onRM_of_value _ hoff).trans ?_
  rw [hfar]
  rfl

theorem execLea_of_not_accessible {s : State} {m : ModRM} (h : rmAccessible s .word m.rm = false) :
    execLea m s = .fault .beyondBackingStore := onRM_of_not_accessible _ _ h

theorem loadFar_of_not_accessible (seg : SegReg) {s : State} {m : ModRM} (h : rmAccessible s .word m.rm = false) :
    loadFar seg m s = .fault .beyondBackingStore := onRM_of_not_accessible _ _ h

/-- Settles O41: the address as a sum of numbers, the segment under an override, the operand at its place, and the three
instructions on an operand in memory, in a register and beyond the store. -/
theorem addressLoads : Obligations.AddressLoads := by
  refine ⟨?lea, rfl, ?address, fun _ _ => rfl, ?segment, ?operand, ?far, ?register, ?beyond⟩
  case lea =>
    intro m s hm ha
    obtain ⟨v, hv⟩ := rmValue_total ha
    exact ⟨_, execLea_memory hm hv, getR16_setR16_same _ _ _, rfl⟩
  case address =>
    rintro b d s x y z hb rfl
    exact toNat_effectiveAddress_mem d hb
  case segment =>
    intro b d v s
    rw [effectiveSegment_mem, effectiveSegment_direct]
    cases s.pfx.segOverride <;> exact ⟨rfl, rfl⟩
  case operand => exact fun rm s hm => ⟨rfl, fun w => rmValue_memory s w hm⟩
  case far =>
    intro m s off seg hm hoff hseg
    exact ⟨⟨_, loadFar_memory .ds hm hoff hseg, getR16_setR16_same _ _ _, rfl, rfl⟩,
      ⟨_, loadFar_memory .es hm hoff hseg, getR16_setR16_same _ _ _, rfl, rfl⟩⟩
  case register =>
    exact fun m s hm => ⟨registerForm_faults s hm (by simp), registerForm_faults s hm (by simp),
      registerForm_faults s hm (by simp)⟩
  case beyond =>
    exact fun m s ha => ⟨execLea_of_not_accessible ha, loadFar_of_not_accessible .ds ha, loadFar_of_not_accessible .es ha⟩

end Sys2Proof.Machine
end

section
/-! SUPPORT. The flag helpers (42_flags.md R219 to R222) in terms of the numbers they are given. -/

namespace Sys2Proof.Machine

open Sys2Proof

/-! ### The shape of the addition and the subtraction helper -/

/-- PSZC of an unmasked result, then the OF and the AF the helper names (42_flags.md R219, R220). -/
def arithFlags (f : Word) (w : Width) (r : Int) (o a : Bool) : Word := setFlag (setFlag (pszc f w r) .OF o) .AF a

theorem flagsAdd_eq_arithFlags (f : Word) (w : Width) (dst src : Nat) :
    flagsAdd f w dst src = arithFlags f w (dst + src) (ofAdd w dst src (dst + src)) (afAdd dst src) := rfl

theorem flagsSub_eq_arithFlags (f : Word) (w : Width) (dst src : Nat) :
    flagsSub f w dst src = arithFlags f w (dst - src) (ofSub w dst src (dst - src)) (afSub dst src) := rfl

@[simp] theorem getFlag_arithFlags_CF (f : Word) (w : Width) (r : Int) (o a : Bool) :
    getFlag (arithFlags f w r o a) .CF = carryBit w r := by
  simp [arithFlags, pszc, getFlag_setFlag]

@[simp] theorem getFlag_arithFlags_OF (f : Word) (w : Width) (r : Int) (o a : Bool) :
    getFlag (arithFlags f w r o a) .OF = o := by
  simp [arithFlags, getFlag_setFlag]

@[simp] theorem getFlag_arithFlags_AF (f : Word) (w : Width) (r : Int) (o a : Bool) :
    getFlag (arithFlags f w r o a) .AF = a := getFlag_setFlag_same _ _ _

/-- CF, OF and AF are written after PSZ and leave what it said. -/
theorem pszHolds_arithFlags (f : Word) (w : Width) (r : Int) (o a : Bool) :
    pszHolds (arithFlags f w r o a) w (masked w r) := by
  have hcf := pszHolds_setFlag (g := .CF) (pszHolds_psz f w r) (carryBit w r) (by decide) (by decide) (by decide)
  have hof := pszHolds_setFlag (g := .OF) hcf o (by decide) (by decide) (by decide)
  exact pszHolds_setFlag (g := .AF) hof a (by decide) (by decide) (by decide)

/-! ### Carry and borrow -/

/-- On the results an addition or a subtraction can give, bit `w` is 1 at a carry out and at a borrow
(42_flags.md R213, R218). -/
theorem carryBit_eq {w : Width} {r : Int} (hlow : -2 ^ bits w ≤ r) (hhigh : r < 2 ^ (bits w + 1)) :
    carryBit w r = decide (r < 0 ∨ 2 ^ bits w ≤ r) := by
  refine decide_eq_decide.2 ?_
  cases w <;> simp only [bits] at * <;> omega

/-- A sum is not below 0: bit `w` is the carry out. -/
theorem carryBit_add {w : Width} {dst src : Nat} (hd : dst < 2 ^ bits w) (hs : src < 2 ^ bits w) :
    carryBit w (dst + src) = decide (2 ^ bits w ≤ dst + src) := by
  zify at hd hs
  rw [carryBit_eq (by omega) (by omega)]
  exact decide_eq_decide.2 (by zify; omega)

/-- A difference is below `2^w`: bit `w` is the borrow. -/
theorem carryBit_sub {w : Width} {dst src : Nat} (hd : dst < 2 ^ bits w) (hs : src < 2 ^ bits w) :
    carryBit w (dst - src) = decide (dst < src) := by
  zify at hd hs
  rw [carryBit_eq (by omega) (by omega)]
  exact decide_eq_decide.2 (by omega)

/-! ### Signed overflow -/

/-- A sum of two signed numbers, and of a carry where there is one, is out of range where its operands have one sign and
the masked result the other (42_flags.md R214; 43_alu.md R252). -/
theorem ofAdd_eq {w : Width} {dst src : Nat} {c : Int} (hd : dst < 2 ^ bits w) (hs : src < 2 ^ bits w)
    (h0 : 0 ≤ c) (h1 : c ≤ 1) :
    ofAdd w dst src (dst + src + c) = outsideSigned w (signedNat w dst + signedNat w src + c) := by
  rw [ofAdd, msb_eq hd, msb_eq hs, msb_eq (masked_lt w _), outsideSigned, Bool.eq_iff_iff]
  simp only [Bool.and_eq_true, beq_iff_eq, bne_iff_ne, ne_eq, decide_eq_decide, decide_eq_true_eq]
  unfold signedNat masked
  cases w <;> simp only [bits] at * <;> split_ifs <;> omega

/-- A difference of two signed numbers, less a borrow where there is one, is out of range where its operands' signs
differ and the masked result has not the sign of the first (42_flags.md R215; 43_alu.md R252). -/
theorem ofSub_eq {w : Width} {dst src : Nat} {c : Int} (hd : dst < 2 ^ bits w) (hs : src < 2 ^ bits w)
    (h0 : 0 ≤ c) (h1 : c ≤ 1) :
    ofSub w dst src (dst - src - c) = outsideSigned w (signedNat w dst - signedNat w src - c) := by
  rw [ofSub, msb_eq hd, msb_eq hs, msb_eq (masked_lt w _), outsideSigned, Bool.eq_iff_iff]
  simp only [Bool.and_eq_true, bne_iff_ne, ne_eq, decide_eq_decide, decide_eq_true_eq]
  unfold signedNat masked
  cases w <;> simp only [bits] at * <;> split_ifs <;> omega

/-! ### The masked result -/

theorem masked_add (w : Width) (dst src : Nat) : masked w (dst + src) = (dst + src) % 2 ^ bits w := by
  rw [← Nat.cast_add, masked_natCast]

/-- A difference below 0 is brought up by `2^w` (42_flags.md R211). -/
theorem masked_sub {w : Width} (dst : Nat) {src : Nat} (hs : src < 2 ^ bits w) :
    masked w (dst - src) = (2 ^ bits w + dst - src) % 2 ^ bits w := by
  rw [← masked_natCast, masked, masked, Nat.cast_sub (by omega)]
  push_cast
  rw [add_sub_assoc, Int.add_emod_left]

/-! ### The obligations -/

/-- Settles O23: CF, OF and AF are the closed forms of the carry, the overflow and the low nibble, and PSZ speaks of the
masked sum. -/
theorem addFlags : Obligations.AddFlags := by
  intro f w dst src hd hs
  refine ⟨?cf, ?of, ?af, ?psz, flagsAdd_only⟩ <;> rw [flagsAdd_eq_arithFlags]
  case cf => rw [getFlag_arithFlags_CF, carryBit_add hd hs]
  case of => simpa using ofAdd_eq hd hs le_rfl zero_le_one
  case af => exact getFlag_arithFlags_AF _ _ _ _ _
  case psz =>
    rw [← masked_add]
    exact pszHolds_arithFlags _ _ _ _ _

/-- Settles O24: CF, OF and AF are the closed forms of the borrow, the overflow and the low byte, and PSZ speaks of the
masked difference. -/
theorem subFlags : Obligations.SubFlags := by
  intro f w dst src hd hs
  refine ⟨?cf, ?of, ?af, ?psz, flagsSub_only⟩ <;> rw [flagsSub_eq_arithFlags]
  case cf => rw [getFlag_arithFlags_CF, carryBit_sub hd hs]
  case of => simpa using ofSub_eq hd hs le_rfl zero_le_one
  case af => exact getFlag_arithFlags_AF _ _ _ _ _
  case psz =>
    rw [← masked_sub dst hs]
    exact pszHolds_arithFlags _ _ _ _ _

theorem getFlag_flagsLogic_AF (f : Word) (w : Width) (r : Nat) : getFlag (flagsLogic f w r) .AF = getFlag f .AF := by
  rw [flagsLogic, getFlag_setFlag_ne _ _ (by decide), getFlag_setFlag_ne _ _ (by decide),
    getFlag_psz_ne _ _ _ (by decide) (by decide) (by decide)]

/-- The logical helper's ZF, SF and PF are those of its result (42_flags.md R222). -/
theorem pszHolds_flagsLogic (f : Word) {w : Width} {r : Nat} (h : r < 2 ^ bits w) :
    pszHolds (flagsLogic f w r) w r := by
  have hpsz := pszHolds_psz f w r
  rw [masked_of_lt h] at hpsz
  have hcf := pszHolds_setFlag (g := .CF) hpsz false (by decide) (by decide) (by decide)
  exact pszHolds_setFlag (g := .OF) hcf false (by decide) (by decide) (by decide)

/-- Settles O25: the logical helper's flags one by one, and the no-carry helpers as the add and sub helpers with CF
written back. -/
theorem logicAndNoCarryFlags : Obligations.LogicAndNoCarryFlags := by
  refine ⟨fun f w r h => ⟨?cf, getFlag_setFlag_same _ _ _, getFlag_flagsLogic_AF f w r, pszHolds_flagsLogic f h⟩,
    fun f w dst src => ⟨getFlag_setFlag_same _ _ _, getFlag_setFlag_same _ _ _,
      fun g hg => getFlag_setFlag_ne _ _ hg, fun g hg => getFlag_setFlag_ne _ _ hg⟩⟩
  case cf => rw [flagsLogic, getFlag_setFlag_ne _ _ (by decide), getFlag_setFlag_same]

end Sys2Proof.Machine
end

section
/-! SUPPORT. The operand bounds, the result of an ALU operation, and what an instruction that writes its r/m operand
or a register leaves there (43_alu.md). -/

namespace Sys2Proof.Machine

open Sys2Proof

/-! ### The operands fit their width -/

theorem toNat_zext16 (v : Byte) : (zext16 v).toNat = v.toNat := BitVec.toNat_setWidth_of_le (by decide)

theorem zext16_lt (v : Byte) : (zext16 v).toNat < 2 ^ bits .byte := (toNat_zext16 v).symm ▸ v.isLt

theorem getReg_lt (s : State) (w : Width) (r : Reg16) : (getReg s w r).toNat < 2 ^ bits w := by
  cases w with
  | byte => exact zext16_lt _
  | word => exact BitVec.isLt _

theorem readMem_lt {s : State} {w : Width} {a : Nat} {off v : Word} (h : readMem s w a off = .ok v) :
    v.toNat < 2 ^ bits w := by
  cases w with
  | byte =>
    obtain ⟨b, -, hb⟩ := bind_ok h
    cases hb
    exact zext16_lt b
  | word => exact v.isLt

/-- The value of an r/m operand is below `2^w` (41_addressing.md R183, R189). -/
theorem rmValue_lt {s : State} {w : Width} {rm : RM} {v : Word} (h : rmValue s w rm = .ok v) :
    v.toNat < 2 ^ bits w := by
  cases rm with
  | reg n => cases h; exact getReg_lt s w n
  | mem b d => exact readMem_lt h
  | direct d => exact readMem_lt h

theorem immValue_lt (i : Imm) : (immValue i).toNat < 2 ^ bits i.width := by
  cases i with
  | ib v => exact zext16_lt v
  | iw v => exact v.isLt

theorem grpImmValue_lt (i : GrpImm) : (grpImmValue i).toNat < 2 ^ bits i.width := by
  cases i with
  | ib80 v | ib82 v => exact zext16_lt v
  | iw81 v | sx83 v => exact BitVec.isLt _

/-- A value that fits its width is kept whole. -/
theorem keep_ofNat {w : Width} {n : Nat} (h : n < 2 ^ bits w) : keep w (BitVec.ofNat 16 n) = BitVec.ofNat 16 n := by
  cases w with
  | word => rfl
  | byte =>
    apply BitVec.eq_of_toNat_eq
    simp only [bits] at h
    simp only [keep, toNat_zext16, loByte, BitVec.toNat_setWidth, BitVec.toNat_ofNat]
    omega

theorem keep_narrow (w : Width) (r : Int) : keep w (narrow w r) = narrow w r := keep_ofNat (masked_lt w r)

/-! ### The result of an ALU operation -/

theorem natCast_masked (w : Width) (r : Int) : (masked w r : Int) = r % 2 ^ bits w :=
  Int.toNat_of_nonneg (Int.emod_nonneg _ (by positivity))

/-- The second pass of ADC and SBB may start from the masked result of the first (43_alu.md R252). -/
theorem masked_masked_add (w : Width) (r c : Int) : masked w (masked w r + c) = masked w (r + c) := by
  rw [natCast_masked, masked, Int.emod_add_emod, masked]

theorem masked_masked_sub (w : Width) (r c : Int) : masked w (masked w r - c) = masked w (r - c) :=
  masked_masked_add w r (-c)

/-- ADC's result is the masked sum with CF, in every mode (43_alu.md R246, R252). -/
theorem adc_fst (mode : AdcSbbMode) (f : Word) (w : Width) (dst src : Nat) :
    (adc mode f w dst src).1 = aluResult .adc w dst src (getFlag f .CF) := by
  have hsum (c : Bool) : aluResult .adc w dst src c = masked w (dst + src + c.toNat) := by
    rw [aluResult, ← masked_natCast]; push_cast; rfl
  rw [hsum]
  cases hc : getFlag f .CF with
  | false => simp [adc, hc]
  | true => cases mode <;> simp [adc, hc, masked_masked_add]

/-- SBB's result is the masked difference less CF, in every mode (43_alu.md R247, R252). -/
theorem sbb_fst (mode : AdcSbbMode) (f : Word) (w : Width) (dst src : Nat) :
    (sbb mode f w dst src).1 = aluResult .sbb w dst src (getFlag f .CF) := by
  have hdiff (c : Bool) : aluResult .sbb w dst src c = masked w (dst - src - c.toNat) := rfl
  rw [hdiff]
  cases hc : getFlag f .CF with
  | false => simp [sbb, hc]
  | true => cases mode <;> simp [sbb, hc, masked_masked_sub]

/-- What is written is the result the operation's rule states (43_alu.md R244 to R250). -/
theorem alu_fst {k : AluOp} (hk : k ≠ .cmp) (mode : AdcSbbMode) (f : Word) (w : Width) (dst src : Nat) :
    (alu k mode f w dst src).1 = aluResult k w dst src (getFlag f .CF) := by
  cases k with
  | add => exact masked_add w dst src
  | adc => exact adc_fst mode f w dst src
  | sbb => exact sbb_fst mode f w dst src
  | or | and | sub | xor => rfl
  | cmp => exact absurd rfl hk

theorem aluResult_lt (k : AluOp) {w : Width} {dst src : Nat} (c : Bool) (hd : dst < 2 ^ bits w)
    (hs : src < 2 ^ bits w) : aluResult k w dst src c < 2 ^ bits w := by
  cases k with
  | add | adc => exact Nat.mod_lt _ (by positivity)
  | sub | sbb => exact masked_lt w _
  | or => exact Nat.or_lt_two_pow hd hs
  | and => exact Nat.and_lt_two_pow _ hs
  | xor => exact Nat.xor_lt_two_pow hd hs
  | cmp => exact hd

/-! ### Writing the r/m operand -/

theorem bind_of_ok {α β : Type} {x : Res α} {a : α} {f : α → Res β} (h : x = .ok a) : (x >>= f) = f a := by
  rw [h]; rfl

@[simp] theorem readPlace_setFlags (s : State) (f : Word) (w : Width) (p : Place) :
    readPlace (setFlags s f) w p = readPlace s w p := by
  cases p <;> rfl

@[simp] theorem readPlace_withCache (s : State) (c : OperandCache) (w : Width) (p : Place) :
    readPlace (withCache s c) w p = readPlace s w p := by
  cases p <;> rfl

/-- An operand that was read can be written: FLAGS stay, and its place then holds what was written (41_addressing.md
R189, R192). -/
theorem writeRM_of_value {s u : State} {w : Width} {rm : RM} {v : Word} (reg : BitVec 3) (x : Word)
    (hv : rmValue s w rm = .ok v) (hp : u.params = s.params) (hwf : u.mem.wf = true) :
    ∃ t, writeRM (cacheOf s w reg rm v) x u = .ok t ∧ t.flags = u.flags ∧
      readPlace t w (placeOf s rm) = .ok (keep w x) := by
  obtain ⟨t, ht⟩ := writeRM_total reg v x hp (rmAccessible_of_value hv)
  refine ⟨t, ht, ?_, readPlace_writeRM hwf ht⟩
  obtain ⟨n, -, rfl⟩ | ⟨-, m, rfl, -⟩ := writeRM_spec hp ht
  · exact setReg_flags _ _ _ _
  · rfl

/-- An instruction that writes a narrowed result to its r/m operand, then FLAGS. -/
theorem onRM_narrow_setFlags {s : State} {w : Width} {rm : RM} {v : Word} (reg : BitVec 3) (r : Word → Int)
    (f : Word → Word → Word) (hwf : s.mem.wf = true) (hv : rmValue s w rm = .ok v) :
    ∃ t, onRM w reg rm (fun c u => do
        let t ← writeRM c (narrow w (r c.op)) u
        .ok (setFlags t (f u.flags c.op))) s = .next t ∧
      t.flags = f s.flags v ∧ readPlace t w (placeOf s rm) = .ok (narrow w (r v)) := by
  obtain ⟨t, ht, -, hread⟩ := writeRM_of_value (u := withCache s _) reg (narrow w (r v)) hv rfl hwf
  refine ⟨setFlags t (f s.flags v), (onRM_of_value _ hv).trans (outcome_next.2 (bind_of_ok ht)), rfl, ?_⟩
  rw [readPlace_setFlags, hread, keep_narrow]

/-! ### The eight operations -/

theorem exec_aluRmRegInstr (k : AluOp) (d : Dir) (w : Width) (m : ModRM) (s : State) :
    exec (aluRmRegInstr k d w m) s = aluRmReg k d w m s := by cases k <;> rfl

theorem exec_aluAccImmInstr (k : AluOp) (i : Imm) (s : State) : exec (aluAccImmInstr k i) s = aluAccImm k i s := by
  cases k <;> rfl

theorem exec_aluRmImmInstr (k : AluOp) (m : ModRM) (i : GrpImm) (s : State) :
    exec (aluRmImmInstr k m i) s = aluRmImm k m i s := by cases k <;> rfl

/-- An ALU operation on a destination: `Holds t x` says that it reads as `x` in the state `t`. Where a write leaves what
was written there, whatever FLAGS become, the operation leaves its result there, and CMP the old value (43_alu.md R240,
R251). -/
theorem aluApply_spec (k : AluOp) {w : Width} {dst src : Word} {write : Word → State → Res State} {s : State}
    {Holds : State → Word → Prop} (hd : dst.toNat < 2 ^ bits w) (hs : src.toNat < 2 ^ bits w)
    (hold : ∀ f, Holds (setFlags s f) dst)
    (hwrite : ∀ x, ∃ t, write x s = .ok t ∧ ∀ f, Holds (setFlags t f) (keep w x)) :
    ∃ t, aluApply k w dst src write s = .ok t ∧
      t.flags = (alu k s.params.adcSbbMode s.flags w dst.toNat src.toNat).2 ∧
      Holds t (BitVec.ofNat 16 (aluResult k w dst.toNat src.toNat (s.flag .CF))) := by
  by_cases hk : k = .cmp
  · subst hk
    refine ⟨_, rfl, rfl, ?_⟩
    rw [aluResult, BitVec.ofNat_toNat, BitVec.setWidth_eq]
    exact hold _
  · obtain ⟨t, ht, hread⟩ := hwrite (BitVec.ofNat 16 (alu k s.params.adcSbbMode s.flags w dst.toNat src.toNat).1)
    refine ⟨setFlags t (alu k s.params.adcSbbMode s.flags w dst.toNat src.toNat).2, ?_, rfl, ?_⟩
    · rw [aluApply, aluWrite, if_neg hk, bind_of_ok ht]
    · have hresult := hread (alu k s.params.adcSbbMode s.flags w dst.toNat src.toNat).2
      rw [alu_fst hk, keep_ofNat (aluResult_lt k _ hd hs)] at hresult
      exact hresult

/-- An ALU operation whose destination is a register (43_alu.md R241, R242). -/
theorem aluApply_writeG (k : AluOp) (s : State) (w : Width) (r : Reg16) {src : Word} (hs : src.toNat < 2 ^ bits w) :
    ∃ t, aluApply k w (getReg s w r) src (writeG w r) s = .ok t ∧
      t.flags = (alu k s.params.adcSbbMode s.flags w (getReg s w r).toNat src.toNat).2 ∧
      getReg t w r = BitVec.ofNat 16 (aluResult k w (getReg s w r).toNat src.toNat (s.flag .CF)) :=
  aluApply_spec k (Holds := fun t x => getReg t w r = x) (getReg_lt s w r) hs (fun _ => rfl)
    (fun x => ⟨_, rfl, fun _ => getReg_setReg_same s w r x⟩)

/-- An ALU operation whose destination is the r/m operand (43_alu.md R241, R243). -/
theorem onRM_aluApply (k : AluOp) {s : State} {w : Width} {rm : RM} {v : Word} (reg : BitVec 3)
    {src : State → Word} (hsrc : ∀ c, src (withCache s c) = src s) (hs : (src s).toNat < 2 ^ bits w)
    (hwf : s.mem.wf = true) (hv : rmValue s w rm = .ok v) :
    ∃ t, onRM w reg rm (fun c u => aluApply k w c.op (src u) (writeRM c) u) s = .next t ∧
      t.flags = (alu k s.params.adcSbbMode s.flags w v.toNat (src s).toNat).2 ∧
      readPlace t w (placeOf s rm) = .ok (BitVec.ofNat 16 (aluResult k w v.toNat (src s).toNat (s.flag .CF))) := by
  have hwrite (x : Word) : ∃ t, writeRM (cacheOf s w reg rm v) x (withCache s (cacheOf s w reg rm v)) = .ok t ∧
      ∀ f, readPlace (setFlags t f) w (placeOf s rm) = .ok (keep w x) := by
    obtain ⟨t, ht, -, hread⟩ := writeRM_of_value (u := withCache s (cacheOf s w reg rm v)) reg x hv rfl hwf
    exact ⟨t, ht, fun f => (readPlace_setFlags t f w _).trans hread⟩
  obtain ⟨t, ht, hflags, hread⟩ := aluApply_spec k (Holds := fun t x => readPlace t w (placeOf s rm) = .ok x)
    (rmValue_lt hv) hs (fun f => (readPlace_setFlags _ f w _).trans ((readPlace_withCache s _ w _).trans hv)) hwrite
  refine ⟨t, (onRM_of_value _ hv).trans ?_, hflags, hread⟩
  rw [hsrc]
  exact outcome_next.2 ht

/-- Settles O27: the operation on the r/m operand and on the register, and the flags helper of each operation. -/
theorem aluRegisterForms : Obligations.AluRegisterForms := by
  refine ⟨fun k d w m s v hwf hv => ?_, fun k mode f w dst src => by cases k <;> rfl⟩
  rw [exec_aluRmRegInstr]
  cases d with
  | toRm => exact onRM_aluApply k _ (src := fun u => getReg u w m.reg) (fun _ => rfl) (getReg_lt s w m.reg) hwf hv
  | toReg =>
    obtain ⟨t, ht, hresult⟩ :=
      aluApply_writeG k (withCache s (cacheOf s w m.reg.bits m.rm v)) w m.reg (rmValue_lt hv)
    exact ⟨t, (onRM_of_value _ hv).trans (outcome_next.2 ht), hresult⟩

/-- Settles O28: the operation on the accumulator and on the r/m operand, and the value of each immediate. -/
theorem aluImmediateForms : Obligations.AluImmediateForms := by
  refine ⟨fun k i s => ?_, fun k m i s v hwf hv => ?_, fun x => ⟨toNat_zext16 x, toNat_zext16 x, rfl⟩, fun _ => rfl⟩
  · obtain ⟨t, ht, hresult⟩ := aluApply_writeG k s i.width .ax (immValue_lt i)
    exact ⟨t, (exec_aluAccImmInstr k i s).trans (outcome_next.2 ht), hresult⟩
  · rw [exec_aluRmImmInstr]
    exact onRM_aluApply k _ (src := fun _ => grpImmValue i) (fun _ => rfl) (grpImmValue_lt i) hwf hv

/-! ### TEST -/

/-- What TEST does to FLAGS, and that it writes nothing else (43_alu.md R253 to R255). -/
theorem testFlags_spec {w : Width} (a : Word) {b : Word} (s : State) (hb : b.toNat < 2 ^ bits w) :
    pszHolds (testFlags w a b s).flags w (a.toNat &&& b.toNat) ∧
      getFlag (testFlags w a b s).flags .CF = false ∧ getFlag (testFlags w a b s).flags .OF = false ∧
      FlagsOnly [.CF, .PF, .ZF, .SF, .OF] s.flags (testFlags w a b s).flags ∧
      (testFlags w a b s).gpr = s.gpr ∧ (testFlags w a b s).segs = s.segs ∧ (testFlags w a b s).mem = s.mem := by
  have hlt : (a &&& b).toNat < 2 ^ bits w := (BitVec.toNat_and a b).symm ▸ Nat.and_lt_two_pow _ hb
  obtain ⟨hcf, hof, -, hpsz⟩ := logicAndNoCarryFlags.1 s.flags w (a &&& b).toNat hlt
  exact ⟨BitVec.toNat_and a b ▸ hpsz, hcf, hof, logic_only, rfl, rfl, rfl⟩

theorem execTestRmReg_of_value {s : State} {w : Width} {m : ModRM} {a : Word} (h : rmValue s w m.rm = .ok a) :
    execTestRmReg w m s =
      .next (testFlags w a (getReg s w m.reg) (withCache s (cacheOf s w m.reg.bits m.rm a))) := onRM_of_value _ h

theorem execTestRmImm_of_value {s : State} {m : ModRM} {j : Imm} {a : Word} (h : rmValue s j.width m.rm = .ok a) :
    execTestRmImm m j s =
      .next (testFlags j.width a (immValue j) (withCache s (cacheOf s j.width m.reg.bits m.rm a))) := onRM_of_value _ h

/-- Settles O29: each form is `testFlags` on its two operands. -/
theorem testForms : Obligations.TestForms := by
  rintro i w a b s (⟨m, rfl, ha, rfl⟩ | ⟨j, rfl, rfl, rfl, rfl⟩ | ⟨m, j, rfl, rfl, ha, rfl⟩)
  case inl => exact ⟨_, execTestRmReg_of_value ha, testFlags_spec a (withCache s _) (getReg_lt s w m.reg)⟩
  case inr.inl => exact ⟨_, rfl, testFlags_spec _ s (immValue_lt j)⟩
  case inr.inr => exact ⟨_, execTestRmImm_of_value ha, testFlags_spec a (withCache s _) (immValue_lt j)⟩

/-! ### INC, DEC, NOT and NEG -/

theorem narrow_natCast (w : Width) (n : Nat) : narrow w n = BitVec.ofNat 16 (n % 2 ^ bits w) := by
  rw [narrow, masked_natCast]

theorem narrow_sub {w : Width} (dst : Nat) {src : Nat} (hs : src < 2 ^ bits w) :
    narrow w (dst - src) = BitVec.ofNat 16 ((2 ^ bits w + dst - src) % 2 ^ bits w) := by
  rw [narrow, masked_sub dst hs]

/-- Settles O30: on a register by the word's own addition, on the r/m operand by the narrowed sum and difference. -/
theorem incDecForms : Obligations.IncDecForms := by
  refine ⟨fun r s => ⟨⟨_, rfl, ?incReg, rfl⟩, ⟨_, rfl, ?decReg, rfl⟩⟩, fun w m s v hwf hv => ⟨?incRm, ?decRm⟩⟩
  case incReg =>
    rw [getR16_setFlags, getR16_setR16_same]
    exact BitVec.toNat_add _ _
  case decReg =>
    rw [getR16_setFlags, getR16_setR16_same, Nat.add_comm]
    exact BitVec.toNat_sub _ _
  case incRm =>
    rw [← narrow_natCast]
    exact onRM_narrow_setFlags _ (fun op => op.toNat + 1) (fun f op => flagsAddNC f w op.toNat 1) hwf hv
  case decRm =>
    have h1 : 1 < 2 ^ bits w := Nat.one_lt_two_pow (by cases w <;> decide)
    rw [Nat.add_comm v.toNat, ← narrow_sub v.toNat h1]
    exact onRM_narrow_setFlags _ (fun op => op.toNat - 1) (fun f op => flagsSubNC f w op.toNat 1) hwf hv

/-- The one's complement of a word, narrowed to the width of its operand (43_alu.md R260). -/
theorem narrow_not {w : Width} {v : Word} (h : v.toNat < 2 ^ bits w) :
    narrow w (~~~v).toNat = BitVec.ofNat 16 (2 ^ bits w - 1 - v.toNat) := by
  rw [narrow_natCast, BitVec.toNat_not]
  congr 1
  cases w <;> simp only [bits] at * <;> omega

/-- `0 - v` overflows at the least signed number alone (43_alu.md R261). -/
theorem outsideSigned_neg {w : Width} {v : Nat} (h : v < 2 ^ bits w) :
    outsideSigned w (signedNat w 0 - signedNat w v) = decide (v = 2 ^ (bits w - 1)) := by
  refine decide_eq_decide.2 ?_
  unfold signedNat
  cases w <;> simp only [bits] at * <;> split_ifs <;> omega

/-- The flags of `0 - v`, one by one (43_alu.md R261). -/
theorem flagsSub_zero (f : Word) {w : Width} {v : Nat} (h : v < 2 ^ bits w) :
    getFlag (flagsSub f w 0 v) .CF = decide (v ≠ 0) ∧ getFlag (flagsSub f w 0 v) .OF = decide (v = 2 ^ (bits w - 1)) ∧
      getFlag (flagsSub f w 0 v) .AF = decide (v % 256 ≠ 0) ∧
      pszHolds (flagsSub f w 0 v) w ((2 ^ bits w - v) % 2 ^ bits w) := by
  obtain ⟨hcf, hof, haf, hpsz, -⟩ := subFlags f w 0 v (by positivity) h
  exact ⟨hcf.trans (decide_eq_decide.2 Nat.pos_iff_ne_zero), hof.trans (outsideSigned_neg h),
    haf.trans (decide_eq_decide.2 Nat.pos_iff_ne_zero), hpsz⟩

/-- Settles O31: NOT writes its operand and no more, NEG is `0 - op` with the flags of that subtraction. -/
theorem notNegForms : Obligations.NotNegForms := by
  intro w m s v hwf hv
  refine ⟨?not, ?neg⟩
  case not =>
    obtain ⟨t, ht, hflags, hread⟩ :=
      writeRM_of_value (u := withCache s _) m.reg.bits (narrow w (~~~v).toNat) hv rfl hwf
    refine ⟨t, (onRM_of_value _ hv).trans (outcome_next.2 ht), hflags, ?_⟩
    rw [hread, keep_narrow, narrow_not (rmValue_lt hv)]
  case neg =>
    obtain ⟨t, ht, hflags, hread⟩ :=
      onRM_narrow_setFlags m.reg.bits (fun op => 0 - op.toNat) (fun f op => flagsSub f w 0 op.toNat) hwf hv
    refine ⟨t, ht, hflags, hread.trans (congrArg _ (narrow_sub 0 (rmValue_lt hv))), ?_⟩
    rw [hflags]
    exact flagsSub_zero s.flags (rmValue_lt hv)

end Sys2Proof.Machine
end

section
/-! SUPPORT. The word a push stores, what later pushes leave of it and what a pop takes back, and what taking an
exception saves and loads (44_stack_interrupt.md). -/

namespace Sys2Proof.Machine

open Sys2Proof

/-- A word of the stack is read through SS, the parameters and memory alone. -/
theorem stackWord_congr {s t : State} (hss : t.segs.ss = s.segs.ss) (hp : t.params = s.params) {off : Word}
    (hm : ∀ c ∈ stackCells s off, Memory.read t.mem c = Memory.read s.mem c) :
    stackWord t off = stackWord s off := by
  rw [stackWord, stackWord, hss]
  exact readMem_congr (w := .word) hp hm

@[simp] theorem stackWord_setFlags (s : State) (f off : Word) : stackWord (setFlags s f) off = stackWord s off := rfl

/-- A cell names its offset in the stack segment modulo 2^16: that of the low byte or of the high byte, wherever
`highAddress` and `wordSecondByte` place them (20_memory.md R73, R76). -/
theorem offset_of_mem_stackCells {s : State} {off : Word} {c : Nat} (h : c ∈ stackCells s off) :
    BitVec.ofNat 16 c - BitVec.ofNat 16 (s.segs.ss.toNat * 16) = off ∨
      BitVec.ofNat 16 c - BitVec.ofNat 16 (s.segs.ss.toNat * 16) = off + 1 := by
  rw [stackCells, accessCells, List.mem_append, Option.mem_toList, Option.mem_toList] at h
  rcases h with hlow | hhigh
  · left
    have hc := physical_eq_mod hlow
    unfold lin memorySize at hc
    bv_omega
  · right
    have hc := physical_eq_mod hhigh
    unfold secondByte lin memorySize at hc
    split at hc <;> bv_omega

/-- Two words of the stack whose offsets are at least 2 apart, either way round, share no cell. -/
theorem stackCells_disjoint {s : State} {a b : Word} (hab : 2 ≤ (a - b).toNat) (hba : 2 ≤ (b - a).toNat) {c : Nat}
    (ha : c ∈ stackCells s a) : c ∉ stackCells s b := by
  intro hb
  rcases offset_of_mem_stackCells ha with ea | ea <;> rcases offset_of_mem_stackCells hb with eb | eb <;> bv_omega

/-- A push leaves the words of the stack from the old top of stack up. -/
theorem stackWord_push16_above {s t : State} {v off : Word} (h : push16 v s = .ok t)
    (hoff : (off - s.gpr.sp).toNat ≤ 65532) : stackWord t off = stackWord s off := by
  obtain ⟨-, hsegs, hparams⟩ := push_sp h
  have hup : 2 ≤ (off - (s.gpr.sp - 2)).toNat := by bv_omega
  have hdown : 2 ≤ (s.gpr.sp - 2 - off).toNat := by bv_omega
  exact stackWord_congr (congrArg Segs.ss hsegs) hparams fun c hc =>
    (frame_push h).mem c (stackCells_disjoint hup hdown hc)

theorem push16_mem_wf {s t : State} {v : Word} (h : push16 v s = .ok t) (hwf : s.mem.wf = true) : t.mem.wf = true := by
  obtain ⟨m, rfl, hm, -⟩ := push16_spec h
  exact hm hwf

/-- The word a push stored is at the new top of stack. -/
theorem stackWord_push16 {s t : State} {v : Word} (h : push16 v s = .ok t) (hwf : s.mem.wf = true) :
    stackWord t t.gpr.sp = .ok v := by
  obtain ⟨hsp, hsegs, -⟩ := push_sp h
  rw [stackWord, hsegs, hsp]
  exact readWord_push16 hwf h

/-- Where its word can be accessed, a push completes, stores its value at the new top of stack and keeps FLAGS. -/
theorem push16_stores {s : State} (v : Word) (hwf : s.mem.wf = true)
    (hacc : stackAccessible s (pushedSp s 1) = true) :
    ∃ t, outcome (push16 v s) = .next t ∧ t.gpr.sp = pushedSp s 1 ∧ stackWord t t.gpr.sp = .ok v ∧
      t.flags = s.flags := by
  obtain ⟨m, hpush⟩ := push16_total v hacc
  exact ⟨_, outcome_next.2 hpush, rfl, stackWord_push16 hpush hwf, rfl⟩

/-- PUSH SP stores SP after the decrement under `new`; PUSH r16 stores the register otherwise (44_stack_interrupt.md
R292). -/
theorem pushRegValue_eq (r : Reg16) (s : State) :
    pushRegValue r s = if r = .sp ∧ s.params.pushSpValue = .new then pushedSp s 1 else getR16 s r := by
  unfold pushRegValue
  cases s.params.pushSpValue with
  | old => simp
  | new => simp [pushedSp]

/-- Settles O32: each form is one push, of the register's value, the operand's, or FLAGS. -/
theorem pushes : Obligations.Pushes := by
  rintro i s v hwf hacc (⟨r, rfl, rfl⟩ | ⟨r, rfl, rfl⟩ | ⟨m, rfl, hv⟩ | ⟨rfl, rfl⟩)
  case inl => exact pushRegValue_eq r s ▸ push16_stores (pushRegValue r s) hwf hacc
  case inr.inl => exact push16_stores (getSeg s r) hwf hacc
  case inr.inr.inl =>
    obtain ⟨t, hpush, hstored⟩ := push16_stores (s := withCache s (cacheOf s .word m.reg.bits m.rm v)) v hwf hacc
    exact ⟨t, (onRM_of_value _ hv).trans hpush, hstored⟩
  case inr.inr.inr => exact push16_stores s.flags hwf hacc

/-! ### POPF and IRET -/

/-- POPF takes FLAGS whole from the top of stack (44_stack_interrupt.md R299). -/
theorem execPopf_of_stackWord {s : State} {v : Word} (h : stackWord s s.gpr.sp = .ok v) :
    execPopf s = .next (setFlags (setR16 s .sp (s.gpr.sp + 2)) v) :=
  outcome_next.2 (bind_of_ok (pop16_ok.2 ⟨h, rfl⟩))

/-- Settles O34: POPF takes back the word PUSHF stored, and SP goes up by what it went down. -/
theorem pushfPopfRoundTrip : Obligations.PushfPopfRoundTrip := by
  refine ⟨fun s v h => ⟨_, execPopf_of_stackWord h, rfl, rfl⟩, fun s f hwf hacc => ?_⟩
  obtain ⟨m, hpush⟩ := push16_total s.flags hacc
  have htop := stackWord_push16 hpush hwf
  refine ⟨_, _, outcome_next.2 hpush, execPopf_of_stackWord htop, rfl, ?_⟩
  show { s.gpr with sp := s.gpr.sp - 2 + 2 } = s.gpr
  rw [BitVec.sub_add_cancel]

/-- The return from an exception takes IP, CS and FLAGS from the three words at the top of stack
(44_stack_interrupt.md R305). -/
theorem interruptReturn_of_stackWords {s : State} {a b c : Word} (ha : stackWord s s.gpr.sp = .ok a)
    (hb : stackWord s (s.gpr.sp + 2) = .ok b) (hc : stackWord s (s.gpr.sp + 2 + 2) = .ok c) :
    interruptReturn s =
      .ok (setFlags
        (setR16 (setSeg (setIp (setR16 s .sp (s.gpr.sp + 2 + 2)) a) .cs b) .sp (s.gpr.sp + 2 + 2 + 2)) c) := by
  have hpopIp := pop16_ok.2 ⟨ha, rfl⟩
  have hpopCs := (pop16_ok (s := setIp (setR16 s .sp (s.gpr.sp + 2)) a)).2 ⟨hb, rfl⟩
  have hpopFlags :=
    (pop16_ok (s := setSeg (setIp (setR16 s .sp (s.gpr.sp + 2 + 2)) a) .cs b)).2 ⟨hc, rfl⟩
  rw [interruptReturn, bind_of_ok hpopIp, bind_of_ok hpopCs]
  exact bind_of_ok hpopFlags

/-- Settles O36: INTO takes its other branch, and IRET's three pops are of the three words. -/
theorem intoAndIret : Obligations.IntoAndIret := by
  refine ⟨fun s hof => ?into, fun s a b c ha hb hc => ?iret⟩
  case into =>
    show execInto s = .next s
    rw [execInto, hof]
    rfl
  case iret =>
    have h4 : s.gpr.sp + 2 + 2 = s.gpr.sp + 4 := BitVec.add_assoc _ _ _
    have h6 : s.gpr.sp + 2 + 2 + 2 = s.gpr.sp + 6 := by bv_omega
    exact ⟨_, outcome_next.2 (interruptReturn_of_stackWords ha hb (h4 ▸ hc)), rfl, rfl, rfl, h6⟩

/-! ### Taking an exception -/

/-- The steps of taking an exception: FLAGS, CS and IP pushed, TF and IF cleared after the first push, then the two
words of the vector loaded (44_stack_interrupt.md R300). -/
theorem interrupt_steps {s t : State} {n : Byte} (h : interrupt n s = .ok t) :
    ∃ t1 t2 t3 ip cs, push16 s.flags s = .ok t1 ∧
      push16 s.segs.cs (setFlags t1 (setFlag (setFlag s.flags .TF false) .IF false)) = .ok t2 ∧
      push16 s.ip t2 = .ok t3 ∧ readWord t3 (vectorAddr n) (BitVec.ofNat 16 (vectorAddr n)) = .ok ip ∧
      readWord t3 (vectorAddr n + 2) (BitVec.ofNat 16 (vectorAddr n + 2)) = .ok cs ∧
      t = { setSeg (setIp t3 ip) .cs cs with run := .running } := by
  obtain ⟨t1, h1, h⟩ := bind_ok h
  obtain ⟨t2, h2, h⟩ := bind_ok h
  obtain ⟨t3, h3, h⟩ := bind_ok h
  obtain ⟨ip, hip, h⟩ := bind_ok h
  obtain ⟨cs, hcs, h⟩ := bind_ok h
  cases h
  obtain ⟨m1, rfl, -⟩ := push16_spec h1
  obtain ⟨m2, rfl, -⟩ := push16_spec h2
  exact ⟨_, _, t3, ip, cs, h1, h2, h3, hip, hcs, rfl⟩

/-- Control goes to the vector-table entry as memory holds it after the pushes (44_stack_interrupt.md R300). -/
theorem interrupt_vector {s t : State} {n : Byte} (h : interrupt n s = .ok t) :
    readWord t (vectorAddr n) (BitVec.ofNat 16 (vectorAddr n)) = .ok t.ip ∧
      readWord t (vectorAddr n + 2) (BitVec.ofNat 16 (vectorAddr n + 2)) = .ok t.segs.cs := by
  obtain ⟨t1, t2, t3, ip, cs, -, -, -, hip, hcs, rfl⟩ := interrupt_steps h
  exact ⟨hip, hcs⟩

/-- FLAGS, CS and IP are the three words below the old top of stack (44_stack_interrupt.md R300). -/
theorem interrupt_stackWords {s t : State} {n : Byte} (hwf : s.mem.wf = true) (h : interrupt n s = .ok t) :
    stackWord t (s.gpr.sp - 2) = .ok s.flags ∧ stackWord t (s.gpr.sp - 2 - 2) = .ok s.segs.cs ∧
      stackWord t (s.gpr.sp - 2 - 2 - 2) = .ok s.ip := by
  obtain ⟨t1, t2, t3, ip, cs, h1, h2, h3, -, -, rfl⟩ := interrupt_steps h
  have hwf1 := push16_mem_wf h1 hwf
  have hwf2 := push16_mem_wf h2 hwf1
  have hsp1 : t1.gpr.sp = s.gpr.sp - 2 := (push_sp h1).1
  have hsp2 : t2.gpr.sp = s.gpr.sp - 2 - 2 := hsp1 ▸ (push_sp h2).1
  have hsp3 : t3.gpr.sp = s.gpr.sp - 2 - 2 - 2 := hsp2 ▸ (push_sp h3).1
  have hflags := calc stackWord t3 t1.gpr.sp
    _ = stackWord t2 t1.gpr.sp := stackWord_push16_above h3 (by rw [hsp1, hsp2]; bv_omega)
    _ = stackWord (setFlags t1 _) t1.gpr.sp := stackWord_push16_above h2 (by simp)
    _ = stackWord t1 t1.gpr.sp := stackWord_setFlags _ _ _
    _ = .ok s.flags := stackWord_push16 h1 hwf
  have hcs := (stackWord_push16_above h3 (by simp)).trans (stackWord_push16 h2 hwf1)
  have hip := stackWord_push16 h3 hwf2
  exact ⟨hsp1 ▸ hflags, hsp2 ▸ hcs, hsp3 ▸ hip⟩

/-- SP, TF, IF and the run state after an exception is taken (44_stack_interrupt.md R300, R301; 60_exceptions.md
R470). -/
theorem interrupt_sp_flags_run {s t : State} {n : Byte} (h : interrupt n s = .ok t) :
    t.gpr.sp = s.gpr.sp - 2 - 2 - 2 ∧ getFlag t.flags .TF = false ∧ getFlag t.flags .IF = false ∧
      t.run = .running := by
  obtain ⟨m, ip, cs, rfl, -⟩ := interrupt_spec h
  refine ⟨rfl, ?_, getFlag_setFlag_same _ _ _, rfl⟩
  rw [getFlag_setFlag_ne _ _ (by decide), getFlag_setFlag_same]

/-- The four ways to take an exception are the host's call (44_stack_interrupt.md R302 to R304; 60_exceptions.md
R469). -/
theorem eq_hostInterrupt {n : Byte} {s : State} {o : Out}
    (h : o = exec (.int n) s ∨ (n = 3 ∧ o = exec .int3 s) ∨ (n = 4 ∧ s.flag .OF = true ∧ o = exec .into s) ∨
      o = hostInterrupt n s) : o = hostInterrupt n s := by
  obtain rfl | ⟨rfl, rfl⟩ | ⟨rfl, hof, rfl⟩ | rfl := h
  case inl => rfl
  case inr.inl => rfl
  case inr.inr.inl => exact congrArg outcome (if_pos hof)
  case inr.inr.inr => rfl

/-- Settles O35: the four ways are one call of `interrupt`; what it saves, loads and clears has a lemma each, and its
frame is what stays. -/
theorem exceptionEntry : Obligations.ExceptionEntry := by
  intro n s o hwf h1 h2 h3 ho
  have hsp2 : s.gpr.sp - 2 - 2 = pushedSp s 2 := sub22 _
  have hsp3 : s.gpr.sp - 2 - 2 - 2 = pushedSp s 3 := sub222 _
  obtain ⟨t, ht⟩ := interrupt_total n h1 (hsp2 ▸ h2) (hsp3 ▸ h3)
  obtain ⟨hsp, htf, hif, hrun⟩ := interrupt_sp_flags_run ht
  obtain ⟨hflags, hcs, hip⟩ := interrupt_stackWords hwf ht
  obtain ⟨hnewIp, hnewCs⟩ := interrupt_vector ht
  have hframe := frame_interrupt ht
  refine ⟨t, (eq_hostInterrupt ho).trans (outcome_next.2 ht), hsp3 ▸ hsp, hflags, hsp2 ▸ hcs, hsp3 ▸ hip, hnewIp,
    hnewCs, htf, hif, fun k hk hne8 hne9 => hframe.fl k hk ?bits, hrun, fun q hq => hframe.r16 q ?regs,
    fun q hq => hframe.seg q ?segs, hframe.mem⟩
  case bits => simp [flagBit, Ne.symm hne8, Ne.symm hne9]
  case regs => simpa [spDest, slotOf] using Ne.symm hq
  case segs => simpa using hq

end Sys2Proof.Machine
end

section
/-! SUPPORT. Where DIV and IDIV raise a divide error (44_stack_interrupt.md R308; 46_string_shift_muldiv_misc.md R412,
R413). -/

namespace Sys2Proof.Machine

open Sys2Proof

/-- A divide error of DIV is the host's `interrupt(0)` after the resolver (44_stack_interrupt.md R308). -/
theorem execDiv_of_not_fits {s : State} {w : Width} {m : ModRM} {v : Word} (hv : rmValue s w m.rm = .ok v)
    (h : divFits w (dividend w s) v.toNat = false) :
    execDiv w m s = hostInterrupt 0 (withCache s (cacheOf s w m.reg.bits m.rm v)) :=
  (onRM_of_value _ hv).trans (congrArg outcome (if_neg (ne_true_of_eq_false h)))

/-- An operand's signed value is that of its number (00_scope.md R10). -/
theorem signedValue_eq_signedNat {w : Width} {v : Word} (h : v.toNat < 2 ^ bits w) :
    signedValue w v = signedNat w v.toNat := by
  cases w with
  | byte =>
    have hlow : (loByte v).toNat = v.toNat := Nat.mod_eq_of_lt h
    rw [signedValue, signedNat, BitVec.toInt_eq_toNat_cond, hlow]
    simp only [bits]
    split_ifs <;> omega
  | word =>
    rw [signedValue, signedNat, BitVec.toInt_eq_toNat_cond]
    simp only [bits]
    split_ifs <;> omega

/-- A divide error of IDIV is the host's `interrupt(0)` after the resolver (44_stack_interrupt.md R308). -/
theorem execIdiv_of_not_fits {s : State} {w : Width} {m : ModRM} {v : Word} (hv : rmValue s w m.rm = .ok v)
    (h : idivFits s.params.idivRange w (signedDividend w s) (signedNat w v.toNat) = false) :
    execIdiv w m s = hostInterrupt 0 (withCache s (cacheOf s w m.reg.bits m.rm v)) := by
  rw [← signedValue_eq_signedNat (rmValue_lt hv)] at h
  exact (onRM_of_value _ hv).trans (congrArg outcome (if_neg (ne_true_of_eq_false h)))

/-- IDIV accepts no divisor 0 (46_string_shift_muldiv_misc.md R413). -/
theorem idivFits_zero (r : IdivRange) (w : Width) (d : Int) : idivFits r w d 0 = false := by
  simp [idivFits]

/-- IDIV accepts no quotient outside the signed numbers, nor the least of them under `i8086`
(46_string_shift_muldiv_misc.md R413, D32). -/
theorem idivFits_of_out_of_range {r : IdivRange} {w : Width} {d v : Int}
    (h : 2 ^ (bits w - 1) ≤ d.tdiv v ∨ d.tdiv v < -(2 ^ (bits w - 1)) ∨
      (d.tdiv v = -(2 ^ (bits w - 1)) ∧ r = .i8086)) : idivFits r w d v = false := by
  refine decide_eq_false fun ⟨_, hleast, hgreatest⟩ => ?_
  have hrange : -(2 ^ (bits w - 1)) ≤ idivLeast w r := by
    cases r <;> simp only [idivLeast] <;> omega
  rcases h with h | h | ⟨h, rfl⟩
  · omega
  · omega
  · simp only [idivLeast] at hleast
    omega

/-- Settles O56: each cause is one in which the operation's range check fails. -/
theorem divideErrors : Obligations.DivideErrors := by
  refine ⟨fun w m s v hv => ⟨fun h => ?div, fun h => ?idivZero, fun q hq h => ?idivRange⟩, fun s => rfl⟩
  case div =>
    refine ⟨_, execDiv_of_not_fits hv (decide_eq_false fun ⟨hzero, hfits⟩ => ?_)⟩
    exact h.elim hzero (Nat.not_le_of_lt hfits)
  case idivZero =>
    have hzero : signedNat w v.toNat = 0 := by rw [h]; cases w <;> rfl
    exact ⟨_, execIdiv_of_not_fits hv (hzero ▸ idivFits_zero _ _ _)⟩
  case idivRange =>
    subst hq
    exact ⟨_, execIdiv_of_not_fits hv (idivFits_of_out_of_range h)⟩

end Sys2Proof.Machine
end

section
/-! SUPPORT. Relative targets, the conditional jumps as one table, and what the jumps, the calls, the returns and the
loops come to (45_transfer_control.md sections 4 to 6). -/

namespace Sys2Proof.Machine

open Sys2Proof

/-! ### Jumps -/

theorem toInt_sext16 (v : Byte) : (sext16 v).toInt = v.toInt := BitVec.toInt_signExtend_of_le (by decide)

/-- Adding a displacement to IP is the sum of the numbers modulo 2^16 (30_encoding.md R114). -/
theorem jumpRel_eq (d : Word) (s : State) : jumpRel d s = setIp s (relativeTarget s d.toInt) := by
  rw [jumpRel, relativeTarget, BitVec.ofInt_add, BitVec.ofInt_natCast, BitVec.ofNat_toNat, BitVec.setWidth_eq,
    BitVec.ofInt_toInt]

theorem jumpRel_sext16 (d : Byte) (s : State) : jumpRel (sext16 d) s = setIp s (relativeTarget s d.toInt) := by
  rw [jumpRel_eq, toInt_sext16]

/-- A jump that may not be taken writes IP, at most with what it holds. -/
theorem setIp_ite (c : Prop) [Decidable c] (s : State) (v : Word) :
    (if c then setIp s v else s) = setIp s (if c then v else s.ip) := by
  split <;> rfl

theorem exec_jccInstr (c : Cond) (d : Byte) (s : State) : exec (jccInstr c d) s = jcc c d s := by cases c <;> rfl

/-- The conditions by their number (45_transfer_control.md R346). -/
def allConds : List Cond := [.o, .no, .b, .nb, .z, .nz, .be, .a, .s, .ns, .p, .np, .l, .nl, .le, .nle]

/-- Settles O45: the table is the sixteen conditions, each with its jump and its value, and one rule holds for all. -/
theorem conditionalJumps : Obligations.ConditionalJumps := by
  intro i d s taken h
  change (i, taken) ∈ allConds.map fun c => (jccInstr c d, cond c s.flags) at h
  obtain ⟨c, -, hc⟩ := List.mem_map.1 h
  cases hc
  rw [exec_jccInstr, jcc, jumpRel_sext16]

/-- JMP near indirect goes to the value its operand has (45_transfer_control.md R366). -/
theorem execJmpRm_of_value {s : State} {m : ModRM} {v : Word} (hv : rmValue s .word m.rm = .ok v) :
    execJmpRm m s = .next (setIp (withCache s (cacheOf s .word m.reg.bits m.rm v)) v) := onRM_of_value _ hv

/-- A far jump through memory goes to the two words its operand holds (45_transfer_control.md R367). -/
theorem execJmpFarMem_memory {s : State} {m : ModRM} {off seg : Word} (hm : isRegister m.rm = false)
    (hoff : rmValue s .word m.rm = .ok off)
    (hseg : readWord s (lin (getSeg s (effectiveSegment s m.rm)) (effectiveAddress s m.rm + 2))
      (effectiveAddress s m.rm + 2) = .ok seg) :
    execJmpFarMem m s = .next (jumpFar off seg (withCache s (cacheOf s .word m.reg.bits m.rm off))) :=
  (onRM_of_value _ hoff).trans
    (outcome_next.2 (bind_of_ok ((readFarSegment_memory s (withCache s _) _ _ _ hm).trans hseg)))

/-- Settles O46: the relative targets as numbers, the operand read once, the far pointer in memory, and the undefined
register form. -/
theorem jumps : Obligations.Jumps := by
  refine ⟨fun d s => congrArg _ (jumpRel_sext16 d s), fun d s => congrArg _ (jumpRel_eq d s),
    fun off seg s => ⟨_, rfl, rfl, rfl, rfl, rfl, rfl⟩, fun m s v hv => ?indirect, fun m s off seg hm hoff hseg => ?far,
    fun m s hm => registerForm_faults s hm (by simp)⟩
  case indirect => exact ⟨_, execJmpRm_of_value hv, rfl, rfl, rfl, rfl, rfl⟩
  case far => exact ⟨_, execJmpFarMem_memory hm hoff hseg, rfl, rfl, rfl, rfl, rfl⟩

/-! ### Calls -/

/-- A near call: IP pushed, then the jump (45_transfer_control.md R368, R370). -/
def callTo (target : Word) (s : State) : Res State := do
  let t ← push16 s.ip s
  .ok (setIp t target)

/-- The push leaves IP, so that CALL near jumps from IP_after (45_transfer_control.md R368). -/
theorem execCallNear_eq (d : Word) (s : State) : execCallNear d s = outcome (callTo (relativeTarget s d.toInt) s) := by
  rw [execCallNear, callTo]
  cases h : push16 s.ip s with
  | error f => rfl
  | ok t =>
    obtain ⟨m, rfl, -⟩ := push16_spec h
    exact congrArg Host.Outcome.next (jumpRel_eq d _)

/-- The target of CALL near indirect is the value read before the push (45_transfer_control.md R370). -/
theorem execCallRm_of_value {s : State} {m : ModRM} {v : Word} (hv : rmValue s .word m.rm = .ok v) :
    execCallRm m s = outcome (callTo v (withCache s (cacheOf s .word m.reg.bits m.rm v))) := onRM_of_value _ hv

/-- CALL far indirect reads both pointer words before its pushes (45_transfer_control.md R371). -/
theorem execCallFarMem_memory {s : State} {m : ModRM} {off seg : Word} (hm : isRegister m.rm = false)
    (hoff : rmValue s .word m.rm = .ok off)
    (hseg : readWord s (lin (getSeg s (effectiveSegment s m.rm)) (effectiveAddress s m.rm + 2))
      (effectiveAddress s m.rm + 2) = .ok seg) :
    execCallFarMem m s = outcome (callFarTo off seg (withCache s (cacheOf s .word m.reg.bits m.rm off))) :=
  (onRM_of_value _ hoff).trans
    (congrArg outcome (bind_of_ok ((readFarSegment_memory s (withCache s _) _ _ _ hm).trans hseg)))

/-- A near call leaves the return address at the new top of stack. -/
theorem callTo_stores {s : State} (target : Word) (hwf : s.mem.wf = true)
    (hacc : stackAccessible s (pushedSp s 1) = true) :
    ∃ t, outcome (callTo target s) = .next t ∧ t.ip = target ∧ t.segs = s.segs ∧ t.gpr.sp = pushedSp s 1 ∧
      stackWord t (pushedSp s 1) = .ok s.ip ∧ t.flags = s.flags := by
  obtain ⟨m, hpush⟩ := push16_total s.ip hacc
  have htop := stackWord_push16 hpush hwf
  exact ⟨_, outcome_next.2 (bind_of_ok hpush), rfl, rfl, rfl, htop, rfl⟩

/-- A far call leaves CS and the return address below it at the new top of stack. -/
theorem callFarTo_stores {s : State} (off seg : Word) (hwf : s.mem.wf = true)
    (h1 : stackAccessible s (pushedSp s 1) = true) (h2 : stackAccessible s (pushedSp s 2) = true) :
    ∃ t, outcome (callFarTo off seg s) = .next t ∧ t.ip = off ∧ t.segs.cs = seg ∧ t.gpr.sp = pushedSp s 2 ∧
      stackWord t (pushedSp s 1) = .ok s.segs.cs ∧ stackWord t (pushedSp s 2) = .ok s.ip ∧ t.flags = s.flags := by
  have hsp2 : s.gpr.sp - 2 - 2 = pushedSp s 2 := sub22 _
  obtain ⟨m, hpushCs⟩ := push16_total s.segs.cs h1
  obtain ⟨m', hpushIp⟩ := push16_total (s := setMem (setR16 s .sp (s.gpr.sp - 2)) m) s.ip (hsp2 ▸ h2)
  have hcs := (stackWord_push16_above hpushIp (by simp)).trans (stackWord_push16 hpushCs hwf)
  have hip := stackWord_push16 hpushIp (push16_mem_wf hpushCs hwf)
  exact ⟨_, outcome_next.2 ((bind_of_ok hpushCs).trans (bind_of_ok hpushIp)), rfl, rfl, hsp2, hcs, hsp2 ▸ hip, rfl⟩

/-- Settles O47: each form is one near or one far call of its target, and the register form is undefined. -/
theorem calls : Obligations.Calls := by
  refine ⟨?near, ?far, fun m s hm => registerForm_faults s hm (by simp)⟩
  case near =>
    rintro i s target hwf hacc (⟨d, rfl, rfl⟩ | ⟨m, rfl, hv⟩)
    case inl =>
      obtain ⟨t, ht, hstored⟩ := callTo_stores (relativeTarget s d.toInt) hwf hacc
      exact ⟨t, (execCallNear_eq d s).trans ht, hstored⟩
    case inr =>
      obtain ⟨t, ht, hstored⟩ := callTo_stores (s := withCache s _) target hwf hacc
      exact ⟨t, (execCallRm_of_value hv).trans ht, hstored⟩
  case far =>
    rintro i s off seg hwf h1 h2 (rfl | ⟨m, rfl, hm, hoff, hseg⟩)
    case inl => exact callFarTo_stores off seg hwf h1 h2
    case inr =>
      obtain ⟨t, ht, hstored⟩ := callFarTo_stores (s := withCache s _) off seg hwf h1 h2
      exact ⟨t, (execCallFarMem_memory hm hoff hseg).trans ht, hstored⟩

/-! ### Returns -/

/-- A near return takes IP from the top of stack and releases `n` bytes more (45_transfer_control.md R372, R373). -/
theorem returnNear_of_stackWord (n : Word) {s : State} {a : Word} (h : stackWord s s.gpr.sp = .ok a) :
    returnNear n s = .ok (setR16 (setIp (setR16 s .sp (s.gpr.sp + 2)) a) .sp (s.gpr.sp + 2 + n)) :=
  bind_of_ok (pop16_ok.2 ⟨h, rfl⟩)

/-- A far return takes IP and CS from the two words at the top of stack (45_transfer_control.md R374, R375). -/
theorem returnFar_of_stackWords (n : Word) {s : State} {a b : Word} (ha : stackWord s s.gpr.sp = .ok a)
    (hb : stackWord s (s.gpr.sp + 2) = .ok b) :
    returnFar n s =
      .ok (setR16 (setSeg (setIp (setR16 s .sp (s.gpr.sp + 2 + 2)) a) .cs b) .sp (s.gpr.sp + 2 + 2 + n)) := by
  have hpopIp := pop16_ok.2 ⟨ha, rfl⟩
  have hpopCs := (pop16_ok (s := setIp (setR16 s .sp (s.gpr.sp + 2)) a)).2 ⟨hb, rfl⟩
  rw [returnFar, bind_of_ok hpopIp]
  exact bind_of_ok hpopCs

/-- Settles O48: each form is one return with its release, and the pops take the words at the top of stack. -/
theorem returns : Obligations.Returns := by
  refine ⟨fun i n s a ha hi => ?near, fun i n s a b ha hb hi => ?far⟩
  case near =>
    have hexec : exec i s = outcome (returnNear n s) := by
      obtain ⟨rfl, rfl⟩ | rfl := hi <;> rfl
    exact ⟨_, hexec.trans (outcome_next.2 (returnNear_of_stackWord n ha)), rfl, rfl, rfl, rfl, rfl⟩
  case far =>
    have hexec : exec i s = outcome (returnFar n s) := by
      obtain ⟨rfl, rfl⟩ | rfl := hi <;> rfl
    have hsp : s.gpr.sp + 2 + 2 + n = s.gpr.sp + 4 + n := congrArg (· + n) (BitVec.add_assoc _ _ _)
    exact ⟨_, hexec.trans (outcome_next.2 (returnFar_of_stackWords n ha hb)), rfl, rfl, hsp, rfl, rfl⟩

/-! ### Loops -/

/-- CX after the decrement is 0 where it was 1 (45_transfer_control.md R376). -/
theorem sub_one_eq_zero_iff (x : Word) : x - 1 = 0 ↔ x.toNat = 1 := by
  constructor <;> intro h <;> bv_omega

/-- The three loops: CX goes down by 1, and IP goes to the target where CX was not 1 and the flag condition holds
(45_transfer_control.md R376 to R378). -/
theorem loopWhen_eq (ok : Bool) (d : Byte) (s : State) :
    loopWhen ok d s = .next (setIp (setR16 s .cx (s.gpr.cx - 1))
      (if s.gpr.cx.toNat ≠ 1 ∧ ok = true then relativeTarget s d.toInt else s.ip)) := by
  have hcond : ((s.gpr.cx - 1 != 0) && ok) = true ↔ s.gpr.cx.toNat ≠ 1 ∧ ok = true := by
    rw [Bool.and_eq_true, bne_iff_ne, ne_eq, sub_one_eq_zero_iff]
  show Host.Outcome.next (if ((s.gpr.cx - 1 != 0) && ok) = true then jumpRel (sext16 d) _ else _) = _
  rw [jumpRel_sext16, setIp_ite]
  simp only [hcond]
  rfl

/-- Settles O49: the three loops are one rule under three conditions, and JCXZ tests CX as it stands. -/
theorem loops : Obligations.Loops := by
  refine ⟨fun i d ok s h => ?loop, fun d s => ?jcxz⟩
  case loop =>
    have hexec : exec i s = loopWhen ok d s := by
      simp only [List.mem_cons, Prod.mk.injEq, List.not_mem_nil, or_false] at h
      obtain ⟨rfl, rfl⟩ | ⟨rfl, rfl⟩ | ⟨rfl, rfl⟩ := h <;> rfl
    refine ⟨_, hexec.trans (loopWhen_eq ok d s), ?_, rfl, rfl⟩
    rw [Nat.add_comm]
    exact BitVec.toNat_sub _ _
  case jcxz =>
    have hzero : s.gpr.cx = 0 ↔ s.gpr.cx.toNat = 0 := BitVec.toNat_inj.symm
    show execJcxz d s = _
    rw [execJcxz, jumpRel_sext16]
    simp only [hzero]

end Sys2Proof.Machine
end

section
/-! SUPPORT. The moves, the exchanges, the conversions and the flag instructions (45_transfer_control.md sections 1 to
3 and 7). -/

namespace Sys2Proof.Machine

open Sys2Proof

/-! ### Values kept whole -/

/-- A word below `2^w` is kept whole. -/
theorem keep_of_lt {w : Width} {v : Word} (h : v.toNat < 2 ^ bits w) : keep w v = v := by
  simpa using keep_ofNat h

@[simp] theorem keep_getReg (s : State) (w : Width) (r : Reg16) : keep w (getReg s w r) = getReg s w r :=
  keep_of_lt (getReg_lt s w r)

@[simp] theorem keep_immValue (i : Imm) : keep i.width (immValue i) = immValue i := keep_of_lt (immValue_lt i)

/-- Writing an r/m operand leaves IP. -/
theorem writeRM_ip {s u t : State} {w : Width} {reg : BitVec 3} {rm : RM} {v x : Word} (hp : u.params = s.params)
    (h : writeRM (cacheOf s w reg rm v) x u = .ok t) : t.ip = u.ip := by
  obtain ⟨n, -, rfl⟩ | ⟨-, m, rfl, -⟩ := writeRM_spec hp h
  · exact setReg_ip _ _ _ _
  · rfl

/-! ### MOV -/

/-- An instruction that only writes its r/m operand: the operand's place holds what was written, IP and FLAGS stay
(45_transfer_control.md R330 to R332). -/
theorem onRM_writeRM {s : State} {w : Width} {rm : RM} {v : Word} (reg : BitVec 3) {src : State → Word}
    (hsrc : ∀ c, src (withCache s c) = src s) (hwf : s.mem.wf = true) (hv : rmValue s w rm = .ok v) :
    ∃ t, onRM w reg rm (fun c u => writeRM c (src u) u) s = .next t ∧
      readPlace t w (placeOf s rm) = .ok (keep w (src s)) ∧ t.ip = s.ip ∧ t.flags = s.flags := by
  obtain ⟨t, ht, hflags, hread⟩ := writeRM_of_value (u := withCache s (cacheOf s w reg rm v)) reg (src s) hv rfl hwf
  refine ⟨t, (onRM_of_value _ hv).trans (outcome_next.2 ?_), hread, writeRM_ip (u := withCache s _) rfl ht, hflags⟩
  rw [hsrc, ht]

/-- MOV reg, r/m takes the operand's value (45_transfer_control.md R330). -/
theorem execMovRmReg_toReg_of_value {s : State} {w : Width} {m : ModRM} {v : Word} (hv : rmValue s w m.rm = .ok v) :
    execMovRmReg .toReg w m s = .next (setReg (withCache s (cacheOf s w m.reg.bits m.rm v)) w m.reg v) :=
  onRM_of_value _ hv

/-- Settles O39: the r/m operand is written as it is read, and a register keeps what fits its width. -/
theorem movForms : Obligations.MovForms := by
  refine ⟨fun w m s v hwf hv => ⟨?toRm, ?toReg⟩, fun m i s hwf ha => ?rmImm,
    fun r i s => ⟨_, rfl, ?regImm, setReg_flags _ _ _ _, ?halves⟩⟩
  case toRm =>
    obtain ⟨t, ht, hread, -, hflags⟩ :=
      onRM_writeRM m.reg.bits (src := fun u => getReg u w m.reg) (fun _ => rfl) hwf hv
    exact ⟨t, ht, hread.trans (by rw [keep_getReg]), hflags⟩
  case toReg =>
    refine ⟨_, execMovRmReg_toReg_of_value hv, ?_, setReg_flags _ _ _ _⟩
    rw [getReg_setReg_same, keep_of_lt (rmValue_lt hv)]
  case rmImm =>
    obtain ⟨v, hv⟩ := rmValue_total ha
    obtain ⟨t, ht, hread, -, hflags⟩ := onRM_writeRM m.reg.bits (src := fun _ => immValue i) (fun _ => rfl) hwf hv
    exact ⟨t, ht, hread.trans (by rw [keep_immValue]), hflags⟩
  case regImm => rw [getReg_setReg_same, keep_immValue]
  case halves =>
    intro hi q hq
    rw [hi]
    exact getR8_setR8_ne s _ hq

/-- MOV r/m, sreg is a write of the segment register to the r/m operand (45_transfer_control.md R332). -/
theorem execMovRmSeg_of_ofNumber {m : ModRM} {r : SegReg} (hr : SegReg.ofNumber m.reg = some r) (s : State) :
    execMovRmSeg m s = onRM .word m.reg.bits m.rm (fun c u => writeRM c (getSeg u r) u) s := by
  simp only [execMovRmSeg, hr]

/-- MOV sreg, r/m takes the operand's value, CS included (45_transfer_control.md R333). -/
theorem execMovSegRm_of_value {m : ModRM} {r : SegReg} {s : State} {v : Word} (hr : SegReg.ofNumber m.reg = some r)
    (hv : rmValue s .word m.rm = .ok v) :
    execMovSegRm m s = .next (setSeg (withCache s (cacheOf s .word m.reg.bits m.rm v)) r v) := by
  simp only [execMovSegRm, hr]
  exact onRM_of_value _ hv

/-- Settles O40: the segment registers both ways, the undefined segment numbers, and the accumulator from and to the
addressed cells. -/
theorem movSegmentAndMoffs : Obligations.MovSegmentAndMoffs := by
  refine ⟨fun m r s v hwf hr hv => ⟨?toRm, ?toSeg⟩,
    fun m s hm ha => ⟨segmentForm_faults hm ha (.inl rfl), segmentForm_faults hm ha (.inr rfl)⟩,
    fun w off seg s v hwf hseg hv => ?moffs⟩
  case toRm =>
    obtain ⟨t, ht, hstored⟩ := onRM_writeRM m.reg.bits (src := fun u => getSeg u r) (fun _ => rfl) hwf hv
    exact ⟨t, (execMovRmSeg_of_ofNumber hr s).trans ht, hstored⟩
  case toSeg => exact ⟨_, execMovSegRm_of_value hr hv, getSeg_setSeg_same _ _ _, rfl, rfl⟩
  case moffs =>
    subst hseg
    obtain ⟨m, hm⟩ := writeMem_total (getReg s w .ax) (accessible_of_read hv)
    have hread := readMem_writeMem hwf (lin_offset_le _ _) hm
    rw [keep_getReg] at hread
    refine ⟨⟨_, outcome_next.2 (bind_of_ok hv), ?_, setReg_flags _ _ _ _⟩, ⟨_, outcome_next.2 hm, hread, rfl⟩⟩
    rw [getReg_setReg_same, keep_of_lt (readMem_lt hv)]

/-! ### XCHG -/

theorem reg8_ofNumber_injective : Function.Injective Reg8.ofNumber := by
  intro a b h
  cases a <;> cases b <;> cases h <;> rfl

/-- Writing the register of a number leaves the registers of the other numbers at that width, the other half of its slot
included (10_state.md R31). -/
theorem getReg_setReg_ne (s : State) (w : Width) {r q : Reg16} (v : Word) (h : q ≠ r) :
    getReg (setReg s w r v) w q = getReg s w q := by
  cases w with
  | byte => exact congrArg zext16 (getR8_setR8_ne s _ (reg8_ofNumber_injective.ne h))
  | word => exact getR16_setR16_ne s v h

/-- Writing an r/m operand leaves the register of a number, where it is not that operand or already holds what is
written. -/
theorem getReg_writeRM {s u t : State} {w : Width} {reg : BitVec 3} {rm : RM} {v x : Word} {r : Reg16}
    (h : writeRM (cacheOf s w reg rm v) x u = .ok t) (hr : rm = .reg r → keep w x = getReg u w r) :
    getReg t w r = getReg u w r := by
  cases rm with
  | reg n =>
    cases h
    by_cases hne : r = n
    · subst hne
      exact (getReg_setReg_same u w r x).trans (hr rfl)
    · exact getReg_setReg_ne u w x hne
  | mem b d | direct d =>
    obtain ⟨m, rfl, -⟩ := writeMem_spec h
    exact getReg_setMem u m w r

/-- XCHG writes the register with the operand's value, then the operand with the register's old value; where both are
one register they held one value (45_transfer_control.md R339). -/
theorem execXchgRmReg_spec {s : State} {w : Width} {m : ModRM} {v : Word} (hwf : s.mem.wf = true)
    (hv : rmValue s w m.rm = .ok v) :
    ∃ t, execXchgRmReg w m s = .next t ∧ getReg t w m.reg = v ∧
      readPlace t w (placeOf s m.rm) = .ok (getReg s w m.reg) ∧ t.flags = s.flags := by
  obtain ⟨t, ht, hflags, hread⟩ :=
    writeRM_of_value (u := setReg (withCache s (cacheOf s w m.reg.bits m.rm v)) w m.reg v) m.reg.bits
      (getReg s w m.reg) hv (setReg_params _ _ _ _) (by rwa [setReg_mem])
  rw [keep_getReg] at hread
  have hkept := getReg_writeRM (r := m.reg) ht
  rw [getReg_setReg_same, keep_of_lt (rmValue_lt hv), keep_getReg] at hkept
  refine ⟨t, (onRM_of_value _ hv).trans (outcome_next.2 ht), hkept fun hreg => ?_, hread,
    hflags.trans (setReg_flags _ _ _ _)⟩
  rw [hreg] at hv
  exact Except.ok.inj hv

/-- Settles O42: the two operands by `execXchgRmReg_spec`, the accumulator form by what its two writes leave. -/
theorem exchanges : Obligations.Exchanges := by
  refine ⟨fun w m s v hwf hv => execXchgRmReg_spec hwf hv,
    fun r s => ⟨_, rfl, ?ax, getR16_setR16_same _ _ _, rfl⟩, fun _ => rfl⟩
  case ax =>
    rw [gpr_ax, getR16_setR16, getR16_setR16_same]
    split
    · next h => rw [← h]; rfl
    · rfl

/-! ### Conversions -/

/-- The word CWD gives DX, before AX, extends AX's sign to 32 bits (45_transfer_control.md R342). -/
theorem cwd_append_eq_signExtend (a : Word) :
    (if a.getLsbD 15 then (0xFFFF : Word) else 0) ++ a = a.signExtend 32 := by
  have hmsb : a.msb = a.getLsbD 15 := BitVec.msb_eq_getLsbD_last a
  rw [BitVec.signExtend_eq_append_of_le (by decide), hmsb]
  cases a.getLsbD 15 <;> rfl

theorem toNat_loByte (v : Word) : (loByte v).toNat = v.toNat % 256 := BitVec.toNat_setWidth _ _

/-- The bits of FLAGS that SAHF writes: CF, PF, AF, ZF and SF (45_transfer_control.md R344). -/
theorem getLsbD_sahfMask {k : Nat} (hk : k < 16) :
    (0x00D5 : Word).getLsbD k = decide (k = 0 ∨ k = 2 ∨ k = 4 ∨ k = 6 ∨ k = 7) := by
  revert k; decide

/-- FLAGS after SAHF, bit by bit (45_transfer_control.md R344). -/
theorem getLsbD_sahfFlags (f : Word) (ah : Byte) {k : Nat} (hk : k < 16) :
    (sahfFlags f ah).getLsbD k =
      if k = 0 ∨ k = 2 ∨ k = 4 ∨ k = 6 ∨ k = 7 then ah.getLsbD k else f.getLsbD k := by
  have hkept : (0xFF2A : Word) = ~~~0x00D5 := rfl
  rw [sahfFlags, hkept, BitVec.getLsbD_or, BitVec.getLsbD_and, BitVec.getLsbD_and, BitVec.getLsbD_not,
    getLsbD_sahfMask hk, zext16, BitVec.getLsbD_setWidth]
  split <;> simp [*]

/-- The XLAT offset as a number: (BX + AL) mod 2^16 (45_transfer_control.md R345). -/
theorem toNat_xlatOffset (s : State) : (xlatOffset s).toNat = (s.gpr.bx.toNat + (getR8 s .al).toNat) % 65536 := by
  rw [xlatOffset, BitVec.toNat_add, toNat_zext16]

/-- Settles O43, one lemma for each conversion. -/
theorem conversions : Obligations.Conversions := by
  intro s
  refine ⟨⟨_, rfl, toInt_sext16 _, rfl⟩, ⟨_, rfl, ?cwd, rfl, rfl⟩, ⟨_, rfl, ?lahf, rfl⟩,
    ⟨_, rfl, rfl, fun k hk => getLsbD_sahfFlags s.flags _ hk⟩, fun off b hoff hb => ?xlat⟩
  case cwd =>
    calc _ = (s.gpr.ax.signExtend 32).toInt := congrArg BitVec.toInt (cwd_append_eq_signExtend s.gpr.ax)
      _ = s.gpr.ax.toInt := BitVec.toInt_signExtend_of_le (by decide)
  case lahf => rw [getR8_setR8_same, toNat_loByte]
  case xlat =>
    obtain rfl : off = xlatOffset s := BitVec.eq_of_toNat_eq (hoff.trans (toNat_xlatOffset s).symm)
    exact ⟨_, outcome_next.2 (bind_of_ok hb), getR8_setR8_same s .al b, rfl⟩

/-! ### Flag instructions -/

/-- Settles O44: each row of the table is one flag written. -/
theorem flagInstructions : Obligations.FlagInstructions := by
  intro i g b s h
  have hexec : exec i s = .next (writeFlag s g b) := by
    simp only [List.mem_cons, Prod.mk.injEq, List.not_mem_nil, or_false] at h
    rcases h with ⟨rfl, rfl, rfl⟩ | ⟨rfl, rfl, rfl⟩ | ⟨rfl, rfl, rfl⟩ | ⟨rfl, rfl, rfl⟩ | ⟨rfl, rfl, rfl⟩ |
      ⟨rfl, rfl, rfl⟩ | ⟨rfl, rfl, rfl⟩ <;> rfl
  refine ⟨_, hexec, getFlag_setFlag_same _ _ _, fun k hk hne => ?_⟩
  rw [getLsbD_setFlag _ _ _ _ hk, if_neg hne]

end Sys2Proof.Machine
end

section
/-! SUPPORT. The string instructions under REP: a recursion over elements (46_string_shift_muldiv_misc.md R391). -/

namespace Sys2Proof.Machine

open Sys2Proof

/-! ### The REP byte is not seen by an element -/

theorem readMem_withRep (r : Option RepKind) (s : State) (w : Width) (a : Nat) (off : Word) :
    readMem (withRep r s) w a off = readMem s w a off := by cases w <;> rfl

theorem writeByte_withRep (r : Option RepKind) (s : State) (a : Nat) (v : Byte) :
    writeByte (withRep r s) a v = withRep r <$> writeByte s a v := by
  have hphys : physical (withRep r s).params a = physical s.params a := rfl
  unfold writeByte
  rw [hphys]
  cases physical s.params a <;> rfl

theorem writeMem_withRep (r : Option RepKind) (s : State) (w : Width) (a : Nat) (off v : Word) :
    writeMem (withRep r s) w a off v = withRep r <$> writeMem s w a off v := by
  cases w with
  | byte => exact writeByte_withRep r s a _
  | word =>
    simp only [writeMem, writeWord, writeByte_withRep, map_bind, bind_map_left]
    rfl

theorem setReg_withRep (r : Option RepKind) (s : State) (w : Width) (q : Reg16) (v : Word) :
    setReg (withRep r s) w q v = withRep r (setReg s w q v) := by cases w <;> rfl

theorem getReg_withRep (r : Option RepKind) (s : State) (w : Width) (q : Reg16) :
    getReg (withRep r s) w q = getReg s w q := getReg_congr rfl w q

/-- What REP asks of the body it repeats: it neither reads nor writes the REP byte, and leaves CX
(46_string_shift_muldiv_misc.md R391). -/
structure ElementBody (body : State → Res State) : Prop where
  rep : ∀ r s, body (withRep r s) = withRep r <$> body s
  cx : ∀ s t, body s = .ok t → t.gpr.cx = s.gpr.cx

theorem elementBody_movs (w : Width) : ElementBody (movsBody w) where
  rep r s := by
    simp only [movsBody, readMem_withRep, writeMem_withRep, map_bind, bind_map_left]
    rfl
  cx _ _ h := (frame_movsBody h).r16 .cx (by simp [slotOf])

theorem elementBody_cmps (w : Width) : ElementBody (cmpsBody w) where
  rep r s := by
    simp only [cmpsBody, readMem_withRep, map_bind]
    rfl
  cx _ _ h := (frame_cmpsBody h).r16 .cx (by simp [slotOf])

theorem elementBody_stos (w : Width) : ElementBody (stosBody w) where
  rep r s := by
    simp only [stosBody, getReg_withRep, writeMem_withRep, map_bind, bind_map_left]
    rfl
  cx _ _ h := (frame_stosBody h).r16 .cx (by simp [slotOf])

theorem elementBody_lods (w : Width) : ElementBody (lodsBody w) where
  rep r s := by
    simp only [lodsBody, readMem_withRep, setReg_withRep, map_bind]
    rfl
  cx _ _ h := (frame_lodsBody h).r16 .cx (by cases w <;> simp [slotOf, byteSlot, Reg8.ofNumber])

theorem elementBody_scas (w : Width) : ElementBody (scasBody w) where
  rep r s := by
    simp only [scasBody, getReg_withRep, readMem_withRep, map_bind]
    rfl
  cx _ _ h := (frame_scasBody h).r16 .cx (by simp [slotOf])

/-! ### A string instruction is its body, once or repeated -/

theorem stringOp_none {s : State} (h : s.pfx.rep = none) (stop : RepKind → State → Bool) (body : State → Res State) :
    stringOp stop body s = outcome (body s) := by rw [stringOp, h]

theorem stringOp_some {s : State} {k : RepKind} (h : s.pfx.rep = some k) (stop : RepKind → State → Bool)
    (body : State → Res State) :
    stringOp stop body s = outcome (repeatBody (stop k) body s.gpr.cx.toNat s) := by rw [stringOp, h]

/-- The repetition ends on FLAGS alone (46_string_shift_muldiv_misc.md R391). -/
theorem repStops_congr {s t : State} (h : t.flags = s.flags) (i : Instr) (k : RepKind) :
    repStops i k t = repStops i k s := by
  unfold repStops State.flag
  rw [h]

/-- Each string instruction is an element's body under REP, ended as `repStops` says (46_string_shift_muldiv_misc.md
R391 to R396). -/
theorem exec_stringInstr {i : Instr} (h : i ∈ stringInstrs) :
    ∃ body, ElementBody body ∧ ∀ s, exec i s = stringOp (repStops i) body s := by
  simp only [stringInstrs, List.mem_cons, List.not_mem_nil, or_false] at h
  rcases h with rfl | rfl | rfl | rfl | rfl | rfl | rfl | rfl | rfl | rfl
  · exact ⟨_, elementBody_movs .byte, fun _ => rfl⟩
  · exact ⟨_, elementBody_movs .word, fun _ => rfl⟩
  · exact ⟨_, elementBody_cmps .byte, fun _ => rfl⟩
  · exact ⟨_, elementBody_cmps .word, fun _ => rfl⟩
  · exact ⟨_, elementBody_stos .byte, fun _ => rfl⟩
  · exact ⟨_, elementBody_stos .word, fun _ => rfl⟩
  · exact ⟨_, elementBody_lods .byte, fun _ => rfl⟩
  · exact ⟨_, elementBody_lods .word, fun _ => rfl⟩
  · exact ⟨_, elementBody_scas .byte, fun _ => rfl⟩
  · exact ⟨_, elementBody_scas .word, fun _ => rfl⟩

/-- The state after an element under REP, CX counted down (46_string_shift_muldiv_misc.md R391). -/
def countDown (k : RepKind) (t : State) : State := withRep (some k) (setR16 t .cx (t.gpr.cx - 1))

/-- Under REP with CX not 0, the element runs as without REP, then the instruction goes on from CX - 1 unless it stops
(46_string_shift_muldiv_misc.md R391). -/
theorem stringOp_element {i : Instr} {body : State → Res State} (hb : ElementBody body) {k : RepKind} {s : State}
    (hrep : s.pfx.rep = some k) (hcx : s.gpr.cx.toNat ≠ 0) :
    stringOp (repStops i) body s =
      match body (withRep none s) with
      | .error f => .fault f
      | .ok t =>
        if repStops i k t then .next (countDown k t) else stringOp (repStops i) body (countDown k t) := by
  obtain ⟨n, hn⟩ := Nat.exists_eq_succ_of_ne_zero hcx
  have hs : body s = withRep (some k) <$> body (withRep none s) := by
    rw [← hb.rep]
    show body s = body (withRep (some k) s)
    rw [← hrep]
    rfl
  rw [stringOp_some hrep, hn, repeatBody, hs]
  cases ht : body (withRep none s) with
  | error f => rfl
  | ok t =>
    have hcount : (countDown k t).gpr.cx.toNat = n := by
      have htcx : t.gpr.cx = s.gpr.cx := hb.cx (withRep none s) t ht
      show (t.gpr.cx - 1).toNat = n
      rw [htcx]
      bv_omega
    have hstop : repStops i k (countDown k t) = repStops i k t := repStops_congr rfl i k
    show outcome (if repStops i k (countDown k t) then .ok (countDown k t)
      else repeatBody (repStops i k) body n (countDown k t)) = if repStops i k t then _ else _
    rw [hstop, stringOp_some (s := countDown k t) rfl, hcount]
    exact apply_ite outcome _ _ _

/-- Settles O51: every string instruction repeats an element's body, and one repetition is `stringOp_element`. -/
theorem repeatedStrings : Obligations.RepeatedStrings := by
  intro i k s hi hrep
  obtain ⟨body, hb, hexec⟩ := exec_stringInstr hi
  refine ⟨fun hcx => ?zero, fun hcx => ?element⟩
  case zero =>
    rw [hexec, stringOp_some hrep, hcx]
    rfl
  case element =>
    simp only [hexec]
    rw [stringOp_element hb hrep hcx, stringOp_none (s := withRep none s) rfl]
    cases body (withRep none s) <;> rfl

end Sys2Proof.Machine
end

section
/-! SUPPORT. One element of each string instruction (46_string_shift_muldiv_misc.md R390, R392 to R396). -/

namespace Sys2Proof.Machine

open Sys2Proof

/-- SI and DI go on by the element size, down when DF = 1 (46_string_shift_muldiv_misc.md R390). -/
theorem add_stringDelta {w : Width} {size : Word} (hsize : size = match w with | .byte => 1 | .word => 2) (s : State)
    (r : Word) : r + stringDelta w s = if s.flag .DF then r - size else r + size := by
  subst hsize
  unfold stringDelta
  cases w <;> split_ifs <;> simp only [BitVec.sub_eq_add_neg]

/-- A comparison leaves DF, so that SI and DI go on the same way (42_flags.md R220). -/
theorem stringDelta_flagsSub (w : Width) (s : State) (a b : Nat) :
    stringDelta w (setFlags s (flagsSub s.flags w a b)) = stringDelta w s := by
  have hdf : (setFlags s (flagsSub s.flags w a b)).flag .DF = s.flag .DF :=
    flagsSub_only (flagBit .DF) (by decide) (by decide)
  unfold stringDelta
  rw [hdf]

/-- An element that goes to ES:DI, where ES:DI can be read. -/
theorem writeMem_stringDest {s : State} {w : Width} {b v : Word} (hwf : s.mem.wf = true)
    (hb : readMem s w (stringDest s) s.gpr.di = .ok b) (hv : v.toNat < 2 ^ bits w) :
    ∃ m, writeMem s w (stringDest s) s.gpr.di v = .ok (setMem s m) ∧
      readMem (setMem s m) w (stringDest s) s.gpr.di = .ok v := by
  obtain ⟨m, hm⟩ := writeMem_total v (accessible_of_read hb)
  have hread := readMem_writeMem hwf (lin_offset_le _ _) hm
  rw [keep_of_lt hv] at hread
  exact ⟨m, hm, hread⟩

theorem movsBody_of_read {s : State} {w : Width} {a b : Word} (hwf : s.mem.wf = true)
    (ha : readMem s w (stringSource s) s.gpr.si = .ok a) (hb : readMem s w (stringDest s) s.gpr.di = .ok b) :
    ∃ t, movsBody w s = .ok t ∧ readMem t w (stringDest s) s.gpr.di = .ok a ∧
      t.gpr.si = s.gpr.si + stringDelta w s ∧ t.gpr.di = s.gpr.di + stringDelta w s ∧ t.flags = s.flags := by
  obtain ⟨m, hm, hread⟩ := writeMem_stringDest hwf hb (readMem_lt ha)
  refine ⟨advanceDi w (advanceSi w (setMem s m)), (bind_of_ok ha).trans (bind_of_ok hm), ?_, rfl, rfl, rfl⟩
  rw [← hread]
  exact readMem_congr rfl fun _ _ => rfl

theorem cmpsBody_of_read {s : State} {w : Width} {a b : Word}
    (ha : readMem s w (stringSource s) s.gpr.si = .ok a) (hb : readMem s w (stringDest s) s.gpr.di = .ok b) :
    ∃ t, cmpsBody w s = .ok t ∧ t.flags = flagsSub s.flags w a.toNat b.toNat ∧
      t.gpr.si = s.gpr.si + stringDelta w s ∧ t.gpr.di = s.gpr.di + stringDelta w s ∧ t.mem = s.mem := by
  have hstep (r : Word) := congrArg (r + ·) (stringDelta_flagsSub w s a.toNat b.toNat)
  exact ⟨_, (bind_of_ok ha).trans (bind_of_ok hb), rfl, hstep s.gpr.si, hstep s.gpr.di, rfl⟩

theorem stosBody_of_read {s : State} {w : Width} {b : Word} (hwf : s.mem.wf = true)
    (hb : readMem s w (stringDest s) s.gpr.di = .ok b) :
    ∃ t, stosBody w s = .ok t ∧ readMem t w (stringDest s) s.gpr.di = .ok (getReg s w .ax) ∧
      t.gpr.di = s.gpr.di + stringDelta w s ∧ t.flags = s.flags := by
  obtain ⟨m, hm, hread⟩ := writeMem_stringDest hwf hb (getReg_lt s w .ax)
  refine ⟨advanceDi w (setMem s m), bind_of_ok hm, ?_, rfl, rfl⟩
  rw [← hread]
  exact readMem_congr rfl fun _ _ => rfl

theorem lodsBody_of_read {s : State} {w : Width} {a : Word} (ha : readMem s w (stringSource s) s.gpr.si = .ok a) :
    ∃ t, lodsBody w s = .ok t ∧ getReg t w .ax = a ∧ t.gpr.si = s.gpr.si + stringDelta w s ∧ t.flags = s.flags ∧
      t.mem = s.mem := by
  have hax : getReg (setReg s w .ax a) w .ax = a := (getReg_setReg_same s w .ax a).trans (keep_of_lt (readMem_lt ha))
  refine ⟨_, bind_of_ok ha, ?_, ?_, setReg_flags _ _ _ _, setReg_mem _ _ _ _⟩ <;> cases w
  · exact hax
  · exact hax
  · rfl
  · rfl

theorem scasBody_of_read {s : State} {w : Width} {b : Word} (hb : readMem s w (stringDest s) s.gpr.di = .ok b) :
    ∃ t, scasBody w s = .ok t ∧ t.flags = flagsSub s.flags w (getReg s w .ax).toNat b.toNat ∧
      t.gpr.di = s.gpr.di + stringDelta w s ∧ t.mem = s.mem := by
  have hstep := congrArg (s.gpr.di + ·) (stringDelta_flagsSub w s (getReg s w .ax).toNat b.toNat)
  exact ⟨_, bind_of_ok hb, rfl, hstep, rfl⟩

/-- Settles O50: each instruction is its body once, and each body does one element from what was read. -/
theorem stringElements : Obligations.StringElements := by
  intro w s size a b source hwf hrep hsize hsource ha hb next
  subst hsource
  have hstep (r : Word) : r + stringDelta w s = next r := add_stringDelta hsize s r
  refine ⟨?movs, ?cmps, ?stos, ?lods, ?scas⟩
  case movs =>
    obtain ⟨t, ht, hread, hsi, hdi, hflags⟩ := movsBody_of_read hwf ha hb
    refine ⟨t, ?_, hread, hsi.trans (hstep _), hdi.trans (hstep _), hflags⟩
    cases w <;> exact (stringOp_none hrep neverStops _).trans (outcome_next.2 ht)
  case cmps =>
    obtain ⟨t, ht, hflags, hsi, hdi, hmem⟩ := cmpsBody_of_read ha hb
    refine ⟨t, ?_, hflags, hsi.trans (hstep _), hdi.trans (hstep _), hmem⟩
    cases w <;> exact (stringOp_none hrep stopsOnZF _).trans (outcome_next.2 ht)
  case stos =>
    obtain ⟨t, ht, hread, hdi, hflags⟩ := stosBody_of_read hwf hb
    refine ⟨t, ?_, hread, hdi.trans (hstep _), hflags⟩
    cases w <;> exact (stringOp_none hrep neverStops _).trans (outcome_next.2 ht)
  case lods =>
    obtain ⟨t, ht, hax, hsi, hflags, hmem⟩ := lodsBody_of_read ha
    refine ⟨t, ?_, hax, hsi.trans (hstep _), hflags, hmem⟩
    cases w <;> exact (stringOp_none hrep neverStops _).trans (outcome_next.2 ht)
  case scas =>
    obtain ⟨t, ht, hflags, hdi, hmem⟩ := scasBody_of_read hb
    refine ⟨t, ?_, hflags, hdi.trans (hstep _), hmem⟩
    cases w <;> exact (stringOp_none hrep stopsOnZF _).trans (outcome_next.2 ht)

end Sys2Proof.Machine
end

section
/-! SUPPORT. What a Grp2 instruction does, by the steps of its operation (46_string_shift_muldiv_misc.md R400). -/

namespace Sys2Proof.Machine

open Sys2Proof

/-! ### The steps -/

/-- The last of `n + 1` steps (46_string_shift_muldiv_misc.md R400). -/
theorem shiftSteps_succ (k : ShiftOp) (w : Width) (n : Nat) (p : Nat × Bool) :
    shiftSteps k w (n + 1) p = shiftStep k w (shiftSteps k w n p).1 (shiftSteps k w n p).2 := by
  induction n generalizing p with
  | zero => rfl
  | succ n ih => exact ih (shiftStep k w p.1 p.2)

/-- A step keeps the operand within its width. -/
theorem shiftStep_lt (k : ShiftOp) {w : Width} {x : Nat} (hx : x < 2 ^ bits w) (cf : Bool) :
    (shiftStep k w x cf).1 < 2 ^ bits w := by
  have hright (b : Bool) : x / 2 + b.toNat * 2 ^ (bits w - 1) < 2 ^ bits w := by
    have hb := b.toNat_le
    cases w <;> simp only [bits] at * <;> omega
  cases k with
  | rol | rcl | shl => exact Nat.mod_lt _ (by positivity)
  | ror | rcr | sar => exact hright _
  | shr => exact (Nat.div_le_self _ _).trans_lt hx

theorem shiftSteps_lt (k : ShiftOp) {w : Width} (n : Nat) {p : Nat × Bool} (hp : p.1 < 2 ^ bits w) :
    (shiftSteps k w n p).1 < 2 ^ bits w := by
  induction n with
  | zero => exact hp
  | succ n ih => rw [shiftSteps_succ]; exact shiftStep_lt k ih _

/-! ### The flags -/

theorem getFlag_shiftFlags_CF (k : ShiftOp) (n : Nat) (f : Word) (w : Width) (c old x : Nat) (cf : Bool) :
    getFlag (shiftFlags k n f w c old x cf) .CF = cf := by
  have hof : getFlag (if c = 1 then setFlag (setFlag f .CF cf) .OF (shiftOF k w old x cf)
      else drawFlags n [.OF] (setFlag f .CF cf)) .CF = cf := by
    split_ifs
    · rw [getFlag_setFlag_ne _ _ (by decide), getFlag_setFlag_same]
    · rw [getFlag_drawFlags_ne _ _ (by decide), getFlag_setFlag_same]
  unfold shiftFlags
  cases isShift k with
  | false => exact hof
  | true =>
    refine (getFlag_drawFlags_ne _ _ (by decide)).trans (Eq.trans ?_ hof)
    exact getFlag_psz_ne _ _ _ (by decide) (by decide) (by decide)

/-- OF follows its rule for a count of 1 (46_string_shift_muldiv_misc.md R400). -/
theorem getFlag_shiftFlags_OF (k : ShiftOp) (n : Nat) (f : Word) (w : Width) (old x : Nat) (cf : Bool) :
    getFlag (shiftFlags k n f w 1 old x cf) .OF = shiftOF k w old x cf := by
  have hof := getFlag_setFlag_same (setFlag f .CF cf) .OF (shiftOF k w old x cf)
  unfold shiftFlags
  cases isShift k with
  | false => exact hof
  | true =>
    refine (getFlag_drawFlags_ne _ _ (by decide)).trans (Eq.trans ?_ hof)
    exact getFlag_psz_ne _ _ _ (by decide) (by decide) (by decide)

/-- A shift's ZF, SF and PF are those of its result (46_string_shift_muldiv_misc.md R400). -/
theorem pszHolds_shiftFlags {k : ShiftOp} (hk : isShift k = true) (n : Nat) (f : Word) {w : Width} (c old : Nat)
    {x : Nat} (cf : Bool) (hx : x < 2 ^ bits w) : pszHolds (shiftFlags k n f w c old x cf) w x := by
  have hpsz (f' : Word) : pszHolds (psz f' w x) w x := by
    simpa only [masked_of_lt hx] using pszHolds_psz f' w x
  unfold shiftFlags
  rw [hk]
  exact pszHolds_drawFlags (hpsz _) (by decide) (by decide) (by decide)

/-- A rotate writes CF and OF alone (46_string_shift_muldiv_misc.md R400). -/
theorem getFlag_shiftFlags_rotate {k : ShiftOp} (hk : isShift k = false) (n : Nat) (f : Word) (w : Width)
    (c old x : Nat) (cf : Bool) {g : Flag} (hcf : g ≠ .CF) (hof : g ≠ .OF) :
    getFlag (shiftFlags k n f w c old x cf) g = getFlag f g := by
  refine shiftFlags_only (flagBit g) (flagBit_lt g) fun y hy => ?_
  rw [hk, if_neg (by decide)] at hy
  rintro h
  obtain rfl := flagBit_injective h
  simp [hcf, hof] at hy

/-! ### The instruction -/

theorem writeShiftFlags_flags (k : ShiftOp) (n : Nat) (f : Word) (s : State) : (writeShiftFlags k n f s).flags = f := by
  unfold writeShiftFlags
  split <;> rfl

theorem readPlace_writeShiftFlags (k : ShiftOp) (n : Nat) (f : Word) (s : State) (w : Width) (p : Place) :
    readPlace (writeShiftFlags k n f s) w p = readPlace s w p := by
  unfold writeShiftFlags
  split <;> exact readPlace_setFlags s f w p

/-- What a Grp2 instruction by `n` leaves: nothing written for `n` = 0, else the operand and CF after `n` steps, OF by
its rule for `n` = 1, and FLAGS as a whole (46_string_shift_muldiv_misc.md R400). -/
theorem shiftRm_spec (k : ShiftOp) {c : ShiftCount} {w : Width} {m : ModRM} {s : State} {v : Word} {n : Nat}
    (hwf : s.mem.wf = true) (hv : rmValue s w m.rm = .ok v) (hn : n = shiftCount c s) :
    ∃ t, shiftRm k c w m s = .next t ∧ (n = 0 → t.flags = s.flags ∧ t.mem = s.mem ∧ t.gpr = s.gpr) ∧
      (n ≠ 0 →
        readPlace t w (placeOf s m.rm) = .ok (BitVec.ofNat 16 (shiftSteps k w n (v.toNat, s.flag .CF)).1) ∧
        getFlag t.flags .CF = (shiftSteps k w n (v.toNat, s.flag .CF)).2) ∧
      (n = 1 → getFlag t.flags .OF = shiftOF k w v.toNat (shiftStep k w v.toNat (s.flag .CF)).1
        (shiftStep k w v.toNat (s.flag .CF)).2) ∧
      (n ≠ 0 → t.flags = shiftFlags k s.draws s.flags w n v.toNat (shiftSteps k w n (v.toNat, s.flag .CF)).1
        (shiftSteps k w n (v.toNat, s.flag .CF)).2) := by
  have hrun : shiftRm k c w m s =
      outcome (shiftApply k w n (cacheOf s w m.reg.bits m.rm v) (withCache s (cacheOf s w m.reg.bits m.rm v))) := by
    rw [shiftRm, onRM_of_value _ hv, hn]
    cases c <;> rfl
  rw [hrun]
  by_cases h0 : n = 0
  · exact ⟨_, congrArg outcome (if_pos h0), fun _ => ⟨rfl, rfl, rfl⟩, absurd h0, fun h1 => by omega, absurd h0⟩
  · obtain ⟨t, ht, -, hread⟩ := writeRM_of_value (u := withCache s (cacheOf s w m.reg.bits m.rm v)) m.reg.bits
      (BitVec.ofNat 16 (shiftSteps k w n (v.toNat, s.flag .CF)).1) hv rfl hwf
    rw [keep_ofNat (shiftSteps_lt k n (rmValue_lt hv))] at hread
    refine ⟨_, (congrArg outcome (if_neg h0)).trans (outcome_next.2 (bind_of_ok ht)), fun h => absurd h h0,
      fun _ => ⟨(readPlace_writeShiftFlags k n _ t w _).trans hread, ?cf⟩, fun h1 => ?of,
      fun _ => writeShiftFlags_flags k n _ t⟩
    case cf =>
      rw [writeShiftFlags_flags]
      exact getFlag_shiftFlags_CF _ _ _ _ _ _ _ _
    case of =>
      rw [writeShiftFlags_flags, h1]
      exact getFlag_shiftFlags_OF _ _ _ _ _ _ _

end Sys2Proof.Machine
end

section
/-! SUPPORT. The shifts by any count in closed form (46_string_shift_muldiv_misc.md R405 to R407). -/

namespace Sys2Proof.Machine

open Sys2Proof

/-! ### SHL and SHR -/

theorem shiftSteps_shl {w : Width} (n : Nat) {p : Nat × Bool} (hp : p.1 < 2 ^ bits w) :
    (shiftSteps .shl w n p).1 = p.1 * 2 ^ n % 2 ^ bits w := by
  induction n with
  | zero => simpa [shiftSteps] using (Nat.mod_eq_of_lt hp).symm
  | succ n ih =>
    rw [shiftSteps_succ, pow_succ, ← mul_assoc, mul_comm _ 2]
    exact (congrArg (2 * · % 2 ^ bits w) ih).trans (Nat.mul_mod_mod _ _ _)

/-- The last bit SHL shifts out is bit `w` of the product (46_string_shift_muldiv_misc.md R405). -/
theorem shiftSteps_shl_CF {w : Width} {n : Nat} (hn : n ≠ 0) {p : Nat × Bool} (hp : p.1 < 2 ^ bits w) :
    (shiftSteps .shl w n p).2 = decide (p.1 * 2 ^ n / 2 ^ bits w % 2 = 1) := by
  obtain ⟨n, rfl⟩ := Nat.exists_eq_succ_of_ne_zero hn
  have hw : 2 ^ bits w = 2 ^ (bits w - 1) * 2 := by cases w <;> rfl
  have hdiv : p.1 * 2 ^ (n + 1) / 2 ^ bits w = p.1 * 2 ^ n / 2 ^ (bits w - 1) := by
    rw [hw, pow_succ, ← mul_assoc, Nat.mul_div_mul_right _ _ two_pos]
  rw [Nat.succ_eq_add_one, hdiv, shiftSteps_succ]
  show (shiftSteps .shl w n p).1.testBit (bits w - 1) = _
  rw [shiftSteps_shl n hp, Nat.testBit_mod_two_pow, Nat.testBit_eq_decide_div_mod_eq]
  cases w <;> rfl

theorem shiftSteps_shr (w : Width) (n : Nat) (p : Nat × Bool) : (shiftSteps .shr w n p).1 = p.1 / 2 ^ n := by
  induction n with
  | zero => exact (Nat.div_one _).symm
  | succ n ih =>
    rw [shiftSteps_succ, pow_succ, ← Nat.div_div_eq_div_mul]
    exact congrArg (· / 2) ih

/-- The last bit a right shift shifts out is the low bit of the operand one step before (46_string_shift_muldiv_misc.md
R406, R407). -/
theorem shiftSteps_right_CF {k : ShiftOp} (hk : k = .shr ∨ k = .sar) (w : Width) {n : Nat} (hn : n ≠ 0)
    (p : Nat × Bool) : (shiftSteps k w n p).2 = decide ((shiftSteps k w (n - 1) p).1 % 2 = 1) := by
  obtain ⟨n, rfl⟩ := Nat.exists_eq_succ_of_ne_zero hn
  rw [Nat.succ_eq_add_one, shiftSteps_succ, Nat.add_sub_cancel, ← Nat.testBit_zero]
  obtain rfl | rfl := hk <;> rfl

/-! ### SAR -/

/-- A number below `2^w` is its signed value modulo `2^w` (00_scope.md R10). -/
theorem signedNat_emod {w : Width} {x : Nat} (hx : x < 2 ^ bits w) : signedNat w x % 2 ^ bits w = x := by
  unfold signedNat
  cases w <;> simp only [bits] at * <;> split_ifs <;> omega

theorem signedNat_emod_two {w : Width} (x : Nat) : signedNat w x % 2 = x % 2 := by
  unfold signedNat
  cases w <;> simp only [bits] at * <;> split_ifs <;> omega

/-- One step of SAR halves the signed operand, rounded down (46_string_shift_muldiv_misc.md R407). -/
theorem signedNat_sarStep {w : Width} {x : Nat} (hx : x < 2 ^ bits w) (cf : Bool) :
    signedNat w (shiftStep .sar w x cf).1 = signedNat w x / 2 := by
  have hhi : x.testBit (bits w - 1) = decide (2 ^ (bits w - 1) ≤ x) := msb_eq hx
  show signedNat w (x / 2 + (x.testBit (bits w - 1)).toNat * 2 ^ (bits w - 1)) = _
  rw [hhi, Bool.toNat, Bool.cond_decide]
  unfold signedNat
  by_cases h : x < 2 ^ (bits w - 1)
  · rw [if_neg h.not_ge, if_pos h]
    cases w <;> simp only [bits] at * <;> split_ifs <;> omega
  · rw [if_pos (not_lt.1 h), if_neg h]
    cases w <;> simp only [bits] at * <;> split_ifs <;> omega

theorem signedNat_shiftSteps_sar {w : Width} (n : Nat) {p : Nat × Bool} (hp : p.1 < 2 ^ bits w) :
    signedNat w (shiftSteps .sar w n p).1 = signedNat w p.1 / 2 ^ n := by
  induction n with
  | zero => exact (Int.ediv_one _).symm
  | succ n ih =>
    rw [shiftSteps_succ, signedNat_sarStep (shiftSteps_lt .sar n hp), ih, pow_succ,
      Int.ediv_ediv_of_nonneg (by positivity)]

/-! ### The obligation -/

/-- A shift's ZF, SF and PF are those of the operand after its steps (46_string_shift_muldiv_misc.md R400). -/
theorem shiftRm_shift {k : ShiftOp} (hk : isShift k = true) {c : ShiftCount} {w : Width} {m : ModRM} {s : State}
    {v : Word} {n : Nat} (hwf : s.mem.wf = true) (hv : rmValue s w m.rm = .ok v) (hn : n = shiftCount c s) :
    ∃ t, shiftRm k c w m s = .next t ∧ (n = 0 → t.flags = s.flags ∧ t.mem = s.mem ∧ t.gpr = s.gpr) ∧
      (n ≠ 0 →
        readPlace t w (placeOf s m.rm) = .ok (BitVec.ofNat 16 (shiftSteps k w n (v.toNat, s.flag .CF)).1) ∧
        getFlag t.flags .CF = (shiftSteps k w n (v.toNat, s.flag .CF)).2 ∧
        pszHolds t.flags w (shiftSteps k w n (v.toNat, s.flag .CF)).1) ∧
      (n = 1 → getFlag t.flags .OF = shiftOF k w v.toNat (shiftStep k w v.toNat (s.flag .CF)).1
        (shiftStep k w v.toNat (s.flag .CF)).2) := by
  obtain ⟨t, ht, hzero, hstep, hof, hflags⟩ := shiftRm_spec k hwf hv hn
  refine ⟨t, ht, hzero, fun h0 => ?_, hof⟩
  obtain ⟨hread, hcf⟩ := hstep h0
  refine ⟨hread, hcf, ?_⟩
  rw [hflags h0]
  exact pszHolds_shiftFlags hk _ _ _ _ _ (shiftSteps_lt k n (rmValue_lt hv))

/-- Settles O52: each shift by its steps, and the steps by their closed forms. -/
theorem shifts : Obligations.Shifts := by
  intro c w m s v n hwf hv hn
  have hlt : v.toNat < 2 ^ bits w := rmValue_lt hv
  have hmsb : v.toNat.testBit (bits w - 1) = decide (2 ^ (bits w - 1) ≤ v.toNat) := msb_eq hlt
  refine ⟨?shl, ?shr, ?sar⟩
  case shl =>
    obtain ⟨t, ht, hzero, hstep, hof⟩ := shiftRm_shift (k := .shl) rfl hwf hv hn
    refine ⟨t, ht, hzero, fun h0 => ?_, fun h1 => ?_⟩
    · rw [← shiftSteps_shl n (p := (v.toNat, s.flag .CF)) hlt,
        ← shiftSteps_shl_CF h0 (p := (v.toNat, s.flag .CF)) hlt]
      exact hstep h0
    · have hres : (v.toNat * 2 % 2 ^ bits w).testBit (bits w - 1) = _ := msb_eq (Nat.mod_lt _ (by positivity))
      rw [hof h1, ← hmsb, ← hres, mul_comm]
      rfl
  case shr =>
    obtain ⟨t, ht, hzero, hstep, hof⟩ := shiftRm_shift (k := .shr) rfl hwf hv hn
    refine ⟨t, ht, hzero, fun h0 => ?_, fun h1 => (hof h1).trans hmsb⟩
    obtain ⟨hread, hcf, hpsz⟩ := hstep h0
    rw [shiftSteps_right_CF (.inl rfl) w h0] at hcf
    simp only [shiftSteps_shr] at hread hcf hpsz
    exact ⟨hread, hcf, hpsz⟩
  case sar =>
    obtain ⟨t, ht, hzero, hstep, hof⟩ := shiftRm_shift (k := .sar) rfl hwf hv hn
    refine ⟨t, ht, hzero, fun h0 => ?_, hof⟩
    obtain ⟨hread, hcf, hpsz⟩ := hstep h0
    refine ⟨_, ?_, hread, hpsz, ?_⟩
    · rw [← signedNat_shiftSteps_sar n (p := (v.toNat, s.flag .CF)) hlt]
      exact (signedNat_emod (shiftSteps_lt .sar n hlt)).symm
    · rw [hcf, shiftSteps_right_CF (.inr rfl) w h0,
        ← signedNat_shiftSteps_sar (n - 1) (p := (v.toNat, s.flag .CF)) hlt, signedNat_emod_two]
      exact decide_eq_decide.2 (by omega)

end Sys2Proof.Machine
end

section
/-! SUPPORT. The rotates by any count in closed form (46_string_shift_muldiv_misc.md R401 to R404). -/

namespace Sys2Proof.Machine

open Sys2Proof

/-! ### Rotation of a number -/

/-- The low `e` bits of `v` moved above its other `m` bits: a rotation in `m + e` bits, left by `m` or right by `e`. -/
def swapParts (m e v : Nat) : Nat := v * 2 ^ m % 2 ^ (m + e) + v / 2 ^ e

/-- The two parts of the number change places. -/
theorem swapParts_parts (m : Nat) {e l : Nat} (h : Nat) (hl : l < 2 ^ e) :
    swapParts m e (h * 2 ^ e + l) = l * 2 ^ m + h := by
  have hlow : (h * 2 ^ e + l) % 2 ^ e = l := by rw [Nat.mul_add_mod_self_right, Nat.mod_eq_of_lt hl]
  have hhigh : (h * 2 ^ e + l) / 2 ^ e = h := by
    rw [mul_comm, Nat.mul_add_div (by positivity), Nat.div_eq_of_lt hl, add_zero]
  rw [swapParts, add_comm m e, pow_add, Nat.mul_mod_mul_right, hlow, hhigh]

theorem swapParts_zero_left {k v : Nat} (hv : v < 2 ^ k) : swapParts 0 k v = v := by
  simpa using swapParts_parts 0 0 hv

theorem swapParts_zero_right (k v : Nat) : swapParts k 0 v = v := by
  simpa using swapParts_parts k (e := 0) (l := 0) v (by decide)

/-- A number by its top `m` bits, the next bit and its low `e` bits. -/
theorem exists_parts (e v : Nat) :
    ∃ h b l, b < 2 ∧ l < 2 ^ e ∧ v = h * 2 ^ (e + 1) + (b * 2 ^ e + l) ∧ v = (h * 2 + b) * 2 ^ e + l := by
  refine ⟨v / 2 ^ e / 2, v / 2 ^ e % 2, v % 2 ^ e, Nat.mod_lt _ two_pos, Nat.mod_lt _ (by positivity), ?_, ?_⟩
  · rw [pow_succ, mul_comm (2 ^ e), ← mul_assoc, ← add_assoc, ← add_mul, Nat.div_add_mod', Nat.div_add_mod']
  · rw [Nat.div_add_mod', Nat.div_add_mod']

theorem bit_parts_lt {b l e : Nat} (hb : b < 2) (hl : l < 2 ^ e) : b * 2 ^ e + l < 2 ^ (e + 1) := by
  rw [pow_succ]
  interval_cases b <;> omega

/-- A rotation left by 1 more. -/
theorem swapParts_left {m e v : Nat} (hv : v < 2 ^ (m + e + 1)) :
    swapParts 1 (m + e) (swapParts m (e + 1) v) = swapParts (m + 1) e v := by
  obtain ⟨h, b, l, hb, hl, hv1, hv2⟩ := exists_parts e v
  have hh : h < 2 ^ m := by
    have hle : h * 2 ^ (e + 1) < 2 ^ m * 2 ^ (e + 1) := by rw [← pow_add, ← add_assoc]; omega
    exact lt_of_mul_lt_mul_right hle (Nat.zero_le _)
  have hlow : l * 2 ^ m + h < 2 ^ (m + e) := by
    calc l * 2 ^ m + h < (l + 1) * 2 ^ m := by rw [add_mul, one_mul]; omega
      _ ≤ 2 ^ e * 2 ^ m := Nat.mul_le_mul_right _ hl
      _ = 2 ^ (m + e) := by rw [← pow_add, add_comm]
  have hsplit : (b * 2 ^ e + l) * 2 ^ m + h = b * 2 ^ (m + e) + (l * 2 ^ m + h) := by ring
  calc swapParts 1 (m + e) (swapParts m (e + 1) v)
      = swapParts 1 (m + e) (b * 2 ^ (m + e) + (l * 2 ^ m + h)) := by
        rw [hv1, swapParts_parts m h (bit_parts_lt hb hl), hsplit]
    _ = (l * 2 ^ m + h) * 2 ^ 1 + b := swapParts_parts 1 b hlow
    _ = l * 2 ^ (m + 1) + (h * 2 + b) := by ring
    _ = swapParts (m + 1) e v := by rw [hv2, swapParts_parts (m + 1) _ hl]

/-- A rotation right by 1 more. -/
theorem swapParts_right (m e v : Nat) :
    swapParts (m + e) 1 (swapParts (m + 1) e v) = swapParts m (e + 1) v := by
  obtain ⟨h, b, l, hb, hl, hv1, hv2⟩ := exists_parts e v
  have hsplit : l * 2 ^ (m + 1) + (h * 2 + b) = (l * 2 ^ m + h) * 2 ^ 1 + b := by ring
  calc swapParts (m + e) 1 (swapParts (m + 1) e v)
      = swapParts (m + e) 1 ((l * 2 ^ m + h) * 2 ^ 1 + b) := by rw [hv2, swapParts_parts (m + 1) _ hl, hsplit]
    _ = b * 2 ^ (m + e) + (l * 2 ^ m + h) := swapParts_parts (m + e) _ hb
    _ = (b * 2 ^ e + l) * 2 ^ m + h := by ring
    _ = swapParts m (e + 1) v := by rw [hv1, swapParts_parts m h (bit_parts_lt hb hl)]

theorem succ_mod_of_eq {k n m e : Nat} (hk : k = m + e + 1) (hm : n % k = m) :
    (n + 1) % k = if e = 0 then 0 else m + 1 := by
  rw [← Nat.mod_add_mod, hm]
  split_ifs with he
  · subst he hk; exact Nat.mod_self _
  · exact Nat.mod_eq_of_lt (by omega)

theorem exists_mod_parts {k : Nat} (hk : 0 < k) (n : Nat) : ∃ m e, k = m + e + 1 ∧ n % k = m :=
  ⟨n % k, k - n % k - 1, by have := Nat.mod_lt n hk; omega, rfl⟩

theorem rotateLeft_eq {k n m e : Nat} (hk : k = m + e) (hm : n % k = m) (v : Nat) :
    rotateLeft k n v = swapParts m e v := by
  rw [rotateLeft, hm, swapParts, ← hk, hk, Nat.add_sub_cancel_left]

theorem rotateRight_eq {k n m e : Nat} (hk : k = m + e) (he : n % k = e) (v : Nat) :
    rotateRight k n v = swapParts m e v := by
  rw [rotateRight, he, swapParts, hk, Nat.add_sub_cancel, add_comm]

/-- A rotation left by `n + 1` is one by `n`, then one by 1. -/
theorem rotateLeft_succ {k v : Nat} (hk : 0 < k) (hv : v < 2 ^ k) (n : Nat) :
    rotateLeft k (n + 1) v = swapParts 1 (k - 1) (rotateLeft k n v) := by
  obtain ⟨m, e, hparts, hm⟩ := exists_mod_parts hk n
  have hnext := succ_mod_of_eq hparts hm
  rw [rotateLeft_eq (e := e + 1) hparts hm, show k - 1 = m + e by omega, swapParts_left (hparts ▸ hv)]
  split_ifs at hnext with he
  · subst he
    rw [rotateLeft_eq (e := k) (zero_add k).symm hnext, swapParts_zero_left hv, swapParts_zero_right]
  · exact rotateLeft_eq (by omega) hnext v

/-- A rotation right by `n + 1` is one by `n`, then one by 1. -/
theorem rotateRight_succ {k v : Nat} (hk : 0 < k) (hv : v < 2 ^ k) (n : Nat) :
    rotateRight k (n + 1) v = swapParts (k - 1) 1 (rotateRight k n v) := by
  obtain ⟨e, m, hparts, he⟩ := exists_mod_parts hk n
  have hnext := succ_mod_of_eq hparts he
  rw [rotateRight_eq (m := m + 1) (by omega) he, show k - 1 = m + e by omega, swapParts_right]
  split_ifs at hnext with hm
  · subst hm
    rw [rotateRight_eq (m := k) (add_zero k).symm hnext, swapParts_zero_right,
      show e + 1 = k by omega, swapParts_zero_left hv]
  · exact rotateRight_eq (by omega) hnext v

theorem rotateLeft_zero {k v : Nat} (hv : v < 2 ^ k) : rotateLeft k 0 v = v :=
  (rotateLeft_eq (zero_add k).symm (Nat.zero_mod k) v).trans (swapParts_zero_left hv)

theorem rotateRight_zero (k v : Nat) : rotateRight k 0 v = v :=
  (rotateRight_eq (add_zero k).symm (Nat.zero_mod k) v).trans (swapParts_zero_right k v)

/-! ### The steps of the rotates -/

/-- The top bit of a number below `2^w` is what stands above its other bits. -/
theorem toNat_testBit_top {w : Width} {x : Nat} (hx : x < 2 ^ bits w) :
    (x.testBit (bits w - 1)).toNat = x / 2 ^ (bits w - 1) := by
  rw [Nat.toNat_testBit, Nat.mod_eq_of_lt]
  cases w <;> simp only [bits, Nat.reduceSub, Nat.reducePow] at * <;> omega

theorem shiftStep_rol {w : Width} {x : Nat} (hx : x < 2 ^ bits w) (cf : Bool) :
    (shiftStep .rol w x cf).1 = swapParts 1 (bits w - 1) x := by
  show (2 * x + (x.testBit (bits w - 1)).toNat) % 2 ^ bits w = _
  rw [toNat_testBit_top hx, swapParts]
  cases w <;> simp only [bits, Nat.reduceSub, Nat.reduceAdd, Nat.reducePow] at * <;> omega

theorem shiftStep_ror {w : Width} {x : Nat} (hx : x < 2 ^ bits w) (cf : Bool) :
    (shiftStep .ror w x cf).1 = swapParts (bits w - 1) 1 x := by
  show x / 2 + (x.testBit 0).toNat * 2 ^ (bits w - 1) = _
  rw [Nat.toNat_testBit, swapParts]
  cases w <;> simp only [bits, Nat.reduceSub, Nat.reduceAdd, Nat.reducePow] at * <;> omega

/-- A step of RCL rotates the operand with CF as its top bit (46_string_shift_muldiv_misc.md R403). -/
theorem shiftStep_rcl {w : Width} {x : Nat} (hx : x < 2 ^ bits w) (cf : Bool) :
    carryAnd w (shiftStep .rcl w x cf).2 (shiftStep .rcl w x cf).1 = swapParts 1 (bits w) (carryAnd w cf x) := by
  show (x.testBit (bits w - 1)).toNat * 2 ^ bits w + (2 * x + cf.toNat) % 2 ^ bits w = _
  have hcf := cf.toNat_le
  rw [toNat_testBit_top hx, carryAnd, swapParts_parts 1 _ hx]
  cases w <;> simp only [bits, Nat.reduceSub, Nat.reducePow] at * <;> omega

/-- A step of RCR rotates the operand with CF as its top bit (46_string_shift_muldiv_misc.md R404). -/
theorem shiftStep_rcr {w : Width} {x : Nat} (hx : x < 2 ^ bits w) (cf : Bool) :
    carryAnd w (shiftStep .rcr w x cf).2 (shiftStep .rcr w x cf).1 = swapParts (bits w) 1 (carryAnd w cf x) := by
  show (x.testBit 0).toNat * 2 ^ bits w + (x / 2 + cf.toNat * 2 ^ (bits w - 1)) = _
  have hcf := cf.toNat_le
  rw [Nat.toNat_testBit, swapParts, carryAnd]
  cases w <;> simp only [bits, Nat.reduceSub, Nat.reduceAdd, Nat.reducePow] at * <;> omega

theorem bits_pos (w : Width) : 0 < bits w := by cases w <;> decide

theorem shiftSteps_rol {w : Width} (n : Nat) {p : Nat × Bool} (hp : p.1 < 2 ^ bits w) :
    (shiftSteps .rol w n p).1 = rotateLeft (bits w) n p.1 := by
  induction n with
  | zero => exact (rotateLeft_zero hp).symm
  | succ n ih => rw [shiftSteps_succ, shiftStep_rol (shiftSteps_lt .rol n hp), ih, rotateLeft_succ (bits_pos w) hp]

theorem shiftSteps_ror {w : Width} (n : Nat) {p : Nat × Bool} (hp : p.1 < 2 ^ bits w) :
    (shiftSteps .ror w n p).1 = rotateRight (bits w) n p.1 := by
  induction n with
  | zero => exact (rotateRight_zero _ _).symm
  | succ n ih => rw [shiftSteps_succ, shiftStep_ror (shiftSteps_lt .ror n hp), ih, rotateRight_succ (bits_pos w) hp]

theorem carryAnd_lt {w : Width} {x : Nat} (hx : x < 2 ^ bits w) (cf : Bool) : carryAnd w cf x < 2 ^ (bits w + 1) := by
  have hcf := cf.toNat_le
  rw [carryAnd]
  cases w <;> simp only [bits, Nat.reduceAdd, Nat.reducePow] at * <;> omega

theorem shiftSteps_rcl {w : Width} (n : Nat) {p : Nat × Bool} (hp : p.1 < 2 ^ bits w) :
    carryAnd w (shiftSteps .rcl w n p).2 (shiftSteps .rcl w n p).1 =
      rotateLeft (bits w + 1) n (carryAnd w p.2 p.1) := by
  induction n with
  | zero => exact (rotateLeft_zero (carryAnd_lt hp p.2)).symm
  | succ n ih =>
    rw [shiftSteps_succ, shiftStep_rcl (shiftSteps_lt .rcl n hp), ih,
      rotateLeft_succ (k := bits w + 1) (by omega) (carryAnd_lt hp p.2), Nat.add_sub_cancel]

theorem shiftSteps_rcr {w : Width} (n : Nat) {p : Nat × Bool} (hp : p.1 < 2 ^ bits w) :
    carryAnd w (shiftSteps .rcr w n p).2 (shiftSteps .rcr w n p).1 =
      rotateRight (bits w + 1) n (carryAnd w p.2 p.1) := by
  induction n with
  | zero => exact (rotateRight_zero _ _).symm
  | succ n ih =>
    rw [shiftSteps_succ, shiftStep_rcr (shiftSteps_lt .rcr n hp), ih,
      rotateRight_succ (k := bits w + 1) (by omega) (carryAnd_lt hp p.2), Nat.add_sub_cancel]

/-! ### The flags of the rotates -/

/-- The bit ROL rotates out of the top comes in at the bottom (46_string_shift_muldiv_misc.md R401). -/
theorem shiftSteps_rol_CF {w : Width} {n : Nat} (hn : n ≠ 0) (p : Nat × Bool) :
    (shiftSteps .rol w n p).2 = decide ((shiftSteps .rol w n p).1 % 2 = 1) := by
  obtain ⟨n, rfl⟩ := Nat.exists_eq_succ_of_ne_zero hn
  rw [Nat.succ_eq_add_one, shiftSteps_succ]
  generalize (shiftSteps .rol w n p).1 = x
  show x.testBit (bits w - 1) = decide ((2 * x + (x.testBit (bits w - 1)).toNat) % 2 ^ bits w % 2 = 1)
  rw [Nat.toNat_testBit, Nat.testBit_eq_decide_div_mod_eq]
  refine decide_eq_decide.2 ?_
  cases w <;> simp only [bits, Nat.reduceSub, Nat.reducePow] <;> omega

/-- The top bit of a right step is the bit that came in (46_string_shift_muldiv_misc.md R402, R404). -/
theorem testBit_top_rightStep {w : Width} {x : Nat} (hx : x < 2 ^ bits w) (b : Bool) :
    (x / 2 + b.toNat * 2 ^ (bits w - 1)).testBit (bits w - 1) = b := by
  rw [Nat.testBit_eq_decide_div_mod_eq]
  cases b <;> cases w <;> simp [bits] at * <;> omega

/-- The bit below the top of a right step is the old top bit (46_string_shift_muldiv_misc.md R402, R404). -/
theorem testBit_below_top_rightStep {w : Width} {x : Nat} (hx : x < 2 ^ bits w) (b : Bool) :
    (x / 2 + b.toNat * 2 ^ (bits w - 1)).testBit (bits w - 1 - 1) = x.testBit (bits w - 1) := by
  rw [Nat.testBit_eq_decide_div_mod_eq, Nat.testBit_eq_decide_div_mod_eq]
  refine decide_eq_decide.2 ?_
  have hb := b.toNat_le
  cases w <;> simp only [bits, Nat.reduceSub, Nat.reducePow] at * <;> omega

/-- ROR's new CF is the top bit of its result (46_string_shift_muldiv_misc.md R402). -/
theorem shiftSteps_ror_CF {w : Width} {n : Nat} (hn : n ≠ 0) {p : Nat × Bool} (hp : p.1 < 2 ^ bits w) :
    (shiftSteps .ror w n p).2 = decide (2 ^ (bits w - 1) ≤ (shiftSteps .ror w n p).1) := by
  rw [← msb_eq (shiftSteps_lt .ror n hp)]
  obtain ⟨n, rfl⟩ := Nat.exists_eq_succ_of_ne_zero hn
  rw [Nat.succ_eq_add_one, shiftSteps_succ]
  exact (testBit_top_rightStep (shiftSteps_lt .ror n hp) _).symm

/-- The top bit of a step of RCL is the operand's bit below its top (46_string_shift_muldiv_misc.md R403). -/
theorem testBit_top_rclStep {w : Width} (x : Nat) (cf : Bool) :
    (shiftStep .rcl w x cf).1.testBit (bits w - 1) = decide (2 ^ (bits w - 2) ≤ x % 2 ^ (bits w - 1)) := by
  show ((2 * x + cf.toNat) % 2 ^ bits w).testBit (bits w - 1) = _
  have hcf := cf.toNat_le
  rw [Nat.testBit_eq_decide_div_mod_eq]
  refine decide_eq_decide.2 ?_
  cases w <;> simp only [bits, Nat.reduceSub, Nat.reducePow] <;> omega

theorem carryAnd_mod {w : Width} {x : Nat} (hx : x < 2 ^ bits w) (cf : Bool) : carryAnd w cf x % 2 ^ bits w = x := by
  rw [carryAnd, Nat.mul_add_mod_self_right, Nat.mod_eq_of_lt hx]

theorem carryAnd_top {w : Width} {x : Nat} (hx : x < 2 ^ bits w) (cf : Bool) :
    decide (2 ^ bits w ≤ carryAnd w cf x) = cf := by
  cases cf <;> simp [carryAnd, hx]

/-! ### The obligation -/

/-- What a rotate leaves in terms of its steps: beside the operand it writes CF and OF alone
(46_string_shift_muldiv_misc.md R400). -/
theorem shiftRm_rotate {k : ShiftOp} (hk : isShift k = false) {c : ShiftCount} {w : Width} {m : ModRM} {s : State}
    {v : Word} {n : Nat} (hwf : s.mem.wf = true) (hv : rmValue s w m.rm = .ok v) (hn : n = shiftCount c s) :
    ∃ t, shiftRm k c w m s = .next t ∧
      ((n = 0 → t.flags = s.flags ∧ t.mem = s.mem ∧ t.gpr = s.gpr) ∧
        (∀ g, g ≠ .CF → g ≠ .OF → getFlag t.flags g = getFlag s.flags g)) ∧
      (n ≠ 0 →
        readPlace t w (placeOf s m.rm) = .ok (BitVec.ofNat 16 (shiftSteps k w n (v.toNat, s.flag .CF)).1) ∧
        getFlag t.flags .CF = (shiftSteps k w n (v.toNat, s.flag .CF)).2) ∧
      (n = 1 → getFlag t.flags .OF = shiftOF k w v.toNat (shiftStep k w v.toNat (s.flag .CF)).1
        (shiftStep k w v.toNat (s.flag .CF)).2) := by
  obtain ⟨t, ht, hzero, hstep, hof, hflags⟩ := shiftRm_spec k hwf hv hn
  refine ⟨t, ht, ⟨hzero, fun g hgcf hgof => ?_⟩, hstep, hof⟩
  by_cases h0 : n = 0
  · obtain ⟨hsame, -⟩ := hzero h0
    rw [hsame]
  · rw [hflags h0]
    exact getFlag_shiftFlags_rotate hk _ _ _ _ _ _ _ hgcf hgof

/-- Settles O53: each rotate by its steps, the steps by rotations of the operand, alone or under CF. -/
theorem rotates : Obligations.Rotates := by
  intro c w m s v n hwf hv hn keeps
  have hlt : v.toNat < 2 ^ bits w := rmValue_lt hv
  have hmsb : v.toNat.testBit (bits w - 1) = decide (2 ^ (bits w - 1) ≤ v.toNat) := msb_eq hlt
  refine ⟨?rol, ?ror, ?rcl, ?rcr⟩
  case rol =>
    obtain ⟨t, ht, hkeeps, hstep, hof⟩ := shiftRm_rotate (k := .rol) rfl hwf hv hn
    refine ⟨t, ht, hkeeps, fun h0 => ?_, fun h1 => ?_⟩
    · rw [shiftSteps_rol_CF h0, shiftSteps_rol n hlt] at hstep
      exact hstep h0
    · have hone := shiftSteps_rol 1 (p := (v.toNat, s.flag .CF)) hlt
      rw [hof h1, ← hmsb, ← hone, ← msb_eq (shiftSteps_lt .rol 1 hlt)]
      rfl
  case ror =>
    obtain ⟨t, ht, hkeeps, hstep, hof⟩ := shiftRm_rotate (k := .ror) rfl hwf hv hn
    have hlow : v.toNat.testBit 0 = decide (v.toNat % 2 = 1) := Nat.testBit_zero _
    have htop := (testBit_top_rightStep hlt (v.toNat.testBit 0)).trans hlow
    have hbelow := (testBit_below_top_rightStep hlt (v.toNat.testBit 0)).trans hmsb
    refine ⟨t, ht, hkeeps, fun h0 => ?_, fun h1 => (hof h1).trans (congrArg₂ xor htop hbelow)⟩
    rw [shiftSteps_ror_CF h0 hlt, shiftSteps_ror n hlt] at hstep
    exact hstep h0
  case rcl =>
    obtain ⟨t, ht, hkeeps, hstep, hof⟩ := shiftRm_rotate (k := .rcl) rfl hwf hv hn
    have htop := testBit_top_rclStep (w := w) v.toNat (s.flag .CF)
    refine ⟨t, ht, hkeeps, fun h0 => ⟨_, rfl, ?_⟩, fun h1 => (hof h1).trans (congrArg₂ xor htop hmsb)⟩
    rw [← shiftSteps_rcl n (p := (v.toNat, s.flag .CF)) hlt, carryAnd_mod (shiftSteps_lt .rcl n hlt),
      carryAnd_top (shiftSteps_lt .rcl n hlt)]
    exact hstep h0
  case rcr =>
    obtain ⟨t, ht, hkeeps, hstep, hof⟩ := shiftRm_rotate (k := .rcr) rfl hwf hv hn
    have htop := testBit_top_rightStep hlt (s.flag .CF)
    have hbelow := (testBit_below_top_rightStep hlt (s.flag .CF)).trans hmsb
    refine ⟨t, ht, hkeeps, fun h0 => ⟨_, rfl, ?_⟩, fun h1 => (hof h1).trans (congrArg₂ xor htop hbelow)⟩
    rw [← shiftSteps_rcr n (p := (v.toNat, s.flag .CF)) hlt, carryAnd_mod (shiftSteps_lt .rcr n hlt),
      carryAnd_top (shiftSteps_lt .rcr n hlt)]
    exact hstep h0

end Sys2Proof.Machine
end

section
/-! SUPPORT. The products of MUL and IMUL, their double-width result and their flags (46_string_shift_muldiv_misc.md
R410, R411). -/

namespace Sys2Proof.Machine

open Sys2Proof

theorem getFlag_mulFlags_CF (n : Nat) (f : Word) (big : Bool) : getFlag (mulFlags n f big) .CF = big := by
  rw [mulFlags, getFlag_drawFlags_ne _ _ (by decide), getFlag_setFlag_ne _ _ (by decide), getFlag_setFlag_same]

theorem getFlag_mulFlags_OF (n : Nat) (f : Word) (big : Bool) : getFlag (mulFlags n f big) .OF = big := by
  rw [mulFlags, getFlag_drawFlags_ne _ _ (by decide), getFlag_setFlag_same]

/-! ### The double-width result -/

theorem toNat_append_words (hi lo : Word) : (hi ++ lo).toNat = hi.toNat * 65536 + lo.toNat := by
  rw [BitVec.toNat_append, ← Nat.shiftLeft_add_eq_or_of_lt lo.isLt, Nat.shiftLeft_eq]

/-- DX:AX holds a number of 32 bits (46_string_shift_muldiv_misc.md R410, R411). -/
theorem ofInt_append_ofInt (p : Int) : BitVec.ofInt 16 (p / 65536) ++ BitVec.ofInt 16 p = BitVec.ofInt 32 p := by
  apply BitVec.eq_of_toNat_eq
  simp only [toNat_append_words, BitVec.toNat_ofInt, Nat.reducePow]
  omega

theorem toNat_ofInt_natCast {k n : Nat} (h : n < 2 ^ k) : (BitVec.ofInt k n).toNat = n := by
  rw [BitVec.ofInt_natCast, BitVec.toNat_ofNat, Nat.mod_eq_of_lt h]

/-- A product of signed numbers fits the double width (46_string_shift_muldiv_misc.md R411). -/
theorem toInt_ofInt_mul {k : Nat} (hk : 0 < k) (a b : BitVec k) :
    (BitVec.ofInt (2 * k) (a.toInt * b.toInt)).toInt = a.toInt * b.toInt := by
  have hpow : (2 : Int) ^ (k * 2 - 2) < 2 ^ (2 * k - 1) := pow_lt_pow_right₀ (by decide) (by omega)
  have hle : a.toInt * b.toInt ≤ 2 ^ (k * 2 - 2) := BitVec.toInt_mul_toInt_le
  have hge : -2 ^ (k * 2 - 2) ≤ a.toInt * b.toInt := BitVec.le_toInt_mul_toInt
  exact BitVec.toInt_ofInt_eq_self (by omega) (by omega) (by omega)

/-! ### The instructions -/

/-- MUL on an operand with the value `v` (46_string_shift_muldiv_misc.md R410). -/
theorem execMul_of_value {s : State} {w : Width} {m : ModRM} {v : Word} (hv : rmValue s w m.rm = .ok v) :
    execMul w m s = .next (mulApply w ((getReg s w .ax).toNat * v.toNat)
      (withCache s (cacheOf s w m.reg.bits m.rm v))) := onRM_of_value _ hv

/-- IMUL on an operand with the value `v` (46_string_shift_muldiv_misc.md R411). -/
theorem execImul_of_value {s : State} {w : Width} {m : ModRM} {v : Word} (hv : rmValue s w m.rm = .ok v) :
    execImul w m s = .next (imulApply w (signedValue w (getReg s w .ax) * signedValue w v)
      (withCache s (cacheOf s w m.reg.bits m.rm v))) := onRM_of_value _ hv

/-- Settles O54: both flags are the one condition, and the product fits the double width. -/
theorem multiplications : Obligations.Multiplications := by
  refine ⟨fun m s v hv => ⟨?mulByte, ?imulByte⟩, fun m s v hv => ⟨?mulWord, ?imulWord⟩⟩
  case mulByte =>
    have hal : (getReg s .byte .ax).toNat = (getR8 s .al).toNat := toNat_zext16 _
    have hlt : (getR8 s .al).toNat * v.toNat < 2 ^ 16 :=
      Nat.mul_lt_mul'' (c := 2 ^ 8) (d := 2 ^ 8) (getR8 s .al).isLt (rmValue_lt hv)
    rw [← hal] at hlt ⊢
    exact ⟨_, execMul_of_value hv, toNat_ofInt_natCast hlt, getFlag_mulFlags_CF _ _ _, getFlag_mulFlags_OF _ _ _⟩
  case imulByte =>
    have hal : signedValue .byte (getReg s .byte .ax) = (getR8 s .al).toInt := congrArg BitVec.toInt (loByte_zext16 _)
    rw [← hal, ← signedValue_eq_signedNat (rmValue_lt hv)]
    exact ⟨_, execImul_of_value hv, toInt_ofInt_mul (k := 8) (by decide) _ _, getFlag_mulFlags_CF _ _ _,
      getFlag_mulFlags_OF _ _ _⟩
  case mulWord =>
    have hlt : s.gpr.ax.toNat * v.toNat < 2 ^ 32 := Nat.mul_lt_mul'' (c := 2 ^ 16) (d := 2 ^ 16) s.gpr.ax.isLt v.isLt
    refine ⟨_, execMul_of_value hv, ?_, getFlag_mulFlags_CF _ _ _, getFlag_mulFlags_OF _ _ _⟩
    rw [← toNat_append_words]
    exact (congrArg BitVec.toNat (ofInt_append_ofInt _)).trans (toNat_ofInt_natCast hlt)
  case imulWord =>
    refine ⟨_, execImul_of_value hv, ?_, getFlag_mulFlags_CF _ _ _, getFlag_mulFlags_OF _ _ _⟩
    exact (congrArg BitVec.toInt (ofInt_append_ofInt _)).trans (toInt_ofInt_mul (k := 16) (by decide) s.gpr.ax v)

end Sys2Proof.Machine
end

section
/-! SUPPORT. The decimal adjustments (46_string_shift_muldiv_misc.md R420 to R425). -/

namespace Sys2Proof.Machine

open Sys2Proof

/-! ### The halves of AX -/

@[simp] theorem getR8_setAx_al (s : State) (al ah : Nat) : getR8 (setAx s al ah) .al = BitVec.ofNat 8 al :=
  loByte_mkWord _ _

@[simp] theorem getR8_setAx_ah (s : State) (al ah : Nat) : getR8 (setAx s al ah) .ah = BitVec.ofNat 8 ah :=
  hiByte_mkWord _ _

theorem toNat_ofNat_byte {n : Nat} (h : n < 256) : (BitVec.ofNat 8 n).toNat = n := Nat.mod_eq_of_lt h

/-- PSZ of a byte that AL takes (42_flags.md R211). -/
theorem pszHolds_psz_byte (f : Word) {n : Nat} (h : n < 256) : pszHolds (psz f .byte (n : Nat)) .byte n := by
  simpa only [masked_of_lt (w := .byte) h] using pszHolds_psz f .byte (n : Nat)

/-! ### DAA and DAS -/

/-- What an adjustment that draws OF alone leaves of the AL and the flags it computed. -/
theorem decimalAdjust_spec (s : State) {al : Nat} (hal : al < 256) (f : Word) (low high : Bool) :
    let t := decimalAdjust (al, psz (setFlag (setFlag f .AF low) .CF high) .byte (al : Nat)) s
    (getR8 t .al).toNat = al ∧ t.flag .AF = low ∧ t.flag .CF = high ∧ pszHolds t.flags .byte (getR8 t .al).toNat := by
  intro t
  have htal : (getR8 t .al).toNat = al :=
    (congrArg BitVec.toNat (getR8_setR8_same s .al (BitVec.ofNat 8 al))).trans (toNat_ofNat_byte hal)
  have hflag {g : Flag} (hof : g ∉ [Flag.OF]) (hz : g ≠ .ZF) (hs : g ≠ .SF) (hp : g ≠ .PF) :
      t.flag g = getFlag (setFlag (setFlag f .AF low) .CF high) g :=
    (getFlag_drawFlags_ne _ _ hof).trans (getFlag_psz_ne _ _ _ hz hs hp)
  refine ⟨htal, ?af, ?cf, ?psz⟩
  case af =>
    rw [hflag (by decide) (by decide) (by decide) (by decide), getFlag_setFlag_ne _ _ (by decide), getFlag_setFlag_same]
  case cf => rw [hflag (by decide) (by decide) (by decide) (by decide), getFlag_setFlag_same]
  case psz =>
    rw [htal]
    exact pszHolds_drawFlags (pszHolds_psz_byte _ hal) (by decide) (by decide) (by decide)

/-- AL after the two adjustments of DAA or DAS, by `x` and `y` modulo 256 (46_string_shift_muldiv_misc.md R420,
R421). -/
def adjustedAl (x y : Nat) (low high : Bool) (al : Nat) : Nat :=
  (al + (if low then x else 0) + (if high then y else 0)) % 256

theorem adjustedAl_lt (x y : Nat) (low high : Bool) (al : Nat) : adjustedAl x y low high al < 256 :=
  Nat.mod_lt _ (by decide)

/-- The two adjustments one after the other. -/
theorem adjustedAl_eq {al : Nat} (hal : al < 256) (x y : Nat) (low high : Bool) :
    adjustedAl x y low high al =
      if high then ((if low then (al + x) % 256 else al) + y) % 256 else if low then (al + x) % 256 else al := by
  unfold adjustedAl
  split_ifs <;> omega

theorem daaAdjust_eq {al : Nat} (hal : al < 256) {f : Word} {low high : Bool}
    (hlow : low = (decide (9 < al % 16) || getFlag f .AF)) (hhigh : high = (decide (0x99 < al) || getFlag f .CF)) :
    daaAdjust al f = (adjustedAl 6 0x60 low high al,
      psz (setFlag (setFlag f .AF low) .CF high) .byte (adjustedAl 6 0x60 low high al : Nat)) := by
  subst hlow hhigh
  rw [adjustedAl_eq hal]
  rfl

/-- CF after DAS: where the second test fails CF was 0, so what the first part gave it is its borrow
(46_string_shift_muldiv_misc.md R421). -/
theorem dasAdjust_eq {al : Nat} (hal : al < 256) {f : Word} {low high : Bool}
    (hlow : low = (decide (9 < al % 16) || getFlag f .AF)) (hhigh : high = (decide (0x99 < al) || getFlag f .CF)) :
    dasAdjust al f = (adjustedAl 250 0xA0 low high al,
      psz (setFlag (setFlag f .AF low) .CF (high || (low && (getFlag f .CF || decide (al < 6))))) .byte
        (adjustedAl 250 0xA0 low high al : Nat)) := by
  have hcf : (high || (low && (getFlag f .CF || decide (al < 6)))) =
      (high || if low then getFlag f .CF || decide (al < 6) else getFlag f .CF) := by
    rw [hhigh]
    cases low <;> simp
  rw [hcf, adjustedAl_eq hal]
  subst hlow hhigh
  rfl

/-- DAA by its rule (46_string_shift_muldiv_misc.md R420). -/
theorem exec_daa {s : State} {al : Nat} {low high : Bool} (hal : al = (getR8 s .al).toNat)
    (hlow : low = (decide (9 < al % 16) || s.flag .AF)) (hhigh : high = (decide (0x99 < al) || s.flag .CF)) :
    ∃ t, exec .daa s = .next t ∧ (getR8 t .al).toNat = adjustedAl 6 0x60 low high al ∧ t.flag .AF = low ∧
      t.flag .CF = high ∧ pszHolds t.flags .byte (getR8 t .al).toNat := by
  have hlt : al < 256 := hal ▸ (getR8 s .al).isLt
  have hexec : exec .daa s = .next (decimalAdjust (daaAdjust al s.flags) s) := by rw [hal]; rfl
  rw [daaAdjust_eq hlt hlow hhigh] at hexec
  exact ⟨_, hexec, decimalAdjust_spec s (adjustedAl_lt _ _ _ _ _) s.flags low high⟩

/-- DAS by its rule (46_string_shift_muldiv_misc.md R421). -/
theorem exec_das {s : State} {al : Nat} {low high : Bool} (hal : al = (getR8 s .al).toNat)
    (hlow : low = (decide (9 < al % 16) || s.flag .AF)) (hhigh : high = (decide (0x99 < al) || s.flag .CF)) :
    ∃ t, exec .das s = .next t ∧ (getR8 t .al).toNat = adjustedAl 250 0xA0 low high al ∧ t.flag .AF = low ∧
      t.flag .CF = (high || (low && (s.flag .CF || decide (al < 6)))) ∧
      pszHolds t.flags .byte (getR8 t .al).toNat := by
  have hlt : al < 256 := hal ▸ (getR8 s .al).isLt
  have hexec : exec .das s = .next (decimalAdjust (dasAdjust al s.flags) s) := by rw [hal]; rfl
  rw [dasAdjust_eq hlt hlow hhigh] at hexec
  exact ⟨_, hexec, decimalAdjust_spec s (adjustedAl_lt _ _ _ _ _) s.flags low _⟩

/-- The binary sum of two packed decimal numbers. -/
def packedSum (a b : Nat) : Nat := a / 10 * 16 + a % 10 + (b / 10 * 16 + b % 10)

/-- After an addition of packed decimal numbers the first test is the carry out of the low digit. -/
theorem packedSum_low {a b al : Nat} (hal : al = packedSum a b % 256) :
    (decide (9 < al % 16) || decide (16 ≤ a % 10 + b % 10)) = decide (10 ≤ a % 10 + b % 10) := by
  rw [← Bool.decide_or, hal, packedSum]
  exact decide_eq_decide.2 (by omega)

/-- After an addition of packed decimal numbers the second test is the carry out of the high digit. -/
theorem packedSum_high {a b al : Nat} (ha : a < 100) (hb : b < 100) (hal : al = packedSum a b % 256) :
    (decide (0x99 < al) || decide (256 ≤ packedSum a b)) = decide (100 ≤ a + b) := by
  have hmod : packedSum a b % 256 ≤ packedSum a b := Nat.mod_le _ _
  rw [← Bool.decide_or, hal]
  refine decide_eq_decide.2 ⟨fun h => ?_, fun h => ?_⟩
  · by_contra hsum
    have htens : a / 10 + b / 10 ≤ 9 := by omega
    unfold packedSum at *
    omega
  · unfold packedSum at *
    omega

/-- With the two decimal carries the adjustments give the packed sum modulo 100. -/
theorem adjustedAl_packedSum {a b al : Nat} (ha : a < 100) (hb : b < 100) (hal : al = packedSum a b % 256) :
    adjustedAl 6 0x60 (decide (10 ≤ a % 10 + b % 10)) (decide (100 ≤ a + b)) al =
      (a + b) % 100 / 10 * 16 + (a + b) % 10 := by
  rw [adjustedAl, hal, packedSum]
  simp only [decide_eq_true_eq]
  split_ifs <;> omega

/-! ### AAA and AAS -/

/-- What AAA or AAS leaves of AL, AH, AF and CF (46_string_shift_muldiv_misc.md R422, R423). -/
theorem asciiAdjust_spec (dal dah : Nat) (adj : Bool) (s : State) :
    let t := asciiAdjust dal dah adj s
    (getR8 t .al).toNat = (if adj then (getR8 s .al).toNat + dal else (getR8 s .al).toNat) % 16 ∧
      (getR8 t .ah).toNat = (if adj then (getR8 s .ah).toNat + dah else (getR8 s .ah).toNat) % 256 ∧
      t.flag .AF = adj ∧ t.flag .CF = adj := by
  intro t
  have hax (r : Reg8) : getR8 t r = getR8 (asciiAx dal dah adj s) r := rfl
  have hdigit (n : Nat) : (BitVec.ofNat 8 (n % 16)).toNat = n % 16 := toNat_ofNat_byte (by omega)
  have hflag {g : Flag} (hg : g ∉ [Flag.OF, .SF, .ZF, .PF]) :
      t.flag g = getFlag (setFlag (setFlag s.flags .AF adj) .CF adj) g := getFlag_drawFlags_ne _ _ hg
  refine ⟨?al, ?ah, ?af, ?cf⟩
  case al =>
    rw [hax, asciiAx]
    cases adj <;> exact (congrArg BitVec.toNat (getR8_setAx_al _ _ _)).trans (hdigit _)
  case ah =>
    rw [hax, asciiAx]
    cases adj with
    | false => exact congrArg BitVec.toNat (getR8_setAx_ah _ _ _)
    | true => exact (congrArg BitVec.toNat (getR8_setAx_ah _ _ _)).trans (Nat.mod_mod _ _)
  case af => rw [hflag (by decide), getFlag_setFlag_ne _ _ (by decide), getFlag_setFlag_same]
  case cf => rw [hflag (by decide), getFlag_setFlag_same]

/-! ### AAM and AAD -/

/-- What AAM or AAD leaves of AL, AH and the flags its rule gives (46_string_shift_muldiv_misc.md R424, R425). -/
theorem splitAx_spec {al ah : Nat} (s : State) (hal : al < 256) (hah : ah < 256) :
    (getR8 (splitAx al ah s) .al).toNat = al ∧ (getR8 (splitAx al ah s) .ah).toNat = ah ∧
      pszHolds (splitAx al ah s).flags .byte al :=
  ⟨(congrArg BitVec.toNat (getR8_setAx_al s al ah)).trans (toNat_ofNat_byte hal),
    (congrArg BitVec.toNat (getR8_setAx_ah s al ah)).trans (toNat_ofNat_byte hah),
    pszHolds_drawFlags (pszHolds_psz_byte _ hal) (by decide) (by decide) (by decide)⟩

/-- AAM with a base that is not 0 (46_string_shift_muldiv_misc.md R424). -/
theorem execAam_of_ne_zero {base : Byte} (h : base.toNat ≠ 0) (s : State) :
    execAam base s = .next (splitAx ((getR8 s .al).toNat % base.toNat) ((getR8 s .al).toNat / base.toNat) s) :=
  if_neg fun h0 => h (congrArg BitVec.toNat h0)

/-! ### The obligation -/

/-- Settles O57: each adjustment by its rule, and DAA's packed sum from its rule and the two decimal carries. -/
theorem decimalAdjusts : Obligations.DecimalAdjusts := by
  refine ⟨fun s => ?packed, fun s al low high hal hlow hhigh => ⟨exec_daa hal hlow hhigh, exec_das hal hlow hhigh⟩,
    fun s al ah low hal hah hlow => ?ascii, fun s base => ⟨fun hbase => ?aam, ?aad⟩⟩
  case packed =>
    obtain ⟨t, ht, htal, -, htcf, hpsz⟩ := exec_daa (s := s) rfl rfl rfl
    refine ⟨t, ht, fun a b ha hb hal hcf haf => ?_⟩
    change _ = packedSum a b % 256 at hal
    change _ = decide (256 ≤ packedSum a b) at hcf
    rw [hcf, packedSum_high ha hb hal] at htcf htal
    rw [haf, packedSum_low hal, adjustedAl_packedSum ha hb hal] at htal
    exact ⟨htal, htcf, hpsz⟩
  case ascii =>
    subst hal hah hlow
    exact ⟨⟨_, rfl, asciiAdjust_spec 6 1 _ s⟩, ⟨_, rfl, asciiAdjust_spec 250 255 _ s⟩⟩
  case aam =>
    have hal := (getR8 s .al).isLt
    obtain ⟨htal, htah, hpsz⟩ := splitAx_spec (al := (getR8 s .al).toNat % base.toNat)
      (ah := (getR8 s .al).toNat / base.toNat) s ((Nat.mod_le _ _).trans_lt hal) ((Nat.div_le_self _ _).trans_lt hal)
    refine ⟨_, execAam_of_ne_zero hbase s, ?_⟩
    rw [htal, htah]
    exact ⟨Nat.div_add_mod _ _, Nat.mod_lt _ (Nat.pos_of_ne_zero hbase), hpsz⟩
  case aad =>
    obtain ⟨htal, htah, hpsz⟩ := splitAx_spec (ah := 0) s (Nat.mod_lt _ (by decide)) (by decide)
    exact ⟨_, rfl, htal, htah, htal.symm ▸ hpsz⟩

end Sys2Proof.Machine
end

section
/-! SUPPORT. The opcode map both ways: the bytes of a well-formed instruction decode to it, and what decodes has the
bytes it was decoded from (30_encoding.md sections 2 to 6). -/

namespace Sys2Proof

/-! ### Parts that were taken are the bytes they were taken from -/

theorem takeByte_ok {bs rest : List Byte} {b : Byte} (h : takeByte bs = .ok (b, rest)) : b :: rest = bs := by
  cases bs with
  | nil => cases h
  | cons c bs => cases h; rfl

theorem takeImm_ok {w : Width} {bs rest : List Byte} {i : Imm} (h : takeImm w bs = .ok (i, rest)) :
    i.width = w ∧ i.bytes ++ rest = bs := by
  cases w with
  | byte =>
    obtain ⟨v, hv, rfl⟩ := Parse.map_ok h
    exact ⟨rfl, takeByte_ok hv⟩
  | word =>
    obtain ⟨v, hv, rfl⟩ := Parse.map_ok h
    exact ⟨rfl, takeWord_ok hv⟩

theorem takeFar_ok {bs rest : List Byte} {p : Word × Word} (h : takeFar bs = .ok (p, rest)) :
    wordBytes p.1 ++ wordBytes p.2 ++ rest = bs := by
  unfold takeFar at h
  split at h
  · next off r hoff =>
    obtain ⟨seg, hseg, rfl⟩ := Parse.map_ok h
    rw [List.append_assoc, takeWord_ok hseg, takeWord_ok hoff]
  · cases h

/-- A template of an `rm` value other than that of the direct form can stand without a displacement (41_addressing.md
R184). -/
theorem wf_mem_none {n : BitVec 3} (h : n ≠ 6) : (RM.mem (.ofBits n) .none).wf = true := by
  revert n; decide

theorem wf_mem_of_disp (b : EaBase) {d : Disp} (h : d ≠ .none) : (RM.mem b d).wf = true := by
  cases d with
  | none => exact absurd rfl h
  | d8 v | d16 v => cases b <;> rfl

/-- An r/m operand that was taken is well formed and has the displacement bytes it was taken from (30_encoding.md R112,
R115). -/
theorem takeRM_ok {mod : BitVec 2} {n : BitVec 3} {bs rest : List Byte} {rm : RM}
    (h : takeRM mod n bs = .ok (rm, rest)) : rm.wf = true ∧ rm.dispBytes ++ rest = bs := by
  unfold takeRM at h
  split at h
  · split at h
    · obtain ⟨v, hv, rfl⟩ := Parse.map_ok h
      exact ⟨rfl, takeWord_ok hv⟩
    · next hn => cases h; exact ⟨wf_mem_none hn, rfl⟩
  · obtain ⟨v, hv, rfl⟩ := Parse.map_ok h
    exact ⟨wf_mem_of_disp _ (by simp), takeByte_ok hv⟩
  · obtain ⟨v, hv, rfl⟩ := Parse.map_ok h
    exact ⟨wf_mem_of_disp _ (by simp), takeWord_ok hv⟩
  · cases h; exact ⟨rfl, rfl⟩

/-- A Mod-Reg-R/M byte that was taken has a well-formed operand, and the bytes it was taken from (30_encoding.md R111). -/
theorem takeModRM_ok {bs rest : List Byte} {m : ModRM} (h : takeModRM bs = .ok (m, rest)) :
    m.rm.wf = true ∧ encodeModRM m ++ rest = bs := by
  cases bs with
  | nil => cases h
  | cons b bs =>
    obtain ⟨hmod, hreg, hrm⟩ := takeModRM_fields h
    obtain ⟨rm, htake, rfl⟩ := Parse.map_ok h
    obtain ⟨hwf, hbytes⟩ := takeRM_ok htake
    refine ⟨hwf, ?_⟩
    rw [encodeModRM, hmod, hreg, hrm, modrmByte_fields, List.cons_append, hbytes]

/-! ### The opcode byte of a handler -/

/-- The opcode byte of a direct handler, made again of the fields of it that the handler reads (30_encoding.md R113,
R117, R120). -/
def directOpcode (h : Handler) (op : Byte) : Byte :=
  match h with
  | .aluRmReg => aluOpcode (opAlu op) (opDir op) (opWidth op)
  | .aluAccImm => aluAccOpcode (opAlu op) (opWidth op)
  | .pushSeg => 0#3 ++ (opSeg op).bits ++ 0b110#3
  | .popSeg => 0#3 ++ (opSeg op).bits ++ 0b111#3
  | .segOverride => 1#3 ++ (opSeg op).bits ++ 0b110#3
  | .daa => 0x27 | .das => 0x2F | .aaa => 0x37 | .aas => 0x3F
  | .incReg => opcodeR 0b01000#5 (opReg op)
  | .decReg => opcodeR 0b01001#5 (opReg op)
  | .pushReg => opcodeR 0b01010#5 (opReg op)
  | .popReg => opcodeR 0b01011#5 (opReg op)
  | .jcc => 0x7#4 ++ op.extractLsb' 0 4
  | .testRmReg => opcodeW 0b1000010#7 (opWidth op)
  | .xchgRmReg => opcodeW 0b1000011#7 (opWidth op)
  | .movRmReg => 0b100010#6 ++ (opDir op).bit ++ (opWidth op).bit
  | .movRmSeg => 0x8C | .lea => 0x8D | .movSegRm => 0x8E
  | .xchgAcc => opcodeR 0b10010#5 (opReg op)
  | .cbw => 0x98 | .cwd => 0x99 | .callFar => 0x9A | .wait => 0x9B
  | .pushf => 0x9C | .popf => 0x9D | .sahf => 0x9E | .lahf => 0x9F
  | .movMoffs => 0b101000#6 ++ op.extractLsb' 1 1 ++ (opWidth op).bit
  | .movs => opcodeW 0b1010010#7 (opWidth op)
  | .cmps => opcodeW 0b1010011#7 (opWidth op)
  | .testAccImm => opcodeW 0b1010100#7 (opWidth op)
  | .stos => opcodeW 0b1010101#7 (opWidth op)
  | .lods => opcodeW 0b1010110#7 (opWidth op)
  | .scas => opcodeW 0b1010111#7 (opWidth op)
  | .movRegImm => 0b1011#4 ++ (Width.ofBool (op.getLsbD 3)).bit ++ (opReg op).bits
  | .retImm => 0xC2 | .ret => 0xC3 | .les => 0xC4 | .lds => 0xC5
  | .retfImm => 0xCA | .retf => 0xCB | .int3 => 0xCC | .int => 0xCD | .into => 0xCE | .iret => 0xCF
  | .aam => 0xD4 | .aad => 0xD5 | .xlat => 0xD7
  | .esc => 0b11011#5 ++ op.extractLsb' 0 3
  | .loopnz => 0xE0 | .loopz => 0xE1 | .loop => 0xE2 | .jcxz => 0xE3
  | .inImm => opcodeW 0b1110010#7 (opWidth op)
  | .outImm => opcodeW 0b1110011#7 (opWidth op)
  | .callNear => 0xE8 | .jmpNear => 0xE9 | .jmpFar => 0xEA | .jmpShort => 0xEB
  | .inDx => opcodeW 0b1110110#7 (opWidth op)
  | .outDx => opcodeW 0b1110111#7 (opWidth op)
  | .lock => 0xF0
  | .rep => opcodeW 0b1111001#7 (opWidth op)
  | .hlt => 0xF4 | .cmc => 0xF5
  | .clc => 0xF8 | .stc => 0xF9 | .cli => 0xFA | .sti => 0xFB | .cld => 0xFC | .std => 0xFD

/-- The opcode byte of a demux child, made again of the fields of it that the child reads (30_encoding.md R131 to
R137). -/
def childOpcode (c : Child) (op : Byte) : Byte :=
  match c with
  | .grp1 _ => 0b100000#6 ++ op.extractLsb' 0 2
  | .grp2 _ => 0b110100#6 ++ op.extractLsb' 1 1 ++ (opWidth op).bit
  | .popRm => 0x8F
  | .movRmImm => opcodeW 0b1100011#7 (opWidth op)
  | .testRmImm | .notRm | .negRm | .mul | .imul | .div | .idiv => opcodeW 0b1111011#7 (opWidth op)
  | .incRm | .decRm => opcodeW 0b1111111#7 (opWidth op)
  | .callRm | .callFarMem | .jmpRm | .jmpFarMem | .pushRm => 0xFF

/-- The `reg` value the opcode map binds a demux child at (30_encoding.md R132 to R137). -/
def childReg : Child → BitVec 3
  | .grp1 k => k.bits
  | .grp2 k => k.bits
  | .popRm | .movRmImm | .testRmImm | .incRm => 0
  | .decRm => 1
  | .notRm | .callRm => 2
  | .negRm | .callFarMem => 3
  | .mul | .jmpRm => 4
  | .imul | .jmpFarMem => 5
  | .div | .pushRm => 6
  | .idiv => 7

/-- What the opcode map's slot of a byte says of the byte: a handler's fields make up the byte, a child stands at its
`reg` value, and there is no POP CS (30_encoding.md R119, R138). -/
def slotFits (op : Byte) : Slot Handler Child → Bool
  | .empty => true
  | .direct h => directOpcode h op == op && (h != .popSeg || opSeg op != .cs)
  | .demux cs => (List.range 8).all fun j =>
      match cs.getD j none with
      | none => true
      | some c => childOpcode c op == op && childReg c == BitVec.ofNat 3 j

theorem slotFits_zipIdx : defaultRegistry.zipIdx.all (fun p => slotFits (BitVec.ofNat 8 p.2) p.1) = true := by
  decide +kernel

theorem slotFits_registry (op : Byte) : slotFits op (registry op) = true := by
  rw [registry, Registry.slot, List.getD_eq_getElem?_getD]
  cases hs : defaultRegistry[op.toNat]? with
  | none => rfl
  | some s =>
    have hfit := List.all_eq_true.1 slotFits_zipIdx (s, op.toNat) (List.mk_mem_zipIdx_iff_getElem?.2 hs)
    rwa [BitVec.ofNat_toNat, BitVec.setWidth_eq] at hfit

theorem registry_direct {op : Byte} {h : Handler} (hs : registry op = .direct h) :
    directOpcode h op = op ∧ (h = .popSeg → opSeg op ≠ .cs) := by
  have hfits := slotFits_registry op
  rw [hs, slotFits, Bool.and_eq_true, beq_iff_eq, Bool.or_eq_true, bne_iff_ne, bne_iff_ne] at hfits
  exact ⟨hfits.1, fun hh => hfits.2.resolve_left (not_not_intro hh)⟩

theorem registry_demux {op : Byte} {cs : List (Option Child)} {r : Reg16} {c : Child} (hs : registry op = .demux cs)
    (hc : cs.getD r.bits.toNat none = some c) : childOpcode c op = op ∧ childReg c = r.bits := by
  have hfits := slotFits_registry op
  rw [hs, slotFits, List.all_eq_true] at hfits
  have hr := hfits r.bits.toNat (List.mem_range.2 r.bits.isLt)
  rw [hc, Bool.and_eq_true, beq_iff_eq, beq_iff_eq, BitVec.ofNat_toNat, BitVec.setWidth_eq] at hr
  exact hr

/-! ### The encodings of the families -/

theorem encode_aluRmRegInstr (k : AluOp) (d : Dir) (w : Width) (m : ModRM) :
    encode (aluRmRegInstr k d w m) = aluOpcode k d w :: encodeModRM m := by cases k <;> rfl

theorem encode_aluAccImmInstr (k : AluOp) (i : Imm) :
    encode (aluAccImmInstr k i) = aluAccOpcode k i.width :: i.bytes := by cases k <;> rfl

theorem encode_aluRmImmInstr (k : AluOp) (m : ModRM) (i : GrpImm) :
    encode (aluRmImmInstr k m i) = encodeAluRmImm m i := by cases k <;> rfl

theorem encode_shiftInstr (k : ShiftOp) (c : ShiftCount) (w : Width) (m : ModRM) :
    encode (shiftInstr k c w m) = encodeShift c w m := by cases k <;> rfl

theorem encode_jccInstr (c : Cond) (v : Byte) : encode (jccInstr c v) = [0x7#4 ++ c.bits, v] := by cases c <;> rfl

theorem encode_segInstr (r : SegReg) : encode (segInstr r) = [1#3 ++ r.bits ++ 0b110#3] := by cases r <;> rfl

theorem encode_xchgAccInstr (r : Reg16) : encode (xchgAccInstr r) = [opcodeR 0b10010#5 r] := by cases r <;> rfl

theorem encode_byWidth (op : Byte) {b w : Instr} {high : BitVec 7} (hb : encode b = [opcodeW high .byte])
    (hw : encode w = [opcodeW high .word]) : encode (byWidth op b w) = [opcodeW high (opWidth op)] := by
  unfold byWidth
  cases opWidth op
  · exact hb
  · exact hw

theorem encode_movMoffs (op : Byte) (w : Width) (off : Word) :
    encode (.movMoffs (.ofBool !(op.getLsbD 1)) w off) =
      (0b101000#6 ++ op.extractLsb' 1 1 ++ w.bit) :: wordBytes off := by
  refine congrArg (· :: wordBytes off) ?_
  revert op; cases w <;> decide

/-- What a direct handler decodes has the handler's opcode byte and the bytes it took (30_encoding.md R113, R114). -/
theorem encode_of_decodeDirect {h : Handler} {op : Byte} {bs rest : List Byte} {i : Instr}
    (hd : decodeDirect h op bs = .ok (i, rest)) : encode i ++ rest = directOpcode h op :: bs := by
  cases h <;> dsimp only [decodeDirect] at hd
  case aluRmReg =>
    obtain ⟨m, hm, rfl⟩ := Parse.map_ok hd
    rw [encode_aluRmRegInstr, List.cons_append, (takeModRM_ok hm).2]
    rfl
  case testRmReg | xchgRmReg | movRmReg | movRmSeg | lea | movSegRm | les | lds | esc =>
    obtain ⟨m, hm, rfl⟩ := Parse.map_ok hd
    exact congrArg (List.cons _) (takeModRM_ok hm).2
  case aluAccImm =>
    obtain ⟨v, hv, rfl⟩ := Parse.map_ok hd
    obtain ⟨hw, hbytes⟩ := takeImm_ok hv
    rw [encode_aluAccImmInstr, List.cons_append, hbytes, hw]
    rfl
  case testAccImm =>
    obtain ⟨v, hv, rfl⟩ := Parse.map_ok hd
    obtain ⟨hw, hbytes⟩ := takeImm_ok hv
    refine (congrArg (List.cons _) hbytes).trans ?_
    rw [hw]
    rfl
  case movRegImm =>
    obtain ⟨v, hv, rfl⟩ := Parse.map_ok hd
    obtain ⟨hw, hbytes⟩ := takeImm_ok hv
    refine (congrArg (List.cons _) hbytes).trans ?_
    rw [hw]
    rfl
  case jcc =>
    obtain ⟨v, hv, rfl⟩ := Parse.map_ok hd
    rw [encode_jccInstr, Cond.bits_ofBits]
    exact congrArg (List.cons _) (takeByte_ok hv)
  case int | aam | aad | loopnz | loopz | loop | jcxz | inImm | outImm | jmpShort =>
    obtain ⟨v, hv, rfl⟩ := Parse.map_ok hd
    exact congrArg (List.cons _) (takeByte_ok hv)
  case movMoffs =>
    obtain ⟨v, hv, rfl⟩ := Parse.map_ok hd
    rw [encode_movMoffs]
    exact congrArg (List.cons _) (takeWord_ok hv)
  case retImm | retfImm | callNear | jmpNear =>
    obtain ⟨v, hv, rfl⟩ := Parse.map_ok hd
    exact congrArg (List.cons _) (takeWord_ok hv)
  case callFar | jmpFar =>
    obtain ⟨p, hp, rfl⟩ := Parse.map_ok hd
    exact congrArg (List.cons _) (takeFar_ok hp)
  case segOverride =>
    cases hd
    rw [encode_segInstr]
    rfl
  case xchgAcc =>
    cases hd
    rw [encode_xchgAccInstr]
    rfl
  case movs | cmps | stos | lods | scas | rep =>
    cases hd
    exact congrArg (· ++ bs) (encode_byWidth op rfl rfl)
  all_goals cases hd; rfl

theorem grpOpcode (op : Byte) : (0b100000#6 ++ op.extractLsb' 0 2 : Byte) = BitVec.ofNat 8 (0x80 + op.toNat % 4) := by
  revert op; decide

/-- A Grp1 instruction's immediate has the form that bits 1:0 of its opcode byte name (30_encoding.md R132). -/
theorem takeGrpImm_ok {op : Byte} {bs rest : List Byte} {i : GrpImm} (h : takeGrpImm op bs = .ok (i, rest)) (m : ModRM) :
    encodeAluRmImm m i ++ rest = (0b100000#6 ++ op.extractLsb' 0 2) :: (encodeModRM m ++ bs) := by
  have hmod : op.toNat % 4 < 4 := Nat.mod_lt _ (by decide)
  rw [grpOpcode]
  unfold takeGrpImm at h
  split at h
  case h_2 hop =>
    obtain ⟨v, hv, rfl⟩ := Parse.map_ok h
    rw [hop, encodeAluRmImm, ← takeWord_ok hv, List.append_assoc, List.cons_append]
  case h_1 hop | h_3 hop =>
    obtain ⟨v, hv, rfl⟩ := Parse.map_ok h
    rw [hop, encodeAluRmImm, ← takeByte_ok hv, List.append_assoc, List.cons_append]
    rfl
  case h_4 _ h0 h1 h2 =>
    have hlast (n : Nat) (hn : n < 4) (hn0 : n ≠ 0) (hn1 : n ≠ 1) (hn2 : n ≠ 2) : n = 3 := by omega
    have hop : op.toNat % 4 = 3 := hlast _ hmod h0 h1 h2
    obtain ⟨v, hv, rfl⟩ := Parse.map_ok h
    rw [hop, encodeAluRmImm, ← takeByte_ok hv, List.append_assoc, List.cons_append]
    rfl

theorem encodeShift_opCount (op : Byte) (w : Width) (m : ModRM) :
    encodeShift (opCount op) w m = (0b110100#6 ++ op.extractLsb' 1 1 ++ w.bit) :: encodeModRM m := by
  refine congrArg (· :: encodeModRM m) ?_
  revert op; cases w <;> decide

/-- What a demux child decodes has the child's opcode byte, its Mod-Reg-R/M byte and the bytes it took (30_encoding.md
R131 to R137). -/
theorem encode_of_decodeChild {c : Child} {op : Byte} {m : ModRM} {bs rest : List Byte} {i : Instr}
    (hd : decodeChild c op m bs = .ok (i, rest)) :
    encode i ++ rest = childOpcode c op :: (encodeModRM m ++ bs) := by
  cases c
  case grp1 k =>
    obtain ⟨v, hv, rfl⟩ := Parse.map_ok hd
    rw [encode_aluRmImmInstr, takeGrpImm_ok hv]
    rfl
  case grp2 k =>
    cases hd
    rw [encode_shiftInstr, encodeShift_opCount]
    rfl
  case movRmImm | testRmImm =>
    obtain ⟨v, hv, rfl⟩ := Parse.map_ok hd
    obtain ⟨hw, hbytes⟩ := takeImm_ok hv
    rw [← hbytes, childOpcode, ← hw, ← List.append_assoc]
    rfl
  all_goals cases hd; rfl

/-! ### What decodes is well formed -/

theorem ownCheck_aluRmImmInstr (k : AluOp) (m : ModRM) (i : GrpImm) :
    (aluRmImmInstr k m i).ownCheck = (m.reg.bits == k.bits) := by cases k <;> rfl

theorem ownCheck_shiftInstr (k : ShiftOp) (c : ShiftCount) (w : Width) (m : ModRM) :
    (shiftInstr k c w m).ownCheck = (m.reg.bits == k.bits) := by cases k <;> rfl

theorem ownCheck_byWidth (op : Byte) {b w : Instr} (hb : b.ownCheck = true) (hw : w.ownCheck = true) :
    (byWidth op b w).ownCheck = true := by
  unfold byWidth
  cases opWidth op
  · exact hb
  · exact hw

theorem ownCheck_of_decodeDirect {h : Handler} {op : Byte} {bs rest : List Byte} {i : Instr}
    (hd : decodeDirect h op bs = .ok (i, rest)) (hcs : h = .popSeg → opSeg op ≠ .cs) : i.ownCheck = true := by
  cases h <;> dsimp only [decodeDirect] at hd
  case aluRmReg =>
    obtain ⟨m, -, rfl⟩ := Parse.map_ok hd
    cases opAlu op <;> rfl
  case aluAccImm =>
    obtain ⟨v, -, rfl⟩ := Parse.map_ok hd
    cases opAlu op <;> rfl
  case jcc =>
    obtain ⟨v, -, rfl⟩ := Parse.map_ok hd
    cases Cond.ofBits (op.extractLsb' 0 4) <;> rfl
  case popSeg => cases hd; exact bne_iff_ne.2 (hcs rfl)
  case segOverride => cases hd; cases opSeg op <;> rfl
  case xchgAcc => cases hd; cases opReg op <;> rfl
  case movs | cmps | stos | lods | scas | rep => cases hd; exact ownCheck_byWidth op rfl rfl
  case testRmReg | xchgRmReg | movRmReg | movRmSeg | lea | movSegRm | les | lds | esc | testAccImm | movRegImm | int |
      aam | aad | loopnz | loopz | loop | jcxz | inImm | outImm | jmpShort | movMoffs | retImm | retfImm | callNear |
      jmpNear | callFar | jmpFar =>
    obtain ⟨x, -, rfl⟩ := Parse.map_ok hd
    rfl
  all_goals cases hd; rfl

theorem ownCheck_of_decodeChild {c : Child} {op : Byte} {m : ModRM} {bs rest : List Byte} {i : Instr}
    (hd : decodeChild c op m bs = .ok (i, rest)) : i.ownCheck = (m.reg.bits == childReg c) := by
  cases c
  case grp1 k =>
    obtain ⟨v, -, rfl⟩ := Parse.map_ok hd
    exact ownCheck_aluRmImmInstr k m v
  case grp2 k => cases hd; exact ownCheck_shiftInstr k _ _ m
  case movRmImm | testRmImm =>
    obtain ⟨v, -, rfl⟩ := Parse.map_ok hd
    rfl
  all_goals cases hd; rfl

theorem wf_iff {i : Instr} : i.wf = true ↔ (∀ m, i.modrm? = some m → m.rm.wf = true) ∧ i.ownCheck = true := by
  rw [Instr.wf, Bool.and_eq_true, Instr.rm?]
  cases i.modrm? <;> simp

theorem wf_of_modrm {i : Instr} {m : ModRM} (hm : i.modrm? = some m) (hwf : m.rm.wf = true) (hown : i.ownCheck = true) :
    i.wf = true :=
  wf_iff.2 ⟨fun m' h => by rw [hm] at h; cases h; exact hwf, hown⟩

/-- Settles O2, by the slot of the opcode byte: each handler's fields make up the byte, and each part that was taken is
the bytes it was taken from. -/
theorem decodedBytesEncode : Obligations.DecodedBytesEncode := by
  intro bs rest i hd
  cases bs with
  | nil => cases hd
  | cons op bs =>
    rw [decode_cons] at hd
    unfold decodeSlot at hd
    split at hd
    · next hs => cases hd; exact ⟨wf_iff.2 ⟨fun _ hm => (by cases hm), beq_iff_eq.2 hs⟩, rfl⟩
    · next h hs =>
      obtain ⟨hop, hcs⟩ := registry_direct hs
      refine ⟨wf_iff.2 ⟨fun m hm => (takeModRM_ok (decodeDirect_modrm hd hm)).1, ownCheck_of_decodeDirect hd hcs⟩, ?_⟩
      rw [encode_of_decodeDirect hd, hop]
    · next cs hs =>
      split at hd
      · cases hd
      · next m r hm =>
        obtain ⟨hwf, hbytes⟩ := takeModRM_ok hm
        split at hd
        · next hc =>
          cases hd
          refine ⟨wf_of_modrm rfl hwf ?_, congrArg (List.cons op) hbytes⟩
          show isEmptyChild op m.reg = true
          rw [isEmptyChild, hs]
          exact Option.isNone_iff_eq_none.2 hc
        · next c hc =>
          obtain ⟨hop, hreg⟩ := registry_demux hs hc
          refine ⟨wf_of_modrm (decodeChild_modrm hd) hwf ?_, ?_⟩
          · rw [ownCheck_of_decodeChild hd, hreg, beq_self_eq_true]
          · rw [encode_of_decodeChild hd, hop, hbytes]

/-! ### The slot of an opcode byte by its nibbles (30_encoding.md R119) -/

theorem length_opcodeRow : ∀ n < 16, (opcodeRow n).length = 16 := by decide

theorem length_flatMap_range {α : Type} {f : Nat → List α} {k : Nat} (n : Nat) (hf : ∀ i < n, (f i).length = k) :
    ((List.range n).flatMap f).length = n * k := by
  rw [List.length_flatMap, List.map_congr_left fun i hi => hf i (List.mem_range.1 hi), List.map_const',
    List.sum_replicate, List.length_range, smul_eq_mul]

/-- In rows of equal length the position gives the row and the place in the row. -/
theorem getElem?_flatMap_range {α : Type} {f : Nat → List α} {k : Nat} (n : Nat)
    (hf : ∀ i < n, (f i).length = k) (j : Nat) (hj : j < n * k) :
    ((List.range n).flatMap f)[j]? = (f (j / k))[j % k]? := by
  induction n with
  | zero => omega
  | succ n ih =>
    have hlen := length_flatMap_range n fun i hi => hf i (Nat.lt_succ_of_lt hi)
    rw [List.range_succ, List.flatMap_append]
    by_cases hlt : j < n * k
    · rw [List.getElem?_append_left (hlen ▸ hlt), ih (fun i hi => hf i (Nat.lt_succ_of_lt hi)) hlt]
    · have hdiv : j / k = n := Nat.div_eq_of_lt_le (Nat.le_of_not_lt hlt) hj
      have hmod : j % k = j - n * k := by rw [Nat.mod_eq_sub_div_mul, hdiv]
      rw [List.getElem?_append_right (hlen ▸ Nat.le_of_not_lt hlt), hlen, List.flatMap_singleton, hdiv, hmod]

/-- The high nibble of an opcode byte gives its row, the low nibble its place there. -/
theorem registry_of_row {op : Byte} {x : Slot Handler Child}
    (h : (opcodeRow (op.toNat / 16)).getD (op.toNat % 16) .empty = x) : registry op = x := by
  rw [registry, Registry.slot, defaultRegistry, List.getD_eq_getElem?_getD,
    getElem?_flatMap_range 16 length_opcodeRow _ op.isLt, ← List.getD_eq_getElem?_getD, h]

/-! ### The fields of an encoded opcode byte -/

theorem registry_aluOpcode (k : AluOp) (d : Dir) (w : Width) : registry (aluOpcode k d w) = .direct .aluRmReg := by
  cases k <;> cases d <;> cases w <;> exact registry_of_row rfl

theorem registry_aluAccOpcode (k : AluOp) (w : Width) : registry (aluAccOpcode k w) = .direct .aluAccImm := by
  cases k <;> cases w <;> exact registry_of_row rfl

theorem opFields_aluOpcode (k : AluOp) (d : Dir) (w : Width) :
    opAlu (aluOpcode k d w) = k ∧ opDir (aluOpcode k d w) = d ∧ opWidth (aluOpcode k d w) = w := by
  cases k <;> cases d <;> cases w <;> decide

theorem opFields_aluAccOpcode (k : AluOp) (w : Width) :
    opAlu (aluAccOpcode k w) = k ∧ opWidth (aluAccOpcode k w) = w := by
  cases k <;> cases w <;> decide

theorem opWidth_opcodeW (high : BitVec 7) (w : Width) : opWidth (opcodeW high w) = w := by
  revert high; cases w <;> decide

theorem registry_testAccOpcode (w : Width) : registry (opcodeW 0b1010100#7 w) = .direct .testAccImm := by
  cases w <;> exact registry_of_row rfl

theorem opFields_movRegOpcode (w : Width) (r : Reg16) :
    registry (0b1011#4 ++ w.bit ++ r.bits) = .direct .movRegImm ∧
      Width.ofBool ((0b1011#4 ++ w.bit ++ r.bits : Byte).getLsbD 3) = w ∧ opReg (0b1011#4 ++ w.bit ++ r.bits) = r := by
  cases w <;> cases r <;> exact ⟨registry_of_row rfl, rfl, rfl⟩

theorem registry_escOpcode (n : BitVec 3) : registry (0b11011#5 ++ n) = .direct .esc := by
  refine registry_of_row ?_
  revert n; decide

theorem escOpcode_number (n : BitVec 3) : (0b11011#5 ++ n : Byte).extractLsb' 0 3 = n := by
  revert n; decide

/-! ### Parts taken whole -/

theorem parse_modrm (f : ModRM → Instr) {m : ModRM} (hwf : m.rm.wf = true) (rest : List Byte) :
    (takeModRM (encodeModRM m ++ rest)).map f = .ok (f m, rest) := by
  rw [takeModRM_encodeModRM hwf]; rfl

theorem parse_imm (f : Imm → Instr) (i : Imm) (rest : List Byte) :
    (takeImm i.width (i.bytes ++ rest)).map f = .ok (f i, rest) := by
  rw [takeImm_bytes]; rfl

theorem parse_word (f : Word → Instr) (v : Word) (rest : List Byte) :
    (takeWord (wordBytes v ++ rest)).map f = .ok (f v, rest) := by
  rw [takeWord_wordBytes]; rfl

theorem parse_far (f : Word × Word → Instr) (off seg : Word) (rest : List Byte) :
    (takeFar (wordBytes off ++ (wordBytes seg ++ rest))).map f = .ok (f (off, seg), rest) := by
  simp only [takeFar, takeWord_wordBytes, Parse.map]

/-! ### Decoding an encoding -/

theorem decode_direct {op : Byte} {h : Handler} (hs : registry op = .direct h) (bs : List Byte) :
    decode (op :: bs) = decodeDirect h op bs := by
  rw [decode_cons, hs]; rfl

/-- A direct handler that takes nothing. -/
theorem decode_opcode {op : Byte} {h : Handler} {i : Instr} (hs : registry op = .direct h)
    (hd : ∀ bs, decodeDirect h op bs = .ok (i, bs)) (rest : List Byte) : decode (op :: rest) = .ok (i, rest) :=
  (decode_direct hs rest).trans (hd rest)

/-- A direct handler that takes one byte. -/
theorem decode_takeByte {op : Byte} {h : Handler} {f : Byte → Instr} (hs : registry op = .direct h)
    (hd : ∀ bs, decodeDirect h op bs = (takeByte bs).map f) (v : Byte) (rest : List Byte) :
    decode (op :: v :: rest) = .ok (f v, rest) := (decode_direct hs _).trans (hd _)

/-- A direct handler that takes a Mod-Reg-R/M byte with its displacement. -/
theorem decode_modrm {op : Byte} {h : Handler} {f : ModRM → Instr} {m : ModRM} (hs : registry op = .direct h)
    (hd : ∀ bs, decodeDirect h op bs = (takeModRM bs).map f) (hwf : m.rm.wf = true) (rest : List Byte) :
    decode (op :: (encodeModRM m ++ rest)) = .ok (f m, rest) :=
  (decode_direct hs _).trans ((hd _).trans (parse_modrm f hwf rest))

/-- A direct handler that takes a word. -/
theorem decode_takeWord {op : Byte} {h : Handler} {f : Word → Instr} (hs : registry op = .direct h)
    (hd : ∀ bs, decodeDirect h op bs = (takeWord bs).map f) (v : Word) (rest : List Byte) :
    decode (op :: (wordBytes v ++ rest)) = .ok (f v, rest) :=
  (decode_direct hs _).trans ((hd _).trans (parse_word f v rest))

/-- A direct handler that takes a far pointer. -/
theorem decode_takeFar {op : Byte} {h : Handler} {f : Word × Word → Instr} (hs : registry op = .direct h)
    (hd : ∀ bs, decodeDirect h op bs = (takeFar bs).map f) (off seg : Word) (rest : List Byte) :
    decode (op :: (wordBytes off ++ (wordBytes seg ++ rest))) = .ok (f (off, seg), rest) :=
  (decode_direct hs _).trans ((hd _).trans (parse_far f off seg rest))

theorem registry_jccOpcode (c : Cond) : registry (0x7#4 ++ c.bits) = .direct .jcc := by
  cases c <;> exact registry_of_row rfl

theorem decode_jccInstr (c : Cond) (v : Byte) (rest : List Byte) :
    decode (encode (jccInstr c v) ++ rest) = .ok (jccInstr c v, rest) := by
  have hc : Cond.ofBits ((0x7#4 ++ c.bits : Byte).extractLsb' 0 4) = c := by cases c <;> rfl
  rw [encode_jccInstr]
  exact decode_takeByte (registry_jccOpcode c) (fun bs => by rw [decodeDirect, hc]) v rest

/-- In a demux slot the `reg` field selects the child (40_decode_dispatch.md R153). -/
theorem decode_child (c : Child) {op : Byte} {cs : List (Option Child)} {m : ModRM} (hs : registry op = .demux cs)
    (hc : cs.getD (childReg c).toNat none = some c) (hreg : m.reg.bits = childReg c) (hwf : m.rm.wf = true)
    (bs : List Byte) : decode (op :: (encodeModRM m ++ bs)) = decodeChild c op m bs := by
  rw [decode_cons, hs]
  simp only [decodeSlot, takeModRM_encodeModRM hwf, hreg, hc]

theorem decode_aluRmRegInstr (k : AluOp) (d : Dir) (w : Width) {m : ModRM} (hwf : m.rm.wf = true) (rest : List Byte) :
    decode (encodeAluRmReg k d w m ++ rest) = .ok (aluRmRegInstr k d w m, rest) := by
  obtain ⟨hk, hd, hw⟩ := opFields_aluOpcode k d w
  rw [encodeAluRmReg, List.cons_append, decode_direct (registry_aluOpcode k d w), decodeDirect, hk, hd, hw,
    parse_modrm _ hwf]

theorem decode_aluAccImmInstr (k : AluOp) (i : Imm) (rest : List Byte) :
    decode (encodeAluAccImm k i ++ rest) = .ok (aluAccImmInstr k i, rest) := by
  obtain ⟨hk, hw⟩ := opFields_aluAccOpcode k i.width
  rw [encodeAluAccImm, List.cons_append, decode_direct (registry_aluAccOpcode k i.width), decodeDirect, hk, hw, parse_imm]

theorem decode_aluRmImmInstr (k : AluOp) {m : ModRM} (i : GrpImm) (hreg : m.reg.bits = k.bits) (hwf : m.rm.wf = true)
    (rest : List Byte) : decode (encodeAluRmImm m i ++ rest) = .ok (aluRmImmInstr k m i, rest) := by
  have hc : grp1Children.getD k.bits.toNat none = some (.grp1 k) := by cases k <;> rfl
  have hslot (op : Byte) (hs : registry op = .demux grp1Children) (bs : List Byte) :
      decode (op :: encodeModRM m ++ bs ++ rest) = decodeChild (.grp1 k) op m (bs ++ rest) :=
    (congrArg decode (List.append_assoc _ _ _)).trans (decode_child (.grp1 k) hs hc hreg hwf _)
  cases i with
  | ib80 v | ib82 v | sx83 v => exact hslot _ (registry_of_row rfl) [v]
  | iw81 v =>
    rw [encodeAluRmImm, hslot _ (registry_of_row rfl), decodeChild]
    show ((takeWord (wordBytes v ++ rest)).map _).map _ = _
    rw [takeWord_wordBytes]; rfl

theorem decode_shiftInstr (k : ShiftOp) (c : ShiftCount) (w : Width) {m : ModRM} (hreg : m.reg.bits = k.bits)
    (hwf : m.rm.wf = true) (rest : List Byte) :
    decode (encodeShift c w m ++ rest) = .ok (shiftInstr k c w m, rest) := by
  have hc : grp2Children.getD k.bits.toNat none = some (.grp2 k) := by cases k <;> rfl
  cases c <;> cases w <;> exact decode_child (.grp2 k) (registry_of_row rfl) hc hreg hwf rest

/-- A demux child that takes an immediate `Iv` (30_encoding.md R133, R135). -/
theorem decode_child_imm (c : Child) (f : ModRM → Imm → Instr) {high : BitVec 7} {cs : List (Option Child)} {m : ModRM}
    {i : Imm} (hs : registry (opcodeW high i.width) = .demux cs) (hc : cs.getD (childReg c).toNat none = some c)
    (hd : ∀ op bs, decodeChild c op m bs = (takeImm (opWidth op) bs).map (f m)) (hreg : m.reg.bits = childReg c)
    (hwf : m.rm.wf = true) (rest : List Byte) :
    decode (opcodeW high i.width :: encodeModRM m ++ i.bytes ++ rest) = .ok (f m i, rest) := by
  rw [List.append_assoc, List.cons_append, decode_child c hs hc hreg hwf, hd, opWidth_opcodeW, parse_imm]

theorem decode_emptyChild {op : Byte} {m : ModRM} (h : isEmptyChild op m.reg = true) (hwf : m.rm.wf = true)
    (rest : List Byte) : decode (op :: (encodeModRM m ++ rest)) = .ok (.emptyChild op m, rest) := by
  unfold isEmptyChild at h
  split at h
  · next cs hs =>
    rw [decode_cons, hs]
    simp only [decodeSlot, takeModRM_encodeModRM hwf, Option.isNone_iff_eq_none.1 h]
  · cases h
  · cases h

/-- Settles O1, by what follows the opcode byte of each instruction: its slot is found, the fields of the byte are read
back, and each part is taken whole. -/
theorem encodedInstructionDecodes : Obligations.EncodedInstructionDecodes := by
  intro i rest hi
  obtain ⟨hrm, hown⟩ := wf_iff.1 hi
  cases i
  case addRmReg d w m => exact decode_aluRmRegInstr .add d w (hrm m rfl) rest
  case orRmReg d w m => exact decode_aluRmRegInstr .or d w (hrm m rfl) rest
  case adcRmReg d w m => exact decode_aluRmRegInstr .adc d w (hrm m rfl) rest
  case sbbRmReg d w m => exact decode_aluRmRegInstr .sbb d w (hrm m rfl) rest
  case andRmReg d w m => exact decode_aluRmRegInstr .and d w (hrm m rfl) rest
  case subRmReg d w m => exact decode_aluRmRegInstr .sub d w (hrm m rfl) rest
  case xorRmReg d w m => exact decode_aluRmRegInstr .xor d w (hrm m rfl) rest
  case cmpRmReg d w m => exact decode_aluRmRegInstr .cmp d w (hrm m rfl) rest
  case addAccImm i => exact decode_aluAccImmInstr .add i rest
  case orAccImm i => exact decode_aluAccImmInstr .or i rest
  case adcAccImm i => exact decode_aluAccImmInstr .adc i rest
  case sbbAccImm i => exact decode_aluAccImmInstr .sbb i rest
  case andAccImm i => exact decode_aluAccImmInstr .and i rest
  case subAccImm i => exact decode_aluAccImmInstr .sub i rest
  case xorAccImm i => exact decode_aluAccImmInstr .xor i rest
  case cmpAccImm i => exact decode_aluAccImmInstr .cmp i rest
  case addRmImm m i => exact decode_aluRmImmInstr .add i (beq_iff_eq.1 hown) (hrm m rfl) rest
  case orRmImm m i => exact decode_aluRmImmInstr .or i (beq_iff_eq.1 hown) (hrm m rfl) rest
  case adcRmImm m i => exact decode_aluRmImmInstr .adc i (beq_iff_eq.1 hown) (hrm m rfl) rest
  case sbbRmImm m i => exact decode_aluRmImmInstr .sbb i (beq_iff_eq.1 hown) (hrm m rfl) rest
  case andRmImm m i => exact decode_aluRmImmInstr .and i (beq_iff_eq.1 hown) (hrm m rfl) rest
  case subRmImm m i => exact decode_aluRmImmInstr .sub i (beq_iff_eq.1 hown) (hrm m rfl) rest
  case xorRmImm m i => exact decode_aluRmImmInstr .xor i (beq_iff_eq.1 hown) (hrm m rfl) rest
  case cmpRmImm m i => exact decode_aluRmImmInstr .cmp i (beq_iff_eq.1 hown) (hrm m rfl) rest
  case rol c w m => exact decode_shiftInstr .rol c w (beq_iff_eq.1 hown) (hrm m rfl) rest
  case ror c w m => exact decode_shiftInstr .ror c w (beq_iff_eq.1 hown) (hrm m rfl) rest
  case rcl c w m => exact decode_shiftInstr .rcl c w (beq_iff_eq.1 hown) (hrm m rfl) rest
  case rcr c w m => exact decode_shiftInstr .rcr c w (beq_iff_eq.1 hown) (hrm m rfl) rest
  case shl c w m => exact decode_shiftInstr .shl c w (beq_iff_eq.1 hown) (hrm m rfl) rest
  case shr c w m => exact decode_shiftInstr .shr c w (beq_iff_eq.1 hown) (hrm m rfl) rest
  case sar c w m => exact decode_shiftInstr .sar c w (beq_iff_eq.1 hown) (hrm m rfl) rest
  case testRmReg w m | xchgRmReg w m => cases w <;> exact decode_modrm (registry_of_row rfl) (fun _ => rfl) (hrm m rfl) rest
  case movRmReg d w m => cases d <;> cases w <;> exact decode_modrm (registry_of_row rfl) (fun _ => rfl) (hrm m rfl) rest
  case movRmSeg m | movSegRm m | lea m | lds m | les m => exact decode_modrm (registry_of_row rfl) (fun _ => rfl) (hrm m rfl) rest
  case esc n m =>
    refine decode_modrm (registry_escOpcode n) (fun bs => ?_) (hrm m rfl) rest
    rw [decodeDirect, escOpcode_number]
  case testAccImm i =>
    refine (decode_direct (registry_testAccOpcode i.width) _).trans ?_
    rw [decodeDirect, opWidth_opcodeW]
    exact parse_imm _ i rest
  case movRegImm r i =>
    obtain ⟨hs, hw, hr⟩ := opFields_movRegOpcode i.width r
    refine (decode_direct hs _).trans ?_
    rw [decodeDirect, hw, hr]
    exact parse_imm _ i rest
  case movMoffs d w off => cases d <;> cases w <;> exact decode_takeWord (registry_of_row rfl) (fun _ => rfl) off rest
  case jmpNear v | callNear v | retImm v | retfImm v => exact decode_takeWord (registry_of_row rfl) (fun _ => rfl) v rest
  case jmpFar off seg => exact decode_takeFar (f := fun p => .jmpFar p.1 p.2) (registry_of_row rfl) (fun _ => rfl) off seg rest
  case callFar off seg => exact decode_takeFar (f := fun p => .callFar p.1 p.2) (registry_of_row rfl) (fun _ => rfl) off seg rest
  case testRmImm m i =>
    refine decode_child_imm .testRmImm .testRmImm (cs := grp3Children) ?_ rfl (fun _ _ => rfl) (beq_iff_eq.1 hown)
      (hrm m rfl) rest
    cases i.width <;> exact registry_of_row rfl
  case movRmImm m i =>
    refine decode_child_imm .movRmImm .movRmImm (cs := onlyChild .movRmImm) ?_ rfl (fun _ _ => rfl) (beq_iff_eq.1 hown)
      (hrm m rfl) rest
    cases i.width <;> exact registry_of_row rfl
  case incRm w m => cases w <;> exact decode_child .incRm (registry_of_row rfl) rfl (beq_iff_eq.1 hown) (hrm m rfl) rest
  case decRm w m => cases w <;> exact decode_child .decRm (registry_of_row rfl) rfl (beq_iff_eq.1 hown) (hrm m rfl) rest
  case notRm w m => cases w <;> exact decode_child .notRm (registry_of_row rfl) rfl (beq_iff_eq.1 hown) (hrm m rfl) rest
  case negRm w m => cases w <;> exact decode_child .negRm (registry_of_row rfl) rfl (beq_iff_eq.1 hown) (hrm m rfl) rest
  case mul w m => cases w <;> exact decode_child .mul (registry_of_row rfl) rfl (beq_iff_eq.1 hown) (hrm m rfl) rest
  case imul w m => cases w <;> exact decode_child .imul (registry_of_row rfl) rfl (beq_iff_eq.1 hown) (hrm m rfl) rest
  case div w m => cases w <;> exact decode_child .div (registry_of_row rfl) rfl (beq_iff_eq.1 hown) (hrm m rfl) rest
  case idiv w m => cases w <;> exact decode_child .idiv (registry_of_row rfl) rfl (beq_iff_eq.1 hown) (hrm m rfl) rest
  case pushRm m => exact decode_child .pushRm (registry_of_row rfl) rfl (beq_iff_eq.1 hown) (hrm m rfl) rest
  case popRm m => exact decode_child .popRm (registry_of_row rfl) rfl (beq_iff_eq.1 hown) (hrm m rfl) rest
  case jmpRm m => exact decode_child .jmpRm (registry_of_row rfl) rfl (beq_iff_eq.1 hown) (hrm m rfl) rest
  case jmpFarMem m => exact decode_child .jmpFarMem (registry_of_row rfl) rfl (beq_iff_eq.1 hown) (hrm m rfl) rest
  case callRm m => exact decode_child .callRm (registry_of_row rfl) rfl (beq_iff_eq.1 hown) (hrm m rfl) rest
  case callFarMem m => exact decode_child .callFarMem (registry_of_row rfl) rfl (beq_iff_eq.1 hown) (hrm m rfl) rest
  case incReg r | decReg r | pushReg r | popReg r | pushSeg r =>
    cases r <;> exact decode_opcode (registry_of_row rfl) (fun _ => rfl) rest
  case xchgAcc r =>
    cases r
    case ax => cases hown
    all_goals exact decode_opcode (registry_of_row rfl) (fun _ => rfl) rest
  case popSeg r =>
    cases r
    case cs => cases hown
    all_goals exact decode_opcode (registry_of_row rfl) (fun _ => rfl) rest
  case jmpShort v => exact decode_takeByte (h := .jmpShort) (registry_of_row rfl) (fun _ => rfl) v rest
  case loop v => exact decode_takeByte (h := .loop) (registry_of_row rfl) (fun _ => rfl) v rest
  case loopz v => exact decode_takeByte (h := .loopz) (registry_of_row rfl) (fun _ => rfl) v rest
  case loopnz v => exact decode_takeByte (h := .loopnz) (registry_of_row rfl) (fun _ => rfl) v rest
  case jcxz v => exact decode_takeByte (h := .jcxz) (registry_of_row rfl) (fun _ => rfl) v rest
  case int v => exact decode_takeByte (h := .int) (registry_of_row rfl) (fun _ => rfl) v rest
  case aam v => exact decode_takeByte (h := .aam) (registry_of_row rfl) (fun _ => rfl) v rest
  case aad v => exact decode_takeByte (h := .aad) (registry_of_row rfl) (fun _ => rfl) v rest
  case inImm w v => cases w <;> exact decode_takeByte (h := .inImm) (registry_of_row rfl) (fun _ => rfl) v rest
  case outImm w v => cases w <;> exact decode_takeByte (h := .outImm) (registry_of_row rfl) (fun _ => rfl) v rest
  case jo v => exact decode_jccInstr .o v rest
  case jno v => exact decode_jccInstr .no v rest
  case jb v => exact decode_jccInstr .b v rest
  case jnb v => exact decode_jccInstr .nb v rest
  case jz v => exact decode_jccInstr .z v rest
  case jnz v => exact decode_jccInstr .nz v rest
  case jbe v => exact decode_jccInstr .be v rest
  case ja v => exact decode_jccInstr .a v rest
  case js v => exact decode_jccInstr .s v rest
  case jns v => exact decode_jccInstr .ns v rest
  case jp v => exact decode_jccInstr .p v rest
  case jnp v => exact decode_jccInstr .np v rest
  case jl v => exact decode_jccInstr .l v rest
  case jnl v => exact decode_jccInstr .nl v rest
  case jle v => exact decode_jccInstr .le v rest
  case jnle v => exact decode_jccInstr .nle v rest
  case inDx w | outDx w => cases w <;> exact decode_opcode (registry_of_row rfl) (fun _ => rfl) rest
  case unmapped op =>
    have hs : registry op = .empty := beq_iff_eq.1 hown
    exact (decode_cons op rest).trans (by rw [hs]; rfl)
  case emptyChild op m => exact decode_emptyChild hown (hrm m rfl) rest
  all_goals exact decode_opcode (registry_of_row rfl) (fun _ => rfl) rest

/-! ### Six bytes hold an instruction -/

/-- A parser that completes on every list of at least `n` bytes. -/
def Completes {α : Type} (n : Nat) (f : List Byte → Parse α) : Prop := ∀ bs, n ≤ bs.length → ∃ p, f bs = .ok p

theorem Completes.ok {α : Type} (a : α) : Completes 0 (fun bs => .ok (a, bs)) := fun _ _ => ⟨_, rfl⟩

theorem Completes.mono {α : Type} {n m : Nat} {f : List Byte → Parse α} (h : Completes n f) (hm : n ≤ m) :
    Completes m f := fun bs hbs => h bs (hm.trans hbs)

theorem Completes.map {α β : Type} {n : Nat} {f : List Byte → Parse α} (g : α → β) (h : Completes n f) :
    Completes n (fun bs => (f bs).map g) := by
  intro bs hbs
  obtain ⟨p, hp⟩ := h bs hbs
  exact ⟨(g p.1, p.2), congrArg (Parse.map g) hp⟩

theorem completes_takeByte : Completes 1 takeByte
  | _ :: _, _ => ⟨_, rfl⟩

theorem completes_takeWord : Completes 2 takeWord
  | _ :: _ :: _, _ => ⟨_, rfl⟩

theorem completes_takeFar : Completes 4 takeFar
  | _ :: _ :: _ :: _ :: _, _ => ⟨_, rfl⟩

theorem completes_takeImm (w : Width) : Completes 2 (takeImm w) := by
  cases w
  · exact (completes_takeByte.map _).mono (by omega)
  · exact completes_takeWord.map _

theorem completes_takeGrpImm (op : Byte) : Completes 2 (takeGrpImm op) := by
  unfold takeGrpImm
  split
  case h_2 => exact completes_takeWord.map _
  all_goals exact (completes_takeByte.map _).mono (by omega)

theorem completes_takeRM (mod : BitVec 2) (rm : BitVec 3) : Completes 2 (takeRM mod rm) := by
  unfold takeRM
  split
  · by_cases h : rm = 6
    · simpa only [h, if_true] using completes_takeWord.map _
    · simpa only [h, if_false] using (Completes.ok _).mono (Nat.zero_le 2)
  · exact (completes_takeByte.map _).mono (by omega)
  · exact completes_takeWord.map _
  · exact (Completes.ok _).mono (Nat.zero_le 2)

theorem completes_takeModRM : Completes 3 takeModRM
  | _ :: bs, h => (completes_takeRM _ _).map _ bs (Nat.le_of_succ_le_succ h)

theorem completes_decodeDirect (h : Handler) (op : Byte) : Completes 5 (decodeDirect h op) := by
  cases h
  case aluRmReg | testRmReg | xchgRmReg | movRmReg | movRmSeg | lea | movSegRm | les | lds | esc =>
    exact (completes_takeModRM.map _).mono (by omega)
  case aluAccImm | testAccImm | movRegImm => exact ((completes_takeImm _).map _).mono (by omega)
  case jcc | int | aam | aad | loopnz | loopz | loop | jcxz | inImm | outImm | jmpShort =>
    exact (completes_takeByte.map _).mono (by omega)
  case movMoffs | retImm | retfImm | callNear | jmpNear => exact (completes_takeWord.map _).mono (by omega)
  case callFar | jmpFar => exact (completes_takeFar.map _).mono (by omega)
  all_goals exact (Completes.ok _).mono (by omega)

theorem completes_decodeChild (c : Child) (op : Byte) (m : ModRM) : Completes 2 (decodeChild c op m) := by
  cases c
  case grp1 => exact (completes_takeGrpImm op).map _
  case movRmImm | testRmImm => exact (completes_takeImm _).map _
  all_goals exact (Completes.ok _).mono (by omega)

/-- The decoder refuses no six bytes, whatever the registry (30_encoding.md R116, R138, R139). -/
theorem completes_decodeWith (t : Registry) : Completes 6 (decodeWith t)
  | op :: bs, h => by
    have hbs : 5 ≤ bs.length := Nat.le_of_succ_le_succ h
    show ∃ p, decodeSlot (t.slot op) op bs = .ok p
    unfold decodeSlot
    split
    · exact ⟨_, rfl⟩
    · exact completes_decodeDirect _ op bs hbs
    · obtain ⟨⟨m, r⟩, hm⟩ := completes_takeModRM bs (by omega)
      have hr := (local_takeModRM bs r m hm).1
      simp only [hm]
      split
      · exact ⟨_, rfl⟩
      · exact completes_decodeChild _ op m r (by omega)

/-- An encoding has a byte: nothing decodes from no bytes. -/
theorem encode_ne_nil {i : Instr} (h : i.wf = true) : encode i ≠ [] := by
  intro hnil
  have hd := encodedInstructionDecodes i [] h
  rw [hnil] at hd
  cases hd

/-- Settles O3: the decoder completes on six bytes and takes at most six, and these are the encoding (O2), which is not
empty (O1). -/
theorem sixBytesDecode : Obligations.SixBytesDecode := by
  intro bs hbs
  obtain ⟨⟨i, rest⟩, hd⟩ := completes_decodeWith defaultRegistry bs hbs
  obtain ⟨hwf, henc⟩ := decodedBytesEncode bs rest i hd
  have htaken := (local_decodeWith defaultRegistry bs rest i hd).1
  rw [← henc, List.length_append] at htaken
  exact ⟨i, rest, hd, List.length_pos_iff.2 (encode_ne_nil hwf), by omega⟩

end Sys2Proof
end

section
/-! SUPPORT. What an instruction does outside the registers, FLAGS and the bytes of memory, and the two ways it can
stop: the hidden state (10_state.md section 6), IP, the run state and the canonical form of memory. -/

namespace Sys2Proof.Machine

open Sys2Proof

/-! ### What stays -/

/-- Nothing but general and segment registers, FLAGS, the bytes of memory and the count of draws changes, and IP only
where `moves`. -/
structure Quiet (moves : Bool) (s t : State) : Prop where
  params : t.params = s.params
  clocks : t.clocks = s.clocks
  pfx : t.pfx = s.pfx
  run : t.run = s.run
  cache : t.cache = s.cache
  portCalls : t.portCalls = s.portCalls
  ip : moves = false → t.ip = s.ip
  memWf : s.mem.wf = true → t.mem.wf = true

variable {b u : Bool} {s t : State}

theorem Quiet.refl (b : Bool) (s : State) : Quiet b s s := ⟨rfl, rfl, rfl, rfl, rfl, rfl, fun _ => rfl, id⟩

theorem Quiet.trans {r : State} (h : Quiet b s t) (h' : Quiet b t r) : Quiet b s r :=
  ⟨h'.params.trans h.params, h'.clocks.trans h.clocks, h'.pfx.trans h.pfx, h'.run.trans h.run, h'.cache.trans h.cache,
    h'.portCalls.trans h.portCalls, fun hb => (h'.ip hb).trans (h.ip hb), fun hm => h'.memWf (h.memWf hm)⟩

theorem quiet_setR16 (s : State) (r : Reg16) (v : Word) : Quiet b s (setR16 s r v) :=
  ⟨rfl, rfl, rfl, rfl, rfl, rfl, fun _ => rfl, id⟩

theorem quiet_setReg (s : State) (w : Width) (r : Reg16) (v : Word) : Quiet b s (setReg s w r v) := by
  cases w <;> exact quiet_setR16 s _ _

theorem quiet_setSeg (s : State) (r : SegReg) (v : Word) : Quiet b s (setSeg s r v) :=
  ⟨rfl, rfl, rfl, rfl, rfl, rfl, fun _ => rfl, id⟩

theorem quiet_setFlags (s : State) (f : Word) : Quiet b s (setFlags s f) :=
  ⟨rfl, rfl, rfl, rfl, rfl, rfl, fun _ => rfl, id⟩

theorem quiet_setDrawnFlags (s : State) (f : Word) : Quiet b s (setDrawnFlags s f) :=
  ⟨rfl, rfl, rfl, rfl, rfl, rfl, fun _ => rfl, id⟩

theorem quiet_setIp (s : State) (v : Word) : Quiet true s (setIp s v) :=
  ⟨rfl, rfl, rfl, rfl, rfl, rfl, nofun, id⟩

theorem quiet_jumpRel (s : State) (d : Word) : Quiet true s (jumpRel d s) := quiet_setIp s _

theorem quiet_jumpFar (s : State) (off seg : Word) : Quiet true s (jumpFar off seg s) :=
  (quiet_setIp s off).trans (quiet_setSeg _ .cs seg)

theorem quiet_setMem {m : Memory} (h : s.mem.wf = true → m.wf = true) : Quiet b s (setMem s m) :=
  ⟨rfl, rfl, rfl, rfl, rfl, rfl, fun _ => rfl, h⟩

/-! ### The two ways to stop -/

/-- The stops an instruction can come to (20_memory.md R76, 30_encoding.md R140): an address beyond the backing store,
under `highAddress = fault` alone, and an undefined form, where `u` admits one. -/
def NamedFault (u : Bool) (s : State) (f : Fault) : Prop :=
  (f = .beyondBackingStore ∧ s.params.highAddress = .fault) ∨ (f = .undefinedForm ∧ u = true)

/-- A read stops only so. -/
def ReadSafe {α : Type} (u : Bool) (s : State) (r : Res α) : Prop := ∀ f, r = .error f → NamedFault u s f

/-- A computation on the state stops only so, and where it completes its state is quiet. -/
def Safe (b u : Bool) (s : State) (r : Res State) : Prop := (∀ t, r = .ok t → Quiet b s t) ∧ ReadSafe u s r

theorem Safe.ok (h : Quiet b s t) : Safe b u s (.ok t) :=
  ⟨fun _ e => by cases e; exact h, fun _ e => by cases e⟩

theorem Safe.error {f : Fault} (h : NamedFault u s f) : Safe b u s (.error f) :=
  ⟨fun _ e => (by cases e), fun _ e => by cases e; exact h⟩

/-- A computation from a state that is quiet. -/
theorem Safe.from {r : Res State} (h : Quiet b s t) (hr : Safe b u t r) : Safe b u s r := by
  refine ⟨fun v hv => h.trans (hr.1 v hv), fun f hf => ?_⟩
  have hn := hr.2 f hf
  rwa [NamedFault, h.params] at hn

theorem Safe.read {α : Type} {r : Res α} {f : α → Res State} (h : ReadSafe u s r)
    (hf : ∀ a, r = .ok a → Safe b u s (f a)) : Safe b u s (r >>= f) := by
  cases r with
  | error e => exact .error (h e rfl)
  | ok a => exact hf a rfl

theorem Safe.bind {r : Res State} {f : State → Res State} (h : Safe b u s r)
    (hf : ∀ t, r = .ok t → Safe b u t (f t)) : Safe b u s (r >>= f) :=
  Safe.read h.2 fun t ht => (hf t ht).from (h.1 t ht)

/-! ### Accesses -/

theorem highAddress_of_not_accessible {p : Params} {w : Width} {a : Nat} {off : Word}
    (h : accessible p w a off = false) : p.highAddress = .fault := by
  cases hp : p.highAddress with
  | fault => rfl
  | wrap20 => rw [accessible_wrap hp] at h; cases h

theorem readSafe_readMem (s : State) (w : Width) (a : Nat) (off : Word) : ReadSafe u s (readMem s w a off) := by
  intro f hf
  obtain ⟨rfl, ha⟩ := readMem_error hf
  exact .inl ⟨rfl, highAddress_of_not_accessible ha⟩

theorem readSafe_readByte (s : State) (a : Nat) : ReadSafe u s (readByte s a) := by
  intro f hf
  exact readSafe_readMem s .byte a 0 f (by rw [readMem, hf]; rfl)

theorem readSafe_rmValue (s : State) (w : Width) (rm : RM) : ReadSafe u s (rmValue s w rm) := by
  cases rm with
  | reg n => nofun
  | mem m d => exact readSafe_readMem s w _ _
  | direct d => exact readSafe_readMem s w _ _

theorem safe_writeMem (s : State) (w : Width) (a : Nat) (off v : Word) : Safe b u s (writeMem s w a off v) := by
  refine ⟨fun t ht => ?_, fun f hf => ?_⟩
  · obtain ⟨m, rfl, hm, -⟩ := writeMem_spec ht
    exact quiet_setMem hm
  · obtain ⟨rfl, ha⟩ := writeMem_error hf
    exact .inl ⟨rfl, highAddress_of_not_accessible ha⟩

theorem safe_writeRM (s r : State) (w : Width) (reg : BitVec 3) (rm : RM) (v x : Word) :
    Safe b u r (writeRM (cacheOf s w reg rm v) x r) := by
  cases rm with
  | reg n => exact .ok (quiet_setReg r w n x)
  | mem m d => exact safe_writeMem r w _ _ x
  | direct d => exact safe_writeMem r w _ _ x

theorem safe_push16 (s : State) (v : Word) : Safe b u s (push16 v s) :=
  (safe_writeMem (setR16 s .sp (s.gpr.sp - 2)) .word _ _ v).from (quiet_setR16 s .sp _)

/-- A computation that begins with a pop. -/
theorem Safe.pop {f : Word × State → Res State} (h : ∀ v, Safe b u (setR16 s .sp (s.gpr.sp + 2)) (f (v, setR16 s .sp (s.gpr.sp + 2)))) :
    Safe b u s (pop16 s >>= f) := by
  refine Safe.read (fun e he => ?_) fun p hp => ?_
  · obtain ⟨rfl, ha⟩ := pop16_error he
    exact .inl ⟨rfl, highAddress_of_not_accessible ha⟩
  · obtain ⟨-, hp2⟩ := pop16_ok.1 (show pop16 s = .ok (p.1, p.2) from hp)
    have hv := h p.1
    rw [← hp2] at hv
    exact hv.from (hp2 ▸ quiet_setR16 s .sp _)

/-- The second word of a far pointer stops at a register operand. -/
theorem readSafe_readFarSegment (s r : State) (w : Width) (reg : BitVec 3) (rm : RM) (v : Word) :
    ReadSafe (isRegister rm) r (readFarSegment (cacheOf s w reg rm v) r) := by
  cases rm with
  | reg n => exact fun f hf => by cases hf; exact .inr ⟨rfl, rfl⟩
  | mem m d => exact readSafe_readMem r .word _ _
  | direct d => exact readSafe_readMem r .word _ _

/-! ### The shared operations -/

theorem safe_aluApply {k : AluOp} {w : Width} {dst src : Word} {write : Word → State → Res State}
    (h : ∀ x, Safe b u s (write x s)) : Safe b u s (aluApply k w dst src write s) := by
  refine Safe.bind ?_ fun t _ => .ok (quiet_setFlags t _)
  unfold aluWrite
  split
  · exact .ok (.refl b s)
  · exact h _

theorem safe_writeG (s : State) (w : Width) (r : Reg16) (x : Word) : Safe b u s (writeG w r x s) :=
  .ok (quiet_setReg s w r x)

theorem safe_shiftApply (s r : State) (k : ShiftOp) (w : Width) (n : Nat) (reg : BitVec 3) (rm : RM) (v : Word) :
    Safe b u r (shiftApply k w n (cacheOf s w reg rm v) r) := by
  unfold shiftApply
  split
  · exact .ok (.refl b r)
  · refine (safe_writeRM s r w reg rm v _).bind fun t _ => .ok ?_
    unfold writeShiftFlags
    split
    · exact quiet_setDrawnFlags t _
    · exact quiet_setFlags t _

theorem safe_interruptReturn (s : State) : Safe true u s (interruptReturn s) :=
  .pop fun v => .from (quiet_setIp _ v) (.pop fun w => .from (quiet_setSeg _ .cs w) (.pop fun f => .ok (quiet_setFlags _ f)))

theorem safe_returnNear (n : Word) (s : State) : Safe true u s (returnNear n s) :=
  .pop fun v => .ok ((quiet_setIp _ v).trans (quiet_setR16 _ .sp _))

theorem safe_returnFar (n : Word) (s : State) : Safe true u s (returnFar n s) :=
  .pop fun v => .from (quiet_setIp _ v) (.pop fun w => .ok ((quiet_setSeg _ .cs w).trans (quiet_setR16 _ .sp _)))

theorem safe_callFarTo (off seg : Word) (s : State) : Safe true u s (callFarTo off seg s) :=
  (safe_push16 s _).bind fun t _ => (safe_push16 t _).bind fun r _ => .ok (quiet_jumpFar r off seg)

theorem quiet_advanceSi (w : Width) (s : State) : Quiet b s (advanceSi w s) := quiet_setR16 s .si _
theorem quiet_advanceDi (w : Width) (s : State) : Quiet b s (advanceDi w s) := quiet_setR16 s .di _

theorem safe_movsBody (w : Width) (s : State) : Safe b u s (movsBody w s) :=
  .read (readSafe_readMem s w _ _) fun v _ => (safe_writeMem s w _ _ v).bind fun t _ =>
    .ok ((quiet_advanceSi w t).trans (quiet_advanceDi w _))

theorem safe_cmpsBody (w : Width) (s : State) : Safe b u s (cmpsBody w s) :=
  .read (readSafe_readMem s w _ _) fun _ _ => .read (readSafe_readMem s w _ _) fun _ _ =>
    .ok (((quiet_setFlags s _).trans (quiet_advanceSi w _)).trans (quiet_advanceDi w _))

theorem safe_stosBody (w : Width) (s : State) : Safe b u s (stosBody w s) :=
  (safe_writeMem s w _ _ _).bind fun t _ => .ok (quiet_advanceDi w t)

theorem safe_lodsBody (w : Width) (s : State) : Safe b u s (lodsBody w s) :=
  .read (readSafe_readMem s w _ _) fun v _ => .ok ((quiet_setReg s w .ax v).trans (quiet_advanceSi w _))

theorem safe_scasBody (w : Width) (s : State) : Safe b u s (scasBody w s) :=
  .read (readSafe_readMem s w _ _) fun _ _ => .ok ((quiet_setFlags s _).trans (quiet_advanceDi w _))

theorem safe_repeatBody {stop : State → Bool} {body : State → Res State} (h : ∀ s, Safe b u s (body s)) (n : Nat)
    (s : State) : Safe b u s (repeatBody stop body n s) := by
  induction n generalizing s with
  | zero => exact .ok (.refl b s)
  | succ n ih =>
    refine (h s).bind fun t _ => .from (quiet_setR16 t .cx (t.gpr.cx - 1)) ?_
    show Safe b u _ (if _ then _ else _)
    split
    · exact .ok (.refl b _)
    · exact ih _

/-- The computation of a string instruction, under REP or not. -/
theorem safe_stringOp {stop : RepKind → State → Bool} {body : State → Res State} (h : ∀ s, Safe b u s (body s))
    (s : State) : ∃ r, stringOp stop body s = outcome r ∧ Safe b u s r := by
  refine ⟨_, rfl, ?_⟩
  split
  · exact h s
  · exact safe_repeatBody h _ s

theorem quiet_writeDouble (w : Width) (p : Int) (s : State) : Quiet b s (writeDouble w p s) := by
  cases w
  · exact quiet_setR16 s .ax _
  · exact (quiet_setR16 s .ax _).trans (quiet_setR16 _ .dx _)

theorem quiet_quotientApply (w : Width) (q r : Int) (s : State) : Quiet b s (quotientApply w q r s) := by
  cases w
  · exact (quiet_setR16 s .ax _).trans (quiet_setDrawnFlags _ _)
  · exact ((quiet_setR16 s .ax _).trans (quiet_setR16 _ .dx _)).trans (quiet_setDrawnFlags _ _)

theorem quiet_asciiAdjust (dal dah : Nat) (adj : Bool) (s : State) : Quiet b s (asciiAdjust dal dah adj s) := by
  cases adj <;> exact (quiet_setR16 s .ax _).trans (quiet_setDrawnFlags _ _)

end Sys2Proof.Machine
end

section
/-! SUPPORT. What an instruction makes of a state, said once for every instruction (`exec_sound`): its outcome is an effect
of its rule or one of the two named faults. -/

namespace Sys2Proof.Machine

open Sys2Proof

/-! ### What an instruction does -/

/-- The port instructions (46_string_shift_muldiv_misc.md section 5). -/
def usesPort : Instr → Bool
  | .inImm _ _ | .inDx _ | .outImm _ _ | .outDx _ => true
  | _ => false

/-- The prefixes, one by one. -/
theorem prefix_cases {i : Instr} (h : isPrefix i = true) :
    i = .segEs ∨ i = .segCs ∨ i = .segSs ∨ i = .segDs ∨ i = .lock ∨ i = .repnz ∨ i = .repz := by
  have hmem : (!isPrefix i || decide (i ∈ [.segEs, .segCs, .segSs, .segDs, .lock, .repnz, .repz])) = true := by
    cases i <;> exact Eq.refl true
  simpa [h] using hmem

/-- Prefixes and port instructions neither halt the core nor take an exception. -/
theorem apart_of_prefix_or_port (i : Instr) (s : State) :
    ((isPrefix i || usesPort i) && ((haltCauseOf i).isSome || takesInterrupt i s)) = false := by
  cases i <;> exact Eq.refl false

/-- An instruction that halts the core or writes all of FLAGS takes no exception. -/
theorem apart_of_halt_or_popf (i : Instr) (s : State) :
    (((haltCauseOf i).isSome || writesAllFlags i) && takesInterrupt i s) = false := by
  cases i <;> exact Eq.refl false

/-- The state an instruction's rule works on: the resolver has put the r/m operand of an instruction that has one in the
cache (40_decode_dispatch.md R152, R155). -/
def Resolved (i : Instr) (s u : State) : Prop :=
  match i.modrm? with
  | none => u = s
  | some m => ∃ w v, rmValue s w m.rm = .ok v ∧ u = withCache s (cacheOf s w m.reg.bits m.rm v)

/-- What an instruction that completes makes of the state `u` its rule works on. -/
inductive Effect (i : Instr) (s u t : State) : Prop where
  | exception {n : Byte} (hi : takesInterrupt i s = true) (h : interrupt n u = .ok t)
  | halts {c : HaltCause} (hc : haltCauseOf i = some c) (h : t = halt c u)
  | nests {p : Prefixes} (hp : isPrefix i = true) (h : t = { u with pfx := p })
  | port {calls : List PortCall} (hp : usesPort i = true) (h : Quiet false { u with portCalls := calls } t)
  | ordinary (hi : takesInterrupt i s = false) (hc : haltCauseOf i = none) (h : Quiet (transfersControl i) u t)

/-- An outcome that is an effect of the instruction, or one of its two named faults. -/
def Sound (i : Instr) (s : State) : Out → Prop
  | .next t => ∃ u, Resolved i s u ∧ Effect i s u t
  | .fault f => NamedFault (undefinedForm i) s f
  | .refused _ => False

variable {i : Instr} {s : State} {o : Out}

/-- What the rule of an instruction does, by the state it works on. -/
def RuleSound (i : Instr) (s u : State) (r : Res State) : Prop :=
  (∀ t, r = .ok t → Effect i s u t) ∧ ReadSafe (undefinedForm i) s r

theorem Sound.outcome {u : State} {r : Res State} (hu : Resolved i s u) (h : RuleSound i s u r) :
    Sound i s (Machine.outcome r) := by
  cases r with
  | error f => exact h.2 f rfl
  | ok t => exact ⟨u, hu, h.1 t rfl⟩

theorem Sound.next {u t : State} (hu : Resolved i s u) (h : Effect i s u t) : Sound i s (.next t) := ⟨u, hu, h⟩

theorem resolved_none (hm : i.modrm? = none) : Resolved i s s := by
  rw [Resolved, hm]

theorem resolved_some {m : ModRM} {w : Width} {v : Word} (hm : i.modrm? = some m) (hv : rmValue s w m.rm = .ok v) :
    Resolved i s (withCache s (cacheOf s w m.reg.bits m.rm v)) := by
  rw [Resolved, hm]; exact ⟨w, v, hv, rfl⟩

/-- An instruction with a Mod-Reg-R/M byte: the rest of it runs where the operand can be read. -/
theorem Sound.onRM {m : ModRM} {w : Width} {rest : OperandCache → State → Res State} (hm : i.modrm? = some m)
    (h : ∀ v, rmValue s w m.rm = .ok v → RuleSound i s (withCache s (cacheOf s w m.reg.bits m.rm v))
      (rest (cacheOf s w m.reg.bits m.rm v) (withCache s (cacheOf s w m.reg.bits m.rm v)))) :
    Sound i s (onRM w m.reg.bits m.rm rest s) := by
  cases hv : rmValue s w m.rm with
  | error f => rw [onRM_of_error rest hv]; exact readSafe_rmValue s w m.rm f hv
  | ok v => rw [onRM_of_value rest hv]; exact .outcome (resolved_some hm hv) (h v hv)

/-- An exception that an instruction takes. -/
theorem RuleSound.interrupt {u : State} (n : Byte) (hi : takesInterrupt i s = true) (hp : u.params = s.params) :
    RuleSound i s u (Machine.interrupt n u) := by
  refine ⟨fun t ht => .exception hi ht, fun f hf => ?_⟩
  obtain rfl := interrupt_error hf
  refine .inl ⟨rfl, ?_⟩
  cases hh : s.params.highAddress with
  | fault => rfl
  | wrap20 =>
    have hacc (off : Word) : stackAccessible u off = true := accessible_wrap (hp ▸ hh) .word _ _
    obtain ⟨t, ht⟩ := interrupt_total n (hacc _) (hacc _) (hacc _)
    rw [ht] at hf; cases hf

/-- A computation that is quiet is an ordinary effect. -/
theorem RuleSound.ordinary {u : State} {r : Res State} (hi : takesInterrupt i s = false) (hc : haltCauseOf i = none)
    (hp : u.params = s.params) (h : Safe (transfersControl i) (undefinedForm i) u r) : RuleSound i s u r :=
  ⟨fun t ht => .ordinary hi hc (h.1 t ht), fun f hf => by
    have hn := h.2 f hf
    rwa [NamedFault, hp] at hn⟩

/-- An instruction without a Mod-Reg-R/M byte that is a quiet computation. -/
theorem Sound.plain {r : Res State} (he : o = Machine.outcome r) (hm : i.modrm? = none)
    (hi : takesInterrupt i s = false) (hc : haltCauseOf i = none)
    (h : Safe (transfersControl i) (undefinedForm i) s r) : Sound i s o :=
  he ▸ .outcome (resolved_none hm) (.ordinary hi hc rfl h)

/-- An instruction without a Mod-Reg-R/M byte that always completes, and is quiet. -/
theorem Sound.always {t : State} (he : o = .next t) (hm : i.modrm? = none) (hi : takesInterrupt i s = false)
    (hc : haltCauseOf i = none) (h : Quiet (transfersControl i) s t) : Sound i s o :=
  he ▸ .next (resolved_none hm) (.ordinary hi hc h)

/-- An instruction with a Mod-Reg-R/M byte whose rest is a quiet computation. -/
theorem Sound.operand {m : ModRM} {w : Width} {rest : OperandCache → State → Res State} (hm : i.modrm? = some m)
    (he : o = Machine.onRM w m.reg.bits m.rm rest s) (hi : takesInterrupt i s = false)
    (hc : haltCauseOf i = none)
    (h : ∀ v u, Safe (transfersControl i) (undefinedForm i) u (rest (cacheOf s w m.reg.bits m.rm v) u)) :
    Sound i s o :=
  he ▸ .onRM hm fun v _ => .ordinary hi hc rfl (h v _)

theorem sound_stringOp {stop : RepKind → State → Bool} {body : State → Res State}
    (he : o = stringOp stop body s) (hm : i.modrm? = none)
    (hi : takesInterrupt i s = false) (hc : haltCauseOf i = none)
    (h : ∀ s, Safe (transfersControl i) (undefinedForm i) s (body s)) : Sound i s o := by
  obtain ⟨r, hr, hsafe⟩ := safe_stringOp (stop := stop) h s
  exact .plain (he.trans hr) hm hi hc hsafe

theorem quiet_ite {b : Bool} {s t r : State} (c : Prop) [Decidable c] (ht : Quiet b s t) (hr : Quiet b s r) :
    Quiet b s (if c then t else r) := by
  split
  · exact ht
  · exact hr

theorem sound_portIn (w : Width) (port : Word) (hm : i.modrm? = none) (hp : usesPort i = true) :
    Sound i s (inPort w port s) := by
  refine .next (resolved_none hm) (.port (calls := (portIn w port s).2.portCalls) hp ?_)
  have h : Quiet false { s with portCalls := (portIn w port s).2.portCalls } (portIn w port s).2 := by
    unfold portIn
    split <;> exact ⟨rfl, rfl, rfl, rfl, rfl, rfl, fun _ => rfl, id⟩
  exact h.trans (quiet_setReg _ w .ax _)

theorem sound_portOut (w : Width) (port v : Word) (hm : i.modrm? = none) (hp : usesPort i = true) :
    Sound i s (.next (portOut w port v s)) := by
  refine .next (resolved_none hm) (.port (calls := (portOut w port v s).portCalls) hp ?_)
  unfold portOut
  split <;> exact ⟨rfl, rfl, rfl, rfl, rfl, rfl, fun _ => rfl, id⟩

theorem sound_aluRmReg {k : AluOp} {d : Dir} {w : Width} {m : ModRM} (hm : i.modrm? = some m)
    (he : o = aluRmReg k d w m s) (hi : takesInterrupt i s = false) (hc : haltCauseOf i = none) :
    Sound i s o := by
  refine .operand hm he hi hc fun v u => ?_
  cases d
  · exact safe_aluApply fun x => safe_writeRM s u w _ _ v x
  · exact safe_aluApply fun x => safe_writeG u w m.reg x

theorem sound_aluAccImm {k : AluOp} {j : Imm} (he : o = aluAccImm k j s) (hm : i.modrm? = none)
    (hi : takesInterrupt i s = false) (hc : haltCauseOf i = none) : Sound i s o :=
  .plain he hm hi hc (safe_aluApply fun x => safe_writeG s _ .ax x)

theorem sound_aluRmImm {k : AluOp} {m : ModRM} {j : GrpImm} (hm : i.modrm? = some m)
    (he : o = aluRmImm k m j s) (hi : takesInterrupt i s = false) (hc : haltCauseOf i = none) :
    Sound i s o :=
  .operand hm he hi hc fun v u => safe_aluApply fun x => safe_writeRM s u _ _ _ v x

theorem sound_shiftRm {k : ShiftOp} {c : ShiftCount} {w : Width} {m : ModRM} (hm : i.modrm? = some m)
    (he : o = shiftRm k c w m s) (hi : takesInterrupt i s = false) (hc : haltCauseOf i = none) :
    Sound i s o :=
  .operand hm he hi hc fun v u => safe_shiftApply s u k w _ _ _ v

/-- A far pointer read before the rest of the instruction. -/
theorem Safe.farPointer {b : Bool} {s r : State} {w : Width} {reg : BitVec 3} {rm : RM} {v : Word}
    {f : Word → Res State} (hf : ∀ a, Safe b (isRegister rm) r (f a)) :
    Safe b (isRegister rm) r (readFarSegment (cacheOf s w reg rm v) r >>= f) :=
  .read (readSafe_readFarSegment s r w reg rm v) fun a _ => hf a

theorem sound_loadFar {seg : SegReg} {m : ModRM} (hm : i.modrm? = some m) (he : o = loadFar seg m s)
    (hi : takesInterrupt i s = false) (hc : haltCauseOf i = none) (hu : undefinedForm i = isRegister m.rm) :
    Sound i s o :=
  .operand hm he hi hc fun _ u => hu ▸ .farPointer fun a => .ok ((quiet_setR16 u m.reg _).trans (quiet_setSeg _ seg a))

theorem takesInterrupt_div {w : Width} {m : ModRM} {v : Word} (hv : rmValue s w m.rm = .ok v) :
    takesInterrupt (.div w m) s = !divFits w (dividend w s) v.toNat := by
  show divRaises s w m.rm = _
  rw [divRaises, hv]

theorem takesInterrupt_idiv {w : Width} {m : ModRM} {v : Word} (hv : rmValue s w m.rm = .ok v) :
    takesInterrupt (.idiv w m) s = !idivFits s.params.idivRange w (signedDividend w s) (signedValue w v) := by
  show idivRaises s w m.rm = _
  rw [idivRaises, hv]

/-- A division: quotient and remainder where they fit, else the divide error. -/
theorem RuleSound.quotient {u : State} {fits : Bool} {w : Width} {q r : Int} (hi : takesInterrupt i s = !fits)
    (hc : haltCauseOf i = none) (hp : u.params = s.params) :
    RuleSound i s u (if fits then .ok (quotientApply w q r u) else raiseDivideError u) := by
  cases fits
  · exact .interrupt 0 hi hp
  · exact .ordinary hi hc hp (.ok (quiet_quotientApply w q r u))

/-- Every instruction is sound: its outcome is an effect of its rule, or one of the two named faults. -/
theorem exec_sound (i : Instr) (s : State) : Sound i s (exec i s) := by
  cases i <;> dsimp only [exec]
  case addRmReg | orRmReg | adcRmReg | sbbRmReg | andRmReg | subRmReg | xorRmReg | cmpRmReg =>
    exact sound_aluRmReg rfl rfl rfl rfl
  case addAccImm | orAccImm | adcAccImm | sbbAccImm | andAccImm | subAccImm | xorAccImm | cmpAccImm =>
    exact sound_aluAccImm rfl rfl rfl rfl
  case addRmImm | orRmImm | adcRmImm | sbbRmImm | andRmImm | subRmImm | xorRmImm | cmpRmImm =>
    exact sound_aluRmImm rfl rfl rfl rfl
  case rol | ror | rcl | rcr | shl | shr | sar => exact sound_shiftRm rfl rfl rfl rfl
  case testRmReg | testRmImm => exact .operand rfl rfl rfl rfl fun v u => .ok (quiet_setFlags u _)
  case testAccImm => exact .always rfl rfl rfl rfl (quiet_setFlags s _)
  case incReg r | decReg r => exact .always rfl rfl rfl rfl ((quiet_setR16 s r _).trans (quiet_setFlags _ _))
  case incRm w m | decRm w m | negRm w m =>
    exact .operand rfl rfl rfl rfl fun v u => (safe_writeRM s u w _ _ v _).bind fun t _ => .ok (quiet_setFlags t _)
  case notRm w m => exact .operand rfl rfl rfl rfl fun v u => safe_writeRM s u w _ _ v _
  case pushReg | pushSeg | pushf => exact .plain rfl rfl rfl rfl (safe_push16 s _)
  case pushRm m => exact .operand rfl rfl rfl rfl fun v u => safe_push16 u _
  case popReg r => exact .plain rfl rfl rfl rfl (.pop fun v => .ok (quiet_setR16 _ r v))
  case popSeg r => exact .plain rfl rfl rfl rfl (.pop fun v => .ok (quiet_setSeg _ r v))
  case popf => exact .plain rfl rfl rfl rfl (.pop fun v => .ok (quiet_setFlags _ v))
  case popRm m => exact .operand rfl rfl rfl rfl fun v u => .pop fun x => safe_writeRM s _ .word _ _ v x
  case int3 | int => exact .outcome (resolved_none rfl) (.interrupt _ rfl rfl)
  case into =>
    refine .outcome (resolved_none rfl) ?_
    cases hof : s.flag .OF
    · exact .ordinary hof rfl rfl (.ok (.refl _ s))
    · exact .interrupt 4 hof rfl
  case iret => exact .plain rfl rfl rfl rfl (safe_interruptReturn s)
  case hlt | unmapped => exact .next (resolved_none rfl) (.halts rfl rfl)
  case emptyChild op m =>
    exact .onRM rfl fun v _ => ⟨fun t ht => by cases ht; exact .halts rfl rfl, fun _ e => by cases e⟩
  case movRmReg d w m =>
    refine .operand rfl rfl rfl rfl fun v u => ?_
    cases d
    · exact safe_writeRM s u w _ _ v _
    · exact .ok (quiet_setReg u w m.reg v)
  case movRmImm m j => exact .operand rfl rfl rfl rfl fun v u => safe_writeRM s u _ _ _ v _
  case movRmSeg m =>
    refine .operand rfl rfl rfl rfl fun v u => ?_
    cases hr : SegReg.ofNumber m.reg with
    | none => exact .error (.inr ⟨rfl, Option.isNone_iff_eq_none.2 hr⟩)
    | some r => exact safe_writeRM s u .word _ _ v _
  case movSegRm m =>
    refine .operand rfl rfl rfl rfl fun v u => ?_
    cases hr : SegReg.ofNumber m.reg with
    | none => exact .error (.inr ⟨rfl, Option.isNone_iff_eq_none.2 hr⟩)
    | some r => exact .ok (quiet_setSeg u r v)
  case movMoffs d w off =>
    cases d
    · exact .plain rfl rfl rfl rfl (safe_writeMem s w _ off _)
    · exact .plain rfl rfl rfl rfl (.read (readSafe_readMem s w _ off) fun v _ => .ok (quiet_setReg s w .ax v))
  case movRegImm r j => exact .always rfl rfl rfl rfl (quiet_setReg s _ r _)
  case lea m =>
    obtain ⟨reg, rm⟩ := m
    refine .operand rfl rfl rfl rfl fun v u => ?_
    cases rm with
    | reg n => exact .error (.inr ⟨rfl, rfl⟩)
    | mem b d => exact .ok (quiet_setR16 u reg _)
    | direct d => exact .ok (quiet_setR16 u reg _)
  case lds | les => exact sound_loadFar rfl rfl rfl rfl rfl
  case xchgRmReg w m =>
    exact .operand rfl rfl rfl rfl fun v u => .from (quiet_setReg u w m.reg v) (safe_writeRM s _ w _ _ v _)
  case xchgAcc r => exact .always rfl rfl rfl rfl ((quiet_setR16 s .ax _).trans (quiet_setR16 _ r _))
  case nop | wait => exact .always rfl rfl rfl rfl (.refl _ s)
  case cbw | cwd => exact .always rfl rfl rfl rfl (quiet_setR16 s _ _)
  case lahf => exact .always rfl rfl rfl rfl (quiet_setR16 s _ _)
  case sahf | clc | stc | cmc | cli | sti | cld | std => exact .always rfl rfl rfl rfl (quiet_setFlags s _)
  case xlat => exact .plain rfl rfl rfl rfl (.read (readSafe_readByte s _) fun v _ => .ok (quiet_setR16 s _ _))
  case jo | jno | jb | jnb | jz | jnz | jbe | ja | js | jns | jp | jnp | jl | jnl | jle | jnle | jcxz =>
    exact .always rfl rfl rfl rfl (quiet_ite _ (quiet_jumpRel s _) (.refl _ s))
  case jmpShort | jmpNear => exact .always rfl rfl rfl rfl (quiet_jumpRel s _)
  case jmpFar off seg => exact .always rfl rfl rfl rfl (quiet_jumpFar s off seg)
  case jmpRm m => exact .operand rfl rfl rfl rfl fun v u => .ok (quiet_setIp u v)
  case jmpFarMem m => exact .operand rfl rfl rfl rfl fun v u => .farPointer fun seg => .ok (quiet_jumpFar u _ seg)
  case callNear d => exact .plain rfl rfl rfl rfl ((safe_push16 s _).bind fun t _ => .ok (quiet_jumpRel t d))
  case callFar off seg => exact .plain rfl rfl rfl rfl (safe_callFarTo off seg s)
  case callRm m => exact .operand rfl rfl rfl rfl fun v u => (safe_push16 u _).bind fun t _ => .ok (quiet_setIp t v)
  case callFarMem m => exact .operand rfl rfl rfl rfl fun v u => .farPointer fun seg => safe_callFarTo v seg u
  case ret | retImm => exact .plain rfl rfl rfl rfl (safe_returnNear _ s)
  case retf | retfImm => exact .plain rfl rfl rfl rfl (safe_returnFar _ s)
  case loop d | loopz d | loopnz d =>
    exact .always rfl rfl rfl rfl (quiet_ite _ ((quiet_setR16 s .cx _).trans (quiet_jumpRel _ _)) (quiet_setR16 s .cx _))
  case movsb | movsw => exact sound_stringOp rfl rfl rfl rfl (safe_movsBody _)
  case cmpsb | cmpsw => exact sound_stringOp rfl rfl rfl rfl (safe_cmpsBody _)
  case stosb | stosw => exact sound_stringOp rfl rfl rfl rfl (safe_stosBody _)
  case lodsb | lodsw => exact sound_stringOp rfl rfl rfl rfl (safe_lodsBody _)
  case scasb | scasw => exact sound_stringOp rfl rfl rfl rfl (safe_scasBody _)
  case mul w m | imul w m =>
    exact .operand rfl rfl rfl rfl fun v u => .ok ((quiet_writeDouble w _ u).trans (quiet_setDrawnFlags _ _))
  case div w m => exact .onRM rfl fun v hv => .quotient (takesInterrupt_div hv) rfl rfl
  case idiv w m => exact .onRM rfl fun v hv => .quotient (takesInterrupt_idiv hv) rfl rfl
  case daa | das => exact .always rfl rfl rfl rfl ((quiet_setR16 s _ _).trans (quiet_setDrawnFlags _ _))
  case aaa | aas => exact .always rfl rfl rfl rfl (quiet_asciiAdjust _ _ _ s)
  case aam base =>
    by_cases hb : base = 0
    · subst hb
      exact .outcome (resolved_none rfl) (.interrupt 0 rfl rfl)
    · exact .always (if_neg hb) rfl (beq_false_of_ne hb) rfl ((quiet_setR16 s .ax _).trans (quiet_setDrawnFlags _ _))
  case aad base => exact .always rfl rfl rfl rfl ((quiet_setR16 s .ax _).trans (quiet_setDrawnFlags _ _))
  case inImm | inDx => exact sound_portIn _ _ rfl rfl
  case outImm | outDx => exact sound_portOut _ _ _ rfl rfl
  case esc n m => exact .operand rfl rfl rfl rfl fun v u => .ok (.refl _ u)
  case segEs | segCs | segSs | segDs | lock | repnz | repz => exact .next (resolved_none rfl) (.nests rfl rfl)

end Sys2Proof.Machine
end

section
/-! SUPPORT. What follows from the effect of an instruction: its completion, the run state, the hidden state
(10_state.md sections 5 and 6, 40_decode_dispatch.md). -/

namespace Sys2Proof.Machine

open Sys2Proof

/-! ### Reading the effect of an instruction -/

variable {i : Instr} {s t u : State}

theorem effect_of_exec (h : exec i s = .next t) : ∃ u, Resolved i s u ∧ Effect i s u t := by
  have hs := exec_sound i s
  rwa [h] at hs

/-- The resolver writes the operand cache alone. -/
theorem Resolved.eq_cache (h : Resolved i s u) : u = { s with cache := u.cache } := by
  unfold Resolved at h
  split at h
  · rw [h]
  · obtain ⟨w, v, -, rfl⟩ := h
    rfl

theorem special_of_isPrefix (h : isPrefix i = true) : haltCauseOf i = none ∧ takesInterrupt i s = false := by
  simpa [h] using apart_of_prefix_or_port i s

theorem special_of_usesPort (h : usesPort i = true) : haltCauseOf i = none ∧ takesInterrupt i s = false := by
  simpa [h] using apart_of_prefix_or_port i s

theorem takesInterrupt_of_haltCauseOf {c : HaltCause} (h : haltCauseOf i = some c) : takesInterrupt i s = false := by
  simpa [h] using apart_of_halt_or_popf i s

theorem usesPort_of_ne (hinImm : ∀ w p, i ≠ .inImm w p) (hinDx : ∀ w, i ≠ .inDx w)
    (houtImm : ∀ w p, i ≠ .outImm w p) (houtDx : ∀ w, i ≠ .outDx w) : usesPort i = false := by
  cases i with
  | inImm w p => exact (hinImm w p rfl).elim
  | inDx w => exact (hinDx w rfl).elim
  | outImm w p => exact (houtImm w p rfl).elim
  | outDx w => exact (houtDx w rfl).elim
  | _ => exact Eq.refl false

/-- What an exception leaves: the hidden state, the ports and the canonical form of memory. -/
theorem interrupt_hidden {n : Byte} (h : interrupt n s = .ok t) :
    t.params = s.params ∧ t.clocks = s.clocks ∧ t.pfx = s.pfx ∧ t.cache = s.cache ∧ t.portCalls = s.portCalls ∧
      (s.mem.wf = true → t.mem.wf = true) := by
  obtain ⟨m, ip, cs, rfl, hm, -⟩ := interrupt_spec h
  exact ⟨rfl, rfl, rfl, rfl, rfl, hm⟩

theorem Effect.params (h : Effect i s u t) : t.params = u.params := by
  cases h with
  | exception _ h => exact (interrupt_hidden h).1
  | halts _ h | nests _ h => subst h; rfl
  | port _ h | ordinary _ _ h => exact h.params

theorem Effect.clocks (h : Effect i s u t) : t.clocks = u.clocks := by
  cases h with
  | exception _ h => exact (interrupt_hidden h).2.1
  | halts _ h | nests _ h => subst h; rfl
  | port _ h | ordinary _ _ h => exact h.clocks

theorem Effect.memWf (h : Effect i s u t) (hu : u.mem.wf = true) : t.mem.wf = true := by
  cases h with
  | exception _ h => obtain ⟨-, -, -, -, -, hm⟩ := interrupt_hidden h; exact hm hu
  | halts _ h | nests _ h => rw [h]; exact hu
  | port _ h | ordinary _ _ h => exact h.memWf hu

theorem Effect.cache (h : Effect i s u t) : t.cache = u.cache := by
  cases h with
  | exception _ h => obtain ⟨-, -, -, hc, -⟩ := interrupt_hidden h; exact hc
  | halts _ h | nests _ h => subst h; rfl
  | port _ h | ordinary _ _ h => exact h.cache

theorem Effect.pfx (h : Effect i s u t) (hi : isPrefix i = false) : t.pfx = u.pfx := by
  cases h with
  | exception _ h => obtain ⟨-, -, hp, -⟩ := interrupt_hidden h; exact hp
  | halts _ h => subst h; rfl
  | nests hp _ => rw [hi] at hp; cases hp
  | port _ h | ordinary _ _ h => exact h.pfx

theorem Effect.portCalls (h : Effect i s u t) (hi : usesPort i = false) : t.portCalls = u.portCalls := by
  cases h with
  | exception _ h => obtain ⟨-, -, -, -, hp, -⟩ := interrupt_hidden h; exact hp
  | halts _ h | nests _ h => subst h; rfl
  | port hp _ => rw [hi] at hp; cases hp
  | ordinary _ _ h => exact h.portCalls

theorem Effect.ip (h : Effect i s u t) (hi : transfersControl i = false) (he : takesInterrupt i s = false) :
    t.ip = u.ip := by
  cases h with
  | exception hi' h => rw [he] at hi'; cases hi'
  | halts _ h | nests _ h => subst h; rfl
  | port _ h => exact h.ip rfl
  | ordinary _ _ h => exact h.ip hi

/-! ## What the instructions answer -/

/-- Settles O17: the outcome of every instruction is an effect of its rule or one of the two named faults
(`exec_sound`), and neither fault is left where `highAddress` is `wrap20` and the form is defined. -/
theorem everyDefinedFormCompletes : Obligations.EveryDefinedFormCompletes := by
  refine ⟨fun i s hw hu => ?_, fun i s f hf => ?_, fun i s r hr => ?_⟩
  · have hs := exec_sound i s
    cases he : exec i s with
    | next t => exact ⟨t, rfl⟩
    | refused r => rw [he] at hs; exact hs.elim
    | fault f =>
      rw [he] at hs
      obtain ⟨-, h⟩ | ⟨-, h⟩ := hs
      · rw [hw] at h; cases h
      · rw [hu] at h; cases h
  · have hs := exec_sound i s
    rwa [hf] at hs
  · have hs := exec_sound i s
    rw [hr] at hs
    exact hs

/-- Settles O15: only `halt` and an exception write the run state. -/
theorem onlyHaltInstructionsHalt : Obligations.OnlyHaltInstructionsHalt := by
  intro i s t h
  obtain ⟨u, hu, he⟩ := effect_of_exec h
  have hrun : u.run = s.run := by rw [hu.eq_cache]
  cases he with
  | exception hi h =>
    cases hc : haltCauseOf i with
    | some c => rw [takesInterrupt_of_haltCauseOf hc] at hi; cases hi
    | none => simp only [hi, if_true]; exact interrupt_run h
  | halts hc h => simp only [hc, h]; rfl
  | nests hp h =>
    obtain ⟨hc, hi⟩ := special_of_isPrefix (s := s) hp
    simp [hc, hi, h, hrun]
  | port hp h =>
    obtain ⟨hc, hi⟩ := special_of_usesPort (s := s) hp
    simpa [hc, hi, hrun] using h.run
  | ordinary hi hc h => simp [hc, hi, h.run, hrun]

/-- Settles O22, from the effect of the instruction on the state that the resolver leaves. -/
theorem hiddenStateFrame : Obligations.HiddenStateFrame := by
  intro i s t h
  obtain ⟨u, hu, he⟩ := effect_of_exec h
  have hc := hu.eq_cache
  refine ⟨?_, ?_, fun hp => ?_, fun ht hi => ?_, fun h1 h2 h3 h4 => ?_, fun hm => ?_, fun m hm => ?_⟩
  · rw [he.params, hc]
  · rw [he.clocks, hc]
  · rw [he.pfx hp, hc]
  · rw [he.ip ht hi, hc]
  · rw [he.portCalls (usesPort_of_ne h1 h2 h3 h4), hc]
  · simp only [Resolved, hm] at hu
    rw [he.cache, hu]
  · simp only [Resolved, hm] at hu
    obtain ⟨w, v, hv, rfl⟩ := hu
    exact ⟨_, he.cache, rfl, rfl, rfl, rfl, hv⟩

end Sys2Proof.Machine
end

section
/-! SUPPORT. The dispatch and the step: prefixes, the tier check, what every step keeps (40_decode_dispatch.md). -/

namespace Sys2Proof.Machine

open Sys2Proof

/-! ### Prefixes -/

variable {i : Instr} {s t u : State} {bs rest : List Byte}

theorem modrm_of_isPrefix (h : isPrefix i = true) : i.modrm? = none := by
  obtain rfl | rfl | rfl | rfl | rfl | rfl | rfl := prefix_cases h <;> rfl

theorem encode_of_isPrefix (h : isPrefix i = true) : ∃ b, encode i = [b] := by
  obtain rfl | rfl | rfl | rfl | rfl | rfl | rfl := prefix_cases h <;> exact ⟨_, rfl⟩

theorem needsTierG_of_isPrefix (h : isPrefix i = true) : needsTierG i s = false := by
  obtain rfl | rfl | rfl | rfl | rfl | rfl | rfl := prefix_cases h <;> rfl

/-- Prefixes set their field of the state (40_decode_dispatch.md R157 to R159). -/
theorem exec_of_isPrefix (h : isPrefix i = true) (s : State) : ∃ p, exec i s = .next { s with pfx := p } := by
  obtain rfl | rfl | rfl | rfl | rfl | rfl | rfl := prefix_cases h <;> exact ⟨_, rfl⟩

/-- Prefixes take one byte, whatever the registry. -/
theorem bytes_of_isPrefix {r : Registry} (hd : decodeWith r bs = .ok (i, rest)) (hi : isPrefix i = true) :
    ∃ op, bs = op :: rest := by
  have hm := modrm_of_isPrefix hi
  cases bs with
  | nil => cases hd
  | cons op bs =>
    refine ⟨op, congrArg (List.cons op) ?_⟩
    replace hd : decodeSlot (r.slot op) op bs = .ok (i, rest) := hd
    unfold decodeSlot at hd
    split at hd
    · cases hd; rfl
    · obtain ⟨b, hb⟩ := encode_of_isPrefix hi
      have henc := encode_of_decodeDirect hd
      rw [hb] at henc
      exact (List.cons.inj henc).2.symm
    · split at hd
      · cases hd
      · split at hd
        · cases hd; cases hm
        · rw [decodeChild_modrm hd] at hm; cases hm

/-- The slots of prefixes decode to prefixes. -/
theorem decodeSlot_prefixSlots {slot : Slot Handler Child} (h : slot ∈ prefixSlots) (op : Byte) (bs : List Byte) :
    ∃ i, decodeSlot slot op bs = .ok (i, bs) ∧ isPrefix i = true := by
  simp only [prefixSlots, List.mem_cons, List.not_mem_nil, or_false] at h
  obtain rfl | rfl | rfl := h
  · exact ⟨_, rfl, by cases opSeg op <;> rfl⟩
  · exact ⟨_, rfl, rfl⟩
  · refine ⟨_, rfl, ?_⟩
    unfold byWidth
    cases opWidth op <;> rfl

/-! ### One dispatch -/

/-- The instruction at CS:IP where it is admitted: `exec` of it, IP past it, and what follows it. -/
theorem runInstr_of_admitted (next : State → Out) (hu : u = setIp s (s.ip + BitVec.ofNat 16 bs.length))
    (h : needsTierG i u = true → s.params.admitTierG = true) :
    runInstr i bs next s =
      match exec i u with
      | .next t => nest i next (charge bs i u t)
      | .fault f => .fault f
      | .refused r => .refused r := by
  subst hu
  have hc : (needsTierG i (setIp s (s.ip + BitVec.ofNat 16 bs.length)) && !s.params.admitTierG) = false := by
    cases hn : needsTierG i (setIp s (s.ip + BitVec.ofNat 16 bs.length)) with
    | false => rfl
    | true => rw [h hn]; rfl
  refine (if_neg (ne_true_of_eq_false hc)).trans ?_
  cases exec i (setIp s (s.ip + BitVec.ofNat 16 bs.length)) <;> rfl

theorem runInstr_of_refused (next : State → Out)
    (h : needsTierG i (setIp s (s.ip + BitVec.ofNat 16 bs.length)) = true) (ha : s.params.admitTierG = false) :
    runInstr i bs next s = .refused .tierGNotAdmitted := by
  simp only [runInstr, h, ha, Bool.not_false, Bool.and_self, if_true]

theorem nest_of_isPrefix {next : State → Out} (h : isPrefix i = true) : nest i next t = next t := if_pos h

theorem nest_of_not_isPrefix {next : State → Out} (h : isPrefix i = false) : nest i next t = .next t :=
  if_neg (by rw [h]; exact Bool.false_ne_true)

theorem step_of_running (h : s.run = .running) :
    Machine.step s = endStep (s.flag .TF) (dispatch longestChain (clearTransient s)) := by
  simp only [step, stepOnce, h]

/-- A dispatch that ends the chain. -/
theorem dispatch_of_not_isPrefix (n : Nat) (hi : isPrefix i = false) (hf : fetches s i bs)
    (hu : u = setIp s (s.ip + BitVec.ofNat 16 bs.length)) (ha : needsTierG i u = true → s.params.admitTierG = true) :
    dispatch (n + 1) s =
      match exec i u with
      | .next t => .next (charge bs i u t)
      | .fault f => .fault f
      | .refused r => .refused r := by
  rw [dispatch_of_fetch n (fetchInstr_of_fetches hf), runInstr_of_admitted _ hu ha]
  cases exec i u with
  | next t => exact nest_of_not_isPrefix hi
  | fault f | refused r => rfl

/-- A dispatch that nests. -/
theorem dispatch_of_isPrefix (n : Nat) (hi : isPrefix i = true) (hf : fetchInstr s = .ok (i, bs))
    (hlen : bs.length = 1) (he : exec i (setIp s (s.ip + 1)) = .next t) :
    dispatch (n + 1) s = dispatch n (charge bs i (setIp s (s.ip + 1)) t) := by
  have hu : setIp s (s.ip + 1) = setIp s (s.ip + BitVec.ofNat 16 bs.length) := by rw [hlen]; rfl
  rw [dispatch_of_fetch n hf,
    runInstr_of_admitted _ hu fun hn => by rw [needsTierG_of_isPrefix hi] at hn; cases hn]
  simp only [he, nest_of_isPrefix hi]

/-- The end of a step, the trap decided by the state before the transient fields are cleared. -/
theorem endStep_next (tf : Bool) (t : State) :
    endStep tf (.next t) =
      if t.params.singleStep && tf && !isHalted t then outcome (interrupt 1 (clearTransient t))
      else .next (clearTransient t) := rfl

/-- Settles O9, from the rule of one dispatch. -/
theorem prefixNests : Obligations.PrefixNests := by
  refine ⟨fun i bs s t n hi hf he => ?_, fun i bs s u n hi hf hu ha => dispatch_of_not_isPrefix n hi hf hu ha,
    fun s hr => ?_⟩
  · obtain ⟨op, rfl⟩ := bytes_of_isPrefix hf.2 hi
    exact dispatch_of_isPrefix n hi (fetchInstr_of_fetches hf) rfl he
  · rw [step_of_running hr]
    cases dispatch longestChain (clearTransient s) <;> rfl

theorem isHalted_charge (bs : List Byte) (i : Instr) (s t : State) : isHalted (charge bs i s t) = isHalted t := by
  simp only [isHalted, charge_run]

theorem longestChain_eq : longestChain = 65535 + 1 := rfl

/-- Settles O8: the first dispatch of the step ends the chain. -/
theorem stepRunsInstruction : Obligations.StepRunsInstruction := by
  intro i bs s u hi hr hf hu ha
  rw [step_of_running hr, longestChain_eq, dispatch_of_not_isPrefix (s := clearTransient s) _ hi hf hu ha]
  cases exec i u with
  | next t => simp only [endStep_next, charge_params, isHalted_charge]
  | fault f => rfl
  | refused r => rfl

/-! ### A chain that does not end -/

theorem fetchWindow_head {b : Byte} (n : Nat) {off : Word} (h : readByte s (lin s.segs.cs off) = .ok b) :
    ∃ bs, fetchWindow s (n + 1) off = b :: bs := by
  rw [fetchWindow, h]
  exact ⟨_, rfl⟩

/-- Where the byte at CS:IP is one of the prefixes, the fetch is of it alone. -/
theorem fetchInstr_of_prefixSlot {b : Byte} (h : readByte s (lin s.segs.cs s.ip) = .ok b)
    (hs : s.params.registry.slot b ∈ prefixSlots) : ∃ i, isPrefix i = true ∧ fetchInstr s = .ok (i, [b]) := by
  obtain ⟨bs, hw⟩ := fetchWindow_head 5 h
  obtain ⟨i, hd, hi⟩ := decodeSlot_prefixSlots hs b bs
  exact ⟨i, hi, fetchInstr_of_window (bs := [b]) hw hd⟩

/-- Every byte of the code segment is one of the prefixes. -/
def AllPrefixes (s : State) : Prop :=
  ∀ off : Word, ∃ b, readByte s (lin s.segs.cs off) = .ok b ∧ s.params.registry.slot b ∈ prefixSlots

theorem AllPrefixes.congr (h : AllPrefixes s) (hm : t.mem = s.mem) (hp : t.params = s.params)
    (hs : t.segs = s.segs) : AllPrefixes t := by
  intro off
  obtain ⟨b, hb, hslot⟩ := h off
  refine ⟨b, ?_, hp ▸ hslot⟩
  rw [readByte, hm, hp, hs]
  exact hb

/-- In such a segment no dispatch comes to an end, however long the chain may be. -/
theorem dispatch_of_allPrefixes (n : Nat) (h : AllPrefixes s) : dispatch n s = .fault .endlessPrefixChain := by
  induction n generalizing s with
  | zero => rfl
  | succ n ih =>
    obtain ⟨b, hb, hslot⟩ := h s.ip
    obtain ⟨i, hi, hf⟩ := fetchInstr_of_prefixSlot hb hslot
    obtain ⟨p, he⟩ := exec_of_isPrefix hi (setIp s (s.ip + 1))
    rw [dispatch_of_isPrefix n hi hf rfl he]
    exact ih (h.congr (by simp) (by simp) (by simp))

/-- Settles O11: no dispatch of such a segment ends, and the step begins with one. -/
theorem endlessPrefixChainStops : Obligations.EndlessPrefixChainStops := by
  intro s hr h
  rw [step_of_running hr, dispatch_of_allPrefixes (s := clearTransient s) longestChain h]
  rfl

/-! ### The tier -/

theorem exec_ne_refused (i : Instr) (s : State) (r : Refusal) : exec i s ≠ .refused r :=
  everyDefinedFormCompletes.2.2 i s r

/-- What one dispatch can do: stop at a fault, refuse at the tier check, or run an instruction and what follows it. -/
theorem dispatch_succ_cases (n : Nat) (s : State) :
    (∃ f, dispatch (n + 1) s = .fault f) ∨
    (dispatch (n + 1) s = .refused .tierGNotAdmitted ∧ s.params.admitTierG = false) ∨
    ∃ i bs v r, exec i (setIp s v) = .next r ∧
      dispatch (n + 1) s = nest i (dispatch n) (charge bs i (setIp s v) r) := by
  cases hf : fetchInstr s with
  | error f => exact .inl ⟨f, by rw [dispatch, hf]⟩
  | ok p =>
    obtain ⟨i, bs⟩ := p
    rw [dispatch_of_fetch n hf]
    by_cases hn : needsTierG i (setIp s (s.ip + BitVec.ofNat 16 bs.length)) = true ∧ s.params.admitTierG = false
    · exact .inr (.inl ⟨runInstr_of_refused _ hn.1 hn.2, hn.2⟩)
    · rw [runInstr_of_admitted _ rfl fun h => by simpa [h] using hn]
      cases he : exec i (setIp s (s.ip + BitVec.ofNat 16 bs.length)) with
      | next r => exact .inr (.inr ⟨i, bs, _, r, he, rfl⟩)
      | fault f => exact .inl ⟨f, rfl⟩
      | refused r => exact (exec_ne_refused _ _ _ he).elim

/-- Only the tier check refuses. -/
theorem refused_of_dispatch {n : Nat} {r : Refusal} (h : dispatch n s = .refused r) :
    r = .tierGNotAdmitted ∧ s.params.admitTierG = false := by
  induction n generalizing s with
  | zero => cases h
  | succ n ih =>
    obtain ⟨f, hd⟩ | ⟨hd, ha⟩ | ⟨i, bs, v, t, he, hd⟩ := dispatch_succ_cases n s
    · rw [hd] at h; cases h
    · rw [hd] at h; cases h
      exact ⟨rfl, ha⟩
    · rw [hd, nest] at h
      split at h
      · obtain ⟨hr, ha⟩ := ih h
        obtain ⟨hp, -⟩ := hiddenStateFrame _ _ _ he
        rw [charge_params, hp] at ha
        exact ⟨hr, ha⟩
      · cases h

/-- The end of a step refuses nothing that the dispatch did not. -/
theorem endStep_refused_iff {tf : Bool} {o : Out} {r : Refusal} : endStep tf o = .refused r ↔ o = .refused r := by
  cases o with
  | next t =>
    refine ⟨fun h => ?_, nofun⟩
    rw [endStep_next] at h
    split at h
    · exact (outcome_ne_refused h).elim
    · cases h
  | fault f => exact Iff.rfl
  | refused r' => exact Iff.rfl

/-- Where tier G is not admitted, a dispatch that ends the chain is refused exactly for it. -/
theorem dispatch_refused_iff (n : Nat) (hi : isPrefix i = false) (hf : fetches s i bs)
    (ha : s.params.admitTierG = false) :
    dispatch (n + 1) s = .refused .tierGNotAdmitted ↔
      needsTierG i (setIp s (s.ip + BitVec.ofNat 16 bs.length)) = true := by
  refine ⟨fun h => ?_, fun h => ?_⟩
  · by_contra hn
    rw [dispatch_of_not_isPrefix n hi hf rfl fun h => (hn h).elim] at h
    split at h
    · cases h
    · cases h
    · next r he => exact exec_ne_refused _ _ _ he
  · rw [dispatch_of_fetch n (fetchInstr_of_fetches hf), runInstr_of_refused _ h ha]

theorem divisorNotZero_of_value {w : Width} {rm : RM} {v : Word} (h : rmValue s w rm = .ok v) :
    divisorNotZero s w rm = decide (v.toNat ≠ 0) := by
  rw [divisorNotZero, h, Bool.eq_iff_iff]
  simp [BitVec.toNat_eq]

/-- Settles O12, from the tier check of one dispatch. -/
theorem refusalOnlyWithoutTierG : Obligations.RefusalOnlyWithoutTierG := by
  refine ⟨fun s r h => ?_, fun i bs s n hi hf ha => dispatch_refused_iff n hi hf ha, fun i bs s hi hf hr ha => ?_,
    fun w m s v hv => ⟨divisorNotZero_of_value hv, divisorNotZero_of_value hv⟩⟩
  · cases hr : s.run with
    | halted c => rw [step_of_halted hr] at h; cases h
    | running =>
      rw [step_of_running hr, endStep_refused_iff] at h
      exact refused_of_dispatch (s := clearTransient s) h
  · rw [step_of_running hr, endStep_refused_iff, longestChain_eq]
    exact dispatch_refused_iff (s := clearTransient s) 65535 hi hf ha

/-! ### The invariant -/

/-- What every part of a step carries over: the parameters, the canonical form of memory, and the clocks where the
accountant is off. -/
structure Carried (s t : State) : Prop where
  params : t.params = s.params
  memWf : s.mem.wf = true → t.mem.wf = true
  clocks : s.params.cycleAccounting = false → t.clocks = s.clocks

theorem Carried.trans {r : State} (h : Carried s t) (h' : Carried t r) : Carried s r :=
  ⟨h'.params.trans h.params, fun hm => h'.memWf (h.memWf hm),
    fun hc => (h'.clocks (h.params ▸ hc)).trans (h.clocks hc)⟩

theorem carried_setIp (s : State) (v : Word) : Carried s (setIp s v) := ⟨rfl, id, fun _ => rfl⟩

theorem carried_exec (h : exec i s = .next t) : Carried s t := by
  obtain ⟨u, hu, he⟩ := effect_of_exec h
  have hc := hu.eq_cache
  exact ⟨he.params.trans (by rw [hc]), fun hm => he.memWf (by rw [hc]; exact hm),
    fun _ => he.clocks.trans (by rw [hc])⟩

theorem carried_charge (bs : List Byte) (i : Instr) (u : State) (hp : t.params = u.params) :
    Carried t (charge bs i u t) := by
  refine ⟨charge_params .., fun hm => by rwa [charge_mem], fun hc => ?_⟩
  rw [charge, if_neg (by rw [← hp, hc]; exact Bool.false_ne_true)]

theorem carried_interrupt {n : Byte} (h : interrupt n s = .ok t) : Carried s t := by
  obtain ⟨hp, hc, -, -, -, hm⟩ := interrupt_hidden h
  exact ⟨hp, hm, fun _ => hc⟩

theorem carried_dispatch {n : Nat} (h : dispatch n s = .next t) : Carried s t := by
  induction n generalizing s with
  | zero => cases h
  | succ n ih =>
    obtain ⟨f, hd⟩ | ⟨hd, -⟩ | ⟨i, bs, v, r, he, hd⟩ := dispatch_succ_cases n s
    · rw [hd] at h; cases h
    · rw [hd] at h; cases h
    · have hr := carried_exec he
      have hc := ((carried_setIp s v).trans hr).trans (carried_charge bs i _ hr.params)
      rw [hd, nest] at h
      split at h
      · exact hc.trans (ih h)
      · cases h; exact hc

/-- A step from a RUNNING core carries over, and clears the transient fields. -/
theorem carried_step (hr : s.run = .running) (h : Machine.step s = .next t) :
    Carried s t ∧ t.cache = none ∧ t.pfx = .clear := by
  rw [step_of_running hr] at h
  cases hd : dispatch longestChain (clearTransient s) with
  | fault f => rw [hd] at h; cases h
  | refused r => rw [hd] at h; cases h
  | next r =>
    rw [hd, endStep_next] at h
    have hs : Carried s (clearTransient r) := by
      obtain ⟨hp, hm, hc⟩ := carried_dispatch hd
      exact ⟨hp, hm, hc⟩
    split at h
    · obtain hi := outcome_next.1 h
      obtain ⟨-, -, hpfx, hcache, -⟩ := interrupt_hidden hi
      exact ⟨hs.trans (carried_interrupt hi), hcache, hpfx⟩
    · cases h
      exact ⟨hs, rfl, rfl⟩

/-- Settles O13: the parts of a step carry the memory, the parameters and the clocks over, and its end clears the
rest. -/
theorem stepKeepsInvariant : Obligations.StepKeepsInvariant := by
  intro s t hinv h
  cases hr : s.run with
  | halted c =>
    rw [step_of_halted hr] at h
    cases h
    exact ⟨hinv, rfl⟩
  | running =>
    obtain ⟨hmem, hreg, -, -, hclk⟩ := hinv
    obtain ⟨⟨hp, hm, hc⟩, hcache, hpfx⟩ := carried_step hr h
    refine ⟨⟨hm hmem, hp ▸ hreg, hcache, hpfx, fun ha => ?_⟩, hp⟩
    rw [hp] at ha
    exact (hc ha).trans (hclk ha)

end Sys2Proof.Machine
end

section
/-! SUPPORT. The frame of every instruction: the registers, segment registers, flags and cells it leaves, one case for
each instruction, from the frames of the shared operations. -/

namespace Sys2Proof.Machine

open Sys2Proof

variable {s t u : State} {D : List Dest} {S : List SegReg} {F : List Flag} {C : List Nat}

/-! ### Frames followed by a write of FLAGS or IP -/

/-- The flags a frame with no flags in it leaves are those of the state before. -/
theorem Frame.flagsOnly {f : Word} (h : Frame s t D S [] C) (hf : FlagsOnly F s.flags f) : FlagsOnly F t.flags f :=
  fun k hk hF => (hf k hk hF).trans (h.fl k hk nofun).symm

theorem Frame.thenFlags {f : Word} (h : Frame s t D S [] C) (hf : FlagsOnly F s.flags f) :
    Frame s (setFlags t f) D S F C :=
  (h.trans (frame_setFlags (h.flagsOnly hf))).weaken (by simp) (by simp) (by simp) (by simp)

theorem Frame.thenDrawn {f : Word} (h : Frame s t D S [] C) (hf : FlagsOnly F s.flags f) :
    Frame s (setDrawnFlags t f) D S F C :=
  (h.trans (frame_setDrawn (h.flagsOnly hf))).weaken (by simp) (by simp) (by simp) (by simp)

theorem Frame.thenIp (h : Frame s t D S F C) (v : Word) : Frame s (setIp t v) D S F C :=
  ⟨h.r16, h.r8, h.seg, h.fl, h.mem⟩

theorem frame_ite_setIp (c : Prop) [Decidable c] (s : State) (v : Word) :
    Frame s (if c then setIp s v else s) [] [] [] [] := by
  split
  · exact frame_setIp s v
  · exact Frame.refl s

/-- SAHF changes the five flags its byte holds (45_transfer_control.md R344). -/
theorem sahfFlags_only {f : Word} {ah : Byte} : FlagsOnly [.CF, .PF, .AF, .ZF, .SF] f (sahfFlags f ah) := by
  intro k hk hF
  have hmask : (0xFF2A#16).getLsbD k = true ∧ (0x00D5#16).getLsbD k = false := by
    have hne : flagBit .CF ≠ k ∧ flagBit .PF ≠ k ∧ flagBit .AF ≠ k ∧ flagBit .ZF ≠ k ∧ flagBit .SF ≠ k :=
      ⟨hF _ (by simp), hF _ (by simp), hF _ (by simp), hF _ (by simp), hF _ (by simp)⟩
    clear hF
    revert k
    decide
  obtain ⟨hone, hzero⟩ := hmask
  simp [sahfFlags, hone, hzero]

/-! ### Shared forms -/

/-- A write of the r/m operand, then of flags. -/
theorem frame_writeRM_setFlags {w : Width} {reg : BitVec 3} {rm : RM} {v x f : Word} (hp : u.params = s.params)
    (hf : FlagsOnly F u.flags f)
    (h : (writeRM (cacheOf s w reg rm v) x u >>= fun r => .ok (setFlags r f)) = .ok t) :
    Frame u t (rmDest w rm) [] F (rmCells s w rm) := by
  obtain ⟨r, hr, h⟩ := bind_ok h
  cases h
  exact (frame_writeRM hp hr).thenFlags hf

theorem frame_loadFar {seg : SegReg} {m : ModRM} (h : loadFar seg m s = .next t) :
    Frame s t [(.word, m.reg)] [seg] [] [] :=
  frame_onRM h fun v _ u hu => by
    obtain ⟨a, -, hu⟩ := bind_ok hu
    cases hu
    exact (frame_setR16 _ m.reg _).trans (frame_setSeg _ seg a)

theorem frame_lodsOp {w : Width} (h : stringOp neverStops (lodsBody w) s = .next t) :
    Frame s t ((.word, .si) :: (w, .ax) :: repDest s) [] [] [] := by
  refine (frame_stringOp (F := []) (fun _ _ => frame_lodsBody) h).weaken (fun _ hd => hd) (fun _ hd => hd) ?_
    fun _ hd => hd
  intro g hg
  split at hg
  · exact hg
  · split at hg <;> exact hg

theorem frame_interruptReturn (h : interruptReturn s = .ok t) :
    Frame s (setFlags t s.flags) [spDest] [.cs] [] [] := by
  obtain ⟨⟨v, a⟩, ha, h⟩ := bind_ok h
  obtain ⟨⟨w, b⟩, hb, h⟩ := bind_ok h
  obtain ⟨⟨f, c⟩, hc, h⟩ := bind_ok h
  cases h
  have hpops := (((frame_pop ha).thenIp v).trans (frame_pop hb)).trans ((frame_setSeg b .cs w).trans (frame_pop hc))
  exact (hpops.weaken (D' := [spDest]) (S' := [.cs]) (F' := []) (C' := []) (by simp) (by simp) (by simp)
    (by simp)).thenFlags (.refl [] s.flags)

theorem frame_splitAx (s : State) (al ah : Nat) : Frame s (splitAx al ah s) [(.word, .ax)] [] statusFlags [] :=
  (frame_setR16 s .ax _).thenDrawn (psz3.trans (draw_only (by simp [statusFlags])))

/-- A shift writes its operand where the count is not 0. -/
theorem frame_shift {k : ShiftOp} {c : ShiftCount} {w : Width} {m : ModRM} (h : shiftRm k c w m s = .next t) :
    Frame s t (rmDest w m.rm) [] (shiftWrites k c s) (if shiftCount c s = 0 then [] else rmCells s w m.rm) := by
  refine (frame_shiftRm h).weaken (fun d hd => ?_) (fun _ h => h) (fun _ h => h) fun _ h => h
  split at hd
  · cases hd
  · exact hd

/-! ### Every instruction -/

/-- What an instruction that takes no exception leaves; FLAGS are left out where it writes all of them. -/
def OwnFrame (i : Instr) (s t : State) : Prop :=
  Frame s (if writesAllFlags i then setFlags t s.flags else t) (ownDests i s) (ownSegs i) (ownFlags i s) (ownCells i s)

theorem ownFrame_exec {i : Instr} (h : exec i s = .next t) (hi : takesInterrupt i s = false) : OwnFrame i s t := by
  cases i <;> dsimp only [exec] at h
  case addRmReg | orRmReg | adcRmReg | sbbRmReg | andRmReg | subRmReg | xorRmReg | cmpRmReg =>
    exact frame_aluRmReg h
  case addAccImm | orAccImm | adcAccImm | sbbAccImm | andAccImm | subAccImm | xorAccImm | cmpAccImm =>
    exact frame_aluAccImm h
  case addRmImm | orRmImm | adcRmImm | sbbRmImm | andRmImm | subRmImm | xorRmImm | cmpRmImm =>
    exact frame_aluRmImm h
  case rol | ror | rcl | rcr | shl | shr | sar => exact frame_shift h
  case testRmReg | testRmImm => exact frame_onRM h fun v _ u hu => by cases hu; exact frame_setFlags logic_only
  case testAccImm => obtain rfl := frame_next_inj h; exact frame_setFlags logic_only
  case incReg r =>
    obtain rfl := frame_next_inj h
    exact (frame_setR16 s r _).thenFlags (nc_only flagsAdd_only)
  case decReg r =>
    obtain rfl := frame_next_inj h
    exact (frame_setR16 s r _).thenFlags (nc_only flagsSub_only)
  case incRm => exact frame_onRM h fun v _ u hu => frame_writeRM_setFlags rfl (nc_only flagsAdd_only) hu
  case decRm => exact frame_onRM h fun v _ u hu => frame_writeRM_setFlags rfl (nc_only flagsSub_only) hu
  case negRm => exact frame_onRM h fun v _ u hu => frame_writeRM_setFlags rfl flagsSub_only hu
  case notRm | movRmImm => exact frame_onRM h fun v _ u hu => frame_writeRM rfl hu
  case pushReg | pushSeg | pushf => exact frame_push (outcome_next.1 h)
  case pushRm => exact frame_onRM h fun v _ u hu => frame_push hu
  case popReg r =>
    obtain ⟨⟨v, u⟩, hp, h⟩ := bind_ok (outcome_next.1 h)
    cases h
    exact (frame_pop hp).trans (frame_setR16 u r v)
  case popSeg r =>
    obtain ⟨⟨v, u⟩, hp, h⟩ := bind_ok (outcome_next.1 h)
    cases h
    exact (frame_pop hp).trans (frame_setSeg u r v)
  case popf =>
    obtain ⟨⟨v, u⟩, hp, h⟩ := bind_ok (outcome_next.1 h)
    cases h
    exact (frame_pop hp).thenFlags (.refl [] s.flags)
  case popRm m =>
    refine frame_onRM h fun v _ r hr => ?_
    obtain ⟨⟨x, u⟩, hp, hw⟩ := bind_ok hr
    obtain ⟨-, rfl⟩ := pop16_ok.1 hp
    exact (frame_pop hp).trans (frame_writeRM rfl hw)
  case iret => exact frame_interruptReturn (outcome_next.1 h)
  case int3 | int => cases hi
  case into =>
    replace hi : s.flag .OF = false := hi
    unfold execInto at h
    rw [hi] at h
    cases h
    exact Frame.refl s
  case hlt | unmapped | nop | wait | segEs | segCs | segSs | segDs | lock | repnz | repz =>
    obtain rfl := frame_next_inj h
    exact frame_same rfl rfl rfl rfl
  case emptyChild | esc | jmpRm => exact frame_onRM h fun v _ u hu => by cases hu; exact frame_same rfl rfl rfl rfl
  case movRmReg d w m =>
    refine frame_onRM h fun v _ u hu => ?_
    cases d
    · exact frame_writeRM rfl hu
    · cases hu; exact frame_setReg _ w m.reg v
  case movRmSeg m =>
    refine frame_onRM h fun v _ u hu => ?_
    cases hr : SegReg.ofNumber m.reg with
    | none => rw [hr] at hu; cases hu
    | some r => rw [hr] at hu; exact frame_writeRM rfl hu
  case movSegRm m =>
    refine frame_onRM h fun v _ u hu => ?_
    show Frame _ _ _ (SegReg.ofNumber m.reg).toList _ _
    cases hr : SegReg.ofNumber m.reg with
    | none => rw [hr] at hu; cases hu
    | some r => rw [hr] at hu; cases hu; exact frame_setSeg _ r v
  case movMoffs d w off =>
    cases d
    · obtain ⟨m, rfl, -, hm⟩ := writeMem_spec (outcome_next.1 h)
      exact frame_memo hm
    · obtain ⟨v, -, h⟩ := bind_ok (outcome_next.1 h)
      cases h
      exact frame_setReg s w .ax v
  case movRegImm r i => obtain rfl := frame_next_inj h; exact frame_setReg s i.width r _
  case lea m =>
    obtain ⟨reg, rm⟩ := m
    refine frame_onRM h fun v _ u hu => ?_
    cases rm <;> cases hu <;> exact frame_setR16 _ reg _
  case lds | les => exact frame_loadFar h
  case xchgRmReg w m =>
    exact frame_onRM h fun v _ u hu => (frame_setReg _ w m.reg v).trans (frame_writeRM (setReg_params ..) hu)
  case xchgAcc r => obtain rfl := frame_next_inj h; exact (frame_setR16 s .ax _).trans (frame_setR16 _ r _)
  case cbw => obtain rfl := frame_next_inj h; exact frame_setR16 s .ax _
  case cwd => obtain rfl := frame_next_inj h; exact frame_setR16 s .dx _
  case lahf => obtain rfl := frame_next_inj h; exact frame_setR8 s .sp _
  case sahf => obtain rfl := frame_next_inj h; exact frame_setFlags sahfFlags_only
  case clc | stc | cmc | cli | sti | cld | std =>
    obtain rfl := frame_next_inj h
    exact frame_setFlags ((FlagsOnly.refl _ _).set _ _ (List.mem_singleton.2 rfl))
  case xlat =>
    obtain ⟨v, -, h⟩ := bind_ok (outcome_next.1 h)
    cases h
    exact frame_setR8 s .ax v
  case jo | jno | jb | jnb | jz | jnz | jbe | ja | js | jns | jp | jnp | jl | jnl | jle | jnle => exact frame_jcc h
  case jcxz => obtain rfl := frame_next_inj h; exact frame_ite_setIp _ s _
  case jmpShort | jmpNear => obtain rfl := frame_next_inj h; exact frame_setIp s _
  case jmpFar off seg => obtain rfl := frame_next_inj h; exact frame_jumpFar s off seg
  case jmpFarMem =>
    refine frame_onRM h fun v _ u hu => ?_
    obtain ⟨seg, -, hu⟩ := bind_ok hu
    cases hu
    exact frame_jumpFar _ v seg
  case callNear =>
    obtain ⟨u, hp, h⟩ := bind_ok (outcome_next.1 h)
    cases h
    exact (frame_push hp).thenIp _
  case callRm =>
    refine frame_onRM h fun v _ u hu => ?_
    obtain ⟨r, hp, hu⟩ := bind_ok hu
    cases hu
    exact (frame_push hp).thenIp v
  case callFar => exact frame_callFarTo (outcome_next.1 h)
  case callFarMem =>
    refine frame_onRM h fun v _ u hu => ?_
    obtain ⟨seg, -, hu⟩ := bind_ok hu
    exact frame_callFarTo hu
  case ret | retImm => exact frame_returnNear (outcome_next.1 h)
  case retf | retfImm => exact frame_returnFar (outcome_next.1 h)
  case loop | loopz | loopnz => exact frame_loopWhen h
  case movsb | movsw => exact frame_storingOp (fun _ _ => movs_hb) h
  case stosb | stosw => exact frame_storingOp (fun _ _ => stos_hb) h
  case cmpsb | cmpsw => exact frame_stringOp (fun _ _ => frame_cmpsBody) h
  case scasb | scasw => exact frame_stringOp (fun _ _ => frame_scasBody) h
  case lodsb | lodsw => exact frame_lodsOp h
  case mul | imul => exact frame_onRM h fun v _ u hu => by cases hu; exact frame_mul
  case div w m =>
    obtain ⟨v, hv, h⟩ := onRM_next h
    rw [takesInterrupt_div hv, Bool.not_eq_false'] at hi
    obtain rfl := Except.ok.inj ((if_pos hi).symm.trans h)
    exact frame_quot
  case idiv w m =>
    obtain ⟨v, hv, h⟩ := onRM_next h
    rw [takesInterrupt_idiv hv, Bool.not_eq_false'] at hi
    obtain rfl := Except.ok.inj ((if_pos hi).symm.trans h)
    exact frame_quot
  case daa => obtain rfl := frame_next_inj h; exact (frame_setR8 s .ax _).thenDrawn daa_only
  case das => obtain rfl := frame_next_inj h; exact (frame_setR8 s .ax _).thenDrawn das_only
  case aaa | aas => obtain rfl := frame_next_inj h; exact frame_ascii
  case aam base =>
    obtain rfl := frame_next_inj ((if_neg (beq_eq_false_iff_ne.1 hi)).symm.trans h)
    exact frame_splitAx s _ _
  case aad => obtain rfl := frame_next_inj h; exact frame_splitAx s _ _
  case inImm | inDx => obtain rfl := frame_next_inj h; exact frame_inPort
  case outImm | outDx => obtain rfl := frame_next_inj h; exact frame_out

end Sys2Proof.Machine
end

section
/-! SUPPORT. The frames of registers, segment registers, FLAGS and memory: those of the rule, or those of an exception
(60_exceptions.md R462). -/

namespace Sys2Proof.Machine

open Sys2Proof

variable {i : Instr} {s t : State}

/-- An instruction that takes an exception writes what the exception writes. -/
theorem frame_exception (h : exec i s = .next t) (hi : takesInterrupt i s = true) :
    Frame s t [spDest] [.cs] [.TF, .IF] (interruptCells s) := by
  obtain ⟨u, hu, he⟩ := effect_of_exec h
  cases he with
  | exception _ h =>
    rw [hu.eq_cache] at h
    exact (frame_same (s := s) (t := { s with cache := u.cache }) rfl rfl rfl rfl).trans (frame_interrupt h)
  | halts hc _ => rw [takesInterrupt_of_haltCauseOf hc] at hi; cases hi
  | nests hp _ => rw [(special_of_isPrefix hp).2] at hi; cases hi
  | port hp _ => rw [(special_of_usesPort hp).2] at hi; cases hi
  | ordinary hn _ _ => rw [hn] at hi; cases hi

theorem writesAllFlags_of_takesInterrupt (hi : takesInterrupt i s = true) : writesAllFlags i = false := by
  have hapart := apart_of_halt_or_popf i s
  simp only [hi, Bool.and_true, Bool.or_eq_false_iff] at hapart
  exact hapart.2

/-- The frame of every instruction, an exception or not. -/
theorem frame_exec (h : exec i s = .next t) :
    Frame s (if writesAllFlags i then setFlags t s.flags else t) (dests i s) (writtenSegs i s) (writtenFlags i s)
      (storedCells i s) := by
  unfold dests writtenSegs writtenFlags storedCells
  cases hi : takesInterrupt i s with
  | false => exact ownFrame_exec h hi
  | true =>
    rw [writesAllFlags_of_takesInterrupt hi]
    exact frame_exception h hi

/-- What a frame with FLAGS put back says of the registers and of memory. -/
theorem unchanged_ite_setFlags (b : Bool) (t : State) (f : Word) :
    (if b then setFlags t f else t).gpr = t.gpr ∧ (if b then setFlags t f else t).segs = t.segs ∧
      (if b then setFlags t f else t).mem = t.mem := by
  cases b <;> exact ⟨rfl, rfl, rfl⟩

/-- Settles O18, from the frame of every instruction. -/
theorem registerFrame : Obligations.RegisterFrame := by
  intro i s t h
  obtain ⟨hgpr, -, -⟩ := unchanged_ite_setFlags (writesAllFlags i) t s.flags
  exact ⟨fun q hq => (getR16_congr hgpr q).symm.trans ((frame_exec h).r16 q hq),
    fun q hq => (getR8_congr hgpr q).symm.trans ((frame_exec h).r8 q hq)⟩

/-- Settles O19, from the frame of every instruction. -/
theorem segmentFrame : Obligations.SegmentFrame := by
  intro i s t h q hq
  obtain ⟨-, hsegs, -⟩ := unchanged_ite_setFlags (writesAllFlags i) t s.flags
  exact (getSeg_congr hsegs q).symm.trans ((frame_exec h).seg q hq)

/-- Settles O20, from the frame of every instruction. -/
theorem flagFrame : Obligations.FlagFrame := by
  intro i s t h hw k hk hF
  have hfl := (frame_exec h).fl k hk hF
  rwa [hw] at hfl

/-- Settles O21, from the frame of every instruction. -/
theorem memoryFrame : Obligations.MemoryFrame := by
  intro i s t h a ha
  obtain ⟨-, -, hmem⟩ := unchanged_ite_setFlags (writesAllFlags i) t s.flags
  exact (congrArg (Memory.read · a) hmem).symm.trans ((frame_exec h).mem a ha)

end Sys2Proof.Machine
end

section
/-! SUPPORT. Taking an interrupt and returning from it (44_stack_interrupt.md section 3), and the pops (section 1 and
2). -/

namespace Sys2Proof.Machine

open Sys2Proof

variable {s t u : State}

theorem stackCells_congr (hss : t.segs.ss = s.segs.ss) (hp : t.params = s.params) (off : Word) :
    stackCells t off = stackCells s off := by
  rw [stackCells, stackCells, hss, hp]

theorem mem_interruptCells {c : Nat} : c ∈ interruptCells s ↔ c ∈ stackCells s (s.gpr.sp - 2) ∨
    c ∈ stackCells s (s.gpr.sp - 2 - 2) ∨ c ∈ stackCells s (s.gpr.sp - 2 - 2 - 2) := by
  rw [sub222, sub22, interruptCells, List.mem_append, List.mem_append, or_assoc]

/-- What lies in the three words an interrupt pushed is what IRET pops, where they, SS and SP are as the interrupt left
them. -/
theorem interruptReturn_of_interrupt {n : Byte} (hwf : s.mem.wf = true) (h : interrupt n s = .ok t)
    (hsp : u.gpr.sp = t.gpr.sp) (hss : u.segs.ss = t.segs.ss) (hp : u.params = t.params)
    (hm : ∀ a, a ∈ interruptCells s → Memory.read u.mem a = Memory.read t.mem a) :
    interruptReturn u =
      .ok (setFlags (setR16 (setSeg (setIp u s.ip) .cs s.segs.cs) .sp s.gpr.sp) s.flags) := by
  obtain ⟨hf, hc, hi⟩ := interrupt_stackWords hwf h
  have htsp : t.gpr.sp = s.gpr.sp - 2 - 2 - 2 := (interrupt_sp_flags_run h).1
  have hts : t.segs.ss = s.segs.ss ∧ t.params = s.params := by
    obtain ⟨m, ip, cs, rfl, -⟩ := interrupt_spec h
    exact ⟨rfl, rfl⟩
  have hword (off : Word) (hin : ∀ c ∈ stackCells s off, c ∈ interruptCells s) : stackWord u off = stackWord t off :=
    stackWord_congr hss hp fun c hc => hm c (hin c (stackCells_congr hts.1 hts.2 off ▸ hc))
  have hflags := (hword (s.gpr.sp - 2) fun c hc => mem_interruptCells.2 (.inl hc)).trans hf
  have hcs := (hword (s.gpr.sp - 2 - 2) fun c hc => mem_interruptCells.2 (.inr (.inl hc))).trans hc
  have hip := (hword (s.gpr.sp - 2 - 2 - 2) fun c hc => mem_interruptCells.2 (.inr (.inr hc))).trans hi
  have husp : u.gpr.sp = s.gpr.sp - 2 - 2 - 2 := hsp.trans htsp
  have h2 : u.gpr.sp + 2 = s.gpr.sp - 2 - 2 := by rw [husp, BitVec.sub_add_cancel]
  have h4 : u.gpr.sp + 2 + 2 = s.gpr.sp - 2 := by rw [h2, BitVec.sub_add_cancel]
  have h6 : u.gpr.sp + 2 + 2 + 2 = s.gpr.sp := by rw [h4, BitVec.sub_add_cancel]
  rw [interruptReturn_of_stackWords (husp ▸ hip) (h2 ▸ hcs) (h4 ▸ hflags), h6]
  rfl

/-- Settles O37: IRET pops the three words the interrupt pushed, and writes nothing else. -/
theorem interruptIretRoundTrip : Obligations.InterruptIretRoundTrip := by
  intro n s t u hwf h hsp hss hp hm
  have hret := interruptReturn_of_interrupt hwf (outcome_next.1 h) hsp hss hp hm
  refine ⟨_, congrArg outcome hret, rfl, rfl, rfl, rfl, fun q hq => ?_, fun q hq => ?_⟩
  · exact getR16_setR16_ne (setSeg (setIp u s.ip) .cs s.segs.cs) s.gpr.sp hq
  · exact getSeg_setSeg_ne (setIp u s.ip) s.segs.cs hq

/-! ### Pops -/

/-- A pop of a known word. -/
theorem pop16_of_stackWord {v : Word} (h : stackWord s s.gpr.sp = .ok v) :
    pop16 s = .ok (v, setR16 s .sp (s.gpr.sp + 2)) := pop16_ok.2 ⟨h, rfl⟩

/-- POP r/m16: the place is the one resolved before the pop (44_stack_interrupt.md R297). -/
theorem exec_popRm {m : ModRM} {v : Word} (hwf : s.mem.wf = true) (h : stackWord s s.gpr.sp = .ok v)
    (ha : rmAccessible s .word m.rm = true) :
    ∃ t, exec (.popRm m) s = .next t ∧ readPlace t .word (placeOf s m.rm) = .ok v ∧
      (m.rm ≠ .reg .sp → t.gpr.sp = s.gpr.sp + 2) ∧ t.flags = s.flags := by
  obtain ⟨x, hx⟩ := rmValue_total ha
  have hp : (setR16 (withCache s (cacheOf s .word m.reg.bits m.rm x)) .sp (s.gpr.sp + 2)).params = s.params := rfl
  obtain ⟨t, ht, hflags, hread⟩ := writeRM_of_value m.reg.bits v hx hp hwf
  have hpop := pop16_of_stackWord (s := withCache s (cacheOf s .word m.reg.bits m.rm x)) h
  refine ⟨t, ?_, hread, fun hn => ?_, hflags⟩
  · unfold exec
    refine (onRM_of_value _ hx).trans (outcome_next.2 ?_)
    exact (bind_of_ok hpop).trans ht
  · obtain ⟨n, hrm, rfl⟩ | ⟨-, mem, rfl, -⟩ := writeRM_spec hp ht
    · have hne : Reg16.sp ≠ n := fun e => hn (by rw [hrm, e])
      exact getR16_setR16_ne _ v hne
    · rfl

/-- Settles O33: the word the pop reads is what is written, after SP went up. -/
theorem pops : Obligations.Pops := by
  intro s v hwf hv
  have hpop := pop16_of_stackWord hv
  refine ⟨fun r => ?_, fun r => ?_, fun m ha => exec_popRm hwf hv ha⟩
  · refine ⟨_, congrArg outcome (bind_of_ok hpop), getR16_setR16_same _ r v, fun hr => ?_, rfl⟩
    exact getR16_setR16_ne (setR16 s .sp (s.gpr.sp + 2)) v hr.symm
  · exact ⟨_, congrArg outcome (bind_of_ok hpop), getSeg_setSeg_same _ r v, rfl, rfl⟩

end Sys2Proof.Machine
end

section
/-! SUPPORT. The instructions that halt, the ports, ESC and WAIT, the prefixes and the host's reset. -/

namespace Sys2Proof.Machine

open Sys2Proof

variable {s t : State}

/-! ### Halting -/

theorem haltCauseOf_cases {i : Instr} {c : HaltCause} (h : haltCauseOf i = some c) :
    (i = .hlt ∧ c = .hlt) ∨ (∃ op, i = .unmapped op ∧ c = .unmapped) ∨
      ∃ op m, i = .emptyChild op m ∧ c = .emptyChild := by
  cases i with
  | hlt => cases h; exact .inl ⟨rfl, rfl⟩
  | unmapped op => cases h; exact .inr (.inl ⟨op, rfl, rfl⟩)
  | emptyChild op m => cases h; exact .inr (.inr ⟨op, m, rfl, rfl⟩)
  | _ => exact absurd h.symm (Option.some_ne_none c)

/-- A halting instruction halts the core; an empty child resolves its operand first (40_decode_dispatch.md R151 to
R154). -/
theorem exec_of_haltCauseOf {i : Instr} {c : HaltCause} (hc : haltCauseOf i = some c)
    (ha : ∀ op m, i = .emptyChild op m → rmAccessible s (demuxWidth op) m.rm = true) :
    ∃ o, exec i s = .next (halt c { s with cache := o }) := by
  obtain ⟨rfl, rfl⟩ | ⟨op, rfl, rfl⟩ | ⟨op, m, rfl, rfl⟩ := haltCauseOf_cases hc
  · exact ⟨s.cache, rfl⟩
  · exact ⟨s.cache, rfl⟩
  · obtain ⟨v, hv⟩ := rmValue_total (ha op m rfl)
    dsimp only [exec]
    exact ⟨_, onRM_of_value _ hv⟩

/-- Settles O38: `halt` writes the run state alone, and a HALTED core takes no step. -/
theorem haltingInstructions : Obligations.HaltingInstructions := by
  intro i s c hc ha
  obtain ⟨o, he⟩ := exec_of_haltCauseOf hc ha
  exact ⟨_, he, rfl, rfl, rfl, rfl, rfl, rfl, step_of_halted rfl⟩

/-! ### Ports -/

theorem isWordCall_eq (w : Width) : isWordCall w = decide (w = .word) := by cases w <;> rfl

/-- IN: the reply of a mapped port's device, else 0 (20_memory.md R84, R85). -/
theorem inPort_spec (w : Width) (port : Word) (s : State) :
    ∃ t, inPort w port s = .next t ∧ t.flags = s.flags ∧ t.mem = s.mem ∧
      (port ∉ s.params.mappedPorts → getReg t w .ax = 0 ∧ t.portCalls = s.portCalls) ∧
      (port ∈ s.params.mappedPorts → t.portCalls = .pin (decide (w = .word)) port :: s.portCalls ∧
        getReg t w .ax = portValue w (Config.pinDraw s.draws s.portCalls (decide (w = .word)) port)) := by
  refine ⟨_, rfl, ?_⟩
  by_cases hp : port ∈ s.params.mappedPorts
  · have hin : portIn w port s = (portValue w (Config.pinDraw s.draws s.portCalls (isWordCall w) port),
        { s with draws := s.draws + 1, portCalls := .pin (isWordCall w) port :: s.portCalls }) :=
      if_pos (List.contains_iff_mem.2 hp)
    rw [hin, isWordCall_eq]
    refine ⟨setReg_flags .., setReg_mem .., fun hn => (hn hp).elim, fun _ => ⟨setReg_portCalls .., ?_⟩⟩
    exact (getReg_setReg_same _ w .ax _).trans (by cases w <;> simp [portValue, keep])
  · have hin : portIn w port s = (0, s) := if_neg fun h => hp (List.contains_iff_mem.1 h)
    rw [hin]
    refine ⟨setReg_flags .., setReg_mem .., fun _ => ⟨?_, setReg_portCalls ..⟩, fun h => (hp h).elim⟩
    exact (getReg_setReg_same s w .ax 0).trans (by cases w <;> rfl)

/-- OUT: one call of a mapped port's device, with the value of AL or AX. -/
theorem portOut_spec (w : Width) (port : Word) (s : State) :
    (portOut w port (getReg s w .ax) s).gpr = s.gpr ∧ (portOut w port (getReg s w .ax) s).flags = s.flags ∧
      (portOut w port (getReg s w .ax) s).mem = s.mem ∧
      (port ∉ s.params.mappedPorts → portOut w port (getReg s w .ax) s = s) ∧
      (port ∈ s.params.mappedPorts → (portOut w port (getReg s w .ax) s).portCalls =
        .pout (decide (w = .word)) port (getReg s w .ax) :: s.portCalls) := by
  by_cases hp : port ∈ s.params.mappedPorts
  · have hout (v : Word) :
        portOut w port v s = { s with portCalls := .pout (isWordCall w) port (portValue w v) :: s.portCalls } :=
      if_pos (List.contains_iff_mem.2 hp)
    have hv : portValue w (getReg s w .ax) = getReg s w .ax := keep_getReg s w .ax
    rw [hout, hv, isWordCall_eq]
    exact ⟨rfl, rfl, rfl, fun hn => (hn hp).elim, fun _ => rfl⟩
  · have hout (v : Word) : portOut w port v s = s := if_neg fun h => hp (List.contains_iff_mem.1 h)
    rw [hout]
    exact ⟨rfl, rfl, rfl, fun _ => rfl, fun h => (hp h).elim⟩

theorem zext16_eq_of_toNat {p : Byte} {port : Word} (h : port.toNat = p.toNat) : zext16 p = port :=
  BitVec.eq_of_toNat_eq ((toNat_zext16 p).trans h.symm)

/-- Settles O58, from the two port calls and the resolver that ESC runs. -/
theorem portsEscWait : Obligations.PortsEscWait := by
  refine ⟨fun i j w port s h => ?_, fun n m s ha => ?_, fun n m s ha => ?_, fun s => rfl⟩
  · obtain ⟨p, rfl, rfl, hp⟩ | ⟨rfl, rfl, rfl⟩ := h
    · obtain rfl := zext16_eq_of_toNat hp
      exact ⟨inPort_spec w _ s, _, rfl, portOut_spec w _ s⟩
    · exact ⟨inPort_spec w _ s, _, rfl, portOut_spec w _ s⟩
  · obtain ⟨v, hv⟩ := rmValue_total ha
    unfold exec
    exact ⟨_, onRM_of_value _ hv, rfl, rfl, rfl, rfl, rfl⟩
  · unfold exec
    exact onRM_of_not_accessible _ _ ha

/-! ### Prefixes and the host's reset -/

theorem getR16_reset (r : Reg16) : getR16 State.reset r = 0 := by cases r <;> rfl

theorem getSeg_reset (r : SegReg) : getSeg State.reset r = 0 := by cases r <;> rfl

/-- Settles O59, by the rules of the prefixes and the fields that the reset writes. -/
theorem prefixesAndReset : Obligations.PrefixesAndReset := by
  refine ⟨fun i s p h => ?_, fun s => ⟨rfl, rfl, rfl, rfl, rfl, rfl, rfl, rfl, rfl, rfl, rfl⟩, fun s hz => ?_⟩
  · simp only [List.mem_cons, Prod.mk.injEq, List.not_mem_nil, or_false] at h
    obtain ⟨rfl, rfl⟩ | ⟨rfl, rfl⟩ | ⟨rfl, rfl⟩ | ⟨rfl, rfl⟩ | ⟨rfl, rfl⟩ | ⟨rfl, rfl⟩ | ⟨rfl, rfl⟩ := h <;> rfl
  · have hgpr : (hostReset s).gpr = State.reset.gpr := congrArg ResetState.gpr hz
    have hsegs : (hostReset s).segs = State.reset.segs := congrArg ResetState.segs hz
    exact ⟨fun r => (getR16_congr hgpr r).trans (getR16_reset r), fun r => (getSeg_congr hsegs r).trans (getSeg_reset r),
      congrArg ResetState.ip hz, congrArg ResetState.flags hz⟩

end Sys2Proof.Machine
end

section
/-! SUPPORT. The built registry and the launch: 256 slots of 8 children, memory with the image (30_encoding.md section
2, 10_state.md section 8, 70_reset_and_hazards.md section 1). -/

namespace Sys2Proof

theorem decodeTableWord_of_encode {nbits w : Nat} {i : Instr} (rest : List Byte) (hi : i.wf = true)
    (h : tableWordBytes nbits w = encode i ++ rest) : decodeTableWord nbits w = some i := by
  rw [decodeTableWord, h, encodedInstructionDecodes i rest hi]

/-- Settles O4: each word is the encoding of its instruction, with 0 bytes after it. -/
theorem writtenWordsDecode : Obligations.WrittenWordsDecode :=
  ⟨decodeTableWord_of_encode [0, 0, 0, 0] rfl rfl, decodeTableWord_of_encode [0, 0, 0] rfl rfl,
    decodeTableWord_of_encode [0, 0, 0, 0] rfl rfl, decodeTableWord_of_encode [0, 0, 0, 0] rfl rfl,
    decodeTableWord_of_encode [0, 0, 0, 0] rfl rfl, decodeTableWord_of_encode [0, 0, 0, 0, 0] rfl rfl,
    decodeTableWord_of_encode [0, 0, 0, 0, 0] rfl rfl, decodeTableWord_of_encode [0, 0, 0, 0, 0] rfl rfl,
    decodeTableWord_of_encode [0, 0, 0, 0, 0] rfl rfl⟩

/-! ### What a build gives -/

section Build

variable {H C : Type}

/-- A slot that is a demux node, or can become one, has 8 children. -/
def Slot.Sized (x : Slot H C) : Prop := ∀ cs, x.children? = some cs → cs.length = 8

theorem sized_empty : (Slot.empty : Slot H C).Sized := by
  intro cs h
  cases h
  exact List.length_replicate

theorem sized_of_binds (c : Claim H C) (x y : Slot H C) (hx : x.Sized) (h : c.Binds x y) : y.Sized := by
  intro ds hds
  cases c with
  | direct v k => obtain ⟨-, rfl⟩ := h; cases hds
  | node v => obtain ⟨cs, hcs, rfl⟩ := h; cases hds; exact hx _ hcs
  | child v j k =>
    obtain ⟨es, hes, -, rfl⟩ := h
    cases hds
    exact List.length_set.trans (hx es hes)

theorem length_of_applyClaims {cs : List (Claim H C)} {t u : SlotTable H C} (h : applyClaims t cs = .ok u) :
    u.length = t.length := by
  induction cs generalizing t with
  | nil => cases h; rfl
  | cons c cs ih =>
    obtain ⟨t1, hc, hr⟩ := applyClaims_cons_eq_ok.1 h
    obtain ⟨x, -, rfl⟩ := Claim.apply_eq_ok.1 hc
    exact (ih hr).trans List.length_set

end Build

/-! ### The claims a table stands for

A build makes its claims in the order of the registrations. A table is the one they build where they are, in some order,
the claims that can be read off it slot by slot, since the order of claims does not matter (`applyClaims_perm`). -/

section Claims

variable {H C : Type}

/-- The claims of a list of children from `j` on. -/
def childrenClaims (n : Nat) : Nat → List (Option C) → List (Claim H C)
  | _, [] => []
  | j, none :: cs => childrenClaims n (j + 1) cs
  | j, some c :: cs => .child n j c :: childrenClaims n (j + 1) cs

/-- The claims that make the empty slot `n` a given slot. -/
def slotClaims (n : Nat) : Slot H C → List (Claim H C)
  | .empty => []
  | .direct h => [.direct n h]
  | .demux cs => .node n :: childrenClaims n 0 cs

/-- The claims that make an empty table, from slot `n` on, a given table. -/
def tableClaims : Nat → SlotTable H C → List (Claim H C)
  | _, [] => []
  | n, x :: t => slotClaims n x ++ tableClaims (n + 1) t

theorem tableClaims_append (n : Nat) (t u : SlotTable H C) :
    tableClaims n (t ++ u) = tableClaims n t ++ tableClaims (n + t.length) u := by
  induction t generalizing n with
  | nil => rfl
  | cons x t ih =>
    rw [List.cons_append, tableClaims, ih, tableClaims, List.append_assoc, List.length_cons, Nat.add_assoc,
      Nat.add_comm 1]

theorem getD_length_append {α : Type} (l m : List α) (x d : α) : (l ++ x :: m).getD l.length d = x := by
  rw [List.getD_eq_getElem?_getD, List.getElem?_append_right (Nat.le_refl _), Nat.sub_self]
  rfl

theorem set_length_append {α : Type} (l m : List α) (x y : α) : (l ++ x :: m).set l.length y = l ++ y :: m := by
  rw [List.set_append_right _ _ (Nat.le_refl _), Nat.sub_self, List.set_cons_zero]

theorem applyClaims_children (pre post : SlotTable H C) (done cs : List (Option C)) :
    applyClaims (pre ++ .demux (done ++ List.replicate cs.length none) :: post)
        (childrenClaims pre.length done.length cs) = .ok (pre ++ .demux (done ++ cs) :: post) := by
  induction cs generalizing done with
  | nil => rfl
  | cons o cs ih =>
    have hstep := ih (done ++ [o])
    rw [List.length_append, List.append_assoc, List.append_assoc] at hstep
    cases o with
    | none => exact hstep
    | some c =>
      refine applyClaims_cons_eq_ok.2 ⟨_, Claim.apply_eq_ok.2 ⟨.demux (done ++ some c :: List.replicate cs.length none),
        ?_, set_length_append _ _ _ _⟩, hstep⟩
      rw [Claim.slot, getD_length_append]
      refine ⟨_, rfl, getD_length_append _ _ _ _, ?_⟩
      rw [List.length_cons, List.replicate_succ, set_length_append]

theorem applyClaims_slot (pre post : SlotTable H C) {x : Slot H C} (hx : x.Sized) :
    applyClaims (pre ++ .empty :: post) (slotClaims pre.length x) = .ok (pre ++ x :: post) := by
  cases x with
  | empty => rfl
  | direct h =>
    refine applyClaims_cons_eq_ok.2 ⟨_, Claim.apply_eq_ok.2 ⟨.direct h, ?_, set_length_append _ _ _ _⟩, rfl⟩
    rw [Claim.slot, getD_length_append]
    exact ⟨rfl, rfl⟩
  | demux cs =>
    have hchildren := applyClaims_children pre post [] cs
    rw [hx cs rfl] at hchildren
    refine applyClaims_cons_eq_ok.2 ⟨_, Claim.apply_eq_ok.2 ⟨.demux (noChildren C), ?_, set_length_append _ _ _ _⟩,
      hchildren⟩
    rw [Claim.slot, getD_length_append]
    exact ⟨_, rfl, rfl⟩

/-- A table is built by its own claims. -/
theorem applyClaims_tableClaims (pre t : SlotTable H C) (ht : ∀ x ∈ t, x.Sized) :
    applyClaims (pre ++ List.replicate t.length .empty) (tableClaims pre.length t) = .ok (pre ++ t) := by
  induction t generalizing pre with
  | nil => rfl
  | cons x t ih =>
    have hrest := ih (pre ++ [x]) fun y hy => ht y (List.mem_cons_of_mem x hy)
    rw [List.append_assoc, List.append_assoc, List.length_append] at hrest
    exact applyClaims_append_eq_ok.2 ⟨_, applyClaims_slot pre _ (ht x List.mem_cons_self), hrest⟩

/-- The claims of some registrations are, in some order, those of a part of a table from slot `n` on. -/
def ClaimsOf (rs : List (Registration H C)) (n : Nat) (t : SlotTable H C) : Prop :=
  ∃ cs, allClaims rs = .ok cs ∧ cs.Perm (tableClaims n t)

theorem allClaims_append {rs rs' : List (Registration H C)} {cs ds : List (Claim H C)} (h : allClaims rs = .ok cs)
    (h' : allClaims rs' = .ok ds) : allClaims (rs ++ rs') = .ok (cs ++ ds) := by
  induction rs generalizing cs with
  | nil => cases h; exact h'
  | cons r rs ih =>
    obtain ⟨a, b, ha, hb, rfl⟩ := allClaims_cons_eq_ok.1 h
    exact allClaims_cons_eq_ok.2 ⟨a, b ++ ds, ha, ih hb, (List.append_assoc a b ds).symm⟩

theorem ClaimsOf.append {rs rs' : List (Registration H C)} {n m : Nat} {t u : SlotTable H C} (h : ClaimsOf rs n t)
    (h' : ClaimsOf rs' m u) (hm : n + t.length = m) : ClaimsOf (rs ++ rs') n (t ++ u) := by
  obtain ⟨cs, hcs, hperm⟩ := h
  obtain ⟨ds, hds, hperm'⟩ := h'
  refine ⟨cs ++ ds, allClaims_append hcs hds, ?_⟩
  rw [tableClaims_append, hm]
  exact hperm.append hperm'

/-- Registrations whose claims are those of a table of 256 slots build it. -/
theorem ClaimsOf.buildRegistry {rs : List (Registration H C)} {t : SlotTable H C} (h : ClaimsOf rs 0 t)
    (hlen : t.length = 256) (ht : ∀ x ∈ t, x.Sized) : buildRegistry rs = .ok t := by
  obtain ⟨cs, hcs, hperm⟩ := h
  have hbuild := applyClaims_tableClaims [] t ht
  rw [hlen] at hbuild
  rw [Sys2Proof.buildRegistry, hcs]
  exact applyClaims_perm hperm.symm hbuild

/-- The order in which `tableClaims` lists the claims. -/
def Claim.key : Claim H C → Nat
  | .direct v _ => 16 * v
  | .node v => 16 * v
  | .child v j _ => 16 * v + j + 1

/-- The claims of some registrations, sorted. -/
def sortedClaims (rs : List (Registration H C)) : Option (List (Claim H C)) :=
  match allClaims rs with
  | .ok cs => some (cs.insertionSort fun a b => a.key ≤ b.key)
  | .error _ => none

theorem claimsOf_of_sorted {rs : List (Registration H C)} {n : Nat} {t : SlotTable H C}
    (h : sortedClaims rs = some (tableClaims n t)) : ClaimsOf rs n t := by
  unfold sortedClaims at h
  split at h
  · next cs hcs =>
    obtain hsort := Option.some.inj h
    exact ⟨cs, hcs, hsort ▸ (List.perm_insertionSort _ cs).symm⟩
  · cases h

end Claims

/-! ### The build of the opcode map -/

/-- The rows of the opcode map from `a` on. -/
def opcodeRows (a n : Nat) : Registry := (List.range' a n).flatMap opcodeRow

/-- The claims are evaluated a few rows at a time, which keeps each evaluation small. -/
theorem claimsOf_registrations : ClaimsOf registrations 0 defaultRegistry := by
  have rows0to3 : ClaimsOf (registrationsLow.take 11) 0 (opcodeRows 0 4) := claimsOf_of_sorted (by decide +kernel)
  have rows4to7 : ClaimsOf (registrationsLow.drop 11) 64 (opcodeRows 4 4) := claimsOf_of_sorted (by decide +kernel)
  have row8 : ClaimsOf (registrationsMid.take 8) 128 (opcodeRows 8 1) := claimsOf_of_sorted (by decide +kernel)
  have rows9toB : ClaimsOf (registrationsMid.drop 8) 144 (opcodeRows 9 3) := claimsOf_of_sorted (by decide +kernel)
  have rowC : ClaimsOf (registrationsHigh.take 11) 192 (opcodeRows 12 1) := claimsOf_of_sorted (by decide +kernel)
  have rowD : ClaimsOf ((registrationsHigh.drop 11).take 5) 208 (opcodeRows 13 1) :=
    claimsOf_of_sorted (by decide +kernel)
  have rowE : ClaimsOf (((registrationsHigh.drop 11).drop 5).take 12) 224 (opcodeRows 14 1) :=
    claimsOf_of_sorted (by decide +kernel)
  have rowF : ClaimsOf (((registrationsHigh.drop 11).drop 5).drop 12) 240 (opcodeRows 15 1) :=
    claimsOf_of_sorted (by decide +kernel)
  have low := rows0to3.append rows4to7 (by decide +kernel)
  have mid := row8.append rows9toB (by decide +kernel)
  have rowsEF := rowE.append rowF (by decide +kernel)
  rw [List.take_append_drop] at low mid rowsEF
  have rowsDEF := rowD.append rowsEF (by decide +kernel)
  rw [List.take_append_drop] at rowsDEF
  have high := rowC.append rowsDEF (by decide +kernel)
  rw [List.take_append_drop] at high
  have all := (low.append mid (by decide +kernel)).append high (by decide +kernel)
  simp only [opcodeRows, ← List.flatMap_append] at all
  exact all

theorem defaultRegistry_wf : defaultRegistry.wf = true := by
  rw [Registry.wf, Bool.and_eq_true]
  refine ⟨beq_iff_eq.2 (length_flatMap_range 16 length_opcodeRow), ?_⟩
  rw [defaultRegistry, List.all_flatMap]
  rfl

theorem sized_of_wf {t : Registry} (h : t.wf = true) : t.length = 256 ∧ ∀ x ∈ t, x.Sized := by
  rw [Registry.wf, Bool.and_eq_true, beq_iff_eq, List.all_eq_true] at h
  refine ⟨h.1, fun x hx => ?_⟩
  cases x with
  | empty => exact sized_empty
  | direct k => exact nofun
  | demux ds => intro cs hcs; cases hcs; exact beq_iff_eq.1 (h.2 _ hx)

/-- Settles O5: the registrations' claims are those of the opcode map. -/
theorem registryBuilds : Obligations.RegistryBuilds :=
  have ⟨hlen, hsized⟩ := sized_of_wf defaultRegistry_wf
  ⟨claimsOf_registrations.buildRegistry hlen hsized, defaultRegistry_wf⟩

/-- What a build gives has 256 slots, and 8 children in each demux node (10_state.md R47). -/
theorem wf_of_buildRegistry {rs : List (Registration Handler Child)} {t : Registry} (h : buildRegistry rs = .ok t) :
    t.wf = true := by
  unfold buildRegistry at h
  split at h
  · cases h
  next cs _ =>
  have hlen : t.length = 256 := (length_of_applyClaims h).trans List.length_replicate
  rw [Registry.wf, Bool.and_eq_true, beq_iff_eq, List.all_eq_true]
  refine ⟨hlen, fun x hx => ?_⟩
  obtain ⟨n, hn, rfl⟩ := List.getElem_of_mem hx
  have hempty : (SlotTable.initial Handler Child).getD n .empty = .empty := List.getD_replicate _ (hlen ▸ hn)
  have hsized : (t.getD n .empty).Sized := applyClaims_keeps sized_of_binds (by rw [hempty]; exact sized_empty) h
  rw [List.getD_eq_getElem _ _ hn] at hsized
  cases hslot : t[n] with
  | empty => rfl
  | direct k => rfl
  | demux ds => exact beq_iff_eq.2 (hsized ds (by rw [hslot]; rfl))

end Sys2Proof

namespace Sys2Proof.Machine

open Sys2Proof

/-! ### The image -/

theorem loadImage_wf {cs : List Host.Cell} {m : Memory} (h : m.wf = true) : (loadImage cs m).wf = true := by
  induction cs generalizing m with
  | nil => exact h
  | cons c cs ih =>
    refine ih ?_
    split
    · next hc => exact Memory.wf_write _ h hc
    · exact h

/-- Where the image lists an address twice, the later byte stands. -/
theorem read_loadImage {cs : List Host.Cell} {m : Memory} {a : Nat} (h : m.wf = true) (ha : a < memorySize) :
    Memory.read (loadImage cs m) a = (cs.reverse.lookup a).getD (Memory.read m a) := by
  induction cs generalizing m with
  | nil => rfl
  | cons c cs ih =>
    obtain ⟨k, b⟩ := c
    rw [loadImage, List.reverse_cons, List.lookup_append]
    by_cases hk : k < memorySize
    · rw [if_pos hk, ih (Memory.wf_write b h hk), Memory.read_write k a b h]
      cases cs.reverse.lookup a with
      | some v => rfl
      | none => 
        by_cases hak : a = k
        · simp [hak]
        · simp [List.lookup_cons, beq_false_of_ne hak, hak]
    · have hak : a ≠ k := fun e => hk (e ▸ ha)
      rw [if_neg hk, ih h]
      cases cs.reverse.lookup a with
      | some v => rfl
      | none => simp [List.lookup_cons, beq_false_of_ne hak]

/-! ### The launch -/

theorem launch_of_error {p : Params} {rs : List (Registration Handler Child)} (image : List Host.Cell) {e : ConfigError}
    (h : buildRegistry rs = .error e) : launch p rs image = .error e := by
  rw [launch, h]

theorem launch_of_built (p : Params) {rs : List (Registration Handler Child)} (image : List Host.Cell) {t : Registry}
    (h : buildRegistry rs = .ok t) : launch p rs image =
      .ok (hostReset { State.reset with params := { p with registry := t }, mem := loadImage image [] }) := by
  rw [launch, h]

/-- Settles O14: the build decides the launch, and the launched core is a reset one with the image in memory. -/
theorem resetState : Obligations.ResetState := by
  obtain ⟨hbuild, hwf⟩ := registryBuilds
  refine ⟨⟨⟨rfl, hwf, rfl, rfl, fun _ => rfl⟩, getR16_reset, getSeg_reset, rfl, rfl, rfl, rfl⟩,
    launch_of_built _ [] hbuild, fun p rs image e h => launch_of_error image h, fun p rs image t h => ?_⟩
  refine ⟨_, launch_of_built p image h, ⟨loadImage_wf rfl, wf_of_buildRegistry h, rfl, rfl, fun _ => rfl⟩, rfl, rfl, rfl,
    rfl, rfl, rfl, fun a ha => read_loadImage rfl ha⟩

end Sys2Proof.Machine
end

section
/-! SUPPORT. ADC and SBB in the three modes (43_alu.md section 3): the second pass adds or takes away 1, and its flags are
closed forms of the first pass's result. -/

namespace Sys2Proof.Machine

open Sys2Proof

variable {f : Word} {w : Width} {dst src m : Nat}

/-! ### What each mode computes -/

theorem adc_of_clear (mode : AdcSbbMode) (hc : getFlag f .CF = false) :
    adc mode f w dst src = (masked w (dst + src), flagsAdd f w dst src) := by
  simp [adc, hc]

theorem adc_twoPassOverwrite (hc : getFlag f .CF = true) :
    adc .twoPassOverwrite f w dst src =
      (masked w (masked w (dst + src) + 1), flagsAdd (flagsAdd f w dst src) w (masked w (dst + src)) 1) := by
  simp [adc, hc]

theorem adc_twoPassOrCarry (hc : getFlag f .CF = true) :
    adc .twoPassOrCarry f w dst src =
      (masked w (masked w (dst + src) + 1),
        setFlag (flagsAdd (flagsAdd f w dst src) w (masked w (dst + src)) 1) .CF
          (getFlag (flagsAdd f w dst src) .CF ||
            getFlag (flagsAdd (flagsAdd f w dst src) w (masked w (dst + src)) 1) .CF)) := by
  simp [adc, hc]

theorem adc_singlePass (hc : getFlag f .CF = true) :
    adc .singlePass f w dst src =
      (masked w (dst + src + 1), arithFlags f w (dst + src + 1) (ofAdd w dst src (dst + src + 1))
        (decide (16 ≤ dst % 16 + src % 16 + 1))) := by
  simp [adc, hc, masked_masked_add, arithFlags]

theorem sbb_of_clear (mode : AdcSbbMode) (hc : getFlag f .CF = false) :
    sbb mode f w dst src = (masked w (dst - src), flagsSub f w dst src) := by
  simp [sbb, hc]

theorem sbb_twoPassOverwrite (hc : getFlag f .CF = true) :
    sbb .twoPassOverwrite f w dst src =
      (masked w (masked w (dst - src) - 1), flagsSub (flagsSub f w dst src) w (masked w (dst - src)) 1) := by
  simp [sbb, hc]

theorem sbb_twoPassOrCarry (hc : getFlag f .CF = true) :
    sbb .twoPassOrCarry f w dst src =
      (masked w (masked w (dst - src) - 1),
        setFlag (flagsSub (flagsSub f w dst src) w (masked w (dst - src)) 1) .CF
          (getFlag (flagsSub f w dst src) .CF ||
            getFlag (flagsSub (flagsSub f w dst src) w (masked w (dst - src)) 1) .CF)) := by
  simp [sbb, hc]

theorem sbb_singlePass (hc : getFlag f .CF = true) :
    sbb .singlePass f w dst src =
      (masked w (dst - src - 1), arithFlags f w (dst - src - 1) (ofSub w dst src (dst - src - 1))
        (decide (dst % 256 < src % 256 + 1))) := by
  simp [sbb, hc, masked_masked_sub, arithFlags]

/-! ### The flags of a second pass -/

theorem one_lt_two_pow_bits (w : Width) : 1 < 2 ^ bits w := by cases w <;> decide

theorem secondAdd_flags (f : Word) (hm : m < 2 ^ bits w) :
    getFlag (flagsAdd f w m 1) .CF = decide (m = 2 ^ bits w - 1) ∧
      getFlag (flagsAdd f w m 1) .OF = decide (m = 2 ^ (bits w - 1) - 1) ∧
      getFlag (flagsAdd f w m 1) .AF = decide (m % 16 = 15) := by
  obtain ⟨hcf, hof, haf, -⟩ := addFlags f w m 1 hm (one_lt_two_pow_bits w)
  rw [hcf, hof, haf]
  refine ⟨decide_eq_decide.2 (by omega), ?_, decide_eq_decide.2 (by omega)⟩
  unfold outsideSigned signedNat
  cases w <;> simp only [bits] at * <;> refine decide_eq_decide.2 ?_ <;> split_ifs <;> omega

theorem secondSub_flags (f : Word) (hm : m < 2 ^ bits w) :
    getFlag (flagsSub f w m 1) .CF = decide (m = 0) ∧
      getFlag (flagsSub f w m 1) .OF = decide (m = 2 ^ (bits w - 1)) ∧
      getFlag (flagsSub f w m 1) .AF = decide (m % 256 = 0) := by
  obtain ⟨hcf, hof, haf, -⟩ := subFlags f w m 1 hm (one_lt_two_pow_bits w)
  rw [hcf, hof, haf]
  refine ⟨decide_eq_decide.2 (by omega), ?_, decide_eq_decide.2 (by omega)⟩
  unfold outsideSigned signedNat
  cases w <;> simp only [bits] at * <;> refine decide_eq_decide.2 ?_ <;> split_ifs <;> omega

/-! ### ADC -/

theorem pszHolds_adc (mode : AdcSbbMode) (f : Word) (w : Width) (dst src : Nat) :
    pszHolds (adc mode f w dst src).2 w (adc mode f w dst src).1 := by
  cases hc : getFlag f .CF with
  | false => rw [adc_of_clear mode hc]; exact pszHolds_arithFlags f w _ _ _
  | true =>
    have hsecond := pszHolds_arithFlags (flagsAdd f w dst src) w (masked w (dst + src) + 1)
      (ofAdd w (masked w (dst + src)) 1 (masked w (dst + src) + 1)) (afAdd (masked w (dst + src)) 1)
    cases mode with
    | twoPassOverwrite => rw [adc_twoPassOverwrite hc]; exact hsecond
    | twoPassOrCarry =>
      rw [adc_twoPassOrCarry hc]
      exact pszHolds_setFlag hsecond _ (by decide) (by decide) (by decide)
    | singlePass => rw [adc_singlePass hc]; exact pszHolds_arithFlags f w _ _ _

/-- The carry of ADC: the true one, but that of the second pass alone under `twoPassOverwrite`. -/
theorem getFlag_CF_adc (mode : AdcSbbMode) (f : Word) (hd : dst < 2 ^ bits w) (hs : src < 2 ^ bits w) :
    getFlag (adc mode f w dst src).2 .CF =
      match mode with
      | .twoPassOverwrite =>
        if getFlag f .CF then decide ((dst + src) % 2 ^ bits w = 2 ^ bits w - 1) else decide (2 ^ bits w ≤ dst + src)
      | .twoPassOrCarry => decide (2 ^ bits w ≤ dst + src + (getFlag f .CF).toNat)
      | .singlePass => decide (2 ^ bits w ≤ dst + src + (getFlag f .CF).toNat) := by
  have hfirst : getFlag (flagsAdd f w dst src) .CF = decide (2 ^ bits w ≤ dst + src) := (addFlags f w dst src hd hs).1
  obtain ⟨hsecond, -⟩ := secondAdd_flags (flagsAdd f w dst src) (masked_lt w (dst + src))
  rw [masked_add] at hsecond
  cases hc : getFlag f .CF with
  | false => rw [adc_of_clear mode hc, hfirst]; cases mode <;> rfl
  | true =>
    cases mode with
    | twoPassOverwrite => rw [adc_twoPassOverwrite hc, masked_add, hsecond]; rfl
    | twoPassOrCarry =>
      rw [adc_twoPassOrCarry hc, getFlag_setFlag_same, masked_add, hfirst, hsecond, ← Bool.decide_or]
      refine decide_eq_decide.2 ?_
      simp only [Bool.toNat_true]
      rcases Nat.lt_or_ge (dst + src) (2 ^ bits w) with h | h
      · rw [Nat.mod_eq_of_lt h]; omega
      · omega
    | singlePass =>
      rw [adc_singlePass hc, getFlag_arithFlags_CF]
      zify at hd hs
      rw [carryBit_eq (by omega) (by rw [pow_succ]; omega)]
      exact decide_eq_decide.2 (by simp only [Bool.toNat_true]; zify; omega)

/-- With CF = 1 and two passes, OF and AF are the second pass's. -/
theorem adc_secondPass (mode : AdcSbbMode) (hc : getFlag f .CF = true) (hmode : mode ≠ .singlePass) :
    getFlag (adc mode f w dst src).2 .OF = decide ((dst + src) % 2 ^ bits w = 2 ^ (bits w - 1) - 1) ∧
      getFlag (adc mode f w dst src).2 .AF = decide ((dst + src) % 16 = 15) := by
  obtain ⟨-, hof, haf⟩ := secondAdd_flags (flagsAdd f w dst src) (masked_lt w (dst + src))
  have h16 : (dst + src) % 2 ^ bits w % 16 = (dst + src) % 16 := Nat.mod_mod_of_dvd _ (by cases w <;> decide)
  rw [masked_add] at hof haf
  rw [h16] at haf
  cases mode with
  | twoPassOverwrite => rw [adc_twoPassOverwrite hc, masked_add]; exact ⟨hof, haf⟩
  | twoPassOrCarry =>
    rw [adc_twoPassOrCarry hc, masked_add, getFlag_setFlag_ne _ _ (by decide), getFlag_setFlag_ne _ _ (by decide)]
    exact ⟨hof, haf⟩
  | singlePass => exact (hmode rfl).elim

/-! ### SBB -/

theorem pszHolds_sbb (mode : AdcSbbMode) (f : Word) (w : Width) (dst src : Nat) :
    pszHolds (sbb mode f w dst src).2 w (sbb mode f w dst src).1 := by
  cases hc : getFlag f .CF with
  | false => rw [sbb_of_clear mode hc]; exact pszHolds_arithFlags f w _ _ _
  | true =>
    have hsecond := pszHolds_arithFlags (flagsSub f w dst src) w (masked w (dst - src) - 1)
      (ofSub w (masked w (dst - src)) 1 (masked w (dst - src) - 1)) (afSub (masked w (dst - src)) 1)
    cases mode with
    | twoPassOverwrite => rw [sbb_twoPassOverwrite hc]; exact hsecond
    | twoPassOrCarry =>
      rw [sbb_twoPassOrCarry hc]
      exact pszHolds_setFlag hsecond _ (by decide) (by decide) (by decide)
    | singlePass => rw [sbb_singlePass hc]; exact pszHolds_arithFlags f w _ _ _

/-- The first pass's difference is 0 where the operands are equal. -/
theorem masked_sub_eq_zero (hd : dst < 2 ^ bits w) (hs : src < 2 ^ bits w) :
    masked w (dst - src) = 0 ↔ dst = src := by
  rw [masked_sub dst hs]
  cases w <;> simp only [bits] at * <;> omega

/-- The borrow of SBB: the true one, but that of the second pass alone under `twoPassOverwrite`. -/
theorem getFlag_CF_sbb (mode : AdcSbbMode) (f : Word) (hd : dst < 2 ^ bits w) (hs : src < 2 ^ bits w) :
    getFlag (sbb mode f w dst src).2 .CF =
      match mode with
      | .twoPassOverwrite => if getFlag f .CF then decide (dst = src) else decide (dst < src)
      | .twoPassOrCarry => decide (dst < src + (getFlag f .CF).toNat)
      | .singlePass => decide (dst < src + (getFlag f .CF).toNat) := by
  have hfirst : getFlag (flagsSub f w dst src) .CF = decide (dst < src) := (subFlags f w dst src hd hs).1
  obtain ⟨hsecond, -⟩ := secondSub_flags (flagsSub f w dst src) (masked_lt w (dst - src))
  rw [decide_eq_decide.2 (masked_sub_eq_zero hd hs)] at hsecond
  cases hc : getFlag f .CF with
  | false => rw [sbb_of_clear mode hc, hfirst]; cases mode <;> rfl
  | true =>
    cases mode with
    | twoPassOverwrite => rw [sbb_twoPassOverwrite hc, hsecond]; rfl
    | twoPassOrCarry =>
      rw [sbb_twoPassOrCarry hc, getFlag_setFlag_same, hfirst, hsecond, ← Bool.decide_or]
      exact decide_eq_decide.2 (by simp only [Bool.toNat_true]; omega)
    | singlePass =>
      rw [sbb_singlePass hc, getFlag_arithFlags_CF]
      zify at hd hs
      rw [carryBit_eq (by omega) (by rw [pow_succ]; omega)]
      exact decide_eq_decide.2 (by simp only [Bool.toNat_true]; zify; omega)

/-- With CF = 1 and two passes, OF and AF are the second pass's. -/
theorem sbb_secondPass (mode : AdcSbbMode) (hc : getFlag f .CF = true) (hmode : mode ≠ .singlePass)
    (hs : src < 2 ^ bits w) :
    getFlag (sbb mode f w dst src).2 .OF = decide ((2 ^ bits w + dst - src) % 2 ^ bits w = 2 ^ (bits w - 1)) ∧
      getFlag (sbb mode f w dst src).2 .AF = decide (dst % 256 = src % 256) := by
  obtain ⟨-, hof, haf⟩ := secondSub_flags (flagsSub f w dst src) (masked_lt w (dst - src))
  have h256 : masked w (dst - src) % 256 = 0 ↔ dst % 256 = src % 256 := by
    rw [masked_sub dst hs, Nat.mod_mod_of_dvd _ (by cases w <;> decide)]
    cases w <;> simp only [bits] at * <;> omega
  rw [decide_eq_decide.2 h256] at haf
  rw [← masked_sub dst hs]
  cases mode with
  | twoPassOverwrite => rw [sbb_twoPassOverwrite hc]; exact ⟨hof, haf⟩
  | twoPassOrCarry =>
    rw [sbb_twoPassOrCarry hc, getFlag_setFlag_ne _ _ (by decide), getFlag_setFlag_ne _ _ (by decide)]
    exact ⟨hof, haf⟩
  | singlePass => exact (hmode rfl).elim

/-- Settles O26, from what each mode computes and the flags of a second pass. -/
theorem adcSbbModes : Obligations.AdcSbbModes := by
  intro mode f w dst src hd hs
  refine ⟨adc_fst mode f w dst src, sbb_fst mode f w dst src, pszHolds_adc mode f w dst src, pszHolds_sbb mode f w dst src,
    getFlag_CF_adc mode f hd hs, getFlag_CF_sbb mode f hd hs, fun hc => ?_, fun hc hmode => ?_, fun hc hmode => ?_,
    fun k hk hF => ⟨alu_only (k := .adc) k hk hF, alu_only (k := .sbb) k hk hF⟩⟩
  · rw [adc_of_clear mode hc, sbb_of_clear mode hc]
    exact ⟨rfl, rfl⟩
  · obtain ⟨hofAdd, hafAdd⟩ := adc_secondPass (w := w) (dst := dst) (src := src) mode hc hmode
    obtain ⟨hofSub, hafSub⟩ := sbb_secondPass (dst := dst) mode hc hmode hs
    exact ⟨hofAdd, hafAdd, hofSub, hafSub⟩
  · subst hmode
    rw [adc_singlePass hc, sbb_singlePass hc]
    simp only [getFlag_arithFlags_OF, getFlag_arithFlags_AF]
    exact ⟨ofAdd_eq hd hs zero_le_one le_rfl, trivial, ofSub_eq hd hs zero_le_one le_rfl, trivial⟩

end Sys2Proof.Machine
end

section
/-! SUPPORT. DIV and IDIV with the quotient in range (46_string_shift_muldiv_misc.md section 3). -/

namespace Sys2Proof.Machine

open Sys2Proof

variable {s : State} {w : Width} {m : ModRM} {v : Word}

/-! ### Where a division completes -/

theorem exec_div_of_fits (hv : rmValue s w m.rm = .ok v) (h : divFits w (dividend w s) v.toNat = true) :
    exec (.div w m) s = .next (quotientApply w ((dividend w s / v.toNat : Nat) : Int)
      ((dividend w s % v.toNat : Nat) : Int) (withCache s (cacheOf s w m.reg.bits m.rm v))) := by
  unfold exec
  exact (onRM_of_value _ hv).trans (congrArg outcome (if_pos h))

theorem exec_idiv_of_fits (hv : rmValue s w m.rm = .ok v)
    (h : idivFits s.params.idivRange w (signedDividend w s) (signedValue w v) = true) :
    exec (.idiv w m) s = .next (quotientApply w ((signedDividend w s).tdiv (signedValue w v))
      ((signedDividend w s).tmod (signedValue w v)) (withCache s (cacheOf s w m.reg.bits m.rm v))) := by
  unfold exec
  exact (onRM_of_value _ hv).trans (congrArg outcome (if_pos h))

theorem divFits_of_lt {d n : Nat} (hn : n ≠ 0) (h : d / n < 2 ^ bits w) : divFits w d n = true := decide_eq_true ⟨hn, h⟩

/-- IDIV accepts a quotient in the signed numbers, the least of them under `full` alone
(46_string_shift_muldiv_misc.md R413, D32). -/
theorem idivFits_of_in_range {r : IdivRange} {d n : Int} (hn : n ≠ 0) (hhigh : d.tdiv n < 2 ^ (bits w - 1))
    (hlow : -(2 ^ (bits w - 1)) < d.tdiv n ∨ (d.tdiv n = -(2 ^ (bits w - 1)) ∧ r = .full)) :
    idivFits r w d n = true := by
  refine decide_eq_true ⟨hn, ?_, hhigh⟩
  obtain hlow | ⟨hlow, rfl⟩ := hlow
  · cases r <;> simp only [idivLeast] <;> omega
  · exact hlow.ge

/-! ### What is written -/

theorem getR8_quotientApply_byte (q r : Int) (s : State) :
    getR8 (quotientApply .byte q r s) .al = BitVec.ofInt 8 q ∧ getR8 (quotientApply .byte q r s) .ah = BitVec.ofInt 8 r :=
  ⟨loByte_mkWord _ _, hiByte_mkWord _ _⟩

theorem signedValue_bounds (w : Width) (v : Word) :
    -(2 ^ (bits w - 1)) ≤ signedValue w v ∧ signedValue w v < 2 ^ (bits w - 1) := by
  cases w
  · exact ⟨BitVec.le_toInt (loByte v), BitVec.toInt_lt⟩
  · exact ⟨BitVec.le_toInt v, BitVec.toInt_lt⟩

/-- A remainder of IDIV is a signed number of its width: it is below the divisor. -/
theorem tmod_bounds {d n k : Int} (hn : n ≠ 0) (hlow : -k ≤ n) (hhigh : n < k) : -k ≤ d.tmod n ∧ d.tmod n < k := by
  have habs : (d.tmod n).natAbs < n.natAbs := by
    rw [Int.natAbs_tmod]
    exact Nat.mod_lt _ (Int.natAbs_pos.2 hn)
  omega

theorem tmod_eq_sub (d n : Int) : d.tmod n = d - d.tdiv n * n := by
  rw [Int.tmod_def, mul_comm]

theorem signedValue_ne_zero (hv : rmValue s w m.rm = .ok v) (hn : v.toNat ≠ 0) : signedValue w v ≠ 0 := by
  have hlt := rmValue_lt hv
  rw [signedValue_eq_signedNat hlt, signedNat]
  split
  · exact_mod_cast hn
  · zify at hlt
    omega

/-- IDIV with a quotient in range: the quotient and what the division leaves, both signed numbers of the width. -/
theorem exec_idiv_of_quotient {q : Int} (hv : rmValue s w m.rm = .ok v) (hn : v.toNat ≠ 0)
    (hq : q = (signedDividend w s).tdiv (signedValue w v)) (hhigh : q < 2 ^ (bits w - 1))
    (hlow : -(2 ^ (bits w - 1)) < q ∨ (q = -(2 ^ (bits w - 1)) ∧ s.params.idivRange = .full)) :
    ∃ r, exec (.idiv w m) s = .next (quotientApply w q r (withCache s (cacheOf s w m.reg.bits m.rm v))) ∧
      r = signedDividend w s - q * signedValue w v ∧ -(2 ^ (bits w - 1)) ≤ r ∧ r < 2 ^ (bits w - 1) := by
  subst hq
  have hne := signedValue_ne_zero hv hn
  obtain ⟨hvlow, hvhigh⟩ := signedValue_bounds w v
  obtain ⟨hrlow, hrhigh⟩ := tmod_bounds (d := signedDividend w s) hne hvlow hvhigh
  exact ⟨_, exec_idiv_of_fits hv (idivFits_of_in_range hne hhigh hlow), tmod_eq_sub _ _, hrlow, hrhigh⟩

/-- Settles O55: the quotient fits, so it and the remainder, which is below the divisor, are written whole. -/
theorem divisions : Obligations.Divisions := by
  refine ⟨fun m s v hv hn hq => ?_, fun m s v d hv hn hd hq => ?_, fun m s v d q hv hn hd hq hhigh hlow => ?_,
    fun m s v d q hv hn hd hq hhigh hlow => ?_⟩
  · have hr : s.gpr.ax.toNat % v.toNat < 2 ^ 8 := (Nat.mod_lt _ (by omega)).trans (rmValue_lt hv)
    obtain ⟨hal, hah⟩ := getR8_quotientApply_byte _ _ _
    refine ⟨_, exec_div_of_fits hv (divFits_of_lt hn hq), ?_, ?_⟩
    · rw [hal]; exact toNat_ofInt_natCast hq
    · rw [hah]; exact toNat_ofInt_natCast hr
  · subst hd
    have hr : (s.gpr.dx.toNat * 65536 + s.gpr.ax.toNat) % v.toNat < 2 ^ 16 :=
      (Nat.mod_lt _ (by omega)).trans (rmValue_lt hv)
    exact ⟨_, exec_div_of_fits hv (divFits_of_lt hn hq), toNat_ofInt_natCast hq, toNat_ofInt_natCast hr⟩
  · rw [← signedValue_eq_signedNat (rmValue_lt hv)] at hq ⊢
    subst hd
    obtain ⟨r, he, hr, hrlow, hrhigh⟩ := exec_idiv_of_quotient hv hn hq (Int.lt_add_one_of_le hhigh)
      (hlow.imp_left Int.sub_one_lt_of_le)
    obtain ⟨hal, hah⟩ := getR8_quotientApply_byte q r (withCache s (cacheOf s .byte m.reg.bits m.rm v))
    refine ⟨_, he, ?_, ?_⟩
    · rw [hal]; exact BitVec.toInt_ofInt_eq_self (by decide) (by norm_num; omega) (by norm_num; omega)
    · rw [hah]; exact (BitVec.toInt_ofInt_eq_self (by decide) hrlow hrhigh).trans hr
  · subst hd
    obtain ⟨r, he, hr, hrlow, hrhigh⟩ := exec_idiv_of_quotient hv hn hq (Int.lt_add_one_of_le hhigh)
      (hlow.imp_left Int.sub_one_lt_of_le)
    refine ⟨_, he, ?_, ?_⟩
    · exact BitVec.toInt_ofInt_eq_self (by decide) (by norm_num; omega) (by norm_num; omega)
    · exact (BitVec.toInt_ofInt_eq_self (by decide) hrlow hrhigh).trans hr

end Sys2Proof.Machine
end

section
/-! SUPPORT. The clocks of an instruction by its cost shape (70_reset_and_hazards.md section 4). -/

namespace Sys2Proof.Machine

open Sys2Proof

variable {s t : State} {i : Instr}

/-! ### What the accountant adds -/

theorem charge_of_off (h : s.params.cycleAccounting = false) (bs : List Byte) (i : Instr) (t : State) :
    charge bs i s t = t := by
  unfold charge
  exact if_neg (by simp [h])

theorem charge_clocks (h : s.params.cycleAccounting = true) (bs : List Byte) (i : Instr) (t : State) :
    (charge bs i s t).clocks = t.clocks + instrCost bs i s t := by
  unfold charge
  rw [if_pos h]

theorem instrCost_of_no_operand (h : i.modrm? = none) (bs : List Byte) (s t : State) :
    instrCost bs i s t = shapeCost (handlerCost (handlerOf s.params.registry bs)) (clockShape i s t) := by
  simp [instrCost, Instr.rm?, h]

theorem instrCost_of_operand {m : ModRM} (h : i.modrm? = some m) (bs : List Byte) (s t : State) :
    instrCost bs i s t =
      shapeCost (handlerCost (handlerOf s.params.registry bs)) (clockShape i s t) + addressCost s m.rm := by
  simp [instrCost, Instr.rm?, h]

theorem shapeCost_conditional (cost : ClockCost → Nat) (taken : Bool) :
    shapeCost cost (.conditional taken) = cost (if taken then .costTrue else .costFalse) := by
  cases taken <;> rfl

/-! ### The conditional shape -/

theorem clockShape_jccInstr (c : Cond) (d : Byte) (s t : State) :
    clockShape (jccInstr c d) s t = .conditional (cond c s.flags) := by
  cases c <;> rfl

/-- The test of a LOOP comes after its decrement (45_transfer_control.md R370). -/
theorem sub_one_ne_zero (x : Word) : (x - 1 != 0) = decide (x.toNat ≠ 1) := by
  rw [Bool.eq_iff_iff, bne_iff_ne, decide_eq_true_iff]
  constructor
  · intro h h1
    exact h (by bv_omega)
  · intro h h0
    exact h (by bv_omega)

theorem loopShape_eq (ok : Bool) (s : State) :
    loopShape ok s = .conditional (decide (s.gpr.cx.toNat ≠ 1) && ok) := by
  rw [loopShape, sub_one_ne_zero]

theorem beq_zero_eq (x : Word) : (x == 0) = decide (x.toNat = 0) := by
  rw [Bool.eq_iff_iff, beq_iff_eq, decide_eq_true_iff]
  constructor
  · rintro rfl; rfl
  · intro h; bv_omega

/-- An instruction with the conditional shape and no operand to resolve costs one of its handler's two costs. -/
theorem charge_conditional (ha : s.params.cycleAccounting = true) (hm : i.modrm? = none) {taken : Bool}
    (h : clockShape i s t = .conditional taken) (bs : List Byte) :
    (charge bs i s t).clocks =
      t.clocks + handlerCost (handlerOf s.params.registry bs) (if taken then .costTrue else .costFalse) := by
  rw [charge_clocks ha, instrCost_of_no_operand hm, h, shapeCost_conditional]

/-! ### The shape of a shift by CL -/

theorem clockShape_shiftInstr_cl (k : ShiftOp) (w : Width) (m : ModRM) (s t : State) :
    clockShape (shiftInstr k .cl w m) s t = .clCounted (shiftCount .cl s) := by
  cases k <;> rfl

/-! ### The repetitions of a string instruction -/

/-- Each repetition takes 1 from CX; without a stop all `n` of them are made. -/
theorem repeatBody_count {stop : State → Bool} {body : State → Res State} (hb : ElementBody body) (n : Nat)
    (s : State) (hn : n ≤ s.gpr.cx.toNat) (h : repeatBody stop body n s = .ok t) :
    ∃ k, k + t.gpr.cx.toNat = s.gpr.cx.toNat ∧ ((∀ r, stop r = false) → k = n) := by
  induction n generalizing s with
  | zero => cases h; exact ⟨0, Nat.zero_add _, fun _ => rfl⟩
  | succ n ih =>
    rw [repeatBody] at h
    obtain ⟨u, hu, h⟩ := bind_ok h
    have hcx : (setR16 u .cx (u.gpr.cx - 1)).gpr.cx.toNat + 1 = s.gpr.cx.toNat := by
      show (u.gpr.cx - 1).toNat + 1 = s.gpr.cx.toNat
      rw [hb.cx s u hu]
      bv_omega
    by_cases hstop : stop (setR16 u .cx (u.gpr.cx - 1)) = true
    · simp only [hstop, if_true] at h
      cases h
      exact ⟨1, by omega, fun hno => absurd hstop (by simp [hno])⟩
    · simp only [if_neg hstop] at h
      obtain ⟨k, hk, hall⟩ := ih _ (by omega) h
      exact ⟨k + 1, by omega, fun hno => by rw [hall hno]⟩

theorem stringInstr_modrm (h : i ∈ stringInstrs) : i.modrm? = none := by
  simp only [stringInstrs, List.mem_cons, List.not_mem_nil, or_false] at h
  rcases h with rfl | rfl | rfl | rfl | rfl | rfl | rfl | rfl | rfl | rfl <;> rfl

theorem clockShape_stringInstr (h : i ∈ stringInstrs) (s t : State) : clockShape i s t = stringShape s t := by
  simp only [stringInstrs, List.mem_cons, List.not_mem_nil, or_false] at h
  rcases h with rfl | rfl | rfl | rfl | rfl | rfl | rfl | rfl | rfl | rfl <;> rfl

theorem stringShape_of_rep {k : RepKind} (h : s.pfx.rep = some k) (t : State) :
    stringShape s t = .repCounted (s.gpr.cx.toNat - t.gpr.cx.toNat) := by
  rw [stringShape, h]

/-- MOVS, STOS and LODS do not end on ZF (46_string_shift_muldiv_misc.md R391). -/
theorem repStops_of_never (h : i ∈ [.movsb, .movsw, .stosb, .stosw, .lodsb, .lodsw]) (k : RepKind) (s : State) :
    repStops i k s = false := by
  simp only [List.mem_cons, List.not_mem_nil, or_false] at h
  rcases h with rfl | rfl | rfl | rfl | rfl | rfl <;> rfl

/-- A repeated string instruction that completes has made as many repetitions as CX lost. -/
theorem repeated_count (hi : i ∈ stringInstrs) {k : RepKind} (hrep : s.pfx.rep = some k) (h : exec i s = .next t) :
    ∃ n, n + t.gpr.cx.toNat = s.gpr.cx.toNat ∧
      (i ∈ [.movsb, .movsw, .stosb, .stosw, .lodsb, .lodsw] → n = s.gpr.cx.toNat) := by
  obtain ⟨body, hb, hexec⟩ := exec_stringInstr hi
  rw [hexec, stringOp_some hrep, outcome_next] at h
  obtain ⟨n, hn, hall⟩ := repeatBody_count hb _ s le_rfl h
  exact ⟨n, hn, fun hnever => hall (repStops_of_never hnever k)⟩

/-- The cost of the repetitions made: an instruction adds nothing to the clocks itself. -/
theorem charge_repeated (ha : s.params.cycleAccounting = true) (hi : i ∈ stringInstrs) {k : RepKind}
    (hrep : s.pfx.rep = some k) (h : exec i s = .next t) {n : Nat} (hn : n + t.gpr.cx.toNat = s.gpr.cx.toNat)
    (bs : List Byte) :
    (charge bs i s t).clocks = s.clocks + handlerCost (handlerOf s.params.registry bs) .base +
      n * handlerCost (handlerOf s.params.registry bs) .perIteration := by
  obtain ⟨-, hclocks, -⟩ := hiddenStateFrame i s t h
  have hlost : s.gpr.cx.toNat - t.gpr.cx.toNat = n := by omega
  rw [charge_clocks ha, instrCost_of_no_operand (stringInstr_modrm hi), clockShape_stringInstr hi,
    stringShape_of_rep hrep, hlost, hclocks, shapeCost, Nat.add_assoc]

/-! ### The address cost -/

theorem addressCost_reg (s : State) (n : Reg16) : addressCost s (.reg n) = 0 := rfl

theorem addressCost_direct (s : State) (v : Word) :
    addressCost s (.direct v) = 6 + if s.pfx.segOverride.isSome then 2 else 0 := rfl

theorem addressCost_mem (s : State) (b : EaBase) (d : Disp) :
    addressCost s (.mem b d) =
      eaCost b.bits.toNat (hasDisp d) + if s.pfx.segOverride.isSome then 2 else 0 := rfl

theorem hasDisp_of_ne_none {d : Disp} (h : d ≠ .none) : hasDisp d = true := by
  cases d with
  | none => exact absurd rfl h
  | d8 v => rfl
  | d16 v => rfl

/-! ### The handler that is charged -/

theorem handlerOf_direct {r : Registry} {op : Byte} {h : Handler} (hs : r.slot op = .direct h) (bs : List Byte) :
    handlerOf r (op :: bs) = some (.direct h) := by
  rw [handlerOf, hs]

theorem handlerOf_empty {r : Registry} {op : Byte} (hs : r.slot op = .empty) (bs : List Byte) :
    handlerOf r (op :: bs) = none := by
  rw [handlerOf, hs]

theorem handlerOf_demux {r : Registry} {op : Byte} {cs : List (Option Child)} (hs : r.slot op = .demux cs) {b : Byte}
    {c : Option Child} (hc : cs[(b.extractLsb' 3 3).toNat]? = some c) (bs : List Byte) :
    handlerOf r (op :: b :: bs) = c.map .child := by
  rw [handlerOf, hs]
  show (cs.getD (b.extractLsb' 3 3).toNat none).map BoundHandler.child = _
  rw [List.getD_eq_getElem?_getD, hc]
  rfl

/-- Settles O60, from the shape of each instruction, the repetitions that CX counts, and the handler of each slot. -/
theorem clockShapes : Obligations.ClockShapes := by
  refine ⟨fun bs i taken d s t ha hi => ?_, fun bs k w m s t cost ha hcost => ?_,
    fun bs i k s t cost ha hi hrep h hcost => ?_, fun s o ho => ?_, fun r op b bs cost => ?_,
    fun bs i s t ha => charge_of_off ha bs i t⟩
  · rcases hi with ⟨c, rfl, rfl⟩ | hi
    · exact charge_conditional ha (jccInstr_modrm c d) (clockShape_jccInstr c d s t) bs
    · simp only [List.mem_cons, List.not_mem_nil, or_false, Prod.mk.injEq] at hi
      rcases hi with ⟨rfl, rfl⟩ | ⟨rfl, rfl⟩ | ⟨rfl, rfl⟩ | ⟨rfl, rfl⟩ | ⟨rfl, rfl⟩
      all_goals refine charge_conditional ha rfl ?_ bs
      · exact (loopShape_eq true s).trans (by rw [Bool.and_true])
      · exact loopShape_eq _ s
      · exact loopShape_eq _ s
      · exact congrArg ClockShape.conditional (beq_zero_eq s.gpr.cx)
      · rfl
  · rw [charge_clocks ha, instrCost_of_operand (shiftInstr_modrm k .cl w m), clockShape_shiftInstr_cl, ← hcost,
      Nat.add_assoc]
    rfl
  · obtain ⟨n, hn, hall⟩ := repeated_count hi hrep h
    exact ⟨n, hn, hcost ▸ charge_repeated ha hi hrep h hn bs, hall⟩
  · subst ho
    refine ⟨addressCost_reg s, addressCost_direct s, ?_, ?_, ?_, fun d hd => ?_⟩
    · simp [addressCost_mem, hasDisp, eaCost, EaBase.bits]
    · simp [addressCost_mem, hasDisp, eaCost, EaBase.bits]
    · simp [addressCost_mem, hasDisp, eaCost, EaBase.bits]
    · simp [addressCost_mem, hasDisp_of_ne_none hd, eaCost, EaBase.bits]
  · refine ⟨fun h hs => ?_, fun hs => ?_, fun cs hs => ⟨fun c hc => ?_, fun hc => ?_⟩⟩
    · rw [handlerOf_direct hs]; rfl
    · rw [handlerOf_empty hs]; rfl
    · rw [handlerOf_demux hs hc]; rfl
    · rw [handlerOf_demux hs hc]; rfl

end Sys2Proof.Machine
end
